-- ==== Sys2Proof/Word.lean ====
section
/-! DEFINITION. The value types of the block (R12): bytes, 40-bit address registers, 5-bit register addresses. -/

namespace Sys2Proof

/-- An 8-bit unsigned value (R12). -/
abbrev Byte := BitVec 8

/-- The 40 bits of an address register of the device (R42, R43, R45). -/
abbrev Word40 := BitVec 40

/-- A device register address, 5 bits (R30). -/
abbrev RegAddr := BitVec 5

end Sys2Proof
end

