-- ==== Sys2Proof/Config.lean ====
section
/-! DEFINITION. What an implementation fixes: the configuration record (R8), the parameters (R10), the constants
of the block (R9), the open clock rates (R10, R128) and the free values (log 2, log 19). -/

namespace Sys2Proof

/-- `data_rate` of R8. -/
inductive DataRate where
  | r250K
  | r1M
  | r2M
deriving DecidableEq, Repr

/-- `power` of R8. -/
inductive Power where
  | pMin
  | pLow
  | pHigh
  | pMax
deriving DecidableEq, Repr

/-- A five-byte device address, `b0` first on the wire (R8, R73). -/
structure Addr5 where
  b0 : Byte
  b1 : Byte
  b2 : Byte
  b3 : Byte
  b4 : Byte
deriving DecidableEq, Repr

/-- The default address of R8. -/
def Addr5.e7 : Addr5 := ⟨0xE7, 0xE7, 0xE7, 0xE7, 0xE7⟩

/-- The configuration record of R8, with its default values. -/
structure Cfg where
  rxAddr : Addr5 := Addr5.e7
  txAddr : Addr5 := Addr5.e7
  channel : Byte := 0x76
  dataRate : DataRate := .r2M
  power : Power := .pMax
  autoAck : Bool := false
  dynPayload : Bool := true
  crcEn : Bool := true
  irqRxEn : Bool := true
  irqTxEn : Bool := false
  irqRtEn : Bool := false
deriving DecidableEq, Repr

/-- `FEATURE_GATING` of R10 (R167). -/
inductive FeatureGating where
  | perFlag
  | allOnDyn
deriving DecidableEq, Repr

/-- `RX_READ_FRAMING` of R10 (R205, R208). -/
inductive RxReadFraming where
  | commandInBurst
  | commandThenBurst
deriving DecidableEq, Repr

/-- Whether the controller takes the fall of IRQ that step 7 of a send makes by unmasking an RX_DR raised during that send.
`taken`, the default, is R260 and R280 as they stand. `spared` is the wider reading of R204 (e), under which such a packet
is never announced. The parameter is the model's own (log 35). -/
inductive SendUnmask where
  | taken
  | spared
deriving DecidableEq, Repr

/-- `DEVICE_MODEL` of R10 (R230). -/
inductive DeviceModel where
  | oracle
  | regFile
  | reference
deriving DecidableEq, Repr

/-- The parameters of R10 that the spec leaves to the model's user, with their defaults, and `sendUnmask`, the model's
own (log 35). -/
structure Params where
  featureGating : FeatureGating := .perFlag
  rxReadFraming : RxReadFraming := .commandInBurst
  pollBound : Option Nat := none
  checkMaxRt : Bool := false
  deviceModel : DeviceModel := .oracle
  sendUnmask : SendUnmask := .taken
deriving DecidableEq, Repr

/-- `PAYLOAD_MAX` of R9. -/
abbrev Config.payloadMax : Nat := 32

/-- `RX_BUF_CAP` of R10. -/
abbrev Config.rxBufCap : Nat := 33

/-- `PAD_BYTE` of R9. -/
abbrev Config.padByte : Byte := 0x00

/-- `ACK_BYTE` of R9. -/
abbrev Config.ackByte : Byte := 0x41

/-- `T_POR` of R9, in µs. -/
abbrev Config.tPor : Nat := 100000

/-- `T_PWRUP` of R9, in µs. -/
abbrev Config.tPwrup : Nat := 2000

/-- `T_SETTLE` of R9, in µs. -/
abbrev Config.tSettle : Nat := 150

/-- `T_CE_PULSE` of R9, in µs. -/
abbrev Config.tCePulse : Nat := 15

/-- `RX_PIPE` of R10. -/
abbrev Config.rxPipe : Nat := 0

/-- `CONT_WAVE` of R10. -/
abbrev Config.contWave : Bool := false

/-- The Reference device's start-up delay, in µs (R248, R252). -/
abbrev Config.tStartUp : Nat := 1500

/-- The Reference device's RX and TX settling time, in µs (R248, R254, R255). -/
abbrev Config.tRadioSettle : Nat := 130

/-- The depth of each device FIFO (R52). -/
abbrev Config.fifoDepth : Nat := 3

/-- `F_CPU` of R10: OPEN, and nothing depends on it (R320). -/
opaque Config.fCpuHz : Nat

/-- `SCK_HZ` of R10: OPEN, and nothing depends on it (R128). -/
opaque Config.sckHz : Nat

/-- The free byte of the n-th draw: a fill byte (R136), a MISO byte nothing drives (R126), a byte past a register's or
payload's width (R233, R238), an oracle answer that no input gives (R230). It has no body, so no value of it can be
proved (log 2). -/
opaque Config.freeByte : Nat → Byte

/-- The width of the address registers under the illegal setting SETUP_AW.AW = 00 (R235), free; it is used cut to at
most 5 bytes (log 19). -/
opaque Config.illegalAddrWidth : Nat

/-- PLOS_CNT after a lost packet that finds it at 15, free: R40 gives the count four bits and no value past them
(log 20). Applied to the device's time. -/
opaque Config.plosPast15 : Nat → BitVec 4

end Sys2Proof
end

