-- ==== Sys2Proof/Syntax.lean ====
section
/-! DEFINITION. The instructions: one constructor per row of spec/opcode_table.json (R98, R102), and the frames an
instruction arrives in (R95, R102). -/

namespace Sys2Proof

/-- The instruction set at its two levels (R2). A constructor whose name ends in `Cmd` is a wire command: one CSN-low
window with its command byte and the MOSI bytes `data` that follow it (R95, R101). The others are the operations of
the request interface with their arguments by value (R102). -/
inductive Instr where
  /-- R_REGISTER, `000a aaaa` (R135, R233). -/
  | rRegisterCmd (a : RegAddr) (data : List Byte)
  /-- W_REGISTER, `001a aaaa` (R137, R234). -/
  | wRegisterCmd (a : RegAddr) (data : List Byte)
  /-- ACTIVATE, 0x50 (R147, R243). -/
  | activateCmd (data : List Byte)
  /-- R_RX_PL_WID, 0x60 (R146, R242). -/
  | rRxPlWidCmd (data : List Byte)
  /-- R_RX_PAYLOAD, 0x61 (R142, R238). -/
  | rRxPayloadCmd (data : List Byte)
  /-- W_TX_PAYLOAD, 0xA0 (R143, R239). -/
  | wTxPayloadCmd (data : List Byte)
  /-- W_ACK_PAYLOAD, `1010 1ppp` (R145, R241). -/
  | wAckPayloadCmd (p : BitVec 3) (data : List Byte)
  /-- W_TX_PAYLOAD_NOACK, 0xB0 (R144, R240). -/
  | wTxPayloadNoAckCmd (data : List Byte)
  /-- FLUSH_TX, 0xE1 (R140, R236). -/
  | flushTxCmd (data : List Byte)
  /-- FLUSH_RX, 0xE2 (R141, R237). -/
  | flushRxCmd (data : List Byte)
  /-- REUSE_TX_PL, 0xE3 (R149, R243). -/
  | reuseTxPlCmd (data : List Byte)
  /-- NOP, 0xFF (R148, R243). -/
  | nopCmd (data : List Byte)
  /-- `exchangeByte(out)`, selector 0x01 (R120). -/
  | exchangeByte (out : Byte)
  /-- `exchangeBurst(buf, count)`, selector 0x02 (R124). -/
  | exchangeBurst (buf : List Byte) (count : Nat)
  /-- `readRegister(addr, n)`, selector 0x10 (R135). -/
  | readRegister (addr n : Nat)
  /-- `writeRegister(addr, buf, n)`, selector 0x11 (R137). -/
  | writeRegister (addr : Nat) (buf : List Byte) (n : Nat)
  /-- `flushTx`, selector 0x12 (R140). -/
  | flushTx
  /-- `flushRx`, selector 0x13 (R141). -/
  | flushRx
  /-- `readRxPayload(n)`, selector 0x14 (R142). -/
  | readRxPayload (n : Nat)
  /-- `writeTxPayload(buf, n)`, selector 0x15 (R143). -/
  | writeTxPayload (buf : List Byte) (n : Nat)
  /-- `writeTxPayloadNoAck(buf, n)`, selector 0x16 (R144). -/
  | writeTxPayloadNoAck (buf : List Byte) (n : Nat)
  /-- `writeAckPayload(buf, n)`, selector 0x17 (R145). -/
  | writeAckPayload (buf : List Byte) (n : Nat)
  /-- `readRxPayloadWidth()`, selector 0x18 (R146). -/
  | readRxPayloadWidth
  /-- `activate()`, selector 0x19 (R147). -/
  | activate
  /-- `nop()`, selector 0x1A (R148). -/
  | nop
  /-- `init()`, selector 0x20 (R165). -/
  | init
  /-- `applyState(PowerUp)`, selector 0x21 (R172). -/
  | applyPowerUp
  /-- `applyState(PowerDown)`, selector 0x22 (R173). -/
  | applyPowerDown
  /-- `applyState(Receiving)`, selector 0x23 (R174). -/
  | applyReceiving
  /-- `applyState(Transmitting)`, selector 0x24 (R175). -/
  | applyTransmitting
  /-- `applyState(StandbyI)`, selector 0x25 (R176). -/
  | applyStandbyI
  /-- `applyState(StandbyII)`, selector 0x26 (R177). -/
  | applyStandbyII
  /-- `startListening()`, selector 0x27 (R179). -/
  | startListening
  /-- `sendMessage(payload)`, selector 0x30 (R200, R201). -/
  | sendMessage (payload : List Byte)
  /-- `readMessage()`, selector 0x31 (R205). -/
  | readMessage
  /-- `available()`, selector 0x32 (R209). -/
  | available
  /-- `readPending()`, selector 0x33 (R213). -/
  | readPending
  /-- `clearPending()`, selector 0x34 (R214). -/
  | clearPending
deriving DecidableEq, Repr

/-- The arguments of a request, by value (R102). A request reads only those its operation names. -/
structure Args where
  out : Byte := 0
  addr : Nat := 0
  n : Nat := 0
  buf : List Byte := []
deriving DecidableEq, Repr

/-- What an instruction arrives in: a wire transaction is its bytes in wire order (R95, R101), an operation is its
selector and its arguments (R102). -/
inductive Frame where
  | transaction (bytes : List Byte)
  | request (sel : Byte) (args : Args)
deriving DecidableEq, Repr

end Sys2Proof
end

