-- ==== Sys2Proof/WellFormed.lean ====
section
/-! DEFINITION. The legal ranges of an instruction's operands (R98, R100, R103). An instruction outside them still has
the outcome the spec gives it (an error result, a refusal, no effect): `exec` is total. -/

namespace Sys2Proof

/-- `len(buf) ≥ n` (R103). -/
def bufferHolds (buf : List Byte) (n : Nat) : Bool := n ≤ buf.length

/-- The operand is in the range R98, R100 or R103 gives it: a pipe is 0..5, a buffer holds the bytes to send, a message
has at most `PAYLOAD_MAX` bytes. -/
def Instr.wellFormed : Instr → Bool
  | .wAckPayloadCmd p _ => decide (p.toNat ≤ 5)
  | .exchangeBurst buf count => bufferHolds buf count
  | .writeRegister _ buf n => bufferHolds buf n
  | .writeTxPayload buf n => bufferHolds buf n
  | .writeTxPayloadNoAck buf n => bufferHolds buf n
  | .writeAckPayload buf n => bufferHolds buf n
  | .sendMessage payload => decide (payload.length ≤ Config.payloadMax)
  | .rRegisterCmd _ _ => true
  | .wRegisterCmd _ _ => true
  | .activateCmd _ => true
  | .rRxPlWidCmd _ => true
  | .rRxPayloadCmd _ => true
  | .wTxPayloadCmd _ => true
  | .wTxPayloadNoAckCmd _ => true
  | .flushTxCmd _ => true
  | .flushRxCmd _ => true
  | .reuseTxPlCmd _ => true
  | .nopCmd _ => true
  | .exchangeByte _ => true
  | .readRegister _ _ => true
  | .flushTx => true
  | .flushRx => true
  | .readRxPayload _ => true
  | .readRxPayloadWidth => true
  | .activate => true
  | .nop => true
  | .init => true
  | .applyPowerUp => true
  | .applyPowerDown => true
  | .applyReceiving => true
  | .applyTransmitting => true
  | .applyStandbyI => true
  | .applyStandbyII => true
  | .startListening => true
  | .readMessage => true
  | .available => true
  | .readPending => true
  | .clearPending => true

end Sys2Proof
end

