-- ==== Sys2Proof/Decode.lean ====
section
/-! DEFINITION. The decoder, total on any frame, and the encoder (R95–R102). The opcode table itself stands here as a
list of rows, so that no two rows of one level overlap can be proved. -/

namespace Sys2Proof

/-- `cmd_reg` of R97: a 3-bit opcode over a 5-bit address. -/
def cmdReg (op3 : BitVec 3) (a : RegAddr) : Byte := op3 ++ a

/-- `addr & 0x1F` of R97: an address argument is masked to 5 bits. -/
def maskAddr (addr : Nat) : RegAddr := BitVec.ofNat 5 addr

/-- `cmd_pipe` of R97. -/
def cmdPipe (p : BitVec 3) : Byte := (0b10101 : BitVec 5) ++ p

/-- Opcode `READ` (R96). -/
def opRead : BitVec 3 := 0b000

/-- Opcode `WRITE` (R96). -/
def opWrite : BitVec 3 := 0b001

/-- The two levels of R2. -/
inductive Level where
  | wire
  | operation
deriving DecidableEq, Repr

/-- One row of spec/opcode_table.json: a code byte `c` belongs to the row iff `c &&& mask = pattern`. -/
structure OpRow where
  level : Level
  mnemonic : String
  pattern : Byte
  mask : Byte
deriving DecidableEq, Repr

/-- The command rows of the opcode table (R98). -/
def wireRows : List OpRow :=
  [⟨.wire, "R_REGISTER", 0x00, 0xE0⟩, ⟨.wire, "W_REGISTER", 0x20, 0xE0⟩, ⟨.wire, "ACTIVATE", 0x50, 0xFF⟩,
   ⟨.wire, "R_RX_PL_WID", 0x60, 0xFF⟩, ⟨.wire, "R_RX_PAYLOAD", 0x61, 0xFF⟩, ⟨.wire, "W_TX_PAYLOAD", 0xA0, 0xFF⟩,
   ⟨.wire, "W_ACK_PAYLOAD", 0xA8, 0xF8⟩, ⟨.wire, "W_TX_PAYLOAD_NOACK", 0xB0, 0xFF⟩, ⟨.wire, "FLUSH_TX", 0xE1, 0xFF⟩,
   ⟨.wire, "FLUSH_RX", 0xE2, 0xFF⟩, ⟨.wire, "REUSE_TX_PL", 0xE3, 0xFF⟩, ⟨.wire, "NOP", 0xFF, 0xFF⟩]

/-- The selector rows of the opcode table (R102). -/
def operationRows : List OpRow :=
  [⟨.operation, "exchangeByte", 0x01, 0xFF⟩, ⟨.operation, "exchangeBurst", 0x02, 0xFF⟩,
   ⟨.operation, "readRegister", 0x10, 0xFF⟩, ⟨.operation, "writeRegister", 0x11, 0xFF⟩,
   ⟨.operation, "flushTx", 0x12, 0xFF⟩, ⟨.operation, "flushRx", 0x13, 0xFF⟩,
   ⟨.operation, "readRxPayload", 0x14, 0xFF⟩, ⟨.operation, "writeTxPayload", 0x15, 0xFF⟩,
   ⟨.operation, "writeTxPayloadNoAck", 0x16, 0xFF⟩, ⟨.operation, "writeAckPayload", 0x17, 0xFF⟩,
   ⟨.operation, "readRxPayloadWidth", 0x18, 0xFF⟩, ⟨.operation, "activate", 0x19, 0xFF⟩,
   ⟨.operation, "nop", 0x1A, 0xFF⟩] ++
  [⟨.operation, "init", 0x20, 0xFF⟩, ⟨.operation, "applyState(PowerUp)", 0x21, 0xFF⟩,
   ⟨.operation, "applyState(PowerDown)", 0x22, 0xFF⟩, ⟨.operation, "applyState(Receiving)", 0x23, 0xFF⟩,
   ⟨.operation, "applyState(Transmitting)", 0x24, 0xFF⟩, ⟨.operation, "applyState(StandbyI)", 0x25, 0xFF⟩,
   ⟨.operation, "applyState(StandbyII)", 0x26, 0xFF⟩, ⟨.operation, "startListening", 0x27, 0xFF⟩,
   ⟨.operation, "sendMessage", 0x30, 0xFF⟩, ⟨.operation, "readMessage", 0x31, 0xFF⟩,
   ⟨.operation, "available", 0x32, 0xFF⟩, ⟨.operation, "readPending", 0x33, 0xFF⟩,
   ⟨.operation, "clearPending", 0x34, 0xFF⟩]

/-- The code byte `c` belongs to the row. -/
def OpRow.covers (r : OpRow) (c : Byte) : Bool := c &&& r.mask == r.pattern

/-- What the decoder answers: an instruction, or why there is none. -/
inductive Decoded where
  /-- The frame is this instruction. -/
  | instr (i : Instr)
  /-- A command byte no row gives a meaning (R100), with the window's other bytes. -/
  | reservedCommand (c : Byte) (data : List Byte)
  /-- A selector no row gives a meaning (R102, R290). -/
  | unknownOperation (sel : Byte)
  /-- A CSN-low window without a command byte, which is no transaction (R95). -/
  | emptyTransaction
deriving DecidableEq, Repr

/-- The fixed command bytes of R98. -/
def decodeFixedCommand (c : Byte) (data : List Byte) : Decoded :=
  if c = 0x50 then .instr (.activateCmd data)
  else if c = 0x60 then .instr (.rRxPlWidCmd data)
  else if c = 0x61 then .instr (.rRxPayloadCmd data)
  else if c = 0xA0 then .instr (.wTxPayloadCmd data)
  else if c = 0xB0 then .instr (.wTxPayloadNoAckCmd data)
  else if c = 0xE1 then .instr (.flushTxCmd data)
  else if c = 0xE2 then .instr (.flushRxCmd data)
  else if c = 0xE3 then .instr (.reuseTxPlCmd data)
  else if c = 0xFF then .instr (.nopCmd data)
  else .reservedCommand c data

/-- The command byte map of R98; what it does not list is reserved (R100). -/
def decodeCommand (c : Byte) (data : List Byte) : Decoded :=
  if c.extractLsb' 5 3 = opRead then .instr (.rRegisterCmd (c.extractLsb' 0 5) data)
  else if c.extractLsb' 5 3 = opWrite then .instr (.wRegisterCmd (c.extractLsb' 0 5) data)
  else if c.extractLsb' 3 5 = 0b10101 then
    if (c.extractLsb' 0 3).toNat ≤ 5 then .instr (.wAckPayloadCmd (c.extractLsb' 0 3) data)
    else .reservedCommand c data
  else decodeFixedCommand c data

/-- The selectors 0x01..0x1A of R102: bus transport, register access and special commands. -/
def decodeAccess (sel : Byte) (a : Args) : Decoded :=
  if sel = 0x01 then .instr (.exchangeByte a.out)
  else if sel = 0x02 then .instr (.exchangeBurst a.buf a.n)
  else if sel = 0x10 then .instr (.readRegister a.addr a.n)
  else if sel = 0x11 then .instr (.writeRegister a.addr a.buf a.n)
  else if sel = 0x12 then .instr .flushTx
  else if sel = 0x13 then .instr .flushRx
  else if sel = 0x14 then .instr (.readRxPayload a.n)
  else if sel = 0x15 then .instr (.writeTxPayload a.buf a.n)
  else if sel = 0x16 then .instr (.writeTxPayloadNoAck a.buf a.n)
  else if sel = 0x17 then .instr (.writeAckPayload a.buf a.n)
  else if sel = 0x18 then .instr .readRxPayloadWidth
  else if sel = 0x19 then .instr .activate
  else if sel = 0x1A then .instr .nop
  else .unknownOperation sel

/-- The selector map of R102; what it does not list is refused with `UnknownOperation`. -/
def decodeRequest (sel : Byte) (a : Args) : Decoded :=
  if sel = 0x20 then .instr .init
  else if sel = 0x21 then .instr .applyPowerUp
  else if sel = 0x22 then .instr .applyPowerDown
  else if sel = 0x23 then .instr .applyReceiving
  else if sel = 0x24 then .instr .applyTransmitting
  else if sel = 0x25 then .instr .applyStandbyI
  else if sel = 0x26 then .instr .applyStandbyII
  else if sel = 0x27 then .instr .startListening
  else if sel = 0x30 then .instr (.sendMessage a.buf)
  else if sel = 0x31 then .instr .readMessage
  else if sel = 0x32 then .instr .available
  else if sel = 0x33 then .instr .readPending
  else if sel = 0x34 then .instr .clearPending
  else decodeAccess sel a

/-- The decoder, total on every frame (R101, R102). -/
def decode : Frame → Decoded
  | .transaction [] => .emptyTransaction
  | .transaction (c :: data) => decodeCommand c data
  | .request sel args => decodeRequest sel args

/-- The encoder: the transaction bytes or the selector and arguments of an instruction (R97, R98, R102). -/
def encode : Instr → Frame
  | .rRegisterCmd a data => .transaction (cmdReg opRead a :: data)
  | .wRegisterCmd a data => .transaction (cmdReg opWrite a :: data)
  | .activateCmd data => .transaction (0x50 :: data)
  | .rRxPlWidCmd data => .transaction (0x60 :: data)
  | .rRxPayloadCmd data => .transaction (0x61 :: data)
  | .wTxPayloadCmd data => .transaction (0xA0 :: data)
  | .wAckPayloadCmd p data => .transaction (cmdPipe p :: data)
  | .wTxPayloadNoAckCmd data => .transaction (0xB0 :: data)
  | .flushTxCmd data => .transaction (0xE1 :: data)
  | .flushRxCmd data => .transaction (0xE2 :: data)
  | .reuseTxPlCmd data => .transaction (0xE3 :: data)
  | .nopCmd data => .transaction (0xFF :: data)
  | .exchangeByte out => .request 0x01 { out := out }
  | .exchangeBurst buf count => .request 0x02 { n := count, buf := buf }
  | .readRegister addr n => .request 0x10 { addr := addr, n := n }
  | .writeRegister addr buf n => .request 0x11 { addr := addr, n := n, buf := buf }
  | .flushTx => .request 0x12 {}
  | .flushRx => .request 0x13 {}
  | .readRxPayload n => .request 0x14 { n := n }
  | .writeTxPayload buf n => .request 0x15 { n := n, buf := buf }
  | .writeTxPayloadNoAck buf n => .request 0x16 { n := n, buf := buf }
  | .writeAckPayload buf n => .request 0x17 { n := n, buf := buf }
  | .readRxPayloadWidth => .request 0x18 {}
  | .activate => .request 0x19 {}
  | .nop => .request 0x1A {}
  | .init => .request 0x20 {}
  | .applyPowerUp => .request 0x21 {}
  | .applyPowerDown => .request 0x22 {}
  | .applyReceiving => .request 0x23 {}
  | .applyTransmitting => .request 0x24 {}
  | .applyStandbyI => .request 0x25 {}
  | .applyStandbyII => .request 0x26 {}
  | .startListening => .request 0x27 {}
  | .sendMessage payload => .request 0x30 { buf := payload }
  | .readMessage => .request 0x31 {}
  | .available => .request 0x32 {}
  | .readPending => .request 0x33 {}
  | .clearPending => .request 0x34 {}

/-- The byte a frame begins with: its command byte or its selector. -/
def Frame.code : Frame → Option Byte
  | .transaction [] => none
  | .transaction (c :: _) => some c
  | .request sel _ => some sel

/-- The opcode-table level of a frame. -/
def Frame.level : Frame → Level
  | .transaction _ => .wire
  | .request _ _ => .operation

/-- `k` bytes of `w` from bit `8 · at` on, least significant byte first. -/
def wordBytes (w : Nat) : Nat → Nat → List Byte
  | _, 0 => []
  | at_, k + 1 => BitVec.ofNat 8 (w >>> (8 * at_)) :: wordBytes w (at_ + 1) k

/-- The frame of a word numbered as spec/opcode_table.json numbers it. The table's two levels share code bytes, and the
table gives a word no level: a byte that is a selector of R102 is read as that request, with every argument zero, and
any other byte as a transaction (log 11). -/
def frameOfWord (nbits w : Nat) : Frame :=
  if operationRows.any (fun r => r.covers (BitVec.ofNat 8 w)) then .request (BitVec.ofNat 8 w) {}
  else .transaction (BitVec.ofNat 8 w :: wordBytes w 1 (nbits / 8 - 1))

/-- The instruction the decoder reads from an instruction whose bits are `w`. -/
def decodeTableWord (nbits w : Nat) : Option Instr :=
  match decode (frameOfWord nbits w) with
  | .instr i => some i
  | .reservedCommand _ _ => none
  | .unknownOperation _ => none
  | .emptyTransaction => none

end Sys2Proof
end

