-- ==== Sys2Proof/Machine/State.lean ====
section
/-! DEFINITION. The state of the block and its device (10_state.md), the events of the trace (R14), the results, faults
and refusals (R15, R285–R300), and the state after reset (R310, R311). -/

namespace Sys2Proof.Machine

/-! ### Pins, events, results -/

/-- The level of an output pin, or no level before `init` configures it (R20). -/
inductive Pin where
  | undriven
  | driven (level : Bool)
deriving DecidableEq, Repr

/-- The pins of R20 and R21. `miso` is the level last sampled, `irq` the level of the radio's interrupt line. -/
structure Pins where
  csn : Pin
  ce : Pin
  sck : Pin
  mosi : Pin
  miso : Bool
  irq : Bool
deriving DecidableEq, Repr

/-- An event of the trace (R14). -/
inductive Event where
  /-- A write of CSN. -/
  | csn (level : Bool)
  /-- A write of CE. -/
  | ce (level : Bool)
  /-- One byte exchange: MOSI byte `o`, MISO byte `i`. -/
  | x (o i : Byte)
  /-- A wait of at least `us` µs. -/
  | wait (us : Nat)
  /-- The interrupt notifier ran. -/
  | irq
deriving DecidableEq, Repr

/-- The error kinds of R285–R289, with the information each records. -/
inductive ErrKind where
  /-- Code 0x01; no rule raises it (R287). -/
  | busTimeout
  /-- Code 0x02, with the poll bound (R288). -/
  | radioNotResponding (bound : Nat)
  /-- Code 0x03, with the payload's length (R285). -/
  | payloadTooLarge (length : Nat)
  /-- Code 0x04 (R289). -/
  | maxRetransmitExceeded
deriving DecidableEq, Repr

/-- Why the machine stops with a fault. -/
inductive Fault where
  /-- Code 0x10: `readMessage` read a width over 32, which is recorded (R207, R286). Raised by `resume`, once the
  environment has no choice left, in the state `readMessage` stopped in. Safe: the spec gives this fault, and the
  sequencer stops for ever. -/
  | rxWidthOverflow (width : Nat)
  /-- The sequencer stands inside an operation that has no suspension point, a state no run reaches (log 5). Raised by
  `resume`. Safe: it proves nothing about a run. -/
  | noSuchStep
deriving DecidableEq, Repr

/-- What an operation ended in: its return value (R15, R102, R206), or its fault (R14). -/
inductive Result where
  /-- The operation returns nothing. -/
  | unit
  | byte (b : Byte)
  | bytes (bs : List Byte)
  | status (st : Byte)
  | statusBytes (st : Byte) (d : List Byte)
  | statusByte (st w : Byte)
  | flag (b : Bool)
  /-- `true` of `sendMessage`. -/
  | sent
  | err (e : ErrKind)
  /-- `Message(bytes)` of R206. -/
  | message (bs : List Byte)
  /-- `Failure` of R206. -/
  | failure
  /-- The operation ended in a fault, and the sequencer has stopped (R15, R286). -/
  | fault (f : Fault)
deriving DecidableEq, Repr

/-- The six values of OperatingState (R17). -/
inductive OperatingState where
  | powerDown
  | powerUp
  | standbyI
  | standbyII
  | receiving
  | transmitting
deriving DecidableEq, Repr

/-! ### The controller -/

/-- The working registers of R22. -/
structure WorkRegs where
  status : Byte
  tmp : Byte
  len : Byte
  rxbuf : Vector Byte 33
  pollCount : Nat
deriving DecidableEq, Repr

/-- The interrupt state of R26 and PendingReceiptFlag of R27. `muted` is the model's own: a send has RX_DR masked and not
yet cleared, and the flag did not stand when it was masked, so a packet that sets it is one of R204 (e) (log 35). -/
structure Intr where
  gie : Bool
  intEn : Bool
  edgeLatch : Bool
  irqPrev : Bool
  pending : Bool
  muted : Bool
deriving DecidableEq, Repr

/-- The SPI shifter of R29. -/
structure Shifter where
  shOut : Byte
  shIn : Byte
  bitcnt : Nat
deriving DecidableEq, Repr

/-! ### The device -/

/-- The framing of the current transaction as the device sees it (R232). -/
structure Link where
  inTxn : Bool
  idx : Nat
  cmd : Byte
  data : List Byte
deriving DecidableEq, Repr

/-- The stored registers of the Reference device (R32–R50). STATUS is its three flags; its other fields and FIFO_STATUS
are computed when read (R244, R245). -/
structure DevRegs where
  config : Byte
  enAa : Byte
  enRxaddr : Byte
  setupAw : Byte
  setupRetr : Byte
  rfCh : Byte
  rfSetup : Byte
  rxDr : Bool
  txDs : Bool
  maxRt : Bool
  observeTx : Byte
  rpd : Byte
  rxAddrP0 : Word40
  rxAddrP1 : Word40
  rxAddrP2 : Byte
  rxAddrP3 : Byte
  rxAddrP4 : Byte
  rxAddrP5 : Byte
  txAddr : Word40
  rxPwP0 : Byte
  rxPwP1 : Byte
  rxPwP2 : Byte
  rxPwP3 : Byte
  rxPwP4 : Byte
  rxPwP5 : Byte
  dynpd : Byte
  feature : Byte
deriving DecidableEq, Repr

/-- A TX FIFO entry: its payload, its no-ack mark and, for an ACK payload, its pipe (R52). -/
structure TxEntry where
  payload : List Byte
  noAck : Bool
  ackPipe : Option Nat
deriving DecidableEq, Repr

/-- An RX FIFO entry: its payload, whose length is its width, and its pipe (R52). -/
structure RxEntry where
  payload : List Byte
  pipe : Nat
deriving DecidableEq, Repr

/-- The six device modes (R53). -/
inductive DevMode where
  | powerDown
  | startUp
  | standbyI
  | standbyII
  | rxMode
  | txMode
deriving DecidableEq, Repr

/-- The Reference device (R232–R261). `onAir`, `airQueued` and `noSettle` are the model's own: the entry TxMode is
sending, whether it is still the head of the TX FIFO, and whether its settling time is waived (log 18). So is `held`:
the environment puts the end of the start-up time off (R248, log 17). -/
structure RefDev where
  regs : DevRegs
  txFifo : List TxEntry
  rxFifo : List RxEntry
  reuse : Bool
  mode : DevMode
  now : Nat
  tMark : Nat
  onAir : Option TxEntry
  airQueued : Bool
  noSettle : Bool
  held : Bool
deriving DecidableEq, Repr

/-- The RegFile store: cell `5 · a + j` is byte `j` of address `a` (R249). -/
abbrev Memory := List Host.Cell

/-! ### The environment -/

/-- One thing that happens in the world around the controller. One that the spec does not admit at its point has no
effect. -/
inductive WorldAct where
  /-- Time passes (R248). -/
  | elapse (us : Nat)
  /-- The Oracle device drives IRQ to this level (R230). -/
  | irqLevel (level : Bool)
  /-- A packet arrives on a pipe; `wantsAck` says that it asks for an ACK (R261). -/
  | rx (pipe : Nat) (payload : List Byte) (wantsAck : Bool)
  /-- The packet on air ends well, after `retries` retransmits, with the payload its ACK carried, if any (R261). -/
  | txOk (retries : Nat) (ackPayload : Option (List Byte))
  /-- The packet on air was never acknowledged (R261). -/
  | txFail
  /-- The other node's packet ends without being received here (R262). -/
  | missed (payload : List Byte) (wantsAck : Bool)
  /-- From here on the end of the start-up time is put off (R248). -/
  | hold
  /-- It is put off no longer (R248). -/
  | release
deriving DecidableEq, Repr

/-- One choice of the environment (R230, R248, R261, R283). -/
inductive EnvAct where
  /-- Something happens in the world. -/
  | world (a : WorldAct)
  /-- The notifier runs here, if an edge is latched and interrupts are enabled (R283); `during` happens while it runs
  (R284), or here if it does not. -/
  | notify (during : List WorldAct)
deriving DecidableEq, Repr

/-- What of a device's settings a packet must meet (R262). -/
structure Waves where
  address : Word40
  channel : Byte
  rate : Option DataRate
  crcOn : Bool
  crcBytes : Nat
deriving DecidableEq, Repr

/-- What a Reference device had to do with a packet, as the loopback environment couples it (R262). -/
inductive AirEvent where
  /-- Its own packet ended: `asked` for an ACK, `ok` for `tx_ok`, with the payload the ACK carried. -/
  | sent (waves : Waves) (payload : List Byte) (asked ok : Bool) (ackPayload : Option (List Byte))
  /-- A packet was received on a pipe; `acked` says that an ACK went out, with `ackPayload`. -/
  | came (waves : Waves) (pipe : Nat) (payload : List Byte) (asked acked : Bool) (ackPayload : Option (List Byte))
  /-- The other node's packet was not received; `couldHear` says that pipe 0 admitted it. -/
  | missed (waves : Waves) (payload : List Byte) (asked couldHear : Bool)
deriving DecidableEq, Repr

/-! ### The whole state -/

/-- The state of the block, its device, its inputs and its observation. INVENTORY.md lists each piece with its rule.
`air` is the model's own record of the device's packets, by which R262 couples two blocks (log 39). -/
structure State where
  cfg : Cfg
  params : Params
  pins : Pins
  regs : WorkRegs
  shifter : Shifter
  op : Option Instr
  pc : Nat
  initialised : Bool
  intr : Intr
  lastTarget : Option OperatingState
  link : Link
  ref : RefDev
  regFile : Memory
  env : List (List EnvAct)
  oracleMiso : List Byte
  draws : Nat
  requests : List Frame
  trace : List Event
  air : List AirEvent
  result : Option Result
deriving DecidableEq, Repr

/-- Why a request has no meaning. -/
inductive Refusal where
  /-- An instruction without a meaning yet. Raised by no arm of `exec`. Safe. -/
  | notModelled (mnemonic : String)
  /-- Code 0x20: an operation other than `init` before `init` (R25, R290). Raised by every operation
  and every wire command. Safe: as the spec. -/
  | notInitialised
  /-- Code 0x21: `init` with a configuration that breaks R11 (R290). Raised by `init`. Safe: as the spec. -/
  | illFormedConfig
  /-- Code 0x22: a raw write or burst with a buffer shorter than its count (R103, R290). Raised by `exchangeBurst`,
  `writeRegister` and the raw payload writes. Safe: as the spec. -/
  | shortBuffer
  /-- Code 0x23: a selector not in R102 (R290). Raised by the fetch. Safe: as the spec. -/
  | unknownOperation (sel : Byte)
  /-- A CSN-low window without a command byte is no transaction (R95). Raised by the fetch. Safe (log 32). -/
  | emptyTransaction
deriving DecidableEq, Repr

/-! ### Reset -/

/-- The registers after the device's power-on reset (R311). -/
def DevRegs.reset : DevRegs where
  config := 0x08
  enAa := 0x3F
  enRxaddr := 0x03
  setupAw := 0x03
  setupRetr := 0x03
  rfCh := 0x02
  rfSetup := 0x0E
  rxDr := false
  txDs := false
  maxRt := false
  observeTx := 0x00
  rpd := 0x00
  rxAddrP0 := 0xE7E7E7E7E7
  rxAddrP1 := 0xC2C2C2C2C2
  rxAddrP2 := 0xC3
  rxAddrP3 := 0xC4
  rxAddrP4 := 0xC5
  rxAddrP5 := 0xC6
  txAddr := 0xE7E7E7E7E7
  rxPwP0 := 0x00
  rxPwP1 := 0x00
  rxPwP2 := 0x00
  rxPwP3 := 0x00
  rxPwP4 := 0x00
  rxPwP5 := 0x00
  dynpd := 0x00
  feature := 0x00

/-- The Reference device after its power-on reset (R311). -/
def RefDev.reset : RefDev where
  regs := DevRegs.reset
  txFifo := []
  rxFifo := []
  reuse := false
  mode := .powerDown
  now := 0
  tMark := 0
  onAir := none
  airQueued := false
  noSettle := false
  held := false

/-- The block right after reset (R310) with its device right after power-on reset (R311). The working registers the
spec leaves unspecified are zero (log 7). -/
def State.reset : State where
  cfg := {}
  params := {}
  pins := { csn := .undriven, ce := .undriven, sck := .undriven, mosi := .undriven, miso := false, irq := true }
  regs := { status := 0, tmp := 0, len := 0, rxbuf := Vector.replicate 33 0, pollCount := 0 }
  shifter := { shOut := 0, shIn := 0, bitcnt := 0 }
  op := none
  pc := 0
  initialised := false
  intr := { gie := false, intEn := false, edgeLatch := false, irqPrev := true, pending := false, muted := false }
  lastTarget := none
  link := { inTxn := false, idx := 0, cmd := 0, data := [] }
  ref := RefDev.reset
  regFile := []
  env := []
  oracleMiso := []
  draws := 0
  requests := []
  trace := []
  air := []
  result := none

end Sys2Proof.Machine
end

