-- ==== Sys2Proof/Machine/Flags.lean ====
section
/-! DEFINITION. The flags of R55: the bits of CONFIG, STATUS and FIFO_STATUS, their read values (R244, R245), the IRQ
output (R260) and the derived views of the device (R36, R37, R246, R247, R56). -/

namespace Sys2Proof.Machine

/-- Bit `i` of a byte, `v[i]` of R12. -/
def bitAt (v : Byte) (i : Nat) : Bool := v.getLsbD i

/-- `bit(i)` of R12. -/
def bit (i : Nat) : Byte := BitVec.ofNat 8 (2 ^ i)

/-- A flag as a bit at a position. -/
def flagBit (b : Bool) (i : Nat) : Byte := if b then bit i else 0

/-! ### CONFIG (R32), FEATURE (R50), SETUP_AW (R35), SETUP_RETR (R36) -/

/-- CONFIG.PWR_UP. -/
def DevRegs.pwrUp (r : DevRegs) : Bool := bitAt r.config 1

/-- CONFIG.PRIM_RX. -/
def DevRegs.primRx (r : DevRegs) : Bool := bitAt r.config 0

/-- CONFIG.MASK_RX_DR. -/
def DevRegs.maskRxDr (r : DevRegs) : Bool := bitAt r.config 6

/-- CONFIG.MASK_TX_DS. -/
def DevRegs.maskTxDs (r : DevRegs) : Bool := bitAt r.config 5

/-- CONFIG.MASK_MAX_RT. -/
def DevRegs.maskMaxRt (r : DevRegs) : Bool := bitAt r.config 4

/-- FEATURE.EN_DPL. -/
def DevRegs.enDpl (r : DevRegs) : Bool := bitAt r.feature 2

/-- FEATURE.EN_ACK_PAY. -/
def DevRegs.enAckPay (r : DevRegs) : Bool := bitAt r.feature 1

/-- FEATURE.EN_DYN_ACK. -/
def DevRegs.enDynAck (r : DevRegs) : Bool := bitAt r.feature 0

/-- EN_AA bit of pipe `p` (R33). -/
def DevRegs.enaa (r : DevRegs) (p : Nat) : Bool := decide (p ≤ 5) && bitAt r.enAa p

/-- EN_RXADDR bit of pipe `p` (R34). -/
def DevRegs.pipeEnabled (r : DevRegs) (p : Nat) : Bool := decide (p ≤ 5) && bitAt r.enRxaddr p

/-- SETUP_AW.AW (R35). -/
def DevRegs.aw (r : DevRegs) : Nat := (r.setupAw.extractLsb' 0 2).toNat

/-- The width of the address registers in bytes (R235); free under the illegal setting (log 19). -/
def DevRegs.addrWidth (r : DevRegs) : Nat :=
  if r.aw = 0 then min 5 Config.illegalAddrWidth else r.aw + 2

/-- SETUP_RETR.ARC: the most retransmits of a packet (R36). -/
def DevRegs.arc (r : DevRegs) : Nat := (r.setupRetr.extractLsb' 0 4).toNat

/-- The auto-retransmit delay in µs (R36). -/
def DevRegs.retransmitDelay (r : DevRegs) : Nat := ((r.setupRetr.extractLsb' 4 4).toNat + 1) * 250

/-- The channel's frequency in MHz (R37). -/
def DevRegs.frequencyMHz (r : DevRegs) : Nat := 2400 + (r.rfCh.extractLsb' 0 7).toNat

/-- The air data rate that RF_SETUP selects, none for the reserved code (R38). -/
def DevRegs.airRate (r : DevRegs) : Option DataRate :=
  match bitAt r.rfSetup 5, bitAt r.rfSetup 3 with
  | false, false => some .r1M
  | false, true => some .r2M
  | true, false => some .r250K
  | true, true => none

/-- The transmit power that RF_SETUP selects (R38). -/
def DevRegs.txPower (r : DevRegs) : Power :=
  match bitAt r.rfSetup 2, bitAt r.rfSetup 1 with
  | false, false => .pMin
  | false, true => .pLow
  | true, false => .pHigh
  | true, true => .pMax

/-- The CRC is on (R246). -/
def DevRegs.crcOn (r : DevRegs) : Bool := bitAt r.config 3 || decide (r.enAa.extractLsb' 0 6 ≠ 0)

/-- The CRC length in bytes (R246). -/
def DevRegs.crcBytes (r : DevRegs) : Nat := if bitAt r.config 2 then 2 else 1

/-- Dynamic payload length is on for pipe `p` (R247). -/
def DevRegs.dplOn (r : DevRegs) (p : Nat) : Bool := r.enDpl && decide (p ≤ 5) && bitAt r.dynpd p

/-- RX_PW_Pp, bits 5:0: the static payload width of pipe `p` (R46). -/
def DevRegs.rxPw (r : DevRegs) (p : Nat) : Nat :=
  match p with
  | 0 => (r.rxPwP0.extractLsb' 0 6).toNat
  | 1 => (r.rxPwP1.extractLsb' 0 6).toNat
  | 2 => (r.rxPwP2.extractLsb' 0 6).toNat
  | 3 => (r.rxPwP3.extractLsb' 0 6).toNat
  | 4 => (r.rxPwP4.extractLsb' 0 6).toNat
  | 5 => (r.rxPwP5.extractLsb' 0 6).toNat
  | _ => 0

/-- The address a pipe listens to: the registers of pipes 0 and 1, and for pipes 2..5 their own low byte with the other
bytes of RX_ADDR_P1 (R42–R44). -/
def DevRegs.pipeAddr (r : DevRegs) (p : Nat) : Word40 :=
  match p with
  | 0 => r.rxAddrP0
  | 1 => r.rxAddrP1
  | 2 => (r.rxAddrP1.extractLsb' 8 32) ++ r.rxAddrP2
  | 3 => (r.rxAddrP1.extractLsb' 8 32) ++ r.rxAddrP3
  | 4 => (r.rxAddrP1.extractLsb' 8 32) ++ r.rxAddrP4
  | 5 => (r.rxAddrP1.extractLsb' 8 32) ++ r.rxAddrP5
  | _ => 0

/-- What a packet this device sends carries (R262). -/
def DevRegs.txWaves (r : DevRegs) : Waves :=
  { address := r.txAddr, channel := r.rfCh, rate := r.airRate, crcOn := r.crcOn, crcBytes := r.crcBytes }

/-- What a packet must carry for this device to hear it on pipe 0 (R262). -/
def DevRegs.rxWaves (r : DevRegs) : Waves :=
  { address := r.pipeAddr 0, channel := r.rfCh, rate := r.airRate, crcOn := r.crcOn, crcBytes := r.crcBytes }

/-! ### STATUS, FIFO_STATUS, IRQ -/

/-- The TX FIFO is full. -/
def RefDev.txFull (d : RefDev) : Bool := decide (Config.fifoDepth ≤ d.txFifo.length)

/-- The RX FIFO is full. -/
def RefDev.rxFull (d : RefDev) : Bool := decide (Config.fifoDepth ≤ d.rxFifo.length)

/-- STATUS.RX_P_NO: the pipe of the RX FIFO's head, 0b111 when it is empty (R244). -/
def RefDev.rxPNo (d : RefDev) : Byte :=
  match d.rxFifo with
  | [] => 7
  | e :: _ => BitVec.ofNat 8 e.pipe

/-- The read value of STATUS (R244). -/
def RefDev.statusByte (d : RefDev) : Byte :=
  flagBit d.regs.rxDr 6 ||| flagBit d.regs.txDs 5 ||| flagBit d.regs.maxRt 4 ||| (d.rxPNo <<< 1) |||
    flagBit d.txFull 0

/-- The read value of FIFO_STATUS (R245). -/
def RefDev.fifoStatusByte (d : RefDev) : Byte :=
  flagBit d.reuse 6 ||| flagBit d.txFull 5 ||| flagBit d.txFifo.isEmpty 4 ||| flagBit d.rxFull 1 |||
    flagBit d.rxFifo.isEmpty 0

/-- The IRQ output, active low (R260). -/
def RefDev.irqOut (d : RefDev) : Bool :=
  !((d.regs.rxDr && !d.regs.maskRxDr) || (d.regs.txDs && !d.regs.maskTxDs) || (d.regs.maxRt && !d.regs.maskMaxRt))

/-- No flag but RX_DR pulls IRQ low (R260). -/
def RefDev.onlyRxDr (d : RefDev) : Bool := RefDev.irqOut { d with regs := { d.regs with rxDr := false } }

/-- The CE pin is 1. A pin that nothing drives is not (log 24). -/
def Pin.isHigh : Pin → Bool
  | .undriven => false
  | .driven level => level

/-- The OperatingState view of the device (R56). -/
def RefDev.opstate (d : RefDev) (ce : Bool) : OperatingState :=
  if !d.regs.pwrUp then .powerDown
  else if d.mode = .startUp then .powerUp
  else if !ce then .standbyI
  else if d.regs.primRx then .receiving
  else if d.txFifo.isEmpty then .standbyII
  else .transmitting

/-! ### Outcome codes (R300) -/

/-- The code of an error kind (R300). -/
def ErrKind.code : ErrKind → Byte
  | .busTimeout => 0x01
  | .radioNotResponding _ => 0x02
  | .payloadTooLarge _ => 0x03
  | .maxRetransmitExceeded => 0x04

/-- The code of a fault (R300); the model's own fault has none. -/
def Fault.code : Fault → Option Byte
  | .rxWidthOverflow _ => some 0x10
  | .noSuchStep => none

/-- The code of a refusal (R300); the model's own refusals have none. -/
def Refusal.code : Refusal → Option Byte
  | .notInitialised => some 0x20
  | .illFormedConfig => some 0x21
  | .shortBuffer => some 0x22
  | .unknownOperation _ => some 0x23
  | _ => none

end Sys2Proof.Machine
end

