-- ==== Sys2Proof/Machine/Device.lean ====
section
/-! DEFINITION. The Reference device (44_device_model.md): its registers as the wire sees them (R233–R235), what every
command answers (R233–R243) and commits (R234–R243), its modes (R250–R256), and the air events (R257–R261). -/

namespace Sys2Proof.Machine

/-! ### Registers on the wire -/

/-- Byte `j` of a register value, least significant byte first (R73, R235). -/
def byteOf (v : Word40) (j : Nat) : Byte := v.extractLsb' (8 * j) 8

/-- The value of up to five bytes, least significant byte first (R73, R235). -/
def packBytes : List Byte → Word40
  | [] => 0
  | b :: bs => (packBytes bs <<< 8) ||| b.zeroExtend 40

/-- The lowest `k` bytes of a register value. -/
def bytesMask (k : Nat) : Word40 := BitVec.ofNat 40 (2 ^ (8 * k) - 1)

/-- The register addresses that hold no register (R48, R51, R100). -/
def isReserved (a : RegAddr) : Bool :=
  (decide (0x18 ≤ a.toNat) && decide (a.toNat ≤ 0x1B)) || decide (0x1E ≤ a.toNat)

/-- The addresses of the address registers (R235). -/
def isAddrReg (a : RegAddr) : Bool := a == 0x0A || a == 0x0B || a == 0x10

/-- The width of the register at an address in bytes (R30, R235). -/
def DevRegs.width (r : DevRegs) (a : RegAddr) : Nat := if isAddrReg a then r.addrWidth else 1

/-- The value a register reads as, zero-extended to 40 bits (R233); 0 where no register is. -/
def RefDev.regValue (d : RefDev) (a : RegAddr) : Word40 :=
  match a.toNat with
  | 0x00 => d.regs.config.zeroExtend 40
  | 0x01 => d.regs.enAa.zeroExtend 40
  | 0x02 => d.regs.enRxaddr.zeroExtend 40
  | 0x03 => d.regs.setupAw.zeroExtend 40
  | 0x04 => d.regs.setupRetr.zeroExtend 40
  | 0x05 => d.regs.rfCh.zeroExtend 40
  | 0x06 => d.regs.rfSetup.zeroExtend 40
  | 0x07 => d.statusByte.zeroExtend 40
  | 0x08 => d.regs.observeTx.zeroExtend 40
  | 0x09 => d.regs.rpd.zeroExtend 40
  | 0x0A => d.regs.rxAddrP0
  | 0x0B => d.regs.rxAddrP1
  | 0x0C => d.regs.rxAddrP2.zeroExtend 40
  | 0x0D => d.regs.rxAddrP3.zeroExtend 40
  | 0x0E => d.regs.rxAddrP4.zeroExtend 40
  | 0x0F => d.regs.rxAddrP5.zeroExtend 40
  | 0x10 => d.regs.txAddr
  | 0x11 => d.regs.rxPwP0.zeroExtend 40
  | 0x12 => d.regs.rxPwP1.zeroExtend 40
  | 0x13 => d.regs.rxPwP2.zeroExtend 40
  | 0x14 => d.regs.rxPwP3.zeroExtend 40
  | 0x15 => d.regs.rxPwP4.zeroExtend 40
  | 0x16 => d.regs.rxPwP5.zeroExtend 40
  | 0x17 => d.fifoStatusByte.zeroExtend 40
  | 0x1C => d.regs.dynpd.zeroExtend 40
  | 0x1D => d.regs.feature.zeroExtend 40
  | _ => 0

/-- The RW bits of the register at an address (R32–R50); STATUS's write-1-to-clear bits are not among them. -/
def rwMask (a : RegAddr) : Word40 :=
  match a.toNat with
  | 0x00 => 0x7F
  | 0x01 => 0x3F
  | 0x02 => 0x3F
  | 0x03 => 0x03
  | 0x04 => 0xFF
  | 0x05 => 0x7F
  | 0x06 => 0xBF
  | 0x0A => 0xFFFFFFFFFF
  | 0x0B => 0xFFFFFFFFFF
  | 0x0C => 0xFF
  | 0x0D => 0xFF
  | 0x0E => 0xFF
  | 0x0F => 0xFF
  | 0x10 => 0xFFFFFFFFFF
  | 0x11 => 0x3F
  | 0x12 => 0x3F
  | 0x13 => 0x3F
  | 0x14 => 0x3F
  | 0x15 => 0x3F
  | 0x16 => 0x3F
  | 0x1C => 0x3F
  | 0x1D => 0x07
  | _ => 0

/-- Store a value in the register at an address. Only the registers with RW bits are stored. -/
def DevRegs.store (r : DevRegs) (a : RegAddr) (v : Word40) : DevRegs :=
  match a.toNat with
  | 0x00 => { r with config := v.setWidth 8 }
  | 0x01 => { r with enAa := v.setWidth 8 }
  | 0x02 => { r with enRxaddr := v.setWidth 8 }
  | 0x03 => { r with setupAw := v.setWidth 8 }
  | 0x04 => { r with setupRetr := v.setWidth 8 }
  | 0x05 => { r with rfCh := v.setWidth 8, observeTx := r.observeTx &&& 0x0F }
  | 0x06 => { r with rfSetup := v.setWidth 8 }
  | 0x0A => { r with rxAddrP0 := v }
  | 0x0B => { r with rxAddrP1 := v }
  | 0x0C => { r with rxAddrP2 := v.setWidth 8 }
  | 0x0D => { r with rxAddrP3 := v.setWidth 8 }
  | 0x0E => { r with rxAddrP4 := v.setWidth 8 }
  | 0x0F => { r with rxAddrP5 := v.setWidth 8 }
  | 0x10 => { r with txAddr := v }
  | 0x11 => { r with rxPwP0 := v.setWidth 8 }
  | 0x12 => { r with rxPwP1 := v.setWidth 8 }
  | 0x13 => { r with rxPwP2 := v.setWidth 8 }
  | 0x14 => { r with rxPwP3 := v.setWidth 8 }
  | 0x15 => { r with rxPwP4 := v.setWidth 8 }
  | 0x16 => { r with rxPwP5 := v.setWidth 8 }
  | 0x1C => { r with dynpd := v.setWidth 8 }
  | 0x1D => { r with feature := v.setWidth 8 }
  | _ => r

/-- Clear the STATUS flags written with 1 (R39, R234). -/
def DevRegs.clearFlags (r : DevRegs) (v : Byte) : DevRegs :=
  { r with
    rxDr := r.rxDr && !bitAt v 6
    txDs := r.txDs && !bitAt v 5
    maxRt := r.maxRt && !bitAt v 4 }

/-- The new value of a register: its RW bits from the data, the others as they were. -/
def mergeBits (old data mask : Word40) : Word40 := (old &&& ~~~mask) ||| (data &&& mask)

/-- What W_REGISTER does at the CSN rising edge (R234): nothing for a reserved address or for fewer data bytes than the
register's width; else the RW bits of the register's bytes take the data, and STATUS flags written with 1 clear. -/
def RefDev.writeReg (d : RefDev) (a : RegAddr) (data : List Byte) : RefDev :=
  if isReserved a || data.isEmpty || decide (data.length < d.regs.width a) then d
  else if a = 0x07 then { d with regs := d.regs.clearFlags (data.headD 0) }
  else
    { d with
      regs := d.regs.store a
        (mergeBits (d.regValue a) (packBytes (data.take (d.regs.width a)))
          (rwMask a &&& bytesMask (d.regs.width a))) }

/-- Byte `j` of R_REGISTER's answer (R233): none, which is a draw, at or above the width and at a reserved address. -/
def RefDev.readReg (d : RefDev) (a : RegAddr) (j : Nat) : Option Byte :=
  if isReserved a || decide (d.regs.width a ≤ j) then none else some (byteOf (d.regValue a) j)

/-! ### What a command answers and commits -/

/-- The address field of a register command (R97). -/
def cmdAddr (cmd : Byte) : RegAddr := cmd.extractLsb' 0 5

/-- The pipe field of W_ACK_PAYLOAD (R97). -/
def cmdPipeField (cmd : Byte) : Nat := (cmd.extractLsb' 0 3).toNat

/-- The command byte is R_REGISTER (R96). -/
def isReadCmd (cmd : Byte) : Bool := cmd.extractLsb' 5 3 == opRead

/-- The command byte is W_REGISTER (R96). -/
def isWriteCmd (cmd : Byte) : Bool := cmd.extractLsb' 5 3 == opWrite

/-- The command byte is W_ACK_PAYLOAD (R96). -/
def isAckCmd (cmd : Byte) : Bool := cmd.extractLsb' 3 5 == 0b10101

/-- The RX FIFO's head payload, empty if there is none. -/
def RefDev.rxHead (d : RefDev) : List Byte :=
  match d.rxFifo with
  | [] => []
  | e :: _ => e.payload

/-- Data byte `j` that the device answers to a command; none is a draw (R232, R233, R238, R242, R243). -/
def RefDev.miso (d : RefDev) (cmd : Byte) (j : Nat) : Option Byte :=
  if isReadCmd cmd then d.readReg (cmdAddr cmd) j
  else if cmd = 0x61 then d.rxHead[j]?
  else if cmd = 0x60 then (if j = 0 then some (BitVec.ofNat 8 d.rxHead.length) else none)
  else none

/-- Queue a TX payload (R239, R240): nothing for no data or a full FIFO; else its first 32 bytes. -/
def RefDev.queueTx (d : RefDev) (data : List Byte) (noAck : Bool) : RefDev :=
  if data.isEmpty || d.txFull then d
  else
    { d with
      txFifo := d.txFifo ++ [{ payload := data.take Config.payloadMax, noAck := noAck, ackPipe := none }]
      reuse := false }

/-- Queue an ACK payload (R241). -/
def RefDev.queueAck (d : RefDev) (p : Nat) (data : List Byte) : RefDev :=
  if !d.regs.enAckPay || decide (5 < p) || d.txFull || data.isEmpty then d
  else { d with txFifo := d.txFifo ++ [{ payload := data.take Config.payloadMax, noAck := false, ackPipe := some p }] }

/-- FLUSH_TX (R236): the TX FIFO is emptied and TX_REUSE cleared; a packet on air finishes. -/
def RefDev.flushTx (d : RefDev) : RefDev := { d with txFifo := [], reuse := false, airQueued := false }

/-- FLUSH_RX (R237): the RX FIFO is emptied, the flags stay. -/
def RefDev.flushRx (d : RefDev) : RefDev := { d with rxFifo := [] }

/-- R_RX_PAYLOAD's pop (R238): the head goes if at least one data byte was clocked. -/
def RefDev.popRx (d : RefDev) (idx : Nat) : RefDev := if 2 ≤ idx then { d with rxFifo := d.rxFifo.tail } else d

/-- The effect of a command at the CSN rising edge (R232, R234–R243). `idx` is how many bytes the window held. -/
def RefDev.commit (d : RefDev) (cmd : Byte) (data : List Byte) (idx : Nat) : RefDev :=
  if idx = 0 then d
  else if isWriteCmd cmd then d.writeReg (cmdAddr cmd) data
  else if isAckCmd cmd then d.queueAck (cmdPipeField cmd) data
  else if cmd = 0x61 then d.popRx idx
  else if cmd = 0xA0 then d.queueTx data false
  else if cmd = 0xB0 then (if d.regs.enDynAck then d.queueTx data true else d)
  else if cmd = 0xE1 then d.flushTx
  else if cmd = 0xE2 then d.flushRx
  else if cmd = 0xE3 then { d with reuse := true }
  else d

/-! ### Modes -/

/-- TxMode takes the head of the TX FIFO: the mark is now, and the packet's retransmit count starts at 0 (R253, R255,
R256; R40 as log 20 reads it). -/
def RefDev.enterTx (d : RefDev) (settled : Bool) : RefDev :=
  { d with
    mode := .txMode
    tMark := d.now
    onAir := d.txFifo.head?
    airQueued := true
    noSettle := settled
    regs := { d.regs with observeTx := d.regs.observeTx &&& 0xF0 } }

/-- There is a payload to send and MAX_RT does not block it (R253, R256). -/
def RefDev.canSend (d : RefDev) : Bool := !d.txFifo.isEmpty && !d.regs.maxRt

/-- The start-up time is over (R252). -/
def RefDev.startUpOver (d : RefDev) : Bool := decide (Config.tStartUp ≤ d.now - d.tMark)

/-- The environment puts the end of the start-up time off, or does so no longer (R248, log 17). -/
def RefDev.hold (d : RefDev) (held : Bool) : RefDev := { d with held := held }

/-- A start-up whose time is over is put off no longer: an event that depends on its end is next (R248, log 17). -/
def RefDev.fireDue (d : RefDev) : RefDev := if decide (d.mode = .startUp) && d.startUpOver then d.hold false else d

/-- The first rule of R251–R256 that matches, applied once; none if no rule matches (R250). The end of the start-up time
may be put off (R248). -/
def RefDev.modeRule (d : RefDev) (ce : Bool) : Option RefDev :=
  if !d.regs.pwrUp then
    (if d.mode = .powerDown then none
     else some { d with mode := .powerDown, onAir := none, airQueued := false, noSettle := false })
  else
    match d.mode with
    | .powerDown => some { d with mode := .startUp, tMark := d.now }
    | .startUp => if d.startUpOver && !d.held then some { d with mode := .standbyI } else none
    | .standbyI =>
      if !ce then none
      else if d.regs.primRx then some { d with mode := .rxMode, tMark := d.now }
      else if d.canSend then some (d.enterTx false)
      else some { d with mode := .standbyII }
    | .rxMode => if !ce || !d.regs.primRx then some { d with mode := .standbyI } else none
    | .txMode => none
    | .standbyII =>
      if d.canSend then some (d.enterTx false)
      else if !ce then some { d with mode := .standbyI }
      else if d.regs.primRx then some { d with mode := .rxMode, tMark := d.now }
      else none

/-- Apply the mode rules until none matches, at most `fuel` times. -/
def RefDev.settleFuel (ce : Bool) : Nat → RefDev → RefDev
  | 0, d => d
  | fuel + 1, d =>
    match d.modeRule ce with
    | none => d
    | some d' => RefDev.settleFuel ce fuel d'

/-- Re-evaluate the mode rules (R250). Three applications always reach a state in which no rule matches. -/
def RefDev.settle (d : RefDev) (ce : Bool) : RefDev := RefDev.settleFuel ce 3 d

/-- Time passes (R248). -/
def RefDev.advance (d : RefDev) (us : Nat) : RefDev := { d with now := d.now + us }

/-! ### Air events -/

/-- RxMode has settled (R254). -/
def RefDev.listening (d : RefDev) : Bool :=
  decide (d.mode = .rxMode) && decide (Config.tRadioSettle ≤ d.now - d.tMark)

/-- TxMode has settled, so that the outcome of its packet may come (R255). -/
def RefDev.sending (d : RefDev) : Bool :=
  decide (d.mode = .txMode) && (d.noSettle || decide (Config.tRadioSettle ≤ d.now - d.tMark))

/-- A packet of `len` bytes is admitted on pipe `p` (R247, R261). -/
def RefDev.accepts (d : RefDev) (p len : Nat) : Bool :=
  d.regs.pipeEnabled p && decide (1 ≤ len) && decide (len ≤ Config.payloadMax) &&
    (d.regs.dplOn p || (decide (len = d.regs.rxPw p) && decide (d.regs.rxPw p ≠ 0)))

/-- Put a received payload in the RX FIFO and set RX_DR; dropped when the FIFO is full (R257, R261). -/
def RefDev.pushRx (d : RefDev) (p : Nat) (payload : List Byte) : RefDev :=
  if d.rxFull then d
  else { d with rxFifo := d.rxFifo ++ [{ payload := payload, pipe := p }], regs := { d.regs with rxDr := true } }

/-- The entry is an ACK payload for pipe `p`. -/
def TxEntry.isAckFor (p : Nat) (e : TxEntry) : Bool := decide (e.ackPipe = some p)

/-- The ACK payload the next ACK on pipe `p` carries (R261). -/
def RefDev.ackPayload (d : RefDev) (p : Nat) : Option (List Byte) :=
  (d.txFifo.find? (TxEntry.isAckFor p)).map TxEntry.payload

/-- Send an ACK on pipe `p`: an ACK payload for `p` goes with it, is popped, and sets TX_DS (R258, R261). -/
def RefDev.sendAck (d : RefDev) (p : Nat) : RefDev :=
  match d.ackPayload p with
  | none => d
  | some _ =>
    { d with txFifo := d.txFifo.eraseP (TxEntry.isAckFor p), regs := { d.regs with txDs := true } }

/-- The air event `rx(p, payload)` (R261). A packet dropped by a full FIFO is not acknowledged (log 22). -/
def RefDev.rx (d : RefDev) (p : Nat) (payload : List Byte) (wantsAck : Bool) : RefDev :=
  if !d.listening || !d.accepts p payload.length || d.rxFull then d
  else if wantsAck && d.regs.enaa p then (d.pushRx p payload).sendAck p
  else d.pushRx p payload

/-- The packet asks for an acknowledgement, by EN_AA as it stands when its outcome comes (R258, log 38). -/
def RefDev.wantsAck (d : RefDev) (e : TxEntry) : Bool := !e.noAck && d.regs.enaa 0

/-- Where the device goes after a packet's outcome (R255). -/
def RefDev.afterTx (d : RefDev) (ce : Bool) : RefDev :=
  if ce && d.canSend && !d.regs.primRx then d.enterTx true
  else { d with mode := .standbyI, onAir := none, airQueued := false, noSettle := false }

/-- The low nibble of OBSERVE_TX, ARC_CNT (R40). -/
def setArcCnt (observeTx : Byte) (n : Nat) : Byte := (observeTx &&& 0xF0) ||| (BitVec.ofNat 8 n &&& 0x0F)

/-- PLOS_CNT counts one more lost packet (R40); past 15 its value is free (log 20). -/
def countLost (observeTx : Byte) (now : Nat) : Byte :=
  if observeTx.extractLsb' 4 4 = 15 then Config.plosPast15 now ++ observeTx.extractLsb' 0 4 else observeTx + 0x10

/-- Take the sent packet off the FIFO, unless TX_REUSE holds it or a flush took it (R236, R258). -/
def RefDev.popSent (d : RefDev) : RefDev := if d.airQueued && !d.reuse then { d with txFifo := d.txFifo.tail } else d

/-- The payload an ACK brought goes in the RX FIFO as for `rx(0, …)` (R261). That pipe 0 must admit it, and that one offered
with a packet that asked for no ACK is ignored, is the model's reading (DEDUCED, log 23). -/
def RefDev.takeAckPayload (d : RefDev) (acked : Bool) (ackPayload : Option (List Byte)) : RefDev :=
  match ackPayload with
  | none => d
  | some b => if acked && d.accepts 0 b.length then d.pushRx 0 b else d

/-- The air event `tx_ok` (R258, R261). -/
def RefDev.txOk (d : RefDev) (ce : Bool) (retries : Nat) (ackPayload : Option (List Byte)) : RefDev :=
  match d.onAir with
  | none => d
  | some e =>
    if !d.sending then d
    else
      let acked := d.wantsAck e
      let count := if acked then min retries d.regs.arc else 0
      let sent := { d.popSent with
        regs := { d.regs with txDs := true, observeTx := setArcCnt d.regs.observeTx count } }
      (sent.takeAckPayload acked ackPayload).afterTx ce

/-- The air event `tx_fail`, for an acknowledged packet only (R259, R261). -/
def RefDev.txFail (d : RefDev) (ce : Bool) : RefDev :=
  match d.onAir with
  | none => d
  | some e =>
    if !d.sending || !d.wantsAck e then d
    else
      let lost := { d with
        regs := { d.regs with maxRt := true, observeTx := setArcCnt (countLost d.regs.observeTx d.now) d.regs.arc } }
      lost.afterTx ce

/-! ### The record of packets -/

/-- What a choice of the environment means for the loopback environment, when it is admitted (R261, R262). -/
def RefDev.airEvent (d : RefDev) : WorldAct → Option AirEvent
  | .rx p payload wantsAck =>
    if d.listening && d.accepts p payload.length then
      let acked := wantsAck && d.regs.enaa p && !d.rxFull
      some (.came d.regs.rxWaves p payload wantsAck acked (if acked then d.ackPayload p else none))
    else none
  | .txOk _ ackPayload =>
    match d.onAir with
    | none => none
    | some e =>
      if d.sending then
        some (.sent d.regs.txWaves e.payload (d.wantsAck e) true (if d.wantsAck e then ackPayload else none))
      else none
  | .txFail =>
    match d.onAir with
    | none => none
    | some e => if d.sending && d.wantsAck e then some (.sent d.regs.txWaves e.payload true false none) else none
  | .missed payload wantsAck =>
    some (.missed d.regs.rxWaves payload wantsAck (d.listening && d.accepts 0 payload.length))
  | .elapse _ => none
  | .irqLevel _ => none
  | .hold => none
  | .release => none

end Sys2Proof.Machine
end

