-- ==== Sys2Proof/Machine/Memory.lean ====
section
/-! DEFINITION. The RegFile store as a byte memory in one canonical form: addresses strictly rising, no cell equal to
0x00, which is what R249 says an address holds at reset. -/

namespace Sys2Proof.Machine

/-- What an unlisted address reads as: 0x00, the reset contents R249 gives. -/
def Memory.unlisted : Byte := 0x00

/-- The byte at an address. -/
def Memory.read : Memory → Nat → Byte
  | [], _ => Memory.unlisted
  | (b, w) :: m, a => if a = b then w else Memory.read m a

/-- Write one byte, keeping the canonical form. -/
def Memory.write : Memory → Nat → Byte → Memory
  | [], a, v => if v = Memory.unlisted then [] else [(a, v)]
  | (b, w) :: m, a, v =>
    if a < b then (if v = Memory.unlisted then (b, w) :: m else (a, v) :: (b, w) :: m)
    else if a = b then (if v = Memory.unlisted then m else (a, v) :: m)
    else (b, w) :: Memory.write m a v

/-- The canonical form from address `lo` on. -/
def Memory.wfFrom : Nat → Memory → Bool
  | _, [] => true
  | lo, (b, w) :: m => decide (lo ≤ b) && decide (w ≠ Memory.unlisted) && Memory.wfFrom (b + 1) m

/-- The canonical form. -/
def Memory.wf (m : Memory) : Bool := Memory.wfFrom 0 m

/-- Write successive bytes from address `a` on. -/
def Memory.writeBytes : Memory → Nat → List Byte → Memory
  | m, _, [] => m
  | m, a, v :: vs => Memory.writeBytes (Memory.write m a v) (a + 1) vs

/-- The cell of byte `j` of register address `a` (R249). -/
def regFileCell (a : RegAddr) (j : Nat) : Nat := 5 * a.toNat + j

/-- R_REGISTER of the RegFile device: byte `j` of address `a`, and nothing past byte 4 (R249). -/
def regFileRead (m : Memory) (a : RegAddr) (j : Nat) : Option Byte :=
  if j < 5 then some (Memory.read m (regFileCell a j)) else none

/-- W_REGISTER of the RegFile device: the first five data bytes into bytes 0.. of address `a` (R249). -/
def regFileWrite (m : Memory) (a : RegAddr) (data : List Byte) : Memory :=
  Memory.writeBytes m (regFileCell a 0) (data.take 5)

end Sys2Proof.Machine
end

