-- ==== Sys2Proof/Machine/Operands.lean ====
section
/-! DEFINITION. The values the operations compute from their operands and from the configuration: the check of R11, the
bytes `init` writes (R166, R167), the CONFIG bytes of the state arms (R172–R177), buffers and messages (R205, R206). -/

namespace Sys2Proof.Machine

/-- The bytes of an address, index 0 first (R73). -/
def addrBytes (a : Addr5) : List Byte := [a.b0, a.b1, a.b2, a.b3, a.b4]

/-- A configuration is well-formed (R11). -/
def cfgWellFormed (c : Cfg) : Bool := decide (c.channel.toNat ≤ 125) && (!c.autoAck || decide (c.txAddr = c.rxAddr))

/-- `config_init` of R166. -/
def configInit (c : Cfg) : Byte :=
  flagBit (!c.irqRxEn) 6 ||| flagBit (!c.irqTxEn) 5 ||| flagBit (!c.irqRtEn) 4 ||| flagBit c.crcEn 3 |||
    bit 2 ||| bit 1 ||| bit 0

/-- `dr` of R166. -/
def dataRateBits : DataRate → Byte
  | .r250K => 0x20
  | .r1M => 0x00
  | .r2M => 0x08

/-- `pwr` of R166. -/
def powerBits : Power → Byte
  | .pMin => 0b00
  | .pLow => 0b01
  | .pHigh => 0b10
  | .pMax => 0b11

/-- `rf_setup` of R166. -/
def rfSetupByte (c : Cfg) : Byte :=
  flagBit Config.contWave 7 ||| dataRateBits c.dataRate ||| (powerBits c.power <<< 1)

/-- `feature` of R167. -/
def featureByte (c : Cfg) : FeatureGating → Byte
  | .perFlag => flagBit c.dynPayload 2 ||| flagBit c.autoAck 1 ||| flagBit c.dynPayload 0
  | .allOnDyn => if c.dynPayload then 0x07 else 0x00

/-- The all-pipes byte of `init` steps 6 and 12 (R165). -/
def allPipes (on : Bool) : Byte := if on then 0x3F else 0x00

/-- SETUP_RETR of `init` step 7: 4000 µs, 1 retry (R165). -/
def setupRetrInit : Byte := 0xF1

/-- Set the bits of `m` in `c`. -/
def setBits (c m : Byte) : Byte := c ||| m

/-- Clear the bits of `m` in `c`. -/
def clearBits (c m : Byte) : Byte := c &&& ~~~m

/-- CONFIG.PWR_UP as a mask. -/
def pwrUpMask : Byte := 0x02

/-- CONFIG.PRIM_RX as a mask. -/
def primRxMask : Byte := 0x01

/-- CONFIG.MASK_RX_DR as a mask. -/
def maskRxDrMask : Byte := 0x40

/-- The payload command of `sendMessage` step 4 (R201). -/
def sendCommand (c : Cfg) : Byte := if c.autoAck then 0xA0 else 0xB0

/-- Write received bytes into the receive buffer from index 0; the bytes above keep their values (R89). -/
def overlay (ins : List Byte) (buf : Vector Byte 33) : Vector Byte 33 :=
  ⟨(((ins ++ buf.toList.drop ins.length).take 33) ++
      List.replicate (33 - (ins ++ buf.toList.drop ins.length).length) 0).toArray, by simp; omega⟩

/-- The index in `rxbuf` at which the payload starts under each framing (R206, R208). -/
def payloadStart : RxReadFraming → Nat
  | .commandInBurst => 1
  | .commandThenBurst => 0

/-- `decode(w, rxbuf)` of R206, and of R208 under the other framing. -/
def decodeMessage (framing : RxReadFraming) (w : Nat) (buf : List Byte) : Result :=
  if w = 0 ∨ buf.getD (payloadStart framing) 0 = 0 then .failure
  else .message ((buf.drop (payloadStart framing)).take w)

/-- `text` of R206: the bytes before the first 0x00. -/
def textOf (m : List Byte) : List Byte := m.takeWhile (· ≠ 0)

/-- The MOSI bytes of `readMessage` step 3 in place: the command byte, then the old contents of `rxbuf` (R205). -/
def burstOut (w : Nat) (buf : Vector Byte 33) : List Byte := 0x61 :: (buf.toList.take (w + 1)).drop 1

end Sys2Proof.Machine
end

