-- ==== Sys2Proof/Machine/Ops.lean ====
section
/-! DEFINITION. The named operations every instruction is written in: the interrupt (R280–R284), the environment's
choices (R230, R248, R261, R283), the pins (R13, R20), the byte exchange (R120–R126), the device's answers and commits
under each device model (R230–R232, R249), the transaction primitives (R135–R139), and the sequencer's start and end
(R24). -/

namespace Sys2Proof.Machine

/-! ### Trace and sequencer -/

/-- Append an event to the trace (R14). -/
def record (e : Event) (s : State) : State := { s with trace := s.trace ++ [e] }

/-- Append an event of the controller and move to the next step (R13, R24, log 6). -/
def emit (e : Event) (s : State) : State := { s with trace := s.trace ++ [e], pc := s.pc + 1 }

/-- A step of the controller that writes one of its own registers, and is no event: `pc` alone moves (R24, log 6). -/
def tick (s : State) : State := { s with pc := s.pc + 1 }

/-- A new operation starts with `pc = 0` (R24). -/
def begin (i : Instr) (s : State) : State := { s with op := some i, pc := 0 }

/-- The last step completes: the sequencer is Idle and the operation's return value stands (R15, R24). -/
def finish (r : Result) (s : State) : State := { s with op := none, result := some r }

/-! ### The interrupt -/

/-- Sample the IRQ pin: a falling edge is latched once `int_en` is set, and the level is kept (R280). -/
def sense (level : Bool) (s : State) : State :=
  { s with
    pins := { s.pins with irq := level }
    intr := { s.intr with
      edgeLatch := s.intr.edgeLatch || (s.intr.irqPrev && !level && s.intr.intEn)
      irqPrev := level } }

/-- The device holds IRQ low by an RX_DR raised during the send under way, and by no other flag, and the wider reading of
R204 (e) is chosen (log 35). Never with the default parameters. -/
def spared (s : State) : Bool :=
  match s.params.deviceModel, s.params.sendUnmask with
  | .reference, .spared => s.intr.muted && s.ref.onlyRxDr
  | .reference, .taken => false
  | .oracle, _ => false
  | .regFile, _ => false

/-- The controller's sample of the level the device drives: R280, less the one edge that the wider reading of R204 (e)
leaves out (log 35). -/
def sample (level : Bool) (s : State) : State :=
  let t := sense level s
  { t with intr := { t.intr with edgeLatch := s.intr.edgeLatch || (t.intr.edgeLatch && !spared s) } }

/-- Entry into the notifier: the latch and the global enable are cleared (R281). -/
def notifierEnter (s : State) : State := { s with intr := { s.intr with edgeLatch := false, gie := false } }

/-- The notifier's body: set PendingReceiptFlag, nothing else (R281). -/
def notifierBody (s : State) : State := record .irq { s with intr := { s.intr with pending := true } }

/-- Return from the notifier: the global enable is set (R281, R284). -/
def notifierReturn (s : State) : State := { s with intr := { s.intr with gie := true } }

/-! ### The device between events -/

/-- Change the Reference device, if it is the one chosen (R230). -/
def onRef (f : RefDev → RefDev) (s : State) : State :=
  match s.params.deviceModel with
  | .reference => { s with ref := f s.ref }
  | .oracle => s
  | .regFile => s

/-- The level the chosen device drives on IRQ (R230, R249, R260). -/
def irqLevel (s : State) : Bool :=
  match s.params.deviceModel with
  | .oracle => s.pins.irq
  | .regFile => true
  | .reference => s.ref.irqOut

/-- After every event and every advance of time the mode rules are re-evaluated (R250), IRQ is recomputed (R260) and
the controller samples it (R280). -/
def refresh (s : State) : State :=
  let t := onRef (fun d => d.settle s.pins.ce.isHigh) s
  sample (irqLevel t) t

/-! ### The environment -/

/-- The record of packets, by which R262 couples two blocks: what the choice is to the device as it stands (log 39). -/
def noteAir (a : WorldAct) (s : State) : State :=
  match s.params.deviceModel with
  | .reference => { s with air := s.air ++ (s.ref.airEvent a).toList }
  | .oracle => s
  | .regFile => s

/-- What a choice does to the chosen device (R230, R248, R261). -/
def worldEffect (s : State) : WorldAct → State
  | .elapse us => refresh (onRef (fun d => d.advance us) s)
  | .irqLevel level =>
    match s.params.deviceModel with
    | .oracle => sense level s
    | .regFile => s
    | .reference => s
  | .rx p payload wantsAck => refresh (onRef (fun d => d.rx p payload wantsAck) s)
  | .txOk retries ackPayload => refresh (onRef (fun d => d.txOk s.pins.ce.isHigh retries ackPayload) s)
  | .txFail => refresh (onRef (fun d => d.txFail s.pins.ce.isHigh) s)
  | .missed _ _ => s
  | .hold => onRef (fun d => d.hold true) s
  | .release => refresh (onRef (fun d => d.hold false) s)

/-- One thing that happens in the world (R230, R248, R261). -/
def applyWorld (s : State) (a : WorldAct) : State := worldEffect (noteAir a s) a

/-- Taking the interrupt: entry, body, return (R281). What happens in the world while it runs may latch an edge again,
which it does not serve (R284). -/
def takeInterrupt (during : List WorldAct) (s : State) : State :=
  notifierReturn (notifierBody (during.foldl applyWorld (notifierEnter s)))

/-- The notifier runs while an edge is latched and interrupts are enabled (R283). -/
def notify (during : List WorldAct) (s : State) : State :=
  if s.intr.edgeLatch && s.intr.gie then takeInterrupt during s else during.foldl applyWorld s

/-- One choice of the environment (R230, R248, R261, R283). -/
def applyAct (s : State) : EnvAct → State
  | .world a => applyWorld s a
  | .notify during => notify during s

/-- The environment puts nothing off any longer (R248). -/
def letGo (s : State) : State := refresh (onRef (fun d => d.hold false) s)

/-- A point of the environment (R230, R248, R283): it makes its next group of choices (log 3). Once it has none left, it
puts nothing off any longer, and a latched edge is taken (log 16, log 17). -/
def envSlot (s : State) : State :=
  match s.env with
  | [] => notify [] (letGo s)
  | g :: rest => g.foldl applyAct { s with env := rest }

/-! ### Pins and waits -/

/-- The device sees CSN fall (R232). -/
def csnFall (s : State) : State := { s with link := { s.link with inTxn := true, idx := 0, data := [] } }

/-- The chosen device applies the command of the window that ends (R232, R249). -/
def commitDevice (s : State) : State :=
  match s.params.deviceModel with
  | .oracle => s
  | .regFile =>
    if s.link.idx ≠ 0 ∧ isWriteCmd s.link.cmd then
      { s with regFile := regFileWrite s.regFile (cmdAddr s.link.cmd) s.link.data }
    else s
  | .reference => { s with ref := s.ref.commit s.link.cmd s.link.data s.link.idx }

/-- The device sees CSN rise: an open transaction commits and ends (R232). -/
def csnRise (s : State) : State :=
  if s.link.inTxn then
    let t := commitDevice s
    { t with link := { t.link with inTxn := false } }
  else s

/-- `CSN <- level` (R13, R20). -/
def setCsn (level : Bool) (s : State) : State :=
  let s1 := envSlot s
  let s2 := emit (.csn level) { s1 with pins := { s1.pins with csn := .driven level } }
  refresh (if level then csnRise s2 else csnFall s2)

/-- An event that depends on the end of the start-up time is next: it is put off no longer (R248, log 17). -/
def fireDue (s : State) : State := refresh (onRef RefDev.fireDue s)

/-- `CE <- level` (R13, R20). What the device does on it depends on the end of its start-up time (R253). -/
def setCe (level : Bool) (s : State) : State :=
  let s1 := fireDue (envSlot s)
  refresh (emit (.ce level) { s1 with pins := { s1.pins with ce := .driven level } })

/-- `Wait(us)`: at least `us` µs pass (R248, R320). The environment has a point before it and a point inside it (R283);
what passes there counts, and what passes beyond is its choice. That `W(us)` is recorded at the wait's end, after the mark
of a notifier that ran inside it, is the model's choice (R14, log 4). -/
def waitFor (us : Nat) (s : State) : State :=
  let s1 := envSlot s
  let s2 := envSlot s1
  refresh (emit (.wait us) (onRef (fun d => d.advance (us - (s2.ref.now - s1.ref.now))) s2))

/-! ### The byte exchange -/

/-- A free byte (log 2). -/
def draw (s : State) : Byte × State := (Config.freeByte s.draws, { s with draws := s.draws + 1 })

/-- The Oracle's next answer: the next input of the run, or a free byte when no input is left (R230, log 1). -/
def oracleByte (s : State) : Byte × State :=
  match s.oracleMiso with
  | [] => draw s
  | b :: rest => (b, { s with oracleMiso := rest })

/-- A byte the device gives, or a draw. -/
def orDraw (b : Option Byte) (s : State) : Byte × State :=
  match b with
  | some v => (v, s)
  | none => draw s

/-- What the RegFile device answers at the current byte of the window; none is a draw (R249, log 25). -/
def regFileAnswer (s : State) : Option Byte :=
  if s.link.idx = 0 then some (Memory.read s.regFile (regFileCell 0x07 0))
  else if isReadCmd s.link.cmd then regFileRead s.regFile (cmdAddr s.link.cmd) (s.link.idx - 1)
  else if s.link.cmd = 0x60 ∨ s.link.cmd = 0x61 then some 0x00
  else none

/-- What the Reference device answers at the current byte of the window; none is a draw (R231, R232). -/
def referenceAnswer (s : State) : Option Byte :=
  if s.link.idx = 0 then some s.ref.statusByte else s.ref.miso s.link.cmd (s.link.idx - 1)

/-- The MISO byte of the next exchange. Outside a window no device drives MISO, and the byte is a draw (R126, R232). -/
def answer (s : State) : Byte × State :=
  if s.link.inTxn then
    match s.params.deviceModel with
    | .oracle => oracleByte s
    | .regFile => orDraw (regFileAnswer s) s
    | .reference => orDraw (referenceAnswer s) s
  else draw s

/-- One bit of `Xfer`: MOSI is set up while SCK is 0, both sides sample on the rising edge, SCK falls (R121). -/
def shiftBit (i : Byte) (s : State) (k : Nat) : State :=
  { s with
    pins := { s.pins with mosi := .driven (bitAt s.shifter.shOut k), sck := .driven false, miso := bitAt i k }
    shifter := { s.shifter with
      shIn := if bitAt i k then s.shifter.shIn ||| bit k else s.shifter.shIn &&& ~~~(bit k)
      bitcnt := 8 - k } }

/-- A point of the environment, then one bit (R78, R283). -/
def nextBit (i : Byte) (s : State) (k : Nat) : State := shiftBit i (envSlot s) k

/-- The eight bits of `Xfer`, most significant first (R121). MISO's byte stands from the byte's start (R231). -/
def shiftByte (o i : Byte) (s : State) : State :=
  let t := [7, 6, 5, 4, 3, 2, 1, 0].foldl (nextBit i) { s with shifter := { s.shifter with shOut := o, shIn := 0 } }
  { t with shifter := { t.shifter with bitcnt := 0 } }

/-- The device takes the MOSI byte into the window's framing (R232). -/
def linkTake (o : Byte) (s : State) : State :=
  if s.link.inTxn then
    (if s.link.idx = 0 then { s with link := { s.link with cmd := o, idx := 1 } }
     else { s with link := { s.link with data := s.link.data ++ [o], idx := s.link.idx + 1 } })
  else s

/-- `Xfer(o)` (R121): the byte captured from MISO, and the state after it. -/
def xfer (o : Byte) (s : State) : Byte × State :=
  let a := answer (envSlot s)
  (a.1, refresh (linkTake o (emit (.x o a.1) (shiftByte o a.1 a.2))))

/-- Successive exchanges, index 0 first (R73, R124): the bytes captured, and the state after them. -/
def exchange : List Byte → State → List Byte × State
  | [], s => ([], s)
  | o :: os, s =>
    let r := xfer o s
    let q := exchange os r.2
    (r.1 :: q.1, q.2)

/-- `n` exchanges of fill bytes, each a draw (R136). -/
def readBytes : Nat → State → List Byte × State
  | 0, s => ([], s)
  | n + 1, s =>
    let f := draw s
    let r := xfer f.1 f.2
    let q := readBytes n r.2
    (r.1 :: q.1, q.2)

/-! ### Transactions -/

/-- The command byte of a window: CSN falls, and `x[status]` takes the MISO byte (R139, R150). -/
def openWindow (c : Byte) (s : State) : State :=
  let r := xfer c (setCsn false s)
  { r.2 with regs := { r.2.regs with status := r.1 } }

/-- A window that sends `out` after its command byte and ignores the answers (R137, R139). -/
def writeTx (c : Byte) (out : List Byte) (s : State) : State :=
  setCsn true (exchange out (openWindow c s)).2

/-- A window that reads `n` bytes after its command byte (R135, R139). -/
def readTx (c : Byte) (n : Nat) (s : State) : List Byte × State :=
  let q := readBytes n (openWindow c s)
  (q.1, setCsn true q.2)

/-- A window whose MOSI bytes are given and whose answers are kept (R95, R101, R205). -/
def burstTx (c : Byte) (out : List Byte) (s : State) : List Byte × State :=
  let q := exchange out (openWindow c s)
  (q.1, setCsn true q.2)

/-- The register read transaction (R135). -/
def readReg (addr n : Nat) (s : State) : List Byte × State := readTx (cmdReg opRead (maskAddr addr)) n s

/-- The register write transaction (R137). -/
def writeReg (addr : Nat) (buf : List Byte) (s : State) : State := writeTx (cmdReg opWrite (maskAddr addr)) buf s

/-- A 1-byte register read inside an operation: `x[tmp]` takes the data byte (R22). -/
def readTmp (addr : Nat) (s : State) : Byte × State :=
  let q := readReg addr 1 s
  (q.1.headD 0, tick { q.2 with regs := { q.2.regs with tmp := q.1.headD 0 } })

/-- FLUSH_TX as a transaction (R140). -/
def flushTxOp (s : State) : State := writeTx 0xE1 [] s

/-- FLUSH_RX as a transaction (R141). -/
def flushRxOp (s : State) : State := writeTx 0xE2 [] s

/-! ### Requests -/

/-- The end of an operation with its return value and state. -/
def finishWith (r : Result × State) : State := finish r.1 r.2

/-- A request: refused before `init` (R25, R290), else the operation runs to its end. -/
def runRequest (i : Instr) (body : State → Result × State) (s : State) : Host.Outcome State Fault Refusal :=
  if s.initialised then .next (finishWith (body (begin i s)))
  else .refused .notInitialised

/-- A request with a buffer and a count: refused before `init`, then for a short buffer (R103, R292). -/
def runBuffered (i : Instr) (buf : List Byte) (n : Nat) (body : State → Result × State) (s : State) :
    Host.Outcome State Fault Refusal :=
  if s.initialised then
    (if n ≤ buf.length then .next (finishWith (body (begin i s))) else .refused .shortBuffer)
  else .refused .notInitialised

/-- A transaction of the wire level with its MOSI bytes; its answers are the result (R95, R101, log 12). -/
def wireBody (c : Byte) (data : List Byte) (s : State) : Result × State :=
  let q := burstTx c data s
  (.statusBytes q.2.regs.status q.1, q.2)

/-- The controller's reset without a power cycle of the device (R310, R311): the device, the pins' IRQ level, the
configuration and the inputs stay. A send that it cuts off mutes RX_DR no longer
(log 35). -/
def controllerReset (s : State) : State :=
  { State.reset with
    cfg := s.cfg
    params := s.params
    pins := { State.reset.pins with irq := s.pins.irq }
    intr := { State.reset.intr with irqPrev := s.pins.irq }
    link := s.link
    ref := s.ref
    regFile := s.regFile
    env := s.env
    oracleMiso := s.oracleMiso
    draws := s.draws
    requests := s.requests
    trace := s.trace
    air := s.air }

end Sys2Proof.Machine
end

