-- ==== Sys2Proof/Machine/Bus.lean ====
section
/-! DEFINITION. The meanings of the bus primitives (40_bus_transport.md). They touch neither CSN nor CE (R126). -/

namespace Sys2Proof.Machine

/-- The body of `exchangeByte` (R120). -/
def exchangeByteBody (out : Byte) (s : State) : Result × State :=
  let r := xfer out s
  (.byte r.1, r.2)

/-- `exchangeByte(out)` (R120). -/
def execExchangeByte (out : Byte) (s : State) : Host.Outcome State Fault Refusal :=
  runRequest (.exchangeByte out) (exchangeByteBody out) s

/-- The body of `exchangeBurst`: the first `count` bytes are exchanged in place, the others stay (R124). -/
def exchangeBurstBody (buf : List Byte) (count : Nat) (s : State) : Result × State :=
  let q := exchange (buf.take count) s
  (.bytes (q.1 ++ buf.drop count), q.2)

/-- `exchangeBurst(buf, count)` (R124). -/
def execExchangeBurst (buf : List Byte) (count : Nat) (s : State) : Host.Outcome State Fault Refusal :=
  runBuffered (.exchangeBurst buf count) buf count (exchangeBurstBody buf count) s

end Sys2Proof.Machine
end

