-- ==== Sys2Proof/Machine/Radio.lean ====
section
/-! DEFINITION. The meanings of the radio state machine (42_radio_state_machine.md): `init`, the six `applyState` targets
and `startListening`. -/

namespace Sys2Proof.Machine

/-! ### init -/

/-- `init` step 1: falling-edge detection and the global interrupt enable (R165). -/
def enableInterrupts (s : State) : State := tick (tick { s with intr := { s.intr with intEn := true, gie := true } })

/-- `init` step 3, the bus initialisation of R127. The level it leaves MOSI at is unspecified (R20), so it is drawn
(log 2). -/
def busInit (s : State) : State :=
  let f := draw s
  tick { f.2 with
    pins := { f.2.pins with sck := .driven false, mosi := .driven (bitAt f.1 0) }
    shifter := { f.2.shifter with bitcnt := 0 } }

/-- `init` steps 1–4 (R165). -/
def initPins (s : State) : State := waitFor Config.tPor (busInit (setCsn true (setCe false (enableInterrupts s))))

/-- `init` steps 5–10 (R165–R167). -/
def initRadio (c : Cfg) (s : State) : State :=
  let s5 := writeReg 0x00 [configInit c] s
  let s6 := writeReg 0x01 [allPipes c.autoAck] s5
  let s7 := writeReg 0x04 [setupRetrInit] s6
  let s8 := writeReg 0x02 [0x00] s7
  let s9 := writeReg 0x05 [c.channel] s8
  writeReg 0x06 [rfSetupByte c] s9

/-- `init` steps 11–14 (R165, R167). -/
def initFeatures (c : Cfg) (gating : FeatureGating) (s : State) : State :=
  let s11 := writeReg 0x07 [0x70] s
  let s12 := writeReg 0x1C [allPipes c.dynPayload] s11
  let s13 := writeReg 0x1D [featureByte c gating] s12
  flushRxOp (flushTxOp s13)

/-- `init` steps 15 and 16 (R165). -/
def initAddresses (c : Cfg) (s : State) : State :=
  let s15 := writeReg 0x10 (addrBytes c.txAddr) (writeReg 0x0A (addrBytes c.rxAddr) s)
  let r := readTmp 0x02 s15
  writeReg 0x02 [setBits r.1 (bit Config.rxPipe)] r.2

/-- The whole body of `init` (R165). -/
def initBody (s : State) : State :=
  let t := initAddresses s.cfg (initFeatures s.cfg s.params.featureGating (initRadio s.cfg (initPins s)))
  tick { t with initialised := true }

/-- `init()` (R165). -/
def execInit (s : State) : Host.Outcome State Fault Refusal :=
  if cfgWellFormed s.cfg then .next (finish .unit (initBody (begin .init s))) else .refused .illFormedConfig

/-! ### applyState -/

/-- The arm of PowerUp (R172). -/
def armPowerUp (c : Byte) (s : State) : State :=
  if bitAt c 1 then s else waitFor Config.tPwrup (writeReg 0x00 [setBits c pwrUpMask] s)

/-- The arm of PowerDown (R173). -/
def armPowerDown (c : Byte) (s : State) : State := writeReg 0x00 [clearBits c pwrUpMask] s

/-- The arm of Receiving (R174). -/
def armReceiving (c : Byte) (s : State) : State := writeReg 0x07 [0x70] (writeReg 0x00 [setBits c primRxMask] s)

/-- The arm of Transmitting (R175). -/
def armTransmitting (c : Byte) (s : State) : State := writeReg 0x00 [clearBits c primRxMask] s

/-- The arm of StandbyI (R176). -/
def armStandbyI (s : State) : State := setCe false s

/-- The arm of StandbyII (R177). -/
def armStandbyII (c : Byte) (s : State) : State :=
  waitFor Config.tSettle (setCe true (writeReg 0x00 [clearBits c primRxMask] s))

/-- The arm of a target, given the CONFIG byte read (R171–R177). -/
def applyArm (t : OperatingState) (c : Byte) (s : State) : State :=
  match t with
  | .powerUp => armPowerUp c s
  | .powerDown => armPowerDown c s
  | .receiving => armReceiving c s
  | .transmitting => armTransmitting c s
  | .standbyI => armStandbyI s
  | .standbyII => armStandbyII c s

/-- `applyState(t)`: read CONFIG, run the arm, note the target (R170, R178). -/
def applyState (t : OperatingState) (s : State) : State :=
  let r := readTmp 0x00 s
  tick { applyArm t r.1 r.2 with lastTarget := some t }

/-- The end of `startListening`, once Receiving is applied: CE raised, 150 µs (R179). -/
def startReceiver (s : State) : State := waitFor Config.tSettle (setCe true s)

/-- `startListening()` as a step list (R179). -/
def startListeningBody (s : State) : State := startReceiver (applyState .receiving s)

/-- An operation that returns nothing. -/
def unitResult (s : State) : Result × State := (.unit, s)

/-- `applyState(PowerUp)` (R172). -/
def execApplyPowerUp (s : State) : Host.Outcome State Fault Refusal :=
  runRequest .applyPowerUp (fun t => unitResult (applyState .powerUp t)) s

/-- `applyState(PowerDown)` (R173). -/
def execApplyPowerDown (s : State) : Host.Outcome State Fault Refusal :=
  runRequest .applyPowerDown (fun t => unitResult (applyState .powerDown t)) s

/-- `applyState(Receiving)` (R174). -/
def execApplyReceiving (s : State) : Host.Outcome State Fault Refusal :=
  runRequest .applyReceiving (fun t => unitResult (applyState .receiving t)) s

/-- `applyState(Transmitting)` (R175). -/
def execApplyTransmitting (s : State) : Host.Outcome State Fault Refusal :=
  runRequest .applyTransmitting (fun t => unitResult (applyState .transmitting t)) s

/-- `applyState(StandbyI)` (R176). -/
def execApplyStandbyI (s : State) : Host.Outcome State Fault Refusal :=
  runRequest .applyStandbyI (fun t => unitResult (applyState .standbyI t)) s

/-- `applyState(StandbyII)` (R177). -/
def execApplyStandbyII (s : State) : Host.Outcome State Fault Refusal :=
  runRequest .applyStandbyII (fun t => unitResult (applyState .standbyII t)) s

/-- `startListening()` (R179). -/
def execStartListening (s : State) : Host.Outcome State Fault Refusal :=
  runRequest .startListening (fun t => unitResult (startListeningBody t)) s

end Sys2Proof.Machine
end

