-- ==== Sys2Proof/Machine/LinkProtocol.lean ====
section
/-! DEFINITION. The meanings of the link protocol (43_link_protocol.md): `sendMessage` with its polling loop,
`readMessage`, `available`, and the pending flag. -/

namespace Sys2Proof.Machine

/-! ### sendMessage -/

/-- Whether an RX_DR raised from now on is of a packet received during a send (R204 (e), log 35). -/
def mute (muted : Bool) (s : State) : State := { s with intr := { s.intr with muted := muted } }

/-- From here on a packet received is one of R204 (e). An RX_DR that stands already is no such packet's (log 35). -/
def muteRx (s : State) : State := mute (!s.ref.regs.rxDr) s

/-- Steps 1–3: Transmitting, the two flushes, TX_DS cleared, RX_DR masked (R201, R204 (e)). -/
def sendPrepare (s : State) : State :=
  let s1 := applyState .transmitting s
  let s2 := writeReg 0x07 [0x20] (flushTxOp (flushRxOp s1))
  let r := readTmp 0x00 s2
  muteRx (writeReg 0x00 [setBits r.1 maskRxDrMask] r.2)

/-- Step 4: the payload and its pad byte (R201). -/
def sendPayload (p : List Byte) (s : State) : State := writeTx (sendCommand s.cfg) (p ++ [Config.padByte]) s

/-- Step 5: the CE pulse, and the poll count of step 6 cleared (R201). -/
def sendPulse (s : State) : State :=
  let t := setCe false (waitFor Config.tCePulse (setCe true s))
  tick { t with regs := { t.regs with pollCount := 0 } }

/-- Steps 1–5 (R201). -/
def sendStart (p : List Byte) (s : State) : State := sendPulse (sendPayload p (sendPrepare s))

/-- What one pass of the loop of step 6 decides: go round again, or leave with a result (R201–R203). -/
inductive PollNext where
  | again
  | leave (r : Result)
deriving DecidableEq, Repr

/-- The decision on a polled STATUS byte, in the order of R292: TX_DS, then MAX_RT, then the bound. `count` is how many
reads were made, this one included (R201–R203). -/
def pollDecision (p : Params) (b : Byte) (count : Nat) : PollNext :=
  if bitAt b 5 then .leave .sent
  else if p.checkMaxRt && bitAt b 4 then .leave (.err .maxRetransmitExceeded)
  else
    match p.pollBound with
    | none => .again
    | some bound => if bound ≤ count then .leave (.err (.radioNotResponding bound)) else .again

/-- `poll_count` after a pass that saw neither flag: counted only when `POLL_BOUND` is set (R201). -/
def countPoll (p : Params) (b : Byte) (s : State) : State :=
  if bitAt b 5 || (p.checkMaxRt && bitAt b 4) || p.pollBound.isNone then s
  else tick { s with regs := { s.regs with pollCount := s.regs.pollCount + 1 } }

/-- Steps 7–8: RX_DR unmasked, listening resumed (R201). Unmasking an RX_DR that is set is an edge (R260,
log 35). Step 8 has cleared RX_DR when the receiver starts, so the next packet raises an edge of its own (R204 (e)). -/
def sendRestore (s : State) : State :=
  let r := readTmp 0x00 s
  startReceiver (mute false (applyState .receiving (writeReg 0x00 [clearBits r.1 maskRxDrMask] r.2)))

/-- One pass of step 6 from POLL, and steps 7–9 if the loop ends; else `pc` goes back to POLL and the operation is
still in progress (R24, R201, log 5). -/
def pollPass (s : State) : State :=
  let r := readTmp 0x07 s
  match pollDecision s.params r.1 (s.regs.pollCount + 1) with
  | .again => { countPoll s.params r.1 r.2 with pc := s.pc }
  | .leave res => finish res (sendRestore (countPoll s.params r.1 r.2))

/-- `sendMessage(p)` (R200, R201). The payload check is after the `NotInitialised` check (R292). -/
def execSendMessage (p : List Byte) (s : State) : Host.Outcome State Fault Refusal :=
  if s.initialised then
    (if p.length ≤ Config.payloadMax then .next (pollPass (sendStart p (begin (.sendMessage p) s)))
     else .next { s with result := some (.err (.payloadTooLarge p.length)) })
  else .refused .notInitialised

/-! ### readMessage -/

/-- Step 1: the ACK payload, if auto-acknowledge is configured (R205). -/
def readAck (s : State) : State := if s.cfg.autoAck then writeTx (cmdPipe 0) [Config.ackByte] s else s

/-- Step 2: the payload width in `x[len]` (R205). -/
def readWidth (s : State) : State :=
  let q := readTx 0x60 1 s
  tick { q.2 with regs := { q.2.regs with len := q.1.headD 0 } }

/-- `rxbuf[0] <- 0x61`, the command byte of the burst in place (R205). -/
def placeCommand (s : State) : State := tick { s with regs := { s.regs with rxbuf := overlay [0x61] s.regs.rxbuf } }

/-- Step 3 under `CommandInBurst`: `w + 1` exchanges in place, index 0 being the command byte and then STATUS (R205). -/
def drainInBurst (w : Nat) (s : State) : State :=
  let q := burstTx 0x61 (burstOut w s.regs.rxbuf).tail (placeCommand s)
  { q.2 with regs := { q.2.regs with rxbuf := overlay (q.2.regs.status :: q.1) q.2.regs.rxbuf } }

/-- Step 3 under `CommandThenBurst`: the command, then `w + 1` data bytes (R208). -/
def drainThenBurst (w : Nat) (s : State) : State :=
  let q := readTx 0x61 (w + 1) s
  { q.2 with regs := { q.2.regs with rxbuf := overlay q.1 q.2.regs.rxbuf } }

/-- Step 3, only for a width over 0 (R205, R208). -/
def drain (w : Nat) (s : State) : State :=
  if w = 0 then s
  else
    match s.params.rxReadFraming with
    | .commandInBurst => drainInBurst w s
    | .commandThenBurst => drainThenBurst w s

/-- Steps 4 and 5: RX_DR cleared, the message decoded (R205, R206). -/
def readFinish (w : Nat) (s : State) : Result × State :=
  let t := writeReg 0x07 [0x40] s
  (decodeMessage t.params.rxReadFraming w t.regs.rxbuf.toList, t)

/-- The fault of R286: the sequencer stops inside the operation, for ever, with what it did standing. -/
def stopped (f : Fault) (s : State) : State := { s with result := some (.fault f) }

/-- `readMessage` from its width on (R205, R207): a width over 32 is the fault of R286. -/
def readRest (s : State) : State :=
  if s.regs.len.toNat ≤ Config.rxBufCap - 1 then finishWith (readFinish s.regs.len.toNat (drain s.regs.len.toNat s))
  else stopped (.rxWidthOverflow s.regs.len.toNat) s

/-- `readMessage()` (R205). -/
def execReadMessage (s : State) : Host.Outcome State Fault Refusal :=
  if s.initialised then .next (readRest (readWidth (readAck (begin .readMessage s)))) else .refused .notInitialised

/-! ### available and the pending flag -/

/-- The body of `available` (R209). -/
def availableBody (s : State) : Result × State :=
  let r := readTmp 0x17 s
  (.flag (!bitAt r.1 0), r.2)

/-- `available()` (R209). -/
def execAvailable (s : State) : Host.Outcome State Fault Refusal := runRequest .available availableBody s

/-- `readPending()` (R213). -/
def execReadPending (s : State) : Host.Outcome State Fault Refusal :=
  runRequest .readPending (fun t => (.flag t.intr.pending, tick t)) s

/-- `clearPending()` (R214). -/
def execClearPending (s : State) : Host.Outcome State Fault Refusal :=
  runRequest .clearPending (fun t => unitResult (tick { t with intr := { t.intr with pending := false } })) s

/-! ### An operation in progress -/

/-- The environment still has something to do: a choice of its own, or a latched edge to be taken (R283). -/
def envMoves (s : State) : Bool := !s.env.isEmpty || (s.intr.edgeLatch && s.intr.gie)

/-- A stopped sequencer: the notifier still takes edges and the device goes on (R292); when nothing is left of that, the
machine has stopped with its fault (R286, log 15). -/
def stay (f : Fault) (s : State) : Host.Outcome State Fault Refusal := if envMoves s then .next (envSlot s) else .fault f

/-- The operation in progress goes on at its `pc` (R24). Only the polling loop of `sendMessage` is ever left in
progress, and a `readMessage` that stopped (log 5). -/
def resume (i : Instr) (s : State) : Host.Outcome State Fault Refusal :=
  match i with
  | .sendMessage _ => .next (pollPass s)
  | .readMessage =>
    if s.regs.len.toNat ≤ Config.rxBufCap - 1 then .fault .noSuchStep else stay (.rxWidthOverflow s.regs.len.toNat) s
  | _ => .fault .noSuchStep

end Sys2Proof.Machine
end

