-- ==== Sys2Proof/Machine/Register.lean ====
section
/-! DEFINITION. The meanings of the register access layer and the special commands (41_register_access.md). Each returns
the STATUS byte its command byte brought (R150). -/

namespace Sys2Proof.Machine

/-- The result of a transaction that reads: STATUS and the data bytes (R135, R142). -/
def readResult (q : List Byte × State) : Result × State := (.statusBytes q.2.regs.status q.1, q.2)

/-- The result of a transaction that only sends: STATUS (R137, R139). -/
def statusResult (s : State) : Result × State := (.status s.regs.status, s)

/-- The result of `readRxPayloadWidth`: STATUS and the width (R146). -/
def widthResult (q : List Byte × State) : Result × State := (.statusByte q.2.regs.status (q.1.headD 0), q.2)

/-- `readRegister(addr, n)` (R135, R136). -/
def execReadRegister (addr n : Nat) (s : State) : Host.Outcome State Fault Refusal :=
  runRequest (.readRegister addr n) (fun t => readResult (readReg addr n t)) s

/-- `writeRegister(addr, buf, n)` (R137, R138). -/
def execWriteRegister (addr : Nat) (buf : List Byte) (n : Nat) (s : State) : Host.Outcome State Fault Refusal :=
  runBuffered (.writeRegister addr buf n) buf n (fun t => statusResult (writeReg addr (buf.take n) t)) s

/-- `flushTx` (R140). -/
def execFlushTx (s : State) : Host.Outcome State Fault Refusal :=
  runRequest .flushTx (fun t => statusResult (flushTxOp t)) s

/-- `flushRx` (R141). -/
def execFlushRx (s : State) : Host.Outcome State Fault Refusal :=
  runRequest .flushRx (fun t => statusResult (flushRxOp t)) s

/-- `readRxPayload(n)` (R142). -/
def execReadRxPayload (n : Nat) (s : State) : Host.Outcome State Fault Refusal :=
  runRequest (.readRxPayload n) (fun t => readResult (readTx 0x61 n t)) s

/-- `writeTxPayload(buf, n)` (R143). -/
def execWriteTxPayload (buf : List Byte) (n : Nat) (s : State) : Host.Outcome State Fault Refusal :=
  runBuffered (.writeTxPayload buf n) buf n (fun t => statusResult (writeTx 0xA0 (buf.take n) t)) s

/-- `writeTxPayloadNoAck(buf, n)` (R144). -/
def execWriteTxPayloadNoAck (buf : List Byte) (n : Nat) (s : State) : Host.Outcome State Fault Refusal :=
  runBuffered (.writeTxPayloadNoAck buf n) buf n (fun t => statusResult (writeTx 0xB0 (buf.take n) t)) s

/-- `writeAckPayload(buf, n)`, pipe 0 (R145). -/
def execWriteAckPayload (buf : List Byte) (n : Nat) (s : State) : Host.Outcome State Fault Refusal :=
  runBuffered (.writeAckPayload buf n) buf n (fun t => statusResult (writeTx (cmdPipe 0) (buf.take n) t)) s

/-- `readRxPayloadWidth()` (R146). -/
def execReadRxPayloadWidth (s : State) : Host.Outcome State Fault Refusal :=
  runRequest .readRxPayloadWidth (fun t => widthResult (readTx 0x60 1 t)) s

/-- `activate()` (R147). -/
def execActivate (s : State) : Host.Outcome State Fault Refusal :=
  runRequest .activate (fun t => statusResult (writeTx 0x50 [0x73] t)) s

/-- `nop()` (R148). -/
def execNop (s : State) : Host.Outcome State Fault Refusal :=
  runRequest .nop (fun t => statusResult (writeTx 0xFF [] t)) s

end Sys2Proof.Machine
end

