-- ==== Sys2Proof/Machine/Wire.lean ====
section
/-! DEFINITION. The meanings of the wire commands: one CSN-low window each, which the device commits when it ends
(R95, R232–R243). Before `init` the pins are not configured, and a window is refused as every request is (R25, R323). -/

namespace Sys2Proof.Machine

/-- R_REGISTER (R135, R233). -/
def execRRegisterCmd (a : RegAddr) (data : List Byte) (s : State) : Host.Outcome State Fault Refusal :=
  runRequest (.rRegisterCmd a data) (wireBody (cmdReg opRead a) data) s

/-- W_REGISTER (R137, R234). -/
def execWRegisterCmd (a : RegAddr) (data : List Byte) (s : State) : Host.Outcome State Fault Refusal :=
  runRequest (.wRegisterCmd a data) (wireBody (cmdReg opWrite a) data) s

/-- ACTIVATE (R147, R243). -/
def execActivateCmd (data : List Byte) (s : State) : Host.Outcome State Fault Refusal :=
  runRequest (.activateCmd data) (wireBody 0x50 data) s

/-- R_RX_PL_WID (R146, R242). -/
def execRRxPlWidCmd (data : List Byte) (s : State) : Host.Outcome State Fault Refusal :=
  runRequest (.rRxPlWidCmd data) (wireBody 0x60 data) s

/-- R_RX_PAYLOAD (R142, R238). -/
def execRRxPayloadCmd (data : List Byte) (s : State) : Host.Outcome State Fault Refusal :=
  runRequest (.rRxPayloadCmd data) (wireBody 0x61 data) s

/-- W_TX_PAYLOAD (R143, R239). -/
def execWTxPayloadCmd (data : List Byte) (s : State) : Host.Outcome State Fault Refusal :=
  runRequest (.wTxPayloadCmd data) (wireBody 0xA0 data) s

/-- W_ACK_PAYLOAD (R145, R241). -/
def execWAckPayloadCmd (p : BitVec 3) (data : List Byte) (s : State) : Host.Outcome State Fault Refusal :=
  runRequest (.wAckPayloadCmd p data) (wireBody (cmdPipe p) data) s

/-- W_TX_PAYLOAD_NOACK (R144, R240). -/
def execWTxPayloadNoAckCmd (data : List Byte) (s : State) : Host.Outcome State Fault Refusal :=
  runRequest (.wTxPayloadNoAckCmd data) (wireBody 0xB0 data) s

/-- FLUSH_TX (R140, R236). -/
def execFlushTxCmd (data : List Byte) (s : State) : Host.Outcome State Fault Refusal :=
  runRequest (.flushTxCmd data) (wireBody 0xE1 data) s

/-- FLUSH_RX (R141, R237). -/
def execFlushRxCmd (data : List Byte) (s : State) : Host.Outcome State Fault Refusal :=
  runRequest (.flushRxCmd data) (wireBody 0xE2 data) s

/-- REUSE_TX_PL (R149, R243). -/
def execReuseTxPlCmd (data : List Byte) (s : State) : Host.Outcome State Fault Refusal :=
  runRequest (.reuseTxPlCmd data) (wireBody 0xE3 data) s

/-- NOP (R148, R243). -/
def execNopCmd (data : List Byte) (s : State) : Host.Outcome State Fault Refusal :=
  runRequest (.nopCmd data) (wireBody 0xFF data) s

/-- A window whose command byte is reserved (R100): no row of the table names it, and the device still answers STATUS
and draws, and does nothing (R243; log 13). Before `init` it is refused too (R25). -/
def runReservedCommand (c : Byte) (data : List Byte) (s : State) : Host.Outcome State Fault Refusal :=
  if s.initialised then .next (finishWith (wireBody c data { s with pc := 0 })) else .refused .notInitialised

end Sys2Proof.Machine
end

