-- ==== Sys2Proof/Machine/Dispatch.lean ====
section
/-! DEFINITION. One arm per instruction, each one call of its meaning. -/

namespace Sys2Proof.Machine

def exec (i : Instr) (s : State) : Host.Outcome State Fault Refusal :=
  match i with
  | .rRegisterCmd a data => Sys2Proof.Machine.execRRegisterCmd a data s
  | .wRegisterCmd a data => Sys2Proof.Machine.execWRegisterCmd a data s
  | .activateCmd data => Sys2Proof.Machine.execActivateCmd data s
  | .rRxPlWidCmd data => Sys2Proof.Machine.execRRxPlWidCmd data s
  | .rRxPayloadCmd data => Sys2Proof.Machine.execRRxPayloadCmd data s
  | .wTxPayloadCmd data => Sys2Proof.Machine.execWTxPayloadCmd data s
  | .wAckPayloadCmd p data => Sys2Proof.Machine.execWAckPayloadCmd p data s
  | .wTxPayloadNoAckCmd data => Sys2Proof.Machine.execWTxPayloadNoAckCmd data s
  | .flushTxCmd data => Sys2Proof.Machine.execFlushTxCmd data s
  | .flushRxCmd data => Sys2Proof.Machine.execFlushRxCmd data s
  | .reuseTxPlCmd data => Sys2Proof.Machine.execReuseTxPlCmd data s
  | .nopCmd data => Sys2Proof.Machine.execNopCmd data s
  | .exchangeByte out => Sys2Proof.Machine.execExchangeByte out s
  | .exchangeBurst buf count => Sys2Proof.Machine.execExchangeBurst buf count s
  | .readRegister addr n => Sys2Proof.Machine.execReadRegister addr n s
  | .writeRegister addr buf n => Sys2Proof.Machine.execWriteRegister addr buf n s
  | .flushTx => Sys2Proof.Machine.execFlushTx s
  | .flushRx => Sys2Proof.Machine.execFlushRx s
  | .readRxPayload n => Sys2Proof.Machine.execReadRxPayload n s
  | .writeTxPayload buf n => Sys2Proof.Machine.execWriteTxPayload buf n s
  | .writeTxPayloadNoAck buf n => Sys2Proof.Machine.execWriteTxPayloadNoAck buf n s
  | .writeAckPayload buf n => Sys2Proof.Machine.execWriteAckPayload buf n s
  | .readRxPayloadWidth => Sys2Proof.Machine.execReadRxPayloadWidth s
  | .activate => Sys2Proof.Machine.execActivate s
  | .nop => Sys2Proof.Machine.execNop s
  | .init => Sys2Proof.Machine.execInit s
  | .applyPowerUp => Sys2Proof.Machine.execApplyPowerUp s
  | .applyPowerDown => Sys2Proof.Machine.execApplyPowerDown s
  | .applyReceiving => Sys2Proof.Machine.execApplyReceiving s
  | .applyTransmitting => Sys2Proof.Machine.execApplyTransmitting s
  | .applyStandbyI => Sys2Proof.Machine.execApplyStandbyI s
  | .applyStandbyII => Sys2Proof.Machine.execApplyStandbyII s
  | .startListening => Sys2Proof.Machine.execStartListening s
  | .sendMessage payload => Sys2Proof.Machine.execSendMessage payload s
  | .readMessage => Sys2Proof.Machine.execReadMessage s
  | .available => Sys2Proof.Machine.execAvailable s
  | .readPending => Sys2Proof.Machine.execReadPending s
  | .clearPending => Sys2Proof.Machine.execClearPending s

end Sys2Proof.Machine
end

