-- ==== Sys2Proof/Machine/Fetch.lean ====
section
/-! DEFINITION. How the next instruction is taken: from the frames the host has issued (R102, R293), when the sequencer
is Idle (R24). -/

namespace Sys2Proof.Machine

/-- What a frame does: its instruction runs; a reserved command byte reaches the device (R100, R243); an unknown
selector is refused (R102). -/
def runFrame (f : Frame) (s : State) : Host.Outcome State Fault Refusal :=
  match decode f with
  | .instr i => exec i s
  | .reservedCommand c data => runReservedCommand c data s
  | .unknownOperation sel => .refused (.unknownOperation sel)
  | .emptyTransaction => .refused .emptyTransaction

/-- One step: an operation in progress goes on; else the next frame is taken, the environment having its point while
the sequencer is Idle (R283); with no frame, only the environment moves (R298, log 10). -/
def sequence (s : State) : Host.Outcome State Fault Refusal :=
  match s.op with
  | some i => resume i s
  | none =>
    match s.requests with
    | [] => .next (envSlot s)
    | f :: rest => runFrame f (envSlot { s with requests := rest })

/-- Place a frame as the next one the sequencer takes, the sequencer being Idle. -/
def placeFrame (f : Frame) (s : State) : State := { s with op := none, requests := f :: s.requests }

end Sys2Proof.Machine
end

