-- ==== Sys2Proof/Machine/Step.lean ====
section
/-! DEFINITION. One step of the machine, and where its next instruction stands. -/

namespace Sys2Proof.Machine

/-- One step of the machine (R24, R293). -/
def step (s : State) : Host.Outcome State Fault Refusal := sequence s

/-- `s` with the instruction of a table word as the next frame that `step` takes (log 10, log 11). -/
def State.withFetchWord (s : State) (nbits w : Nat) : State := placeFrame (frameOfWord nbits w) s

end Sys2Proof.Machine
end

