-- ==== Sys2Proof/Machine/Loopback.lean ====
section
/-! DEFINITION. The loopback environment of R262: two copies of the block, A and B, each with its Reference device, their
air events coupled. Between steps `deliver` gives a packet its outcome on both sides at once. For a packet inside an
operation the two go on together: each takes its air events from its own script, and `Pair.step` admits that only if every
packet was one event of both. -/

namespace Sys2Proof.Machine

/-- Two copies of the block (R262). -/
structure Pair where
  a : State
  b : State
deriving DecidableEq, Repr

/-! ### When a packet passes -/

/-- A's packets can reach B: A.TX_ADDR = B.RX_ADDR_P0, and the same channel, data rate and CRC setting (R262). All 40
stored bits of the addresses count, whatever SETUP_AW says (log 36), and the CRC length counts with the CRC off too
(log 37). -/
def sameAir (a b : RefDev) : Bool := decide (a.regs.txWaves = b.regs.rxWaves)

/-- B hears a packet of `len` bytes of A: B is in a settled RxMode with pipe 0 enabled (R261, R262). -/
def hears (a b : RefDev) (len : Nat) : Bool := b.listening && b.accepts 0 len && sameAir a b

/-- B acknowledges the packet it hears (R261, log 22). -/
def acknowledges (b : RefDev) (asked : Bool) : Bool := asked && b.regs.enaa 0 && !b.rxFull

/-! ### Between steps -/

/-- The outcome of A's packet on air (R262): heard and acknowledged, or heard with no ACK asked, it is `tx_ok` for A and
`rx` for B, B's ACK payload reaching A; a lost packet, or one whose ACK never came, is `tx_fail` if it asked for an ACK
and `tx_ok` if not (log 28). -/
def deliver (retries : Nat) (p : Pair) : Pair :=
  match p.a.ref.onAir with
  | none => p
  | some e =>
    let asked := p.a.ref.wantsAck e
    if !p.a.ref.sending then p
    else if hears p.a.ref p.b.ref e.payload.length then
      if asked && !acknowledges p.b.ref asked then
        { a := applyWorld p.a .txFail, b := applyWorld p.b (.rx 0 e.payload asked) }
      else
        { a := applyWorld p.a (.txOk retries (if asked then p.b.ref.ackPayload 0 else none))
          b := applyWorld p.b (.rx 0 e.payload asked) }
    else if asked then { a := applyWorld p.a .txFail, b := applyWorld p.b (.missed e.payload asked) }
    else { a := applyWorld p.a (.txOk 0 none), b := applyWorld p.b (.missed e.payload asked) }

/-- The same with the roles exchanged: the outcome of B's packet on air (R262). -/
def deliverBack (retries : Nat) (p : Pair) : Pair :=
  let q := deliver retries { a := p.b, b := p.a }
  { a := q.b, b := q.a }

/-! ### Inside the operations -/

/-- What one node sent and what the other had of it are one event (R262): a packet received on pipe 0 with the ACK it asks
for, or none asked, is `tx_ok`, and the ACK payload is the same on both sides; one that was not received could not be, and
is `tx_fail` exactly if it asked for an ACK; one whose ACK never came is `tx_fail` (log 28). -/
def answers : AirEvent → AirEvent → Bool
  | .sent w payload asked ok back, .came w' pipe payload' asked' acked back' =>
    decide (w = w') && decide (pipe = 0) && decide (payload = payload') && decide (asked = asked') &&
      decide (ok = (!asked || acked)) && decide (back = (if asked && acked then back' else none))
  | .sent w payload asked ok _, .missed w' payload' asked' couldHear =>
    decide (payload = payload') && decide (asked = asked') && decide (ok = !asked) &&
      !(couldHear && decide (w = w'))
  | _, _ => false

/-- The two entries are one packet, whichever node sent it (R262). -/
def mirrors (e f : AirEvent) : Bool := answers e f || answers f e

/-- Neither node has had a packet that the other has still to have (R262). -/
def Pair.level (p : Pair) : Bool := decide (p.a.air.length = p.b.air.length)

/-- The packets the two nodes have had are the same, one by one and to the last (R262, log 39). -/
def Pair.coupled (p : Pair) : Bool := p.level && (p.a.air.zip p.b.air).all (fun q => mirrors q.1 q.2)

/-- The pair goes on: A makes `m` steps while B makes `n`, the air events of each falling at the points its script places
them, inside the operations too. None if a block does not go on so far, or if the packets of the one are not, each at the
same point, those of the other: an outcome of one node that the other does not share is admitted nowhere (R262, log 39). -/
def Pair.step (m n : Nat) (p : Pair) : Option Pair :=
  match core.run m p.a, core.run n p.b with
  | .next a, .next b => if Pair.coupled { a := a, b := b } then some { a := a, b := b } else none
  | _, _ => none

end Sys2Proof.Machine
end

