-- ==== Sys2Proof/Safety.lean ====
section
/-! DEFINITION. The terms claims are stated in: what the controller drives (the trace without the device's answers and
without the notifier's marks), what bus activity leaves alone, and the invariant every step keeps. -/

namespace Sys2Proof

open Sys2Proof.Machine

/-! ### What the controller drives -/

/-- An event of the trace as the controller drives it: the MISO byte and the notifier's mark are left out. -/
inductive Drive where
  | csn (level : Bool)
  | ce (level : Bool)
  | mosi (o : Byte)
  | wait (us : Nat)
deriving DecidableEq, Repr

/-- What of an event the controller drives. -/
def drivenOf : Event → Option Drive
  | .csn level => some (.csn level)
  | .ce level => some (.ce level)
  | .x o _ => some (.mosi o)
  | .wait us => some (.wait us)
  | .irq => none

/-- What the controller drives in a trace. -/
def driven (tr : List Event) : List Drive := tr.filterMap drivenOf

/-- The MISO byte of an event. -/
def misoByte : Event → Option Byte
  | .x _ i => some i
  | .csn _ => none
  | .ce _ => none
  | .wait _ => none
  | .irq => none

/-- The MISO bytes of a trace, in order. -/
def misoOf (tr : List Event) : List Byte := tr.filterMap misoByte

/-- The command byte of a register read, `cmd_reg(0b000, addr)` (R97). -/
def readCmd (addr : Nat) : Byte := BitVec.ofNat 8 (addr % 32)

/-- The command byte of a register write, `cmd_reg(0b001, addr)` (R97). -/
def writeCmd (addr : Nat) : Byte := BitVec.ofNat 8 (32 + addr % 32)

/-- The events of a CSN-low window with these MOSI bytes, `{c d0 d1 ...}` of R104. -/
def window (bytes : List Byte) : List Drive := [.csn false] ++ bytes.map Drive.mosi ++ [.csn true]

/-- The level of CSN after one event of the controller. -/
def csnStep (p : Pin) : Drive → Pin
  | .csn level => .driven level
  | .ce _ => p
  | .mosi _ => p
  | .wait _ => p

/-- The level of CE after one event of the controller. -/
def ceStep (p : Pin) : Drive → Pin
  | .ce level => .driven level
  | .csn _ => p
  | .mosi _ => p
  | .wait _ => p

/-- How often the notifier ran in a trace. -/
def irqMarks (tr : List Event) : Nat := tr.count .irq

/-! ### What bus activity leaves alone -/

/-- `t` comes from `s` by driving exactly `evs`: the trace grows by them (the notifier's marks aside), CSN and CE stand
where the last write put them, `pc` counts them and `n` register writes that are no events (log 6), only the notifier sets
PendingReceiptFlag and nothing clears it, and everything no bus activity writes is as it was. -/
structure Drives (evs : List Drive) (n : Nat) (s t : State) : Prop where
  trace : driven t.trace = driven s.trace ++ evs
  csn : t.pins.csn = evs.foldl csnStep s.pins.csn
  ce : t.pins.ce = evs.foldl ceStep s.pins.ce
  pc : t.pc = s.pc + evs.length + n
  cfg : t.cfg = s.cfg
  params : t.params = s.params
  requests : t.requests = s.requests
  gie : t.intr.gie = s.intr.gie
  intEn : t.intr.intEn = s.intr.intEn
  marks : irqMarks s.trace ≤ irqMarks t.trace
  pending : t.intr.pending = true ↔ s.intr.pending = true ∨ irqMarks s.trace < irqMarks t.trace
  otherRef : s.params.deviceModel ≠ .reference → t.ref = s.ref
  otherStore : s.params.deviceModel ≠ .regFile → t.regFile = s.regFile

/-- The working registers but `status`, and the flags the sequencer keeps, are as they were. -/
structure Quiet (s t : State) : Prop where
  tmp : t.regs.tmp = s.regs.tmp
  len : t.regs.len = s.regs.len
  rxbuf : t.regs.rxbuf = s.regs.rxbuf
  pollCount : t.regs.pollCount = s.regs.pollCount
  initialised : t.initialised = s.initialised
  lastTarget : t.lastTarget = s.lastTarget

/-- The settings of the device: its registers without the fields the device itself changes (the flags of STATUS and
OBSERVE_TX). -/
def settings (r : DevRegs) : DevRegs := { r with rxDr := false, txDs := false, maxRt := false, observeTx := 0 }

/-- No device register, and no byte of the RegFile store, was written. -/
structure DeviceKept (s t : State) : Prop where
  settings : settings t.ref.regs = settings s.ref.regs
  store : t.regFile = s.regFile

/-- `t` is what an operation started in `s` ends in: it drove exactly `evs` from `pc = 0` on, with `n` register writes that
are no events (log 6), the sequencer is Idle, and `r` is returned (R15, R24). -/
structure Runs (evs : List Drive) (n : Nat) (r : Result) (s t : State) : Prop where
  drives : Drives evs n { s with pc := 0 } t
  op : t.op = none
  result : t.result = some r

/-- What a W_REGISTER of `data` to address `a`, and nothing else, did to the device's registers: under Reference the
settings are those the write gives (R234); under RegFile the first five bytes are stored (R249); no other byte of the
store changes. -/
structure RegisterWritten (a : RegAddr) (data : List Byte) (s t : State) : Prop where
  reference : s.params.deviceModel = .reference → settings t.ref.regs = settings (s.ref.writeReg a data).regs
  stored : s.params.deviceModel = .regFile → ∀ j v, j < 5 → data[j]? = some v →
    Memory.read t.regFile (5 * a.toNat + j) = v
  others : ∀ x, x < 5 * a.toNat ∨ 5 * a.toNat + min 5 data.length ≤ x →
    Memory.read t.regFile x = Memory.read s.regFile x

/-! ### What the operations drive -/

/-- The operation that applies a target (R102). -/
def applyInstr : OperatingState → Instr
  | .powerUp => .applyPowerUp
  | .powerDown => .applyPowerDown
  | .receiving => .applyReceiving
  | .transmitting => .applyTransmitting
  | .standbyI => .applyStandbyI
  | .standbyII => .applyStandbyII

/-- The CONFIG register after the arm of a target, when it was `c` before (R172–R177). -/
def configAfter (t : OperatingState) (c : Byte) : Byte :=
  match t with
  | .powerUp => c ||| 0x02
  | .powerDown => c &&& 0xFD
  | .receiving => c ||| 0x01
  | .transmitting => c &&& 0xFE
  | .standbyI => c
  | .standbyII => c &&& 0xFE

/-- The level of CE after the arm of a target (R172–R177). -/
def ceAfter (t : OperatingState) (p : Pin) : Pin :=
  match t with
  | .powerUp => p
  | .powerDown => p
  | .receiving => p
  | .transmitting => p
  | .standbyI => .driven false
  | .standbyII => .driven true

/-- What the arm of a target drives, when the CONFIG read gave `c` (R172–R177). -/
def armEvents (t : OperatingState) (c : Byte) : List Drive :=
  match t with
  | .powerUp => if c.getLsbD 1 then [] else window [0x20, c ||| 0x02] ++ [.wait 2000]
  | .powerDown => window [0x20, c &&& 0xFD]
  | .receiving => window [0x20, c ||| 0x01] ++ window [0x27, 0x70]
  | .transmitting => window [0x20, c &&& 0xFE]
  | .standbyI => [.ce false]
  | .standbyII => window [0x20, c &&& 0xFE] ++ [.ce true, .wait 150]

/-- What `startListening` drives: `f` is its fill byte, `c` the CONFIG byte it read (R179). -/
def listenEvents (f c : Byte) : List Drive :=
  window [0x00, f] ++ armEvents .receiving c ++ [.ce true, .wait 150]

/-- What `init` drives: `f` is the fill byte of step 16's read and `e` the byte it gave (R165, R169). -/
def initEvents (c : Cfg) (g : FeatureGating) (f e : Byte) : List Drive :=
  [.ce false, .csn true, .wait 100000] ++ window [0x20, configInit c] ++
    window [0x21, if c.autoAck then 0x3F else 0x00] ++ window [0x24, 0xF1] ++ window [0x22, 0x00] ++
    window [0x25, c.channel] ++ window [0x26, rfSetupByte c] ++ window [0x27, 0x70] ++
    window [0x3C, if c.dynPayload then 0x3F else 0x00] ++ window [0x3D, featureByte c g] ++ window [0xE1] ++
    window [0xE2] ++ window (0x2A :: addrBytes c.rxAddr) ++ window (0x30 :: addrBytes c.txAddr) ++ window [0x02, f] ++
    window [0x22, e ||| 0x01]

/-- What `sendMessage` drives in steps 1–5: `f1`, `f2` are its fill bytes, `c1`, `c2` the CONFIG bytes it read (R201). -/
def sendEvents (c : Cfg) (p : List Byte) (f1 c1 f2 c2 : Byte) : List Drive :=
  window [0x00, f1] ++ window [0x20, c1 &&& 0xFE] ++ window [0xE2] ++ window [0xE1] ++ window [0x27, 0x20] ++
    window [0x00, f2] ++ window [0x20, c2 ||| 0x40] ++ window ((if c.autoAck then 0xA0 else 0xB0) :: (p ++ [0x00])) ++
    [.ce true, .wait 15, .ce false]

/-- What `sendMessage` drives in steps 7 and 8 (R201). -/
def restoreEvents (f1 c1 f2 c2 : Byte) : List Drive :=
  window [0x00, f1] ++ window [0x20, c1 &&& 0xBF] ++ listenEvents f2 c2

/-- How many bytes are exchanged in what is driven. -/
def exchanges : List Drive → Nat
  | [] => 0
  | .mosi _ :: rest => exchanges rest + 1
  | .csn _ :: rest => exchanges rest
  | .ce _ :: rest => exchanges rest
  | .wait _ :: rest => exchanges rest

/-- The polling loop goes round again: after `before`, with `n` register writes, and one STATUS read that gave `b`, the
operation is still in progress and `pc` is back at the read (R201, log 6). `m` are the MISO bytes; `b` is the second one
after those of `before`, and `tmp` holds it. `k` is the count of reads and `g` the last target; no other working register
but `status` is written, the message in `rxbuf` stays (R212). -/
structure PollsAgain (p : List Byte) (before : List Drive) (n : Nat) (b : Byte) (m : List Byte) (k : Nat)
    (g : Option OperatingState) (s t : State) : Prop where
  drives : ∃ f, Drives (before ++ window [0x07, f]) n s { t with pc := s.pc + before.length + 4 + n }
  pc : t.pc = s.pc + before.length + n
  op : t.op = some (.sendMessage p)
  miso : misoOf t.trace = misoOf s.trace ++ m
  read : m[exchanges before + 1]? = some b
  keeps : Quiet { s with regs := { s.regs with tmp := b, pollCount := k }, lastTarget := g } t

/-- The register writes of a poll's end that are no events: the count of reads, if the bound ended the loop (R201). -/
def countedWrites : Result → Nat
  | .err (.radioNotResponding _) => 1
  | _ => 0

/-- The polling loop ends with `r`: after `before`, with `n` register writes, and one STATUS read that gave `b`, steps 7
and 8 ran on the bytes their two CONFIG reads gave, and the sequencer is Idle (R201, log 6). `m` are the MISO bytes. `k` is
the count of reads before this one, which counts if the bound ended the loop; `tmp` holds the last byte read, and no other
working register but `status` is written, the message in `rxbuf` stays (R212). -/
structure PollsOut (before : List Drive) (n : Nat) (b : Byte) (m : List Byte) (k : Nat) (r : Result) (s t : State) :
    Prop where
  drives : ∃ f f1 c1 f2 c2,
    Drives (before ++ window [0x07, f] ++ restoreEvents f1 c1 f2 c2) (n + 4 + countedWrites r) s t ∧
      m[exchanges before + 3]? = some c1 ∧ m[exchanges before + 7]? = some c2 ∧
      Quiet { s with
        regs := { s.regs with tmp := c2, pollCount := k + countedWrites r }
        lastTarget := some .receiving } t
  op : t.op = none
  result : t.result = some r
  miso : misoOf t.trace = misoOf s.trace ++ m
  read : m[exchanges before + 1]? = some b
  ce : t.pins.ce = .driven true

/-- What `readMessage` drives up to its width read: `f` is the fill byte (R205). -/
def widthEvents (c : Cfg) (f : Byte) : List Drive :=
  (if c.autoAck then window [0xA8, 0x41] else []) ++ window [0x60, f]

/-- The command bytes of the windows in what is driven (R101). -/
def commandsOf : List Drive → List Byte
  | [] => []
  | .csn false :: .mosi c :: rest => c :: commandsOf rest
  | .csn _ :: rest => commandsOf rest
  | .ce _ :: rest => commandsOf rest
  | .mosi _ :: rest => commandsOf rest
  | .wait _ :: rest => commandsOf rest

/-- The command bytes the higher-level operations may emit (R99). -/
def emittedCommands : List Byte :=
  [0x20, 0x21, 0x22, 0x24, 0x25, 0x26, 0x27, 0x2A, 0x30, 0x3C, 0x3D, 0x00, 0x02, 0x07, 0x17] ++
    [0x60, 0x61, 0xA0, 0xA8, 0xB0, 0xE1, 0xE2]

/-- The higher-level operations of R99, `init` to `available`. -/
def isHigherLevel : Instr → Bool
  | .init => true
  | .applyPowerUp => true
  | .applyPowerDown => true
  | .applyReceiving => true
  | .applyTransmitting => true
  | .applyStandbyI => true
  | .applyStandbyII => true
  | .startListening => true
  | .sendMessage _ => true
  | .readMessage => true
  | .available => true
  | _ => false

/-- The RegFile cells that `init` may write: byte 0 of the registers of R54, and the five bytes of the two address
registers (R165, R249). -/
def initCells : List Nat := [0, 5, 10, 20, 25, 30, 35, 50, 51, 52, 53, 54, 80, 81, 82, 83, 84, 140, 145]

/-- The RegFile cells that an operation other than `init` may write (R54, R249): byte 0 of CONFIG and of STATUS, as its
step list writes them. -/
def storedCells : Instr → List Nat
  | .init => initCells
  | .applyPowerUp => [0]
  | .applyPowerDown => [0]
  | .applyReceiving => [0, 35]
  | .applyTransmitting => [0]
  | .applyStandbyI => []
  | .applyStandbyII => [0]
  | .startListening => [0, 35]
  | .sendMessage _ => [0, 35]
  | .readMessage => [35]
  | _ => []

/-- The command byte is reserved (R100). -/
def reservedByte (c : Byte) : Bool :=
  (decide (0x40 ≤ c.toNat) && decide (c.toNat ≤ 0x4F)) || (decide (0x51 ≤ c.toNat) && decide (c.toNat ≤ 0x5F)) ||
    (decide (0x62 ≤ c.toNat) && decide (c.toNat ≤ 0x9F)) || (decide (0xA1 ≤ c.toNat) && decide (c.toNat ≤ 0xA7)) ||
    (decide (0xAE ≤ c.toNat) && decide (c.toNat ≤ 0xAF)) || (decide (0xB1 ≤ c.toNat) && decide (c.toNat ≤ 0xE0)) ||
    (decide (0xE4 ≤ c.toNat) && decide (c.toNat ≤ 0xFE))

/-- The selectors of R102. -/
def selectors : List Byte :=
  [0x01, 0x02, 0x10, 0x11, 0x12, 0x13, 0x14, 0x15, 0x16, 0x17, 0x18, 0x19, 0x1A] ++
    [0x20, 0x21, 0x22, 0x23, 0x24, 0x25, 0x26, 0x27, 0x30, 0x31, 0x32, 0x33, 0x34]

/-- An operation of the request interface (R102), not a wire command. -/
def isOperation (i : Instr) : Bool := (encode i).level == .operation

/-! ### Environments -/

/-- The Reference device, at rest, in an environment that makes no choice any more (log 16, log 17). -/
structure QuietReference (s : State) : Prop where
  model : s.params.deviceModel = .reference
  env : s.env = []
  held : s.ref.held = false
  rest : s.ref.modeRule s.pins.ce.isHigh = none

/-- What of a choice happens in the world, the notifier's run left out. -/
def worldOf : EnvAct → List EnvAct
  | .world a => [.world a]
  | .notify during => during.map EnvAct.world

/-- The environment's choices without the runs of the notifier. -/
def withoutNotify (env : List (List EnvAct)) : List (List EnvAct) := env.map (fun g => g.flatMap worldOf)

/-- A state without what the notifier writes: PendingReceiptFlag, the latch, and its marks in the trace. -/
def forgetNotifier (s : State) : State :=
  { s with
    intr := { s.intr with pending := false, edgeLatch := false }
    trace := s.trace.filter (· ≠ .irq)
    env := withoutNotify s.env }

/-- An outcome without what the notifier writes. -/
def forgetOutcome (o : Host.Outcome State Fault Refusal) : Host.Outcome State Fault Refusal :=
  match o with
  | .next t => .next (forgetNotifier t)
  | .fault f => .fault f
  | .refused r => .refused r

/-! ### The invariant -/

/-- The reserved bits of the device registers read as 0 (R31–R50). -/
abbrev ReservedClear (r : DevRegs) : Prop :=
  r.config &&& 0x80 = 0 ∧ r.enAa &&& 0xC0 = 0 ∧ r.enRxaddr &&& 0xC0 = 0 ∧ r.setupAw &&& 0xFC = 0 ∧
    r.rfCh &&& 0x80 = 0 ∧ r.rfSetup &&& 0x40 = 0 ∧ r.rpd &&& 0xFE = 0 ∧ r.rxPwP0 &&& 0xC0 = 0 ∧
    r.rxPwP1 &&& 0xC0 = 0 ∧ r.rxPwP2 &&& 0xC0 = 0 ∧ r.rxPwP3 &&& 0xC0 = 0 ∧ r.rxPwP4 &&& 0xC0 = 0 ∧
    r.rxPwP5 &&& 0xC0 = 0 ∧ r.dynpd &&& 0xC0 = 0 ∧ r.feature &&& 0xF8 = 0

/-- A payload of a FIFO has 1..32 bytes (R52). -/
abbrev PayloadOk (p : List Byte) : Prop := 1 ≤ p.length ∧ p.length ≤ 32

/-- A TX entry is a payload, and an ACK payload's pipe is 0..5 (R52). -/
abbrev TxEntryOk (e : TxEntry) : Prop := PayloadOk e.payload ∧ e.ackPipe.all (· ≤ 5) = true

/-- An RX entry is a payload on a pipe 0..5 (R52). -/
abbrev RxEntryOk (e : RxEntry) : Prop := PayloadOk e.payload ∧ e.pipe ≤ 5

/-- The FIFOs hold at most three payloads (R52), and a packet is on air exactly in TxMode (R255). -/
abbrev FifosOk (d : RefDev) : Prop :=
  d.txFifo.length ≤ 3 ∧ (∀ e ∈ d.txFifo, TxEntryOk e) ∧ d.rxFifo.length ≤ 3 ∧ (∀ e ∈ d.rxFifo, RxEntryOk e) ∧
    (d.onAir.isSome = true ↔ d.mode = .txMode)

/-- Between steps the bus is idle: no window is open, SCK is not high, CSN is not low, the shifter is empty (R29, R78). -/
abbrev BusIdle (s : State) : Prop :=
  s.link.inTxn = false ∧ s.shifter.bitcnt = 0 ∧ s.pins.sck ≠ .driven true ∧ s.pins.csn ≠ .driven false

/-- The interrupt state fits the IRQ pin: the two enables go together, an edge is latched only when enabled, the last
sampled level is the pin's, and the pin's is the chosen device's (R26, R260, R280). -/
abbrev InterruptOk (s : State) : Prop :=
  s.intr.gie = s.intr.intEn ∧ (s.intr.edgeLatch = true → s.intr.intEn = true) ∧ s.intr.irqPrev = s.pins.irq ∧
    irqLevel s = s.pins.irq

/-- After `init` the configuration was accepted, interrupts are enabled and the pins are driven (R25, R165). -/
abbrev InitialisedOk (s : State) : Prop :=
  s.initialised = true →
    cfgWellFormed s.cfg = true ∧ s.intr.intEn = true ∧ s.pins.csn = .driven true ∧ s.pins.ce ≠ .undriven ∧
      s.pins.sck = .driven false

/-- The operation in progress, if any, is a send in its polling loop, or a `readMessage` that stopped (log 5). -/
def opOk (s : State) : Bool :=
  match s.op with
  | none => true
  | some (.sendMessage p) => decide (p.length ≤ 32) && s.initialised
  | some .readMessage => decide (32 < s.regs.len.toNat) && s.initialised
  | some _ => false

/-- A send is in progress. -/
def isSending : Option Instr → Bool
  | some (.sendMessage _) => true
  | _ => false

/-- The RegFile store is canonical and lies in the 32 × 5 cells of R249. -/
abbrev StoreOk (m : Memory) : Prop := Memory.wf m = true ∧ ∀ c ∈ m, c.1 < 160

/-- The Reference device has come to rest: no mode rule matches (R250). -/
abbrev ModesSettled (s : State) : Prop :=
  s.params.deviceModel = .reference → s.ref.modeRule s.pins.ce.isHigh = none

/-- RX_DR is muted only while a send is in progress (R204 (e), log 35). -/
abbrev MutedOk (s : State) : Prop := s.intr.muted = true → isSending s.op = true

/-- The invariant of the machine between steps. -/
structure Inv (s : State) : Prop where
  bus : BusIdle s
  interrupt : InterruptOk s
  initialised : InitialisedOk s
  op : opOk s = true
  store : StoreOk s.regFile
  reserved : ReservedClear s.ref.regs
  fifos : FifosOk s.ref
  clock : s.ref.tMark ≤ s.ref.now
  settled : ModesSettled s
  muted : MutedOk s

end Sys2Proof
end

