-- ==== Sys2Proof/Certificates/Slice0/Obligations.lean ====
section
/-! DEFINITION. The statements for the provers. Each says a rule of the spec of every state and operand it covers. -/

open Sys2Proof Sys2Proof.Machine

/-! ### Encoding and the step -/

/-- R97, R98, R102: every instruction whose operands are in range decodes from its own encoding. -/
def Obligations.DecodeOfEncode : Prop :=
  ∀ i : Instr, i.wellFormed = true → decode (encode i) = .instr i

/-- R97, R98: a window that decodes to an instruction is that instruction's only encoding, and its operands are in range. -/
def Obligations.EncodeOfDecodedWindow : Prop :=
  ∀ (bs : List Byte) (i : Instr), decode (.transaction bs) = .instr i →
    encode i = .transaction bs ∧ i.wellFormed = true

/-- R98, R100: a command byte has no meaning exactly in the ranges R100 lists. -/
def Obligations.ReservedCommandBytes : Prop :=
  ∀ (c : Byte) (data : List Byte),
    (reservedByte c = true → decode (.transaction (c :: data)) = .reservedCommand c data) ∧
      (reservedByte c = false → ∃ i, decode (.transaction (c :: data)) = .instr i)

/-- Sanity: one word of each family, written out from R98 and R102. -/
def Obligations.FewWordsDecode : Prop :=
  decode (.transaction [0b00000111, 0x55]) = .instr (.rRegisterCmd 0x07 [0x55]) ∧
    decode (.transaction [0b00111100, 0x3F]) = .instr (.wRegisterCmd 0x1C [0x3F]) ∧
    decode (.transaction [0b10101101, 0x41]) = .instr (.wAckPayloadCmd 5 [0x41]) ∧
    decode (.transaction [0b11100011]) = .instr (.reuseTxPlCmd []) ∧
    decode (.request 0x11 { addr := 0x10, n := 1, buf := [9] }) = .instr (.writeRegister 0x10 [9] 1) ∧
    decode (.request 0x25 {}) = .instr .applyStandbyI ∧
    decode (.request 0x30 { buf := [0x48] }) = .instr (.sendMessage [0x48])

/-- R24, R293: with the sequencer Idle, a step takes the first frame and runs the instruction it decodes to, in the state
the environment's point before it leaves; a table word placed for the fetch runs so too. -/
def Obligations.StepRunsDecodedInstruction : Prop :=
  (∀ (s : State) (f : Frame) (rest : List Frame) (i : Instr), s.op = none → s.requests = f :: rest →
    decode f = .instr i → step s = exec i (envSlot { s with requests := rest })) ∧
  (∀ (s : State) (nbits w : Nat) (i : Instr), decodeTableWord nbits w = some i →
    step (s.withFetchWord nbits w) = exec i (envSlot { s with op := none }))

/-- R102, R290, R292: an unlisted selector is refused, whatever the state; R95: an empty window is no transaction; R283: an
Idle sequencer without a request makes no event; R100, R243: a window with a reserved command byte, once initialised, runs
as a window, and writes no device register. `pc` counts as log 6 says. -/
def Obligations.StepWithoutInstruction : Prop :=
  ((∀ (s : State) (sel : Byte) (a : Args) (rest : List Frame), s.op = none → s.requests = .request sel a :: rest →
      selectors.contains sel = false → step s = .refused (.unknownOperation sel)) ∧
    (∀ (s : State) (rest : List Frame), s.op = none → s.requests = .transaction [] :: rest →
      step s = .refused .emptyTransaction) ∧
    (∀ s : State, s.op = none → s.requests = [] →
      ∃ t, step s = .next t ∧ Drives [] 0 s t ∧ Quiet s t ∧ DeviceKept s t ∧ t.op = none)) ∧
  (∀ (s : State) (c : Byte) (data : List Byte) (rest : List Frame), s.op = none → s.initialised = true →
      s.requests = .transaction (c :: data) :: rest → reservedByte c = true →
      ∃ t st d, step s = .next t ∧ Runs (window (c :: data)) 0 (.statusBytes st d) { s with requests := rest } t ∧
        d.length = data.length ∧ misoOf t.trace = misoOf s.trace ++ st :: d ∧ t.regs.status = st ∧
        Quiet s t ∧ DeviceKept s t)

/-! ### Refusals and errors at entry -/

/-- R25, R323: before `init` every other operation is refused, and so is every wire command and every window with a
reserved command byte; `init` runs whether or not it ran before, and ends that. `pc` counts as log 6 says. -/
def Obligations.NotInitialisedRefused : Prop :=
  State.reset.initialised = false ∧
  ((∀ (s : State) (i : Instr), s.initialised = false → i ≠ .init → exec i s = .refused .notInitialised) ∧
    (∀ (s : State) (bs : List Byte) (rest : List Frame), s.initialised = false → s.op = none → bs ≠ [] →
      s.requests = .transaction bs :: rest → step s = .refused .notInitialised)) ∧
  (∀ s : State, cfgWellFormed s.cfg = true → ∃ t f e pre post, exec .init s = .next t ∧ t.initialised = true ∧
    Runs (initEvents s.cfg s.params.featureGating f e) 5 .unit (enableInterrupts s) t ∧
    misoOf t.trace = misoOf s.trace ++ pre ++ [e] ++ post ∧ pre.length = 33 ∧ post.length = 2)

/-- R103, R290, R292: a raw write or burst with a buffer shorter than its count is refused, once initialised. -/
def Obligations.ShortBufferRefused : Prop :=
  ∀ (s : State) (buf : List Byte) (n addr : Nat), s.initialised = true → buf.length < n →
    exec (.exchangeBurst buf n) s = .refused .shortBuffer ∧
    exec (.writeRegister addr buf n) s = .refused .shortBuffer ∧
    exec (.writeTxPayload buf n) s = .refused .shortBuffer ∧
    exec (.writeTxPayloadNoAck buf n) s = .refused .shortBuffer ∧
    exec (.writeAckPayload buf n) s = .refused .shortBuffer

/-- R11: when a configuration is well-formed, and that `init` refuses one that is not. -/
def Obligations.IllFormedConfigRefused : Prop :=
  (∀ c : Cfg, cfgWellFormed c = true ↔ c.channel.toNat ≤ 125 ∧ (c.autoAck = true → c.txAddr = c.rxAddr)) ∧
  (∀ s : State, cfgWellFormed s.cfg = false → exec .init s = .refused .illFormedConfig)

/-- R200, R285: a payload over 32 bytes is an error result before any pin or bus activity; nothing but the result
changes. -/
def Obligations.PayloadTooLargeReturned : Prop :=
  ∀ (s : State) (p : List Byte), s.initialised = true → 32 < p.length →
    exec (.sendMessage p) s = .next { s with result := some (.err (.payloadTooLarge p.length)) }

/-! ### What the instructions drive, under every device and environment -/

/-- R95, R101, R150, R232–R243, R249: each of the twelve wire commands, once initialised, is one CSN-low window with its command byte
and its data; the first MISO byte is the returned STATUS and the others are the returned bytes; only W_REGISTER writes a device
register or a byte of the store. Covers `rRegisterCmd`, `wRegisterCmd`, `activateCmd`, `rRxPlWidCmd`, `rRxPayloadCmd`,
`wTxPayloadCmd`, `wAckPayloadCmd`, `wTxPayloadNoAckCmd`, `flushTxCmd`, `flushRxCmd`, `reuseTxPlCmd`, `nopCmd`.
`pc` counts as log 6 says. -/
def Obligations.WireCommandsRun : Prop :=
  ∀ (i : Instr) (c : Byte) (data : List Byte) (s : State), encode i = .transaction (c :: data) → s.initialised = true →
    ∃ t st d, exec i s = .next t ∧ Runs (window (c :: data)) 0 (.statusBytes st d) s t ∧ d.length = data.length ∧
      misoOf t.trace = misoOf s.trace ++ st :: d ∧ t.regs.status = st ∧ Quiet s t ∧
      ((∀ a w, i ≠ .wRegisterCmd a w) → DeviceKept s t)

/-- R234, R249: W_REGISTER, as a wire command and as `writeRegister`, writes the register its address names and no other,
whatever the environment does meanwhile. -/
def Obligations.RegisterWriteEffect : Prop :=
  (∀ (a : RegAddr) (data : List Byte) (s : State), Memory.wf s.regFile = true → s.initialised = true →
    ∃ t, exec (.wRegisterCmd a data) s = .next t ∧ RegisterWritten a data s t) ∧
  (∀ (addr n : Nat) (buf : List Byte) (s : State), Memory.wf s.regFile = true → s.initialised = true →
    n ≤ buf.length → ∃ t, exec (.writeRegister addr buf n) s = .next t ∧
      RegisterWritten (BitVec.ofNat 5 addr) (buf.take n) s t)

/-- R120, R121, R126: `exchangeByte` is one exchange of its byte; it returns the byte captured from MISO, touches neither
CSN nor CE, and leaves SCK at 0, MOSI at bit 0 of the byte sent and the shifter empty. `pc` counts as log 6 says. -/
def Obligations.ExchangeByteRuns : Prop :=
  ∀ (out : Byte) (s : State), s.initialised = true →
    ∃ t b, exec (.exchangeByte out) s = .next t ∧ Runs [.mosi out] 0 (.byte b) s t ∧
      t.trace.getLast? = some (.x out b) ∧ misoOf t.trace = misoOf s.trace ++ [b] ∧
      t.pins.csn = s.pins.csn ∧ t.pins.ce = s.pins.ce ∧ t.pins.sck = .driven false ∧
      t.pins.mosi = .driven (out.getLsbD 0) ∧ t.shifter = { shOut := out, shIn := b, bitcnt := 0 } ∧
      t.regs = s.regs ∧ Quiet s t ∧ DeviceKept s t

/-- R124, R125: `exchangeBurst` exchanges the first `count` bytes in place, index 0 first; the others stay.
`pc` counts as log 6 says. -/
def Obligations.ExchangeBurstRuns : Prop :=
  ∀ (buf : List Byte) (count : Nat) (s : State), s.initialised = true → count ≤ buf.length →
    ∃ t ins, exec (.exchangeBurst buf count) s = .next t ∧
      Runs ((buf.take count).map Drive.mosi) 0 (.bytes (ins ++ buf.drop count)) s t ∧ ins.length = count ∧
      misoOf t.trace = misoOf s.trace ++ ins ∧ t.pins.csn = s.pins.csn ∧ t.pins.ce = s.pins.ce ∧
      t.regs = s.regs ∧ Quiet s t ∧ DeviceKept s t

/-- R135, R136, R142, R146: the three reads are one window each with as many open MOSI bytes as they read; they return
STATUS and the MISO bytes, and write no device register. `pc` counts as log 6 says. -/
def Obligations.ReadTransactionsRun : Prop :=
  ∀ (addr n : Nat) (s : State), s.initialised = true →
    (∃ t fill st d, exec (.readRegister addr n) s = .next t ∧
      Runs (window (readCmd addr :: fill)) 0 (.statusBytes st d) s t ∧ fill.length = n ∧ d.length = n ∧
      misoOf t.trace = misoOf s.trace ++ st :: d ∧ t.regs.status = st ∧ Quiet s t ∧ DeviceKept s t) ∧
    (∃ t fill st d, exec (.readRxPayload n) s = .next t ∧
      Runs (window (0x61 :: fill)) 0 (.statusBytes st d) s t ∧ fill.length = n ∧ d.length = n ∧
      misoOf t.trace = misoOf s.trace ++ st :: d ∧ t.regs.status = st ∧ Quiet s t ∧ DeviceKept s t) ∧
    (∃ t f st w, exec .readRxPayloadWidth s = .next t ∧ Runs (window [0x60, f]) 0 (.statusByte st w) s t ∧
      misoOf t.trace = misoOf s.trace ++ [st, w] ∧ t.regs.status = st ∧ Quiet s t ∧ DeviceKept s t)

/-- R139–R141, R143–R145, R147, R148: the special commands that only send are one window each; they return STATUS and
write no device register. `pc` counts as log 6 says. -/
def Obligations.SpecialCommandsRun : Prop :=
  ∀ (buf : List Byte) (n : Nat) (s : State), s.initialised = true → n ≤ buf.length →
    ∀ i out, (i, out) ∈ [(Instr.flushTx, [0xE1]), (.flushRx, [0xE2]), (.writeTxPayload buf n, 0xA0 :: buf.take n),
        (.writeTxPayloadNoAck buf n, 0xB0 :: buf.take n), (.writeAckPayload buf n, 0xA8 :: buf.take n),
        (.activate, [0x50, 0x73]), (.nop, [(0xFF : Byte)])] →
      ∃ t st d, exec i s = .next t ∧ Runs (window out) 0 (.status st) s t ∧
        misoOf t.trace = misoOf s.trace ++ st :: d ∧ d.length + 1 = out.length ∧ t.regs.status = st ∧
        Quiet s t ∧ DeviceKept s t

/-- R137: `writeRegister` is one window with its masked command byte and its bytes, and returns STATUS.
`pc` counts as log 6 says. -/
def Obligations.WriteRegisterRuns : Prop :=
  ∀ (addr n : Nat) (buf : List Byte) (s : State), s.initialised = true → n ≤ buf.length →
    ∃ t st d, exec (.writeRegister addr buf n) s = .next t ∧
      Runs (window (writeCmd addr :: buf.take n)) 0 (.status st) s t ∧ misoOf t.trace = misoOf s.trace ++ st :: d ∧
      d.length = n ∧ t.regs.status = st ∧ Quiet s t

/-- R165, R168, R169, R20: `init` drives exactly its sixteen steps, whatever the device answers; `e` is the EN_RXADDR byte
step 16's read captured, the last but two of its MISO bytes. It sets the two interrupt enables and `initialised`, keeps `e`
in `tmp`, and leaves the pins at their idle levels. `pc` counts as log 6 says. -/
def Obligations.InitRuns : Prop :=
  ∀ s : State, cfgWellFormed s.cfg = true →
    ∃ t f e pre post, exec .init s = .next t ∧
      Runs (initEvents s.cfg s.params.featureGating f e) 5 .unit (enableInterrupts s) t ∧
      misoOf t.trace = misoOf s.trace ++ pre ++ [e] ++ post ∧ pre.length = 33 ∧ post.length = 2 ∧
      Quiet { s with regs := { s.regs with tmp := e }, initialised := true } t ∧
      t.intr.intEn = true ∧ t.intr.gie = true ∧
      t.pins.csn = .driven true ∧ t.pins.ce = .driven false ∧ t.pins.sck = .driven false

/-- R166, R167: the CONFIG and RF_SETUP bytes of `init`, bit by bit, and its FEATURE byte under each gating. -/
def Obligations.InitBytes : Prop :=
  (∀ c : Cfg,
      ((configInit c).getLsbD 7 = false ∧ (configInit c).getLsbD 6 = !c.irqRxEn ∧ (configInit c).getLsbD 5 = !c.irqTxEn ∧
        (configInit c).getLsbD 4 = !c.irqRtEn ∧ (configInit c).getLsbD 3 = c.crcEn ∧ (configInit c).getLsbD 2 = true ∧
        (configInit c).getLsbD 1 = true ∧ (configInit c).getLsbD 0 = true) ∧
      ((rfSetupByte c).extractLsb' 6 2 = 0 ∧ (rfSetupByte c).getLsbD 5 = decide (c.dataRate = .r250K) ∧
        (rfSetupByte c).getLsbD 4 = false ∧ (rfSetupByte c).getLsbD 3 = decide (c.dataRate = .r2M) ∧
        (rfSetupByte c).getLsbD 2 = decide (c.power = .pHigh ∨ c.power = .pMax) ∧
        (rfSetupByte c).getLsbD 1 = decide (c.power = .pLow ∨ c.power = .pMax) ∧ (rfSetupByte c).getLsbD 0 = false) ∧
      (configInit {} = 0x3F ∧ rfSetupByte {} = 0x0E)) ∧
  ((∀ c : Cfg, (featureByte c .perFlag).extractLsb' 3 5 = 0 ∧ (featureByte c .perFlag).getLsbD 2 = c.dynPayload ∧
      (featureByte c .perFlag).getLsbD 1 = c.autoAck ∧ (featureByte c .perFlag).getLsbD 0 = c.dynPayload) ∧
    (∀ c : Cfg, featureByte c .allOnDyn = if c.dynPayload then 0x07 else 0x00) ∧
    featureByte {} .perFlag = 0x05 ∧ featureByte {} .allOnDyn = 0x07)

/-- R170, R171, R178: `applyState` reads CONFIG and runs the arm of its target on the byte `c` that read captured, its second
MISO byte, from any state; it writes no working register but `tmp` and `status`, and notes the target. `pc` counts as log 6
says. -/
def Obligations.ApplyStateRuns : Prop :=
  ∀ (g : OperatingState) (s : State), s.initialised = true →
    ∃ t f st c more, exec (applyInstr g) s = .next t ∧ Runs (window [0x00, f] ++ armEvents g c) 2 .unit s t ∧
      misoOf t.trace = misoOf s.trace ++ st :: c :: more ∧
      Quiet { s with regs := { s.regs with tmp := c }, lastTarget := some g } t

/-- R179: `startListening` applies Receiving, on the CONFIG byte `c` its read captured, raises CE and waits 150 µs. `pc`
counts as log 6 says. -/
def Obligations.StartListeningRuns : Prop :=
  ∀ s : State, s.initialised = true →
    ∃ t f st c more, exec .startListening s = .next t ∧ Runs (listenEvents f c) 2 .unit s t ∧
      misoOf t.trace = misoOf s.trace ++ st :: c :: more ∧ t.pins.ce = .driven true ∧
      Quiet { s with regs := { s.regs with tmp := c }, lastTarget := some .receiving } t

/-- R209: `available` reads FIFO_STATUS and answers by its bit 0. `pc` counts as log 6 says. -/
def Obligations.AvailableRuns : Prop :=
  ∀ s : State, s.initialised = true →
    ∃ t f st c, exec .available s = .next t ∧ Runs (window [0x17, f]) 1 (.flag (!c.getLsbD 0)) s t ∧
      misoOf t.trace = misoOf s.trace ++ [st, c] ∧ DeviceKept s t ∧
      Quiet { s with regs := { s.regs with tmp := c } } t

/-- R213, R214: the two operations on `pending`, of one step each (log 6), which touch nothing else. -/
def Obligations.PendingOperations : Prop :=
  ∀ s : State, s.initialised = true →
    exec .readPending s = .next { s with op := none, pc := 1, result := some (.flag s.intr.pending) } ∧
    exec .clearPending s =
      .next { s with op := none, pc := 1, result := some .unit, intr := { s.intr with pending := false } }

/-! ### sendMessage -/

/-- R202, R203, R292: what the polled byte `b` decides: TX_DS first, then MAX_RT if it is checked, then the bound. -/
def Obligations.PollDecisionOrder : Prop :=
  ∀ (p : Params) (b : Byte) (n : Nat),
    (b.getLsbD 5 = true → pollDecision p b n = .leave .sent) ∧
    (b.getLsbD 5 = false → (p.checkMaxRt && b.getLsbD 4) = true →
      pollDecision p b n = .leave (.err .maxRetransmitExceeded)) ∧
    (b.getLsbD 5 = false → (p.checkMaxRt && b.getLsbD 4) = false → p.pollBound = none → pollDecision p b n = .again) ∧
    (∀ bound, b.getLsbD 5 = false → (p.checkMaxRt && b.getLsbD 4) = false → p.pollBound = some bound →
      pollDecision p b n = if bound ≤ n then .leave (.err (.radioNotResponding bound)) else .again)

/-- R24, R201, R212: `sendMessage` drives steps 1–5 and one STATUS read, under every device and environment; `c1`, `c2` are
the CONFIG bytes its two reads captured, `b` the STATUS byte. By `b` it is then in progress at the read, or it has run steps
7–9. With a send in progress, a step is one more such read. Of the working registers only `status`, `tmp` and `poll_count`
are written: the received message stays in `rxbuf`. `pc` counts as log 6 says; a pass of the loop is one step (log 5). -/
def Obligations.SendMessagePolls : Prop :=
  (∀ (s : State) (p : List Byte), s.initialised = true → p.length ≤ 32 →
      ∃ t f1 c1 f2 c2 b m, exec (.sendMessage p) s = .next t ∧ m[1]? = some c1 ∧ m[9]? = some c2 ∧
        ((pollDecision s.params b 1 = .again ∧
            PollsAgain p (sendEvents s.cfg p f1 c1 f2 c2) 4 b m (if s.params.pollBound.isSome then 1 else 0)
              (some .transmitting) { s with pc := 0 } t) ∨
          (∃ r, pollDecision s.params b 1 = .leave r ∧
            PollsOut (sendEvents s.cfg p f1 c1 f2 c2) 4 b m 0 r { s with pc := 0 } t))) ∧
  (∀ (s : State) (p : List Byte), s.op = some (.sendMessage p) →
      ∃ t b m, step s = .next t ∧
        ((pollDecision s.params b (s.regs.pollCount + 1) = .again ∧
            PollsAgain p [] 0 b m (if s.params.pollBound.isSome then s.regs.pollCount + 1 else s.regs.pollCount)
              s.lastTarget s t) ∨
          (∃ r, pollDecision s.params b (s.regs.pollCount + 1) = .leave r ∧
            PollsOut [] 0 b m s.regs.pollCount r s t)))

/-- R201, R204: `sendMessage` completes when the first STATUS byte the device answers ends the loop; under the Oracle
that byte is the input at index `15 + length`. `pc` counts as log 6 says. -/
def Obligations.SendMessageCompletes : Prop :=
  ∀ (s : State) (p : List Byte) (b : Byte) (r : Result), s.initialised = true → p.length ≤ 32 →
    s.params.deviceModel = .oracle → s.oracleMiso[15 + p.length]? = some b → pollDecision s.params b 1 = .leave r →
    ∃ t f1 c1 f2 c2 m, exec (.sendMessage p) s = .next t ∧ m[1]? = some c1 ∧ m[9]? = some c2 ∧
      PollsOut (sendEvents s.cfg p f1 c1 f2 c2) 4 b m 0 r { s with pc := 0 } t

/-- R203, R288: with `POLL_BOUND = some B` a send in progress ends within the reads that are left, under every device and
environment. -/
def Obligations.BoundedPollEnds : Prop :=
  ∀ (s : State) (p : List Byte) (bound : Nat), s.op = some (.sendMessage p) → s.params.pollBound = some bound →
    ∃ k t r, 1 ≤ k ∧ k ≤ max 1 (bound - s.regs.pollCount) ∧ core.run k s = .next t ∧ t.op = none ∧
      t.result = some r ∧ r ∈ [Result.sent, .err .maxRetransmitExceeded, .err (.radioNotResponding bound)]

/-- R291, R204: with no bound, a send stays in its loop as long as no polled byte shows TX_DS (or MAX_RT, if it is
checked), whatever the device. So it does for ever under RegFile with neither bit stored (R249), and, in every
environment, against a Reference device that is not on air and has nothing it may send, PRIM_RX being 0: MAX_RT stands
and is not checked (R202, R259), or the no-ack payload was ignored (R240, R328). -/
def Obligations.UnboundedPollHangs : Prop :=
  (∀ (s : State) (p : List Byte) (k : Nat), s.op = some (.sendMessage p) → s.params.pollBound = none →
      (∃ t, core.run k s = .next t ∧ t.op = some (.sendMessage p)) ∨
      (∃ j u v b m r, j < k ∧ core.run j s = .next u ∧ u.op = some (.sendMessage p) ∧ step u = .next v ∧
        PollsOut [] 0 b m u.regs.pollCount r u v ∧ (b.getLsbD 5 = true ∨ (s.params.checkMaxRt && b.getLsbD 4) = true))) ∧
  ((∀ (s : State) (p : List Byte), s.op = some (.sendMessage p) → s.params.pollBound = none →
      s.params.deviceModel = .regFile → (Memory.read s.regFile 35).getLsbD 5 = false →
      (s.params.checkMaxRt && (Memory.read s.regFile 35).getLsbD 4) = false →
      ∀ k, ∃ t, core.run k s = .next t ∧ t.op = some (.sendMessage p)) ∧
    (∀ (s : State) (p : List Byte), s.op = some (.sendMessage p) → s.params.pollBound = none →
      s.params.deviceModel = .reference → FifosOk s.ref → s.ref.regs.txDs = false → s.ref.regs.primRx = false →
      s.ref.mode ≠ .txMode → s.ref.mode ≠ .rxMode → s.ref.txFifo = [] ∨ s.ref.regs.maxRt = true →
      (s.params.checkMaxRt && s.ref.regs.maxRt) = false →
      ∀ k, ∃ t, core.run k s = .next t ∧ t.op = some (.sendMessage p)))

/-- R204 (e), R204 (g), R56, R201: when the poll sees TX_DS, the send returns `true` and leaves the Reference device in
Receiving with CE raised, RX_DR unmasked and the three flags clear; what was received stays in the RX FIFO. Unmasking
an RX_DR that is set is an edge (R260, R280), whether it stood before the send masked it or was raised by a packet received
during the send; only under the wider reading of R204 (e), a value of the model's own parameter, is none latched for the
latter, and PendingReceiptFlag stays. Which of the two it is, is told by the model's own field (log 35). -/
def Obligations.SendLeavesReceiving : Prop :=
  ∀ (s : State) (p : List Byte), s.op = some (.sendMessage p) → QuietReference s → s.ref.regs.txDs = true →
    s.ref.regs.pwrUp = true → s.ref.mode ≠ .startUp →
    ∃ t, step s = .next t ∧ t.op = none ∧ t.result = some .sent ∧ t.pins.ce = .driven true ∧
      t.ref.opstate true = .receiving ∧ t.ref.regs.config = (s.ref.regs.config &&& 0xBF) ||| 0x01 ∧
      t.ref.regs.rxDr = false ∧ t.ref.regs.txDs = false ∧ t.ref.regs.maxRt = false ∧ t.ref.rxFifo = s.ref.rxFifo ∧
      (InterruptOk s → s.intr.edgeLatch = false →
        (s.params.sendUnmask = .spared ∧ s.intr.muted = true) ∨ s.ref.regs.rxDr = false →
        t.intr.edgeLatch = false ∧ t.intr.pending = s.intr.pending) ∧
      (InterruptOk s → s.intr.intEn = true → s.ref.regs.rxDr = true →
        s.params.sendUnmask = .taken ∨ s.intr.muted = false → s.pins.irq = true →
        t.intr.pending = true)

/-! ### readMessage -/

/-- R205, R206, R207, R89, R286: `readMessage` under the default framing, whatever the device answers: with a width `w` of
at most 32 it drains in place, clears RX_DR and decodes; with a width over 32 it stops with the fault, after the width read
and with nothing more done. `w` is the byte the width read captured. `pc` counts as log 6 says; that the stopped sequencer
is a state is the model's choice (log 15). -/
def Obligations.ReadMessageInBurst : Prop :=
  ∀ s : State, s.initialised = true → s.params.rxReadFraming = .commandInBurst →
    ∃ t f w pre, exec .readMessage s = .next t ∧ pre.length = (if s.cfg.autoAck then 3 else 1) ∧
      Quiet { s with regs := { s.regs with len := w, rxbuf := t.regs.rxbuf } } t ∧
      ((w.toNat ≤ 32 ∧ ∃ a b,
          Runs (widthEvents s.cfg f ++
              (if w = 0 then [] else window (0x61 :: (s.regs.rxbuf.toList.take (w.toNat + 1)).drop 1)) ++
              window [0x27, 0x40]) (1 + if w = 0 then 0 else 1)
            (if w = 0 ∨ t.regs.rxbuf[1] = 0 then .failure else .message ((t.regs.rxbuf.toList.drop 1).take w.toNat))
            s t ∧
          misoOf t.trace = misoOf s.trace ++ pre ++ [w] ++
            (if w = 0 then [] else t.regs.rxbuf.toList.take (w.toNat + 1)) ++ [a, b] ∧
          (∀ k, w = 0 ∨ w.toNat < k → t.regs.rxbuf.toList[k]? = s.regs.rxbuf.toList[k]?)) ∨
        (32 < w.toNat ∧ Drives (widthEvents s.cfg f) 1 { s with pc := 0 } t ∧ t.op = some .readMessage ∧
          t.result = some (.fault (.rxWidthOverflow w.toNat)) ∧ misoOf t.trace = misoOf s.trace ++ pre ++ [w] ∧
          t.regs.rxbuf = s.regs.rxbuf))

/-- R208: the same under `CommandThenBurst`: the command and then `w + 1` data bytes, the message starting at index 0. -/
def Obligations.ReadMessageThenBurst : Prop :=
  ∀ s : State, s.initialised = true → s.params.rxReadFraming = .commandThenBurst →
    ∃ t f w pre, exec .readMessage s = .next t ∧ pre.length = (if s.cfg.autoAck then 3 else 1) ∧
      Quiet { s with regs := { s.regs with len := w, rxbuf := t.regs.rxbuf } } t ∧
      ((w.toNat ≤ 32 ∧ ∃ fill st a b, fill.length = w.toNat + 1 ∧
          Runs (widthEvents s.cfg f ++ (if w = 0 then [] else window (0x61 :: fill)) ++ window [0x27, 0x40]) 1
            (if w = 0 ∨ t.regs.rxbuf[0] = 0 then .failure else .message (t.regs.rxbuf.toList.take w.toNat)) s t ∧
          misoOf t.trace = misoOf s.trace ++ pre ++ [w] ++
            (if w = 0 then [] else st :: t.regs.rxbuf.toList.take (w.toNat + 1)) ++ [a, b] ∧
          (∀ k, w = 0 ∨ w.toNat < k → t.regs.rxbuf.toList[k]? = s.regs.rxbuf.toList[k]?)) ∨
        (32 < w.toNat ∧ Drives (widthEvents s.cfg f) 1 { s with pc := 0 } t ∧ t.op = some .readMessage ∧
          t.result = some (.fault (.rxWidthOverflow w.toNat)) ∧ misoOf t.trace = misoOf s.trace ++ pre ++ [w] ∧
          t.regs.rxbuf = s.regs.rxbuf))

/-- R205, R207 (b), R286: the width the device answers alone decides whether `readMessage` completes or faults; under the
Oracle it is the input after the STATUS byte of the width read. -/
def Obligations.ReadMessageByWidth : Prop :=
  ∀ (s : State) (w : Byte), s.initialised = true → s.params.deviceModel = .oracle →
    s.oracleMiso[(if s.cfg.autoAck then 2 else 0) + 1]? = some w →
    (w.toNat ≤ 32 → ∃ t r, exec .readMessage s = .next t ∧ t.op = none ∧ t.regs.len = w ∧ t.result = some r ∧
      (w = 0 → r = .failure) ∧ (r = .failure ∨ ∃ m, r = .message m ∧ m.length = w.toNat)) ∧
    (32 < w.toNat → ∃ t, exec .readMessage s = .next t ∧ t.op = some .readMessage ∧ t.regs.len = w ∧
      t.result = some (.fault (.rxWidthOverflow w.toNat)))

/-- R286, R292: what follows the fault. The sequencer stays stopped for ever: a step drives nothing, keeps the working
registers and the recorded fault, and lets the environment and the notifier have their point; when the environment has no
choice left and no edge is to be taken, the machine stops with the fault, at the latest two steps after the last choice.
That the fault outcome comes then is the model's choice (log 15). So is what counts as a step (log 6). -/
def Obligations.FaultStops : Prop :=
  ∀ s : State, s.op = some .readMessage → 32 < s.regs.len.toNat →
    ((s.env ≠ [] ∨ (s.intr.edgeLatch = true ∧ s.intr.gie = true) →
        ∃ t, step s = .next t ∧ Drives [] 0 s t ∧ Quiet s t ∧ DeviceKept s t ∧ t.regs = s.regs ∧ t.op = s.op ∧
          t.result = s.result ∧ t.env = s.env.tail) ∧
      (s.env = [] → s.intr.edgeLatch = false ∨ s.intr.gie = false →
        step s = .fault (.rxWidthOverflow s.regs.len.toNat))) ∧
    core.run (s.env.length + 2) s = .fault (.rxWidthOverflow s.regs.len.toNat)

/-- R205, R206, R207, R208, R238, R242: against the Reference device, with a payload at the head of its RX FIFO,
`readMessage` returns that payload and pops it, under either framing; with an empty FIFO it returns `Failure` and keeps
`rxbuf`. RX_DR is cleared either way. -/
def Obligations.ReadMessageReference : Prop :=
  ∀ s : State, QuietReference s → s.initialised = true →
    (∀ e rest, s.ref.rxFifo = e :: rest → PayloadOk e.payload →
      ∃ t, exec .readMessage s = .next t ∧ t.op = none ∧
        t.result = some (if e.payload.headD 0 = 0 then .failure else .message e.payload) ∧
        t.ref.rxFifo = rest ∧ t.ref.regs.rxDr = false ∧ t.regs.len.toNat = e.payload.length) ∧
    (s.ref.rxFifo = [] →
      ∃ t, exec .readMessage s = .next t ∧ t.op = none ∧ t.result = some .failure ∧ t.regs.rxbuf = s.regs.rxbuf ∧
        t.ref.rxFifo = [] ∧ t.ref.regs.rxDr = false ∧ t.regs.len = 0)

/-! ### The Reference device on the wire, in a silent environment -/

/-- R231, R232: a wire command against the Reference device: the first MISO byte is STATUS as it stands, the data bytes
are what the command answers, and the command takes effect once, at the CSN rising edge. -/
def Obligations.ReferenceWindow : Prop :=
  ∀ (i : Instr) (c : Byte) (data : List Byte) (s : State), QuietReference s → s.initialised = true →
    encode i = .transaction (c :: data) →
    ∃ t d, exec i s = .next t ∧ t.result = some (.statusBytes s.ref.statusByte d) ∧ d.length = data.length ∧
      (∀ j v, j < data.length → s.ref.miso c j = some v → d[j]? = some v) ∧
      t.ref = (s.ref.commit c data (data.length + 1)).settle s.pins.ce.isHigh ∧ t.pins.irq = t.ref.irqOut

/-- R236–R243: the special commands as operations, against the Reference device. -/
def Obligations.ReferenceSpecialCommands : Prop :=
  ∀ (s : State) (buf : List Byte) (n : Nat), QuietReference s → s.initialised = true → n ≤ buf.length →
    ∀ i d, (i, d) ∈ [(Instr.flushTx, s.ref.flushTx), (.flushRx, s.ref.flushRx),
        (.writeTxPayload buf n, s.ref.queueTx (buf.take n) false),
        (.writeTxPayloadNoAck buf n, if s.ref.regs.enDynAck then s.ref.queueTx (buf.take n) true else s.ref),
        (.writeAckPayload buf n, s.ref.queueAck 0 (buf.take n)), (.activate, s.ref), (.nop, s.ref)] →
      ∃ t, exec i s = .next t ∧ t.result = some (.status s.ref.statusByte) ∧ t.ref = d.settle s.pins.ce.isHigh ∧
        t.pins.irq = t.ref.irqOut

/-- R79, R209, R233, R238, R242, R245: the reads against the Reference device: a register read returns the register's bytes
and has no side effect; a payload read returns the head payload's bytes and pops it; a width read returns its length;
`available` says whether the RX FIFO holds a payload. -/
def Obligations.ReferenceReads : Prop :=
  (∀ (s : State) (addr n : Nat), QuietReference s → s.initialised = true →
      (∃ t d, exec (.readRegister addr n) s = .next t ∧ t.result = some (.statusBytes s.ref.statusByte d) ∧ t.ref = s.ref ∧
        ∀ j, j < n → isReserved (BitVec.ofNat 5 addr) = false → j < s.ref.regs.width (BitVec.ofNat 5 addr) →
          d[j]? = some (byteOf (s.ref.regValue (BitVec.ofNat 5 addr)) j)) ∧
      (∃ t d, exec (.readRxPayload n) s = .next t ∧ t.result = some (.statusBytes s.ref.statusByte d) ∧
        t.ref = (if n = 0 then s.ref else { s.ref with rxFifo := s.ref.rxFifo.tail }) ∧
        ∀ j v, j < n → s.ref.rxHead[j]? = some v → d[j]? = some v) ∧
      (∃ t, exec .readRxPayloadWidth s = .next t ∧ t.ref = s.ref ∧
        t.result = some (.statusByte s.ref.statusByte (BitVec.ofNat 8 s.ref.rxHead.length)))) ∧
  (∀ s : State, QuietReference s → s.initialised = true →
      ∃ t, exec .available s = .next t ∧ t.result = some (.flag (!s.ref.rxFifo.isEmpty)) ∧ t.ref = s.ref)

/-- R172–R178: the effect of `applyState` on the Reference device: CONFIG changes as the target says, Receiving clears the
three flags, and nothing else of the registers or the FIFOs changes; PendingReceiptFlag is set exactly if the notifier
ran. -/
def Obligations.ApplyStateReference : Prop :=
  ∀ (g : OperatingState) (s : State), QuietReference s → s.initialised = true →
    ∃ t, exec (applyInstr g) s = .next t ∧ t.lastTarget = some g ∧ t.pins.ce = ceAfter g s.pins.ce ∧
      settings t.ref.regs = { settings s.ref.regs with config := configAfter g s.ref.regs.config } ∧
      t.ref.regs.rxDr = (s.ref.regs.rxDr && decide (g ≠ .receiving)) ∧
      t.ref.regs.txDs = (s.ref.regs.txDs && decide (g ≠ .receiving)) ∧
      t.ref.regs.maxRt = (s.ref.regs.maxRt && decide (g ≠ .receiving)) ∧
      t.ref.txFifo = s.ref.txFifo ∧ t.ref.rxFifo = s.ref.rxFifo ∧
      (t.intr.pending = true ↔ s.intr.pending = true ∨ irqMarks s.trace < irqMarks t.trace)

/-- R172: a second `applyState(PowerUp)` makes no write and no wait. -/
def Obligations.PowerUpWaitsOnce : Prop :=
  ∀ s : State, QuietReference s → s.initialised = true →
    ∃ t u f, exec .applyPowerUp s = .next t ∧ exec .applyPowerUp t = .next u ∧
      driven u.trace = driven t.trace ++ window [0x00, f] ∧ u.ref = t.ref

/-- R179, R253, R254, R321: `startListening` from Standby-I ends with the Reference device listening, with no timed
change put off: that settling is a condition on time is the model's reading (log 17). -/
def Obligations.StartListeningReference : Prop :=
  ∀ s : State, QuietReference s → s.initialised = true → s.ref.mode = .standbyI →
    ∃ t, exec .startListening s = .next t ∧ t.pins.ce = .driven true ∧ t.ref.mode = .rxMode ∧
      t.ref.listening = true ∧ t.ref.opstate true = .receiving ∧ t.ref.regs.rxDr = false ∧
      t.ref.regs.txDs = false ∧ t.ref.regs.maxRt = false

/-- R313, R168: the device after `init` from power-on reset, for every well-formed configuration and gating. -/
def Obligations.InitFromPowerOn : Prop :=
  ∀ (c : Cfg) (p : Params), cfgWellFormed c = true → p.deviceModel = .reference →
    ∃ t, exec .init { State.reset with cfg := c, params := p } = .next t ∧
      t.ref.regs = { DevRegs.reset with
        config := configInit c
        enAa := if c.autoAck then 0x3F else 0x00
        enRxaddr := 0x01
        setupRetr := 0xF1
        rfCh := c.channel
        rfSetup := rfSetupByte c
        dynpd := if c.dynPayload then 0x3F else 0x00
        feature := featureByte c p.featureGating
        rxAddrP0 := c.rxAddr.b4 ++ c.rxAddr.b3 ++ c.rxAddr.b2 ++ c.rxAddr.b1 ++ c.rxAddr.b0
        txAddr := c.txAddr.b4 ++ c.txAddr.b3 ++ c.txAddr.b2 ++ c.txAddr.b1 ++ c.txAddr.b0 } ∧
      t.ref.txFifo = [] ∧ t.ref.rxFifo = [] ∧ t.ref.mode = .startUp ∧ t.ref.statusByte = 0x0E ∧
      t.intr.pending = false ∧ t.regs.tmp = 0x00 ∧ t.lastTarget = none

/-! ### The devices -/

/-- R39, R234, R235, R32–R50: a W_REGISTER of enough bytes to a register that is not STATUS: its RW bits take the data's
bits, byte 0 first, its other bits stay, and every other register reads as before, but OBSERVE_TX, whose PLOS_CNT a
write of RF_CH clears. A write to a reserved address, of no bytes, or of too few does nothing. A write to STATUS clears
the flags written with 1. The RW bits of each register are those R32–R50 tabulate (none in STATUS, whose flags are W1C). -/
def Obligations.RegisterWriteBits : Prop :=
  ((∀ (d : RefDev) (a : RegAddr) (data : List Byte), isReserved a = false → a ≠ 0x07 → data ≠ [] →
      d.regs.width a ≤ data.length →
      (∀ j b, j < 5 → b < 8 → ((d.writeReg a data).regValue a).getLsbD (8 * j + b) =
        if j < d.regs.width a ∧ (rwMask a).getLsbD (8 * j + b) = true then (data.getD j 0).getLsbD b
        else (d.regValue a).getLsbD (8 * j + b)) ∧
      (∀ a' : RegAddr, a' ≠ a → a' ≠ 0x08 → (d.writeReg a data).regValue a' = d.regValue a') ∧
      (d.writeReg a data).regs.observeTx = (if a = 0x05 then d.regs.observeTx &&& 0x0F else d.regs.observeTx)) ∧
    (∀ (d : RefDev) (a : RegAddr) (data : List Byte),
      isReserved a = true ∨ data = [] ∨ data.length < d.regs.width a → d.writeReg a data = d)) ∧
  (∀ (d : RefDev) (b : Byte) (more : List Byte),
      d.writeReg 0x07 (b :: more) =
        { d with regs := { d.regs with
            rxDr := d.regs.rxDr && !b.getLsbD 6
            txDs := d.regs.txDs && !b.getLsbD 5
            maxRt := d.regs.maxRt && !b.getLsbD 4 } }) ∧
  (∀ p : RegAddr × Word40,
      p ∈ [(0x00, 0x7F), (0x01, 0x3F), (0x02, 0x3F), (0x03, 0x03), (0x04, 0xFF), (0x05, 0x7F), (0x06, 0xBF), (0x07, 0x00),
          (0x08, 0x00), (0x09, 0x00), (0x0A, 0xFFFFFFFFFF), (0x0B, 0xFFFFFFFFFF), (0x0C, 0xFF), (0x0D, 0xFF), (0x0E, 0xFF),
          (0x0F, 0xFF), (0x10, 0xFFFFFFFFFF), (0x11, 0x3F), (0x12, 0x3F), (0x13, 0x3F), (0x14, 0x3F), (0x15, 0x3F),
          (0x16, 0x3F), (0x17, 0x00), (0x1C, 0x3F), (0x1D, 0x07)] →
        rwMask p.1 = p.2)

/-- R244, R245: the read values of STATUS and FIFO_STATUS. -/
def Obligations.DerivedStatusBytes : Prop :=
  (∀ d : RefDev, FifosOk d →
      d.statusByte.getLsbD 7 = false ∧ d.statusByte.getLsbD 6 = d.regs.rxDr ∧ d.statusByte.getLsbD 5 = d.regs.txDs ∧
      d.statusByte.getLsbD 4 = d.regs.maxRt ∧
      (d.statusByte.extractLsb' 1 3).toNat = (match d.rxFifo with | [] => 7 | e :: _ => e.pipe) ∧
      d.statusByte.getLsbD 0 = decide (d.txFifo.length = 3) ∧ RefDev.reset.statusByte = 0x0E) ∧
  (∀ d : RefDev, FifosOk d →
      d.fifoStatusByte.getLsbD 7 = false ∧ d.fifoStatusByte.getLsbD 6 = d.reuse ∧
      d.fifoStatusByte.getLsbD 5 = decide (d.txFifo.length = 3) ∧ d.fifoStatusByte.getLsbD 4 = d.txFifo.isEmpty ∧
      d.fifoStatusByte.extractLsb' 2 2 = 0 ∧ d.fifoStatusByte.getLsbD 1 = decide (d.rxFifo.length = 3) ∧
      d.fifoStatusByte.getLsbD 0 = d.rxFifo.isEmpty ∧ RefDev.reset.fifoStatusByte = 0x11)

/-- R233, R236–R243: what the commands but the register writes do at the CSN rising edge: the payload and flush commands on
the FIFOs; REUSE_TX_PL; nothing for R_REGISTER, R_RX_PL_WID, NOP, ACTIVATE and reserved bytes. Every command byte is
answered STATUS. That FLUSH_TX keeps the packet on air is said in the model's own fields (log 18). -/
def Obligations.CommandCommits : Prop :=
  ((∀ (d : RefDev) (data : List Byte) (n : Nat), d.commit 0xFF data n = d ∧ d.commit 0x50 data n = d ∧
      d.commit 0x60 data n = d ∧ (∀ a : RegAddr, d.commit (a.zeroExtend 8) data n = d) ∧
      d.commit 0xE3 data (n + 1) = { d with reuse := true } ∧
      ∀ c, reservedByte c = true → d.commit c data n = d ∧ ∀ j, d.miso c j = none) ∧
    (∀ s : State, s.params.deviceModel = .reference → s.link.inTxn = true → s.link.idx = 0 →
      (answer s).1 = s.ref.statusByte)) ∧
  (∀ (d : RefDev) (data : List Byte) (n : Nat),
      d.commit 0xE1 data (n + 1) = { d with txFifo := [], reuse := false, airQueued := false } ∧
      d.commit 0xE2 data (n + 1) = { d with rxFifo := [] } ∧
      d.commit 0x61 data (n + 1) = (if n = 0 then d else { d with rxFifo := d.rxFifo.tail }) ∧
      d.commit 0xA0 data (n + 1) = (if data = [] ∨ 3 ≤ d.txFifo.length then d else
        { d with txFifo := d.txFifo ++ [⟨data.take 32, false, none⟩], reuse := false }) ∧
      d.commit 0xB0 data (n + 1) = (if d.regs.feature.getLsbD 0 = false ∨ data = [] ∨ 3 ≤ d.txFifo.length then d else
        { d with txFifo := d.txFifo ++ [⟨data.take 32, true, none⟩], reuse := false }) ∧
      ∀ p : BitVec 3, d.commit (0xA8 ||| p.zeroExtend 8) data (n + 1) =
        (if d.regs.feature.getLsbD 1 = false ∨ 5 < p.toNat ∨ data = [] ∨ 3 ≤ d.txFifo.length then d else
          { d with txFifo := d.txFifo ++ [⟨data.take 32, false, some p.toNat⟩] }))

/-- R248, R250–R256: the mode rules. Without PWR_UP the device is in PowerDown at once, keeping registers and FIFOs; with
it, it starts up and reaches Standby-I after 1500 µs, unless the environment puts that off, which it can do until an event
depends on it; then CE, PRIM_RX, the TX FIFO and MAX_RT decide. How the end is put off, that the settling times are
conditions, and what TxMode takes on air are the model's readings (logs 17, 18, 20). -/
def Obligations.DeviceModes : Prop :=
  (∀ (d : RefDev) (ce : Bool),
      (d.regs.pwrUp = false → (d.settle ce).mode = .powerDown ∧ (d.settle ce).regs = d.regs ∧
        (d.settle ce).txFifo = d.txFifo ∧ (d.settle ce).rxFifo = d.rxFifo ∧
        (d.mode ≠ .powerDown → (d.settle ce).onAir = none)) ∧
      (d.regs.pwrUp = true → d.mode = .powerDown → d.settle ce = { d with mode := .startUp, tMark := d.now }) ∧
      (d.regs.pwrUp = true → d.mode = .startUp → d.now - d.tMark < 1500 → d.settle ce = d) ∧
      (d.regs.pwrUp = true → d.mode = .startUp → 1500 ≤ d.now - d.tMark → d.held = false →
        d.settle ce = RefDev.settle { d with mode := .standbyI } ce) ∧
      (d.regs.pwrUp = true → d.mode = .startUp → d.held = true → d.settle ce = d) ∧
      (d.mode = .startUp → 1500 ≤ d.now - d.tMark → d.fireDue = { d with held := false }) ∧
      (d.mode ≠ .startUp ∨ d.now - d.tMark < 1500 → d.fireDue = d)) ∧
  (∀ d : RefDev, d.regs.pwrUp = true →
      (d.mode = .standbyI → d.settle false = d) ∧
      (d.mode = .standbyI → d.regs.primRx = true → d.settle true = { d with mode := .rxMode, tMark := d.now }) ∧
      (d.mode = .standbyI → d.regs.primRx = false → d.txFifo ≠ [] → d.regs.maxRt = false →
        d.settle true = d.enterTx false) ∧
      (d.mode = .standbyI → d.regs.primRx = false → d.txFifo = [] ∨ d.regs.maxRt = true →
        d.settle true = { d with mode := .standbyII }) ∧
      (d.mode = .rxMode → d.settle false = { d with mode := .standbyI }) ∧
      (d.mode = .rxMode → d.regs.primRx = true → d.settle true = d) ∧
      (d.mode = .rxMode → d.regs.primRx = false → d.settle true = RefDev.settle { d with mode := .standbyI } true) ∧
      (∀ ce, d.mode = .txMode → d.settle ce = d) ∧
      (∀ ce, d.mode = .standbyII → d.txFifo ≠ [] → d.regs.maxRt = false → d.settle ce = d.enterTx false) ∧
      (d.mode = .standbyII → d.txFifo = [] ∨ d.regs.maxRt = true → d.settle false = { d with mode := .standbyI }) ∧
      (d.mode = .standbyII → d.txFifo = [] ∨ d.regs.maxRt = true → d.regs.primRx = true →
        d.settle true = { d with mode := .rxMode, tMark := d.now }) ∧
      (d.mode = .standbyII → d.txFifo = [] ∨ d.regs.maxRt = true → d.regs.primRx = false → d.settle true = d))

/-- R257, R261, R247: the air event `rx`. -/
def Obligations.PacketReceived : Prop :=
  ∀ (d : RefDev) (p : Nat) (b : List Byte) (w : Bool),
    let admitted := d.mode = .rxMode ∧ 130 ≤ d.now - d.tMark ∧ p ≤ 5 ∧ d.regs.enRxaddr.getLsbD p = true ∧
      1 ≤ b.length ∧ b.length ≤ 32 ∧
      ((d.regs.feature.getLsbD 2 = true ∧ d.regs.dynpd.getLsbD p = true) ∨ b.length = d.regs.rxPw p)
    (¬ admitted ∨ 3 ≤ d.rxFifo.length → d.rx p b w = d) ∧
    (admitted → d.rxFifo.length < 3 →
      (d.rx p b w).rxFifo = d.rxFifo ++ [⟨b, p⟩] ∧ (d.rx p b w).regs.rxDr = true ∧
      ((w && d.regs.enAa.getLsbD p) = true → (∃ e ∈ d.txFifo, e.ackPipe = some p) →
        (d.rx p b w).txFifo = d.txFifo.eraseP (fun e => decide (e.ackPipe = some p)) ∧ (d.rx p b w).regs.txDs = true) ∧
      ((w && d.regs.enAa.getLsbD p) = false ∨ (∀ e ∈ d.txFifo, e.ackPipe ≠ some p) →
        d.rx p b w = { d with rxFifo := d.rxFifo ++ [⟨b, p⟩], regs := { d.regs with rxDr := true } }))

/-- R258, R259, R261: `tx_ok` sets TX_DS and takes the packet off the FIFO unless it is to be reused or a flush took it; the
payload its ACK carried is appended to the RX FIFO as for `rx(0, …)` and sets RX_DR, if the packet asked for an ACK (log 38),
pipe 0 admits it and there is room. That otherwise it is not queued, the RX FIFO and RX_DR staying, when pipe 0 does not
admit it or no ACK was asked for, is the model's reading of R261's 'as for rx(0, ...)' (log 23). `tx_fail` is admitted for an acknowledged packet only: it sets MAX_RT, leaves TX_DS and the FIFOs
alone, and nothing more is sent while MAX_RT stands. R255: after `tx_ok` the device is in TxMode again, on the next packet
and with no second settling, if CE = 1, the TX FIFO is not empty, MAX_RT = 0 and PRIM_RX = 0; else it is in StandbyI.
Outside a settled TxMode neither event is admitted, and nothing changes. What is on air is the model's own field
(log 18). -/
def Obligations.PacketOutcomes : Prop :=
  (∀ (d : RefDev) (ce : Bool) (n : Nat) (e : TxEntry) (q : Option (List Byte)), d.onAir = some e → d.mode = .txMode →
      (d.noSettle = true ∨ 130 ≤ d.now - d.tMark) →
      let t := d.txOk ce n q
      let taken := fun b : List Byte => e.noAck = false ∧ d.regs.enAa.getLsbD 0 = true ∧
        d.regs.enRxaddr.getLsbD 0 = true ∧ 1 ≤ b.length ∧ b.length ≤ 32 ∧
        ((d.regs.feature.getLsbD 2 = true ∧ d.regs.dynpd.getLsbD 0 = true) ∨ b.length = d.regs.rxPw 0) ∧
        d.rxFifo.length < 3
      t.regs.txDs = true ∧ t.regs.maxRt = d.regs.maxRt ∧ settings t.regs = settings d.regs ∧
      t.txFifo = (if d.airQueued = true ∧ d.reuse = false then d.txFifo.tail else d.txFifo) ∧
      (∀ b, q = some b → taken b → t.rxFifo = d.rxFifo ++ [⟨b, 0⟩] ∧ t.regs.rxDr = true) ∧
      ((∀ b, q = some b → ¬ taken b) → t.rxFifo = d.rxFifo ∧ t.regs.rxDr = d.regs.rxDr) ∧
      (if ce = true ∧ t.txFifo ≠ [] ∧ d.regs.maxRt = false ∧ d.regs.primRx = false then
        t.mode = .txMode ∧ t.tMark = d.now ∧ t.now = d.now ∧ t.onAir = t.txFifo.head? ∧ t.sending = true
      else t.mode = .standbyI ∧ t.onAir = none)) ∧
  ((∀ (d : RefDev) (ce : Bool) (n : Nat) (q : Option (List Byte)),
      d.mode ≠ .txMode ∨ (d.noSettle = false ∧ d.now - d.tMark < 130) → d.txOk ce n q = d ∧ d.txFail ce = d) ∧
    (∀ (d : RefDev) (ce : Bool) (e : TxEntry), d.onAir = some e → d.mode = .txMode →
      (d.noSettle = true ∨ 130 ≤ d.now - d.tMark) →
      ((e.noAck = true ∨ d.regs.enAa.getLsbD 0 = false) → d.txFail ce = d) ∧
      (e.noAck = false → d.regs.enAa.getLsbD 0 = true →
        (d.txFail ce).regs.maxRt = true ∧ (d.txFail ce).regs.txDs = d.regs.txDs ∧
        (d.txFail ce).txFifo = d.txFifo ∧ (d.txFail ce).rxFifo = d.rxFifo ∧ (d.txFail ce).mode = .standbyI)) ∧
    (∀ (d : RefDev) (ce : Bool), d.regs.maxRt = true → d.mode ≠ .txMode → (d.settle ce).mode ≠ .txMode))

/-! ### The interrupt -/

/-- R260, R280, R281, R283, R284: the IRQ output; a falling edge is latched when `int_en` is set and the sampled level is kept
in every case; the notifier runs when an edge is latched and `gie` is set: it clears the latch and `gie` on entry, sets
`pending` and records `IRQ`, and sets `gie` on return, and does nothing else; an edge that arrives while it runs is latched
again and not served by this run; a point of an environment that has no choice left takes a latched edge (log 16). The
pin is the output of the chosen device, always; with MASK_RX_DR set, a packet received raises no edge (R204 (e)). Every event
ends with such a sample; only under the wider reading of R204 (e), a value of the model's own parameter that is not its
default, is one fall left out: that of an RX_DR raised during the send under way (log 35). -/
def Obligations.InterruptPath : Prop :=
  (∀ (s : State) (level : Bool),
      (sense level s).intr.irqPrev = level ∧
      ((sense level s).intr.edgeLatch = true ↔
        s.intr.edgeLatch = true ∨ (s.intr.irqPrev = true ∧ level = false ∧ s.intr.intEn = true)) ∧
      (sense level s).intr.gie = s.intr.gie ∧ (sense level s).intr.intEn = s.intr.intEn ∧
      (sense level s).intr.pending = s.intr.pending ∧ (sense level s).trace = s.trace) ∧
  ((∀ (s : State) (during : List WorldAct), s.intr.edgeLatch = true → s.intr.gie = true →
        let u := during.foldl applyWorld { s with intr := { s.intr with edgeLatch := false, gie := false } }
        notify during s = { u with
          intr := { u.intr with gie := true, pending := true }
          trace := u.trace ++ [.irq] }) ∧
    (∀ (s : State) (during : List WorldAct), s.intr.edgeLatch = false ∨ s.intr.gie = false →
        notify during s = during.foldl applyWorld s) ∧
    (∀ s : State, s.params.deviceModel = .oracle → s.intr.edgeLatch = true → s.intr.gie = true →
        s.intr.intEn = true →
        (notify [] s).intr.edgeLatch = false ∧ (notify [] s).intr.pending = true ∧
        (notify [.irqLevel true, .irqLevel false] s).intr.edgeLatch = true ∧
        irqMarks (notify [.irqLevel true, .irqLevel false] s).trace = irqMarks s.trace + 1) ∧
    (∀ s : State, s.env = [] → s.intr.gie = true →
        (envSlot s).intr.edgeLatch = false ∧ (s.intr.edgeLatch = true → (envSlot s).intr.pending = true))) ∧
  ((∀ d : RefDev, d.irqOut = false ↔
      (d.regs.rxDr = true ∧ d.regs.config.getLsbD 6 = false) ∨ (d.regs.txDs = true ∧ d.regs.config.getLsbD 5 = false) ∨
        (d.regs.maxRt = true ∧ d.regs.config.getLsbD 4 = false)) ∧
    (∀ (d : RefDev) (flag : Bool), d.regs.config.getLsbD 6 = true →
      RefDev.irqOut { d with regs := { d.regs with rxDr := flag } } = d.irqOut)) ∧
  (∀ s : State,
      let t := onRef (fun d => d.settle s.pins.ce.isHigh) s
      let left := t.params.deviceModel = .reference ∧ t.params.sendUnmask = .spared ∧ t.intr.muted = true ∧
        (t.ref.regs.txDs = true → t.ref.regs.config.getLsbD 5 = true) ∧
        (t.ref.regs.maxRt = true → t.ref.regs.config.getLsbD 4 = true)
      (¬ left → refresh s = sense (irqLevel t) t) ∧
      (left → refresh s = { sense (irqLevel t) t with
        intr := { (sense (irqLevel t) t).intr with edgeLatch := s.intr.edgeLatch } }) ∧
      (s.params.deviceModel = .reference → (refresh s).pins.irq = (refresh s).ref.irqOut) ∧
      (s.params.deviceModel = .regFile → (refresh s).pins.irq = true) ∧
      (s.params.deviceModel = .oracle → ∀ level, (applyWorld s (.irqLevel level)).pins.irq = level))

/-- R151, R283, R78: the interrupt is invisible. Two states that differ only in what the notifier writes, and in where it
is yet to run, have outcomes that differ only so, for every instruction but `readPending`, which reads the flag; and for
every step that does not take a `readPending` request, a send in progress and a stopped `readMessage` included. How long a
stopped `readMessage` stays, once the environment's choices are used up, is the one thing a latched edge decides (log 15). -/
def Obligations.InterruptInvisible : Prop :=
  (∀ (i : Instr) (s s' : State), i ≠ .readPending → forgetNotifier s = forgetNotifier s' →
    forgetOutcome (exec i s) = forgetOutcome (exec i s')) ∧
  (∀ s s' : State, (s.op = none → ∀ args rest, s.requests ≠ .request 0x33 args :: rest) →
    (s.op = some .readMessage → s.env ≠ []) → forgetNotifier s = forgetNotifier s' →
    forgetOutcome (step s) = forgetOutcome (step s'))

/-! ### The whole machine -/

/-- R310: the controller after its reset, whatever it was before (`controllerReset` is the model's operation for a reset
without a power cycle, log 29). R311: the device after its power-on reset, register by register; a controller reset keeps
the device and the configuration. `muted` is the model's own field (log 35). -/
def Obligations.ResetValues : Prop :=
  (∀ s t : State, (t = State.reset ∧ s = State.reset) ∨ t = controllerReset s →
      t.pins.csn = .undriven ∧ t.pins.ce = .undriven ∧ t.pins.sck = .undriven ∧ t.pins.mosi = .undriven ∧
      t.regs.pollCount = 0 ∧ t.op = none ∧ t.pc = 0 ∧ t.initialised = false ∧ t.intr.gie = false ∧
      t.intr.intEn = false ∧ t.intr.edgeLatch = false ∧ t.intr.irqPrev = t.pins.irq ∧ t.pins.irq = s.pins.irq ∧
      t.intr.pending = false ∧ t.intr.muted = false ∧ t.lastTarget = none ∧ t.shifter.bitcnt = 0 ∧ t.cfg = s.cfg) ∧
  ((∀ p : RegAddr × Word40,
      p ∈ [(0x00, 0x08), (0x01, 0x3F), (0x02, 0x03), (0x03, 0x03), (0x04, 0x03), (0x05, 0x02), (0x06, 0x0E), (0x07, 0x0E),
          (0x08, 0x00), (0x09, 0x00), (0x0A, 0xE7E7E7E7E7), (0x0B, 0xC2C2C2C2C2), (0x0C, 0xC3), (0x0D, 0xC4), (0x0E, 0xC5),
          (0x0F, 0xC6), (0x10, 0xE7E7E7E7E7), (0x11, 0x00), (0x12, 0x00), (0x13, 0x00), (0x14, 0x00), (0x15, 0x00),
          (0x16, 0x00), (0x17, 0x11), (0x1C, 0x00), (0x1D, 0x00)] →
        State.reset.ref.regValue p.1 = p.2) ∧
    State.reset.ref.txFifo = [] ∧ State.reset.ref.rxFifo = [] ∧ State.reset.ref.mode = .powerDown ∧
    State.reset.ref.reuse = false ∧ State.reset.pins.irq = true ∧ State.reset.ref.now = 0 ∧ State.reset.ref.tMark = 0 ∧
    ∀ s : State, (controllerReset s).ref = s.ref ∧ (controllerReset s).regFile = s.regFile)

/-- The invariant holds at reset. -/
def Obligations.InvAtReset : Prop := Inv State.reset

/-- Every step keeps the invariant: the bus is idle between steps, the interrupt state fits the IRQ pin, the store is in
canonical form, the reserved bits read 0, the FIFOs are bounded, the modes have settled, and RX_DR is muted only while a
send is in progress (log 35). -/
def Obligations.StepKeepsInv : Prop :=
  ∀ s t : State, Inv s → step s = .next t → Inv t

/-- R23, R26, R27, R214, R282: no step changes the configuration or a parameter, clears an interrupt enable, or ends being
initialised; only `clearPending` clears PendingReceiptFlag. -/
def Obligations.WhatNoStepClears : Prop :=
  (∀ s t : State, step s = .next t →
      t.cfg = s.cfg ∧ t.params = s.params ∧ (s.intr.gie = true → t.intr.gie = true) ∧
      (s.intr.intEn = true → t.intr.intEn = true) ∧ (s.initialised = true → t.initialised = true)) ∧
  (∀ s t : State, step s = .next t → s.intr.pending = true → t.intr.pending = false →
      s.op = none ∧ ∃ args rest, s.requests = .request 0x34 args :: rest)

/-- R99: the command bytes the operations emit. -/
def Obligations.EmittedCommandBytes : Prop :=
  (∀ (i : Instr) (s t : State) (evs : List Drive), isHigherLevel i = true → exec i s = .next t →
    driven t.trace = driven s.trace ++ evs → ∀ c ∈ commandsOf evs, c ∈ emittedCommands) ∧
  (∀ (p : List Byte) (s t : State) (evs : List Drive), s.op = some (.sendMessage p) → step s = .next t →
    driven t.trace = driven s.trace ++ evs → ∀ c ∈ commandsOf evs, c ∈ emittedCommands) ∧
  (∀ (i : Instr) (s t : State) (evs : List Drive), isOperation i = true → exec i s = .next t →
    driven t.trace = driven s.trace ++ evs →
    ∀ c ∈ commandsOf evs, c ∈ emittedCommands ∨ c.toNat < 0x40 ∨ c = 0x50 ∨ c = 0xFF)

/-- R54: after `init`, a higher-level operation changes of the device's registers only CONFIG bits 6, 1 and 0 and the
STATUS flags (and OBSERVE_TX, which the device itself counts). -/
def Obligations.OnlyRoleBitsChange : Prop :=
  (∀ (i : Instr) (s t : State), isHigherLevel i = true → i ≠ .init → exec i s = .next t →
    settings t.ref.regs = { settings s.ref.regs with config := t.ref.regs.config } ∧
      (t.ref.regs.config ^^^ s.ref.regs.config) &&& 0xBC = 0) ∧
  (∀ (p : List Byte) (s t : State), s.op = some (.sendMessage p) → step s = .next t →
    settings t.ref.regs = { settings s.ref.regs with config := t.ref.regs.config } ∧
      (t.ref.regs.config ^^^ s.ref.regs.config) &&& 0xBC = 0)

/-- R54, R165, R171–R177, R201, R205, R249: the bytes of the RegFile store each higher-level operation leaves alone: all but
those its step list writes. Between steps no window is open; one left open would be committed by init's first CSN write. -/
def Obligations.StoreFrame : Prop :=
  (∀ (i : Instr) (s t : State) (x : Nat), isHigherLevel i = true → BusIdle s → Memory.wf s.regFile = true →
    exec i s = .next t → x ∉ storedCells i → Memory.read t.regFile x = Memory.read s.regFile x) ∧
  (∀ (p : List Byte) (s t : State) (x : Nat), s.op = some (.sendMessage p) → Memory.wf s.regFile = true →
    step s = .next t → x ≠ 0 → x ≠ 35 → Memory.read t.regFile x = Memory.read s.regFile x)

/-! ### The §8 properties -/

/-- R263.1: the register round trip: under RegFile for every address and every value of up to five bytes, whatever the
environment does; under Reference for the address registers with five bytes and for one-byte registers with values in
their RW bits. -/
def Obligations.RegisterRoundTrip : Prop :=
  (∀ (s : State) (addr : Nat) (v : List Byte), s.initialised = true → s.params.deviceModel = .regFile →
      Memory.wf s.regFile = true → v.length ≤ 5 →
      ∃ t u st, exec (.writeRegister addr v v.length) s = .next t ∧ exec (.readRegister addr v.length) t = .next u ∧
        u.result = some (.statusBytes st v)) ∧
  (∀ (s : State) (addr : Nat) (v : List Byte), QuietReference s → s.initialised = true → ReservedClear s.ref.regs →
      ((isAddrReg (BitVec.ofNat 5 addr) = true ∧ v.length = 5 ∧ s.ref.regs.aw = 3) ∨
        (isAddrReg (BitVec.ofNat 5 addr) = false ∧ rwMask (BitVec.ofNat 5 addr) ≠ 0 ∧
          ∃ b : Byte, v = [b] ∧ b.zeroExtend 40 &&& ~~~(rwMask (BitVec.ofNat 5 addr)) = 0)) →
      ∃ t u st, exec (.writeRegister addr v v.length) s = .next t ∧ exec (.readRegister addr v.length) t = .next u ∧
        u.result = some (.statusBytes st v))

/-- R262: the outcome of a packet of A in the loopback environment: heard, with room and the ACK it asks for given, it is
`tx_ok` for A and `rx` for B, and B's ACK payload, if one is queued for pipe 0, goes in A's RX FIFO if A's pipe
0 admits it (log 23) and there is room; heard without the ACK it asks for, `tx_fail` for A while B receives it (log 28);
heard with B's RX FIFO full, B drops it and gives no ACK (R261, log 22), so it is `tx_fail` for A if it asked for one
and `tx_ok` if not (log 28); not heard, A cannot tell unless it asked for an ACK, and B changes but for the record of packets (log 39). -/
def Obligations.LoopbackDelivery : Prop :=
  ∀ (p : Pair) (n : Nat) (e : TxEntry), p.a.params.deviceModel = .reference → p.b.params.deviceModel = .reference →
    p.a.ref.onAir = some e → p.a.ref.sending = true →
    (hears p.a.ref p.b.ref e.payload.length = true → p.b.ref.rxFifo.length < 3 →
      (p.a.ref.wantsAck e = true → p.b.ref.regs.enaa 0 = true) →
      (deliver n p).a.ref.regs.txDs = true ∧ (deliver n p).b.ref.rxFifo = p.b.ref.rxFifo ++ [⟨e.payload, 0⟩] ∧
      (deliver n p).b.ref.regs.rxDr = true ∧
      (∀ q, p.a.ref.wantsAck e = true → p.b.ref.ackPayload 0 = some q → p.a.ref.accepts 0 q.length = true →
        p.a.ref.rxFifo.length < 3 →
        (deliver n p).a.ref.rxFifo = p.a.ref.rxFifo ++ [⟨q, 0⟩] ∧ (deliver n p).a.ref.regs.rxDr = true) ∧
      (p.a.ref.wantsAck e = false ∨ p.b.ref.ackPayload 0 = none →
        (deliver n p).a.ref.rxFifo = p.a.ref.rxFifo ∧ (deliver n p).a.ref.regs.rxDr = p.a.ref.regs.rxDr)) ∧
    (hears p.a.ref p.b.ref e.payload.length = true → p.b.ref.rxFifo.length < 3 → p.a.ref.wantsAck e = true →
      p.b.ref.regs.enaa 0 = false →
      (deliver n p).a.ref.regs.maxRt = true ∧ (deliver n p).a.ref.regs.txDs = p.a.ref.regs.txDs ∧
      (deliver n p).b.ref.rxFifo = p.b.ref.rxFifo ++ [⟨e.payload, 0⟩]) ∧
    (hears p.a.ref p.b.ref e.payload.length = true → 3 ≤ p.b.ref.rxFifo.length →
      (deliver n p).b.ref.rxFifo = p.b.ref.rxFifo ∧ (deliver n p).b.ref.regs.rxDr = p.b.ref.regs.rxDr ∧
      (deliver n p).a.ref.rxFifo = p.a.ref.rxFifo ∧ (deliver n p).a.ref.regs.rxDr = p.a.ref.regs.rxDr ∧
      (p.a.ref.wantsAck e = true →
        (deliver n p).a.ref.regs.maxRt = true ∧ (deliver n p).a.ref.regs.txDs = p.a.ref.regs.txDs) ∧
      (p.a.ref.wantsAck e = false → (deliver n p).a.ref.regs.txDs = true)) ∧
    (hears p.a.ref p.b.ref e.payload.length = false → p.a.ref.wantsAck e = true →
      (deliver n p).a.ref.regs.maxRt = true ∧ (deliver n p).a.ref.regs.txDs = p.a.ref.regs.txDs ∧
      (deliver n p).b = { p.b with air := (deliver n p).b.air }) ∧
    (hears p.a.ref p.b.ref e.payload.length = false → p.a.ref.wantsAck e = false →
      (deliver n p).a.ref.regs.txDs = true ∧ (deliver n p).b = { p.b with air := (deliver n p).b.air })

/-- R262: the coupling of the two blocks' air events: an outcome that `deliver` gives, either way, is one event on both
sides; and the pair goes on only if every outcome of the one node was the other's packet at the same point, none left over:
in particular an acknowledged `tx_ok` of A is an `rx` of B on pipe 0 with the same payload, B listening under A's settings.
The record is the model's own form of that (log 39). -/
def Obligations.LoopbackCoupled : Prop :=
  (∀ (p : Pair) (n : Nat), p.a.params.deviceModel = .reference → p.b.params.deviceModel = .reference →
    p.coupled = true → (deliver n p).coupled = true ∧ (deliverBack n p).coupled = true) ∧
  (∀ (m n : Nat) (p q : Pair), Pair.step m n p = some q →
    core.run m p.a = .next q.a ∧ core.run n p.b = .next q.b ∧ q.a.air.length = q.b.air.length ∧
    (∀ (k : Nat) (e : AirEvent), q.a.air[k]? = some e → ∃ f, q.b.air[k]? = some f ∧ mirrors e f = true) ∧
    (∀ (k : Nat) (w : Waves) (b : List Byte) (ack : Option (List Byte)),
      q.a.air[k]? = some (.sent w b true true ack) → q.b.air[k]? = some (.came w 0 b true true ack)))

/-- R263.2: the payload loopback, with auto-acknowledge off or on: A, listening, sends `p`; once the air has delivered it,
A's next poll returns `true`, B's `pending` is set by the notifier, and `CLRPEND; READ` on B returns the payload with its
pad byte, or without it for 32 bytes. With TX_DS masked, an ACK payload that B gave and A's pipe 0 admits (log 23) sets A's own
`pending` by the edge of step 7 (R260, R280); under the wider reading of R204 (e), a value of the model's own parameter, `pending` stays (log 35).
Nothing is put off and nothing else comes over the air meanwhile (logs 17, 39). -/
def Obligations.PayloadLoopback : Prop :=
  ∀ (a b : State) (p : List Byte), QuietReference a → QuietReference b → a.initialised = true → b.initialised = true →
    (a.cfg.autoAck = false → a.ref.regs.enDynAck = true) → (a.ref.regs.enaa 0 = true → b.ref.regs.enaa 0 = true) →
    a.params.pollBound = none → a.pins.ce = .driven true → a.ref.mode = .rxMode → a.ref.regs.pwrUp = true →
    a.ref.regs.maxRt = false → a.ref.txFifo = [] →
    b.ref.listening = true → b.ref.rxFifo = [] → b.ref.accepts 0 (min 32 (p.length + 1)) = true →
    b.ref.regs.rxDr = false → b.ref.regs.maskRxDr = false → b.pins.irq = true → InterruptOk b → b.intr.intEn = true →
    b.op = none → MutedOk b →
    sameAir a.ref b.ref = true → 1 ≤ p.length → p.length ≤ 32 → p.headD 0 ≠ 0 →
    ∃ a1 a2 b1 b2, exec (.sendMessage p) a = .next a1 ∧ a1.op = some (.sendMessage p) ∧
      step (deliver 0 { a := applyWorld a1 (.elapse 130), b := b }).a = .next a2 ∧ a2.op = none ∧
      a2.result = some .sent ∧
      (InterruptOk a → a.ref.regs.rxDr = false → a.ref.regs.txDs = false → a.ref.regs.maskTxDs = true →
        (a.params.sendUnmask = .spared → a.intr.edgeLatch = false → a2.intr.pending = a.intr.pending) ∧
        (a.params.sendUnmask = .taken → a.intr.intEn = true → a.cfg.autoAck = true → a.ref.regs.enaa 0 = true →
          ∀ q, b.ref.ackPayload 0 = some q → a.ref.accepts 0 q.length = true → a2.intr.pending = true)) ∧
      (notify [] (deliver 0 { a := applyWorld a1 (.elapse 130), b := b }).b).intr.pending = true ∧
      exec .clearPending (notify [] (deliver 0 { a := applyWorld a1 (.elapse 130), b := b }).b) = .next b1 ∧
      exec .readMessage b1 = .next b2 ∧ b2.result = some (.message ((p ++ [0x00]).take 32))
end

