-- ==== Sys2Proof/Laws/State.lean ====
section
/-! SUPPORT. One lemma per field per update of the state: what each named update does to each field. -/

namespace Sys2Proof.Laws

open Sys2Proof.Machine

/-! ### record -/

@[simp] theorem record_cfg (e : Event) (s : State) : (record e s).cfg = s.cfg := rfl
@[simp] theorem record_params (e : Event) (s : State) : (record e s).params = s.params := rfl
@[simp] theorem record_pins (e : Event) (s : State) : (record e s).pins = s.pins := rfl
@[simp] theorem record_regs (e : Event) (s : State) : (record e s).regs = s.regs := rfl
@[simp] theorem record_shifter (e : Event) (s : State) : (record e s).shifter = s.shifter := rfl
@[simp] theorem record_op (e : Event) (s : State) : (record e s).op = s.op := rfl
@[simp] theorem record_pc (e : Event) (s : State) : (record e s).pc = s.pc := rfl
@[simp] theorem record_initialised (e : Event) (s : State) : (record e s).initialised = s.initialised := rfl
@[simp] theorem record_intr (e : Event) (s : State) : (record e s).intr = s.intr := rfl
@[simp] theorem record_lastTarget (e : Event) (s : State) : (record e s).lastTarget = s.lastTarget := rfl
@[simp] theorem record_link (e : Event) (s : State) : (record e s).link = s.link := rfl
@[simp] theorem record_ref (e : Event) (s : State) : (record e s).ref = s.ref := rfl
@[simp] theorem record_regFile (e : Event) (s : State) : (record e s).regFile = s.regFile := rfl
@[simp] theorem record_env (e : Event) (s : State) : (record e s).env = s.env := rfl
@[simp] theorem record_oracleMiso (e : Event) (s : State) : (record e s).oracleMiso = s.oracleMiso := rfl
@[simp] theorem record_draws (e : Event) (s : State) : (record e s).draws = s.draws := rfl
@[simp] theorem record_requests (e : Event) (s : State) : (record e s).requests = s.requests := rfl
@[simp] theorem record_trace (e : Event) (s : State) : (record e s).trace = s.trace ++ [e] := rfl
@[simp] theorem record_air (e : Event) (s : State) : (record e s).air = s.air := rfl
@[simp] theorem record_result (e : Event) (s : State) : (record e s).result = s.result := rfl

/-! ### emit -/

@[simp] theorem emit_cfg (e : Event) (s : State) : (emit e s).cfg = s.cfg := rfl
@[simp] theorem emit_params (e : Event) (s : State) : (emit e s).params = s.params := rfl
@[simp] theorem emit_pins (e : Event) (s : State) : (emit e s).pins = s.pins := rfl
@[simp] theorem emit_regs (e : Event) (s : State) : (emit e s).regs = s.regs := rfl
@[simp] theorem emit_shifter (e : Event) (s : State) : (emit e s).shifter = s.shifter := rfl
@[simp] theorem emit_op (e : Event) (s : State) : (emit e s).op = s.op := rfl
@[simp] theorem emit_pc (e : Event) (s : State) : (emit e s).pc = s.pc + 1 := rfl
@[simp] theorem emit_initialised (e : Event) (s : State) : (emit e s).initialised = s.initialised := rfl
@[simp] theorem emit_intr (e : Event) (s : State) : (emit e s).intr = s.intr := rfl
@[simp] theorem emit_lastTarget (e : Event) (s : State) : (emit e s).lastTarget = s.lastTarget := rfl
@[simp] theorem emit_link (e : Event) (s : State) : (emit e s).link = s.link := rfl
@[simp] theorem emit_ref (e : Event) (s : State) : (emit e s).ref = s.ref := rfl
@[simp] theorem emit_regFile (e : Event) (s : State) : (emit e s).regFile = s.regFile := rfl
@[simp] theorem emit_env (e : Event) (s : State) : (emit e s).env = s.env := rfl
@[simp] theorem emit_oracleMiso (e : Event) (s : State) : (emit e s).oracleMiso = s.oracleMiso := rfl
@[simp] theorem emit_draws (e : Event) (s : State) : (emit e s).draws = s.draws := rfl
@[simp] theorem emit_requests (e : Event) (s : State) : (emit e s).requests = s.requests := rfl
@[simp] theorem emit_trace (e : Event) (s : State) : (emit e s).trace = s.trace ++ [e] := rfl
@[simp] theorem emit_air (e : Event) (s : State) : (emit e s).air = s.air := rfl
@[simp] theorem emit_result (e : Event) (s : State) : (emit e s).result = s.result := rfl

/-! ### tick -/

@[simp] theorem tick_cfg (s : State) : (tick s).cfg = s.cfg := rfl
@[simp] theorem tick_params (s : State) : (tick s).params = s.params := rfl
@[simp] theorem tick_pins (s : State) : (tick s).pins = s.pins := rfl
@[simp] theorem tick_regs (s : State) : (tick s).regs = s.regs := rfl
@[simp] theorem tick_shifter (s : State) : (tick s).shifter = s.shifter := rfl
@[simp] theorem tick_op (s : State) : (tick s).op = s.op := rfl
@[simp] theorem tick_pc (s : State) : (tick s).pc = s.pc + 1 := rfl
@[simp] theorem tick_initialised (s : State) : (tick s).initialised = s.initialised := rfl
@[simp] theorem tick_intr (s : State) : (tick s).intr = s.intr := rfl
@[simp] theorem tick_lastTarget (s : State) : (tick s).lastTarget = s.lastTarget := rfl
@[simp] theorem tick_link (s : State) : (tick s).link = s.link := rfl
@[simp] theorem tick_ref (s : State) : (tick s).ref = s.ref := rfl
@[simp] theorem tick_regFile (s : State) : (tick s).regFile = s.regFile := rfl
@[simp] theorem tick_env (s : State) : (tick s).env = s.env := rfl
@[simp] theorem tick_oracleMiso (s : State) : (tick s).oracleMiso = s.oracleMiso := rfl
@[simp] theorem tick_draws (s : State) : (tick s).draws = s.draws := rfl
@[simp] theorem tick_requests (s : State) : (tick s).requests = s.requests := rfl
@[simp] theorem tick_trace (s : State) : (tick s).trace = s.trace := rfl
@[simp] theorem tick_air (s : State) : (tick s).air = s.air := rfl
@[simp] theorem tick_result (s : State) : (tick s).result = s.result := rfl

/-! ### begin -/

@[simp] theorem begin_cfg (i : Instr) (s : State) : (begin i s).cfg = s.cfg := rfl
@[simp] theorem begin_params (i : Instr) (s : State) : (begin i s).params = s.params := rfl
@[simp] theorem begin_pins (i : Instr) (s : State) : (begin i s).pins = s.pins := rfl
@[simp] theorem begin_regs (i : Instr) (s : State) : (begin i s).regs = s.regs := rfl
@[simp] theorem begin_shifter (i : Instr) (s : State) : (begin i s).shifter = s.shifter := rfl
@[simp] theorem begin_op (i : Instr) (s : State) : (begin i s).op = some i := rfl
@[simp] theorem begin_pc (i : Instr) (s : State) : (begin i s).pc = 0 := rfl
@[simp] theorem begin_initialised (i : Instr) (s : State) : (begin i s).initialised = s.initialised := rfl
@[simp] theorem begin_intr (i : Instr) (s : State) : (begin i s).intr = s.intr := rfl
@[simp] theorem begin_lastTarget (i : Instr) (s : State) : (begin i s).lastTarget = s.lastTarget := rfl
@[simp] theorem begin_link (i : Instr) (s : State) : (begin i s).link = s.link := rfl
@[simp] theorem begin_ref (i : Instr) (s : State) : (begin i s).ref = s.ref := rfl
@[simp] theorem begin_regFile (i : Instr) (s : State) : (begin i s).regFile = s.regFile := rfl
@[simp] theorem begin_env (i : Instr) (s : State) : (begin i s).env = s.env := rfl
@[simp] theorem begin_oracleMiso (i : Instr) (s : State) : (begin i s).oracleMiso = s.oracleMiso := rfl
@[simp] theorem begin_draws (i : Instr) (s : State) : (begin i s).draws = s.draws := rfl
@[simp] theorem begin_requests (i : Instr) (s : State) : (begin i s).requests = s.requests := rfl
@[simp] theorem begin_trace (i : Instr) (s : State) : (begin i s).trace = s.trace := rfl
@[simp] theorem begin_air (i : Instr) (s : State) : (begin i s).air = s.air := rfl
@[simp] theorem begin_result (i : Instr) (s : State) : (begin i s).result = s.result := rfl

/-! ### finish -/

@[simp] theorem finish_cfg (r : Result) (s : State) : (finish r s).cfg = s.cfg := rfl
@[simp] theorem finish_params (r : Result) (s : State) : (finish r s).params = s.params := rfl
@[simp] theorem finish_pins (r : Result) (s : State) : (finish r s).pins = s.pins := rfl
@[simp] theorem finish_regs (r : Result) (s : State) : (finish r s).regs = s.regs := rfl
@[simp] theorem finish_shifter (r : Result) (s : State) : (finish r s).shifter = s.shifter := rfl
@[simp] theorem finish_op (r : Result) (s : State) : (finish r s).op = none := rfl
@[simp] theorem finish_pc (r : Result) (s : State) : (finish r s).pc = s.pc := rfl
@[simp] theorem finish_initialised (r : Result) (s : State) : (finish r s).initialised = s.initialised := rfl
@[simp] theorem finish_intr (r : Result) (s : State) : (finish r s).intr = s.intr := rfl
@[simp] theorem finish_lastTarget (r : Result) (s : State) : (finish r s).lastTarget = s.lastTarget := rfl
@[simp] theorem finish_link (r : Result) (s : State) : (finish r s).link = s.link := rfl
@[simp] theorem finish_ref (r : Result) (s : State) : (finish r s).ref = s.ref := rfl
@[simp] theorem finish_regFile (r : Result) (s : State) : (finish r s).regFile = s.regFile := rfl
@[simp] theorem finish_env (r : Result) (s : State) : (finish r s).env = s.env := rfl
@[simp] theorem finish_oracleMiso (r : Result) (s : State) : (finish r s).oracleMiso = s.oracleMiso := rfl
@[simp] theorem finish_draws (r : Result) (s : State) : (finish r s).draws = s.draws := rfl
@[simp] theorem finish_requests (r : Result) (s : State) : (finish r s).requests = s.requests := rfl
@[simp] theorem finish_trace (r : Result) (s : State) : (finish r s).trace = s.trace := rfl
@[simp] theorem finish_air (r : Result) (s : State) : (finish r s).air = s.air := rfl
@[simp] theorem finish_result (r : Result) (s : State) : (finish r s).result = some r := rfl

/-! ### sense -/

@[simp] theorem sense_cfg (l : Bool) (s : State) : (sense l s).cfg = s.cfg := rfl
@[simp] theorem sense_params (l : Bool) (s : State) : (sense l s).params = s.params := rfl
@[simp] theorem sense_pins (l : Bool) (s : State) : (sense l s).pins = { s.pins with irq := l } := rfl
@[simp] theorem sense_regs (l : Bool) (s : State) : (sense l s).regs = s.regs := rfl
@[simp] theorem sense_shifter (l : Bool) (s : State) : (sense l s).shifter = s.shifter := rfl
@[simp] theorem sense_op (l : Bool) (s : State) : (sense l s).op = s.op := rfl
@[simp] theorem sense_pc (l : Bool) (s : State) : (sense l s).pc = s.pc := rfl
@[simp] theorem sense_initialised (l : Bool) (s : State) : (sense l s).initialised = s.initialised := rfl
@[simp] theorem sense_intr (l : Bool) (s : State) : (sense l s).intr = { s.intr with edgeLatch := s.intr.edgeLatch || (s.intr.irqPrev && !l && s.intr.intEn), irqPrev := l } := rfl
@[simp] theorem sense_lastTarget (l : Bool) (s : State) : (sense l s).lastTarget = s.lastTarget := rfl
@[simp] theorem sense_link (l : Bool) (s : State) : (sense l s).link = s.link := rfl
@[simp] theorem sense_ref (l : Bool) (s : State) : (sense l s).ref = s.ref := rfl
@[simp] theorem sense_regFile (l : Bool) (s : State) : (sense l s).regFile = s.regFile := rfl
@[simp] theorem sense_env (l : Bool) (s : State) : (sense l s).env = s.env := rfl
@[simp] theorem sense_oracleMiso (l : Bool) (s : State) : (sense l s).oracleMiso = s.oracleMiso := rfl
@[simp] theorem sense_draws (l : Bool) (s : State) : (sense l s).draws = s.draws := rfl
@[simp] theorem sense_requests (l : Bool) (s : State) : (sense l s).requests = s.requests := rfl
@[simp] theorem sense_trace (l : Bool) (s : State) : (sense l s).trace = s.trace := rfl
@[simp] theorem sense_air (l : Bool) (s : State) : (sense l s).air = s.air := rfl
@[simp] theorem sense_result (l : Bool) (s : State) : (sense l s).result = s.result := rfl

/-- When a fall of IRQ is not taken (log 35). -/
theorem spared_iff (s : State) : spared s = true ↔
    s.params.deviceModel = .reference ∧ s.params.sendUnmask = .spared ∧ s.intr.muted = true ∧
      (s.ref.regs.txDs = true → s.ref.regs.config.getLsbD 5 = true) ∧
      (s.ref.regs.maxRt = true → s.ref.regs.config.getLsbD 4 = true) := by
  unfold spared
  cases s.params.deviceModel <;> cases s.params.sendUnmask <;>
    simp [RefDev.onlyRxDr, RefDev.irqOut, DevRegs.maskTxDs, DevRegs.maskMaxRt, bitAt, imp_iff_not_or]

/-! ### sample -/

@[simp] theorem sample_cfg (l : Bool) (s : State) : (sample l s).cfg = s.cfg := rfl
@[simp] theorem sample_params (l : Bool) (s : State) : (sample l s).params = s.params := rfl
@[simp] theorem sample_pins (l : Bool) (s : State) : (sample l s).pins = { s.pins with irq := l } := rfl
@[simp] theorem sample_regs (l : Bool) (s : State) : (sample l s).regs = s.regs := rfl
@[simp] theorem sample_shifter (l : Bool) (s : State) : (sample l s).shifter = s.shifter := rfl
@[simp] theorem sample_op (l : Bool) (s : State) : (sample l s).op = s.op := rfl
@[simp] theorem sample_pc (l : Bool) (s : State) : (sample l s).pc = s.pc := rfl
@[simp] theorem sample_initialised (l : Bool) (s : State) : (sample l s).initialised = s.initialised := rfl
theorem sample_intr (l : Bool) (s : State) : (sample l s).intr = { s.intr with
    edgeLatch := s.intr.edgeLatch || ((sense l s).intr.edgeLatch && !spared s), irqPrev := l } := rfl
@[simp] theorem sample_gie (l : Bool) (s : State) : (sample l s).intr.gie = s.intr.gie := rfl
@[simp] theorem sample_intEn (l : Bool) (s : State) : (sample l s).intr.intEn = s.intr.intEn := rfl
@[simp] theorem sample_irqPrev (l : Bool) (s : State) : (sample l s).intr.irqPrev = l := rfl
@[simp] theorem sample_pending (l : Bool) (s : State) : (sample l s).intr.pending = s.intr.pending := rfl
@[simp] theorem sample_muted (l : Bool) (s : State) : (sample l s).intr.muted = s.intr.muted := rfl
@[simp] theorem sample_lastTarget (l : Bool) (s : State) : (sample l s).lastTarget = s.lastTarget := rfl
@[simp] theorem sample_link (l : Bool) (s : State) : (sample l s).link = s.link := rfl
@[simp] theorem sample_ref (l : Bool) (s : State) : (sample l s).ref = s.ref := rfl
@[simp] theorem sample_regFile (l : Bool) (s : State) : (sample l s).regFile = s.regFile := rfl
@[simp] theorem sample_env (l : Bool) (s : State) : (sample l s).env = s.env := rfl
@[simp] theorem sample_oracleMiso (l : Bool) (s : State) : (sample l s).oracleMiso = s.oracleMiso := rfl
@[simp] theorem sample_draws (l : Bool) (s : State) : (sample l s).draws = s.draws := rfl
@[simp] theorem sample_requests (l : Bool) (s : State) : (sample l s).requests = s.requests := rfl
@[simp] theorem sample_trace (l : Bool) (s : State) : (sample l s).trace = s.trace := rfl
@[simp] theorem sample_air (l : Bool) (s : State) : (sample l s).air = s.air := rfl
@[simp] theorem sample_result (l : Bool) (s : State) : (sample l s).result = s.result := rfl

/-- With nothing to leave out the sample is R280's. -/
theorem sample_eq_sense {l : Bool} {s : State} (h : spared s = false) : sample l s = sense l s := by
  cases hl : s.intr.edgeLatch <;> simp [sample, sense, h, hl]

/-- With `taken`, the default, nothing is left out. -/
theorem sample_taken {s : State} (h : s.params.sendUnmask = .taken) (l : Bool) : sample l s = sense l s :=
  sample_eq_sense (by unfold spared; rw [h]; cases s.params.deviceModel <;> rfl)

/-! ### mute -/

@[simp] theorem mute_cfg (b : Bool) (s : State) : (mute b s).cfg = s.cfg := rfl
@[simp] theorem mute_params (b : Bool) (s : State) : (mute b s).params = s.params := rfl
@[simp] theorem mute_pins (b : Bool) (s : State) : (mute b s).pins = s.pins := rfl
@[simp] theorem mute_regs (b : Bool) (s : State) : (mute b s).regs = s.regs := rfl
@[simp] theorem mute_shifter (b : Bool) (s : State) : (mute b s).shifter = s.shifter := rfl
@[simp] theorem mute_op (b : Bool) (s : State) : (mute b s).op = s.op := rfl
@[simp] theorem mute_pc (b : Bool) (s : State) : (mute b s).pc = s.pc := rfl
@[simp] theorem mute_initialised (b : Bool) (s : State) : (mute b s).initialised = s.initialised := rfl
@[simp] theorem mute_intr (b : Bool) (s : State) : (mute b s).intr = { s.intr with muted := b } := rfl
@[simp] theorem mute_lastTarget (b : Bool) (s : State) : (mute b s).lastTarget = s.lastTarget := rfl
@[simp] theorem mute_link (b : Bool) (s : State) : (mute b s).link = s.link := rfl
@[simp] theorem mute_ref (b : Bool) (s : State) : (mute b s).ref = s.ref := rfl
@[simp] theorem mute_regFile (b : Bool) (s : State) : (mute b s).regFile = s.regFile := rfl
@[simp] theorem mute_env (b : Bool) (s : State) : (mute b s).env = s.env := rfl
@[simp] theorem mute_oracleMiso (b : Bool) (s : State) : (mute b s).oracleMiso = s.oracleMiso := rfl
@[simp] theorem mute_draws (b : Bool) (s : State) : (mute b s).draws = s.draws := rfl
@[simp] theorem mute_requests (b : Bool) (s : State) : (mute b s).requests = s.requests := rfl
@[simp] theorem mute_trace (b : Bool) (s : State) : (mute b s).trace = s.trace := rfl
@[simp] theorem mute_air (b : Bool) (s : State) : (mute b s).air = s.air := rfl
@[simp] theorem mute_result (b : Bool) (s : State) : (mute b s).result = s.result := rfl

/-! ### notifierEnter -/

@[simp] theorem notifierEnter_cfg (s : State) : (notifierEnter s).cfg = s.cfg := rfl
@[simp] theorem notifierEnter_params (s : State) : (notifierEnter s).params = s.params := rfl
@[simp] theorem notifierEnter_pins (s : State) : (notifierEnter s).pins = s.pins := rfl
@[simp] theorem notifierEnter_regs (s : State) : (notifierEnter s).regs = s.regs := rfl
@[simp] theorem notifierEnter_shifter (s : State) : (notifierEnter s).shifter = s.shifter := rfl
@[simp] theorem notifierEnter_op (s : State) : (notifierEnter s).op = s.op := rfl
@[simp] theorem notifierEnter_pc (s : State) : (notifierEnter s).pc = s.pc := rfl
@[simp] theorem notifierEnter_initialised (s : State) : (notifierEnter s).initialised = s.initialised := rfl
@[simp] theorem notifierEnter_intr (s : State) : (notifierEnter s).intr = { s.intr with edgeLatch := false, gie := false } := rfl
@[simp] theorem notifierEnter_lastTarget (s : State) : (notifierEnter s).lastTarget = s.lastTarget := rfl
@[simp] theorem notifierEnter_link (s : State) : (notifierEnter s).link = s.link := rfl
@[simp] theorem notifierEnter_ref (s : State) : (notifierEnter s).ref = s.ref := rfl
@[simp] theorem notifierEnter_regFile (s : State) : (notifierEnter s).regFile = s.regFile := rfl
@[simp] theorem notifierEnter_env (s : State) : (notifierEnter s).env = s.env := rfl
@[simp] theorem notifierEnter_oracleMiso (s : State) : (notifierEnter s).oracleMiso = s.oracleMiso := rfl
@[simp] theorem notifierEnter_draws (s : State) : (notifierEnter s).draws = s.draws := rfl
@[simp] theorem notifierEnter_requests (s : State) : (notifierEnter s).requests = s.requests := rfl
@[simp] theorem notifierEnter_trace (s : State) : (notifierEnter s).trace = s.trace := rfl
@[simp] theorem notifierEnter_air (s : State) : (notifierEnter s).air = s.air := rfl
@[simp] theorem notifierEnter_result (s : State) : (notifierEnter s).result = s.result := rfl

/-! ### notifierBody -/

@[simp] theorem notifierBody_cfg (s : State) : (notifierBody s).cfg = s.cfg := rfl
@[simp] theorem notifierBody_params (s : State) : (notifierBody s).params = s.params := rfl
@[simp] theorem notifierBody_pins (s : State) : (notifierBody s).pins = s.pins := rfl
@[simp] theorem notifierBody_regs (s : State) : (notifierBody s).regs = s.regs := rfl
@[simp] theorem notifierBody_shifter (s : State) : (notifierBody s).shifter = s.shifter := rfl
@[simp] theorem notifierBody_op (s : State) : (notifierBody s).op = s.op := rfl
@[simp] theorem notifierBody_pc (s : State) : (notifierBody s).pc = s.pc := rfl
@[simp] theorem notifierBody_initialised (s : State) : (notifierBody s).initialised = s.initialised := rfl
@[simp] theorem notifierBody_intr (s : State) : (notifierBody s).intr = { s.intr with pending := true } := rfl
@[simp] theorem notifierBody_lastTarget (s : State) : (notifierBody s).lastTarget = s.lastTarget := rfl
@[simp] theorem notifierBody_link (s : State) : (notifierBody s).link = s.link := rfl
@[simp] theorem notifierBody_ref (s : State) : (notifierBody s).ref = s.ref := rfl
@[simp] theorem notifierBody_regFile (s : State) : (notifierBody s).regFile = s.regFile := rfl
@[simp] theorem notifierBody_env (s : State) : (notifierBody s).env = s.env := rfl
@[simp] theorem notifierBody_oracleMiso (s : State) : (notifierBody s).oracleMiso = s.oracleMiso := rfl
@[simp] theorem notifierBody_draws (s : State) : (notifierBody s).draws = s.draws := rfl
@[simp] theorem notifierBody_requests (s : State) : (notifierBody s).requests = s.requests := rfl
@[simp] theorem notifierBody_trace (s : State) : (notifierBody s).trace = s.trace ++ [.irq] := rfl
@[simp] theorem notifierBody_air (s : State) : (notifierBody s).air = s.air := rfl
@[simp] theorem notifierBody_result (s : State) : (notifierBody s).result = s.result := rfl

/-! ### notifierReturn -/

@[simp] theorem notifierReturn_cfg (s : State) : (notifierReturn s).cfg = s.cfg := rfl
@[simp] theorem notifierReturn_params (s : State) : (notifierReturn s).params = s.params := rfl
@[simp] theorem notifierReturn_pins (s : State) : (notifierReturn s).pins = s.pins := rfl
@[simp] theorem notifierReturn_regs (s : State) : (notifierReturn s).regs = s.regs := rfl
@[simp] theorem notifierReturn_shifter (s : State) : (notifierReturn s).shifter = s.shifter := rfl
@[simp] theorem notifierReturn_op (s : State) : (notifierReturn s).op = s.op := rfl
@[simp] theorem notifierReturn_pc (s : State) : (notifierReturn s).pc = s.pc := rfl
@[simp] theorem notifierReturn_initialised (s : State) : (notifierReturn s).initialised = s.initialised := rfl
@[simp] theorem notifierReturn_intr (s : State) : (notifierReturn s).intr = { s.intr with gie := true } := rfl
@[simp] theorem notifierReturn_lastTarget (s : State) : (notifierReturn s).lastTarget = s.lastTarget := rfl
@[simp] theorem notifierReturn_link (s : State) : (notifierReturn s).link = s.link := rfl
@[simp] theorem notifierReturn_ref (s : State) : (notifierReturn s).ref = s.ref := rfl
@[simp] theorem notifierReturn_regFile (s : State) : (notifierReturn s).regFile = s.regFile := rfl
@[simp] theorem notifierReturn_env (s : State) : (notifierReturn s).env = s.env := rfl
@[simp] theorem notifierReturn_oracleMiso (s : State) : (notifierReturn s).oracleMiso = s.oracleMiso := rfl
@[simp] theorem notifierReturn_draws (s : State) : (notifierReturn s).draws = s.draws := rfl
@[simp] theorem notifierReturn_requests (s : State) : (notifierReturn s).requests = s.requests := rfl
@[simp] theorem notifierReturn_trace (s : State) : (notifierReturn s).trace = s.trace := rfl
@[simp] theorem notifierReturn_air (s : State) : (notifierReturn s).air = s.air := rfl
@[simp] theorem notifierReturn_result (s : State) : (notifierReturn s).result = s.result := rfl

/-! ### csnFall -/

@[simp] theorem csnFall_cfg (s : State) : (csnFall s).cfg = s.cfg := rfl
@[simp] theorem csnFall_params (s : State) : (csnFall s).params = s.params := rfl
@[simp] theorem csnFall_pins (s : State) : (csnFall s).pins = s.pins := rfl
@[simp] theorem csnFall_regs (s : State) : (csnFall s).regs = s.regs := rfl
@[simp] theorem csnFall_shifter (s : State) : (csnFall s).shifter = s.shifter := rfl
@[simp] theorem csnFall_op (s : State) : (csnFall s).op = s.op := rfl
@[simp] theorem csnFall_pc (s : State) : (csnFall s).pc = s.pc := rfl
@[simp] theorem csnFall_initialised (s : State) : (csnFall s).initialised = s.initialised := rfl
@[simp] theorem csnFall_intr (s : State) : (csnFall s).intr = s.intr := rfl
@[simp] theorem csnFall_lastTarget (s : State) : (csnFall s).lastTarget = s.lastTarget := rfl
@[simp] theorem csnFall_link (s : State) : (csnFall s).link = { s.link with inTxn := true, idx := 0, data := [] } := rfl
@[simp] theorem csnFall_ref (s : State) : (csnFall s).ref = s.ref := rfl
@[simp] theorem csnFall_regFile (s : State) : (csnFall s).regFile = s.regFile := rfl
@[simp] theorem csnFall_env (s : State) : (csnFall s).env = s.env := rfl
@[simp] theorem csnFall_oracleMiso (s : State) : (csnFall s).oracleMiso = s.oracleMiso := rfl
@[simp] theorem csnFall_draws (s : State) : (csnFall s).draws = s.draws := rfl
@[simp] theorem csnFall_requests (s : State) : (csnFall s).requests = s.requests := rfl
@[simp] theorem csnFall_trace (s : State) : (csnFall s).trace = s.trace := rfl
@[simp] theorem csnFall_air (s : State) : (csnFall s).air = s.air := rfl
@[simp] theorem csnFall_result (s : State) : (csnFall s).result = s.result := rfl

/-! ### enableInterrupts -/

@[simp] theorem enableInterrupts_cfg (s : State) : (enableInterrupts s).cfg = s.cfg := rfl
@[simp] theorem enableInterrupts_params (s : State) : (enableInterrupts s).params = s.params := rfl
@[simp] theorem enableInterrupts_pins (s : State) : (enableInterrupts s).pins = s.pins := rfl
@[simp] theorem enableInterrupts_regs (s : State) : (enableInterrupts s).regs = s.regs := rfl
@[simp] theorem enableInterrupts_shifter (s : State) : (enableInterrupts s).shifter = s.shifter := rfl
@[simp] theorem enableInterrupts_op (s : State) : (enableInterrupts s).op = s.op := rfl
@[simp] theorem enableInterrupts_pc (s : State) : (enableInterrupts s).pc = s.pc + 2 := rfl
@[simp] theorem enableInterrupts_initialised (s : State) : (enableInterrupts s).initialised = s.initialised := rfl
@[simp] theorem enableInterrupts_intr (s : State) : (enableInterrupts s).intr = { s.intr with intEn := true, gie := true } := rfl
@[simp] theorem enableInterrupts_lastTarget (s : State) : (enableInterrupts s).lastTarget = s.lastTarget := rfl
@[simp] theorem enableInterrupts_link (s : State) : (enableInterrupts s).link = s.link := rfl
@[simp] theorem enableInterrupts_ref (s : State) : (enableInterrupts s).ref = s.ref := rfl
@[simp] theorem enableInterrupts_regFile (s : State) : (enableInterrupts s).regFile = s.regFile := rfl
@[simp] theorem enableInterrupts_env (s : State) : (enableInterrupts s).env = s.env := rfl
@[simp] theorem enableInterrupts_oracleMiso (s : State) : (enableInterrupts s).oracleMiso = s.oracleMiso := rfl
@[simp] theorem enableInterrupts_draws (s : State) : (enableInterrupts s).draws = s.draws := rfl
@[simp] theorem enableInterrupts_requests (s : State) : (enableInterrupts s).requests = s.requests := rfl
@[simp] theorem enableInterrupts_trace (s : State) : (enableInterrupts s).trace = s.trace := rfl
@[simp] theorem enableInterrupts_air (s : State) : (enableInterrupts s).air = s.air := rfl
@[simp] theorem enableInterrupts_result (s : State) : (enableInterrupts s).result = s.result := rfl

/-! ### draw -/

@[simp] theorem draw_fst (s : State) : (draw s).1 = Config.freeByte s.draws := rfl
@[simp] theorem draw_cfg (s : State) : (draw s).2.cfg = s.cfg := rfl
@[simp] theorem draw_params (s : State) : (draw s).2.params = s.params := rfl
@[simp] theorem draw_pins (s : State) : (draw s).2.pins = s.pins := rfl
@[simp] theorem draw_regs (s : State) : (draw s).2.regs = s.regs := rfl
@[simp] theorem draw_shifter (s : State) : (draw s).2.shifter = s.shifter := rfl
@[simp] theorem draw_op (s : State) : (draw s).2.op = s.op := rfl
@[simp] theorem draw_pc (s : State) : (draw s).2.pc = s.pc := rfl
@[simp] theorem draw_initialised (s : State) : (draw s).2.initialised = s.initialised := rfl
@[simp] theorem draw_intr (s : State) : (draw s).2.intr = s.intr := rfl
@[simp] theorem draw_lastTarget (s : State) : (draw s).2.lastTarget = s.lastTarget := rfl
@[simp] theorem draw_link (s : State) : (draw s).2.link = s.link := rfl
@[simp] theorem draw_ref (s : State) : (draw s).2.ref = s.ref := rfl
@[simp] theorem draw_regFile (s : State) : (draw s).2.regFile = s.regFile := rfl
@[simp] theorem draw_env (s : State) : (draw s).2.env = s.env := rfl
@[simp] theorem draw_oracleMiso (s : State) : (draw s).2.oracleMiso = s.oracleMiso := rfl
@[simp] theorem draw_draws (s : State) : (draw s).2.draws = s.draws + 1 := rfl
@[simp] theorem draw_requests (s : State) : (draw s).2.requests = s.requests := rfl
@[simp] theorem draw_trace (s : State) : (draw s).2.trace = s.trace := rfl
@[simp] theorem draw_air (s : State) : (draw s).2.air = s.air := rfl
@[simp] theorem draw_result (s : State) : (draw s).2.result = s.result := rfl

@[simp] theorem finishWith_eq (r : Result × State) : finishWith r = finish r.1 r.2 := rfl

end Sys2Proof.Laws
end

