-- ==== Sys2Proof/Laws/Bus.lean ====
section
/-! SUPPORT. What each shared operation on the bus drives and leaves alone (`Drives`, `Quiet`): one lemma per operation.
A proof about an instruction cites these and unfolds none of the operations. -/

namespace Sys2Proof

open Sys2Proof.Machine Sys2Proof.Laws

/-! ### The relations compose -/

@[simp] theorem irqMarks_append (a b : List Event) : irqMarks (a ++ b) = irqMarks a + irqMarks b := by
  simp [irqMarks]

@[simp] theorem irqMarks_single (e : Event) : irqMarks [e] = if e = .irq then 1 else 0 := by
  cases e <;> simp [irqMarks]

theorem Drives.refl (s : State) : Drives [] 0 s s := by constructor <;> simp [driven]

theorem Drives.trans {e1 e2 : List Drive} {n m : Nat} {s t u : State} (h1 : Drives e1 n s t) (h2 : Drives e2 m t u) :
    Drives (e1 ++ e2) (n + m) s u where
  trace := by rw [h2.trace, h1.trace, List.append_assoc]
  csn := by rw [h2.csn, h1.csn, List.foldl_append]
  ce := by rw [h2.ce, h1.ce, List.foldl_append]
  pc := by rw [h2.pc, h1.pc, List.length_append]; omega
  cfg := h2.cfg.trans h1.cfg
  params := h2.params.trans h1.params
  requests := h2.requests.trans h1.requests
  gie := h2.gie.trans h1.gie
  intEn := h2.intEn.trans h1.intEn
  marks := h1.marks.trans h2.marks
  pending := by
    have := h1.marks
    have := h2.marks
    rw [h2.pending, h1.pending]
    constructor
    · rintro ((h | h) | h)
      · exact .inl h
      · exact .inr (by omega)
      · exact .inr (by omega)
    · rintro (h | h)
      · exact .inl (.inl h)
      · by_cases h3 : irqMarks s.trace < irqMarks t.trace
        · exact .inl (.inr h3)
        · exact .inr (by omega)
  otherRef := fun h => (h2.otherRef (by rw [h1.params]; exact h)).trans (h1.otherRef h)
  otherStore := fun h => (h2.otherStore (by rw [h1.params]; exact h)).trans (h1.otherStore h)

/-- A change that drives nothing, after some events. -/
theorem Drives.then_nil {e : List Drive} {n : Nat} {s t u : State} (h1 : Drives e n s t) (h2 : Drives [] 0 t u) :
    Drives e n s u := by simpa using h1.trans h2

/-- A register write that is no event, after some events. -/
theorem Drives.ticked {e : List Drive} {n : Nat} {s t : State} (h : Drives e n s t) : Drives e (n + 1) s (tick t) := by
  obtain ⟨h1, h2, h3, h4, h5, h6, h7, h8, h9, h10, h11, h12, h13⟩ := h
  exact ⟨h1, h2, h3, by rw [tick_pc, h4]; omega, h5, h6, h7, h8, h9, h10, h11, h12, h13⟩

theorem Quiet.refl (s : State) : Quiet s s := by constructor <;> rfl

theorem Quiet.trans {s t u : State} (h1 : Quiet s t) (h2 : Quiet t u) : Quiet s u where
  tmp := h2.tmp.trans h1.tmp
  len := h2.len.trans h1.len
  rxbuf := h2.rxbuf.trans h1.rxbuf
  pollCount := h2.pollCount.trans h1.pollCount
  initialised := h2.initialised.trans h1.initialised
  lastTarget := h2.lastTarget.trans h1.lastTarget

end Sys2Proof

namespace Sys2Proof.Laws

open Sys2Proof.Machine

/-- What bus activity is to the controller: `Drives` and `Quiet`, the operation in progress stays, SCK stays at 0 and the
shifter stays empty. -/
structure Bus (evs : List Drive) (s t : State) : Prop where
  drives : Drives evs 0 s t
  quiet : Quiet s t
  op : t.op = s.op
  sck : s.pins.sck = .driven false → t.pins.sck = .driven false
  bit : s.shifter.bitcnt = 0 → t.shifter.bitcnt = 0

theorem Bus.refl (s : State) : Bus [] s s := ⟨Drives.refl s, Quiet.refl s, rfl, id, id⟩

theorem Bus.trans {e1 e2 : List Drive} {s t u : State} (h1 : Bus e1 s t) (h2 : Bus e2 t u) : Bus (e1 ++ e2) s u :=
  ⟨h1.drives.trans h2.drives, h1.quiet.trans h2.quiet, h2.op.trans h1.op, fun h => h2.sck (h1.sck h),
    fun h => h2.bit (h1.bit h)⟩

theorem Bus.nil_trans {e : List Drive} {s t u : State} (h1 : Bus [] s t) (h2 : Bus e t u) : Bus e s u := h1.trans h2

theorem Bus.trans_nil {e : List Drive} {s t u : State} (h1 : Bus e s t) (h2 : Bus [] t u) : Bus e s u := by
  simpa using h1.trans h2

@[simp] theorem driven_append (a b : List Event) : driven (a ++ b) = driven a ++ driven b := by simp [driven]

@[simp] theorem driven_single (e : Event) : driven [e] = (drivenOf e).toList := by
  cases h : drivenOf e <;> simp [driven, h]

/-! ### Silent operations -/

theorem sense_bus (l : Bool) (s : State) : Bus [] s (sense l s) := by
  refine ⟨?_, ?_, rfl, id, id⟩ <;> constructor <;> simp

theorem sample_bus (l : Bool) (s : State) : Bus [] s (sample l s) := by
  refine ⟨?_, ?_, rfl, id, id⟩ <;> constructor <;> simp

theorem onRef_bus (f : RefDev → RefDev) (s : State) : Bus [] s (onRef f s) := by
  unfold onRef
  split <;> refine ⟨?_, ?_, ?_, ?_, ?_⟩ <;> first | (simp_all; done) | (constructor <;> simp_all)

theorem refresh_bus (s : State) : Bus [] s (refresh s) := (onRef_bus _ s).nil_trans (sample_bus _ _)

theorem noteAir_bus (a : WorldAct) (s : State) : Bus [] s (noteAir a s) := by
  unfold noteAir
  split <;> refine ⟨?_, ?_, rfl, id, id⟩ <;> constructor <;> simp

theorem worldEffect_bus (s : State) (a : WorldAct) : Bus [] s (worldEffect s a) := by
  cases a with
  | elapse us => exact (onRef_bus _ s).nil_trans (refresh_bus _)
  | irqLevel level =>
    simp only [worldEffect]
    split
    · exact sense_bus level s
    · exact Bus.refl s
    · exact Bus.refl s
  | rx p payload wantsAck => exact (onRef_bus _ s).nil_trans (refresh_bus _)
  | txOk retries ackPayload => exact (onRef_bus _ s).nil_trans (refresh_bus _)
  | txFail => exact (onRef_bus _ s).nil_trans (refresh_bus _)
  | missed payload wantsAck => exact Bus.refl s
  | hold => exact onRef_bus (fun d => d.hold true) s
  | release => exact (onRef_bus _ s).nil_trans (refresh_bus _)

theorem applyWorld_bus (s : State) (a : WorldAct) : Bus [] s (applyWorld s a) :=
  (noteAir_bus a s).nil_trans (worldEffect_bus _ a)

theorem foldl_bus {α : Type} (f : State → α → State) (h : ∀ s a, Bus [] s (f s a)) (g : List α) (s : State) :
    Bus [] s (g.foldl f s) := by
  induction g generalizing s with
  | nil => exact Bus.refl s
  | cons a g ih => exact (h s a).nil_trans (ih _)

/-- The notifier is no bus activity, but for the flag it sets and its mark (R281). -/
theorem takeInterrupt_bus (during : List WorldAct) (s : State) (h : s.intr.gie = true) :
    Bus [] s (takeInterrupt during s) := by
  obtain ⟨⟨h1, h2, h3, h4, h5, h6, h7, h8, h9, h10, h11, h12, h13⟩, ⟨k1, k2, k3, k4, k5, k6⟩, h14, h15, h16⟩ :=
    foldl_bus applyWorld applyWorld_bus during (notifierEnter s)
  unfold takeInterrupt
  generalize during.foldl applyWorld (notifierEnter s) = u at *
  refine ⟨⟨?_, h2, h3, h4, h5, h6, h7, h.symm, h9, ?_, ?_, h12, h13⟩, ⟨k1, k2, k3, k4, k5, k6⟩, h14, h15, h16⟩
  · simpa [drivenOf] using h1
  · simp only [notifierEnter_trace] at h10; simp; omega
  · simp only [notifierEnter_trace] at h10; simp; omega

theorem notify_bus (during : List WorldAct) (s : State) : Bus [] s (notify during s) := by
  unfold notify
  split
  · rename_i h
    simp only [Bool.and_eq_true] at h
    exact takeInterrupt_bus during s h.2
  · exact foldl_bus applyWorld applyWorld_bus during s

theorem applyAct_bus (s : State) (a : EnvAct) : Bus [] s (applyAct s a) := by
  cases a with
  | world a => exact applyWorld_bus s a
  | notify during => exact notify_bus during s

theorem letGo_bus (s : State) : Bus [] s (letGo s) := (onRef_bus _ s).nil_trans (refresh_bus _)

theorem fireDue_bus (s : State) : Bus [] s (fireDue s) := (onRef_bus _ s).nil_trans (refresh_bus _)

theorem envSlot_bus (s : State) : Bus [] s (envSlot s) := by
  unfold envSlot
  split
  · exact (letGo_bus s).nil_trans (notify_bus [] _)
  · have h : ∀ rest, Bus [] s { s with env := rest } := by
      intro rest; refine ⟨?_, ?_, rfl, id, id⟩ <;> constructor <;> simp
    exact (h _).nil_trans (foldl_bus applyAct applyAct_bus _ _)

theorem draw_bus (s : State) : Bus [] s (draw s).2 := by refine ⟨?_, ?_, rfl, id, id⟩ <;> constructor <;> simp

theorem orDraw_bus (b : Option Byte) (s : State) : Bus [] s (orDraw b s).2 := by
  cases b with
  | none => exact draw_bus s
  | some v => exact Bus.refl s

theorem oracleByte_bus (s : State) : Bus [] s (oracleByte s).2 := by
  unfold oracleByte
  split
  · exact draw_bus s
  · refine ⟨?_, ?_, rfl, id, id⟩ <;> constructor <;> simp

theorem answer_bus (s : State) : Bus [] s (answer s).2 := by
  unfold answer
  split
  · split
    · exact oracleByte_bus s
    · exact orDraw_bus _ s
    · exact orDraw_bus _ s
  · exact draw_bus s

/-- Bits change the shifter and three pins only. -/
theorem shiftByte_bus (o i : Byte) (s : State) : Bus [] s (shiftByte o i s) := by
  have key : ∀ (ks : List Nat) (u : State), Drives [] 0 u (ks.foldl (nextBit i) u) ∧ Quiet u (ks.foldl (nextBit i) u) ∧
      (ks.foldl (nextBit i) u).op = u.op ∧
      (u.pins.sck = .driven false → (ks.foldl (nextBit i) u).pins.sck = .driven false) := by
    intro ks
    induction ks with
    | nil => exact fun u => ⟨Drives.refl u, Quiet.refl u, rfl, id⟩
    | cons k ks ih =>
      intro u
      have hb := envSlot_bus u
      have hd : Drives [] 0 (envSlot u) (nextBit i u k) := by constructor <;> simp [nextBit, shiftBit]
      have hq : Quiet (envSlot u) (nextBit i u k) := by constructor <;> rfl
      obtain ⟨k1, k2, k3, k4⟩ := ih (nextBit i u k)
      exact ⟨(hb.drives.trans hd).trans k1, (hb.quiet.trans hq).trans k2, (k3.trans rfl).trans hb.op, fun _ => k4 rfl⟩
  obtain ⟨k1, k2, k3, k4⟩ := key [7, 6, 5, 4, 3, 2, 1, 0] { s with shifter := { s.shifter with shOut := o, shIn := 0 } }
  unfold shiftByte
  generalize List.foldl _ _ _ = u at *
  refine ⟨?_, ?_, k3, k4, fun _ => rfl⟩
  · cases k1; constructor <;> assumption
  · cases k2; constructor <;> assumption

theorem linkTake_bus (o : Byte) (s : State) : Bus [] s (linkTake o s) := by
  unfold linkTake
  split
  · split <;> refine ⟨?_, ?_, rfl, id, id⟩ <;> constructor <;> simp
  · exact Bus.refl s

theorem csnRise_bus (s : State) : Bus [] s (csnRise s) := by
  unfold csnRise commitDevice
  split
  · split
    · refine ⟨?_, ?_, rfl, id, id⟩ <;> constructor <;> simp
    · split <;> refine ⟨?_, ?_, ?_, ?_, ?_⟩ <;> first | (simp_all; done) | (constructor <;> simp_all)
    · refine ⟨?_, ?_, ?_, ?_, ?_⟩ <;> first | (simp_all; done) | (constructor <;> simp_all)
  · exact Bus.refl s

theorem csnFall_bus (s : State) : Bus [] s (csnFall s) := by refine ⟨?_, ?_, rfl, id, id⟩ <;> constructor <;> simp

/-! ### Operations that drive one event -/

theorem emit_bus (e : Event) (d : Drive) (h : drivenOf e = some d) (s : State) (hc : csnStep s.pins.csn d = s.pins.csn)
    (he : ceStep s.pins.ce d = s.pins.ce) : Bus [d] s (emit e s) := by
  have hi : e ≠ .irq := by rintro rfl; cases h
  refine ⟨?_, ?_, rfl, id, id⟩ <;> constructor <;> simp [h, hc, he, hi]

theorem setCsn_bus (l : Bool) (s : State) : Bus [.csn l] s (setCsn l s) := by
  have h : ∀ u : State, Bus [.csn l] u (emit (.csn l) { u with pins := { u.pins with csn := .driven l } }) := by
    intro u; refine ⟨?_, ?_, rfl, id, id⟩ <;> constructor <;> simp [drivenOf, csnStep, ceStep]
  unfold setCsn
  cases l
  · exact ((envSlot_bus s).nil_trans (h _)).trans_nil ((csnFall_bus _).nil_trans (refresh_bus _))
  · exact ((envSlot_bus s).nil_trans (h _)).trans_nil ((csnRise_bus _).nil_trans (refresh_bus _))

theorem setCe_bus (l : Bool) (s : State) : Bus [.ce l] s (setCe l s) := by
  have h : ∀ u : State, Bus [.ce l] u (emit (.ce l) { u with pins := { u.pins with ce := .driven l } }) := by
    intro u; refine ⟨?_, ?_, rfl, id, id⟩ <;> constructor <;> simp [drivenOf, csnStep, ceStep]
  exact (((envSlot_bus s).nil_trans (fireDue_bus _)).nil_trans (h _)).trans_nil (refresh_bus _)

theorem waitFor_bus (us : Nat) (s : State) : Bus [.wait us] s (waitFor us s) :=
  ((((envSlot_bus s).nil_trans (envSlot_bus _)).nil_trans (onRef_bus _ _)).nil_trans
    (emit_bus _ (.wait us) rfl _ rfl rfl)).trans_nil (refresh_bus _)

theorem xfer_bus (o : Byte) (s : State) : Bus [.mosi o] s (xfer o s).2 :=
  ((((envSlot_bus s).nil_trans (answer_bus _)).nil_trans (shiftByte_bus o _ _)).nil_trans
    (emit_bus _ (.mosi o) rfl _ rfl rfl)).trans_nil ((linkTake_bus o _).nil_trans (refresh_bus _))

theorem exchange_bus (os : List Byte) (s : State) : Bus (os.map Drive.mosi) s (exchange os s).2 := by
  induction os generalizing s with
  | nil => exact Bus.refl s
  | cons o os ih => exact (xfer_bus o s).trans (ih _)

/-- The captured bytes are as many as were sent. -/
@[simp] theorem exchange_length (os : List Byte) (s : State) : (exchange os s).1.length = os.length := by
  induction os generalizing s with
  | nil => rfl
  | cons o os ih => simp [exchange, ih]

@[simp] theorem readBytes_length (n : Nat) (s : State) : (readBytes n s).1.length = n := by
  induction n generalizing s with
  | zero => rfl
  | succ n ih => simp [readBytes, ih]

/-- A read sends as many fill bytes as it reads; which ones is open (R136). -/
theorem readBytes_bus (n : Nat) (s : State) :
    ∃ fill : List Byte, fill.length = n ∧ Bus (fill.map Drive.mosi) s (readBytes n s).2 := by
  induction n generalizing s with
  | zero => exact ⟨[], rfl, Bus.refl s⟩
  | succ n ih =>
    obtain ⟨fill, hlen, hb⟩ := ih (xfer (draw s).1 (draw s).2).2
    exact ⟨(draw s).1 :: fill, by simp [hlen], ((draw_bus s).nil_trans (xfer_bus _ _)).trans hb⟩

/-! ### Transactions -/

theorem Bus.setStatus {e : List Drive} {s t : State} (h : Bus e s t) (v : Byte) :
    Bus e s { t with regs := { t.regs with status := v } } := by
  obtain ⟨h1, h2, h3, h4, h5⟩ := h
  refine ⟨?_, ?_, h3, h4, h5⟩
  · cases h1; constructor <;> assumption
  · cases h2; constructor <;> assumption

theorem openWindow_bus (c : Byte) (s : State) : Bus [.csn false, .mosi c] s (openWindow c s) :=
  ((setCsn_bus false s).trans (xfer_bus c _)).setStatus _

/-- `writeTx` is one window with its command byte and its data (R137, R139). -/
theorem writeTx_bus (c : Byte) (out : List Byte) (s : State) : Bus (window (c :: out)) s (writeTx c out s) := by
  have h := ((openWindow_bus c s).trans (exchange_bus out _)).trans (setCsn_bus true _)
  simpa [window, writeTx] using h

/-- `burstTx` is one window with its command byte and its data (R95). -/
theorem burstTx_bus (c : Byte) (out : List Byte) (s : State) : Bus (window (c :: out)) s (burstTx c out s).2 := by
  have h := ((openWindow_bus c s).trans (exchange_bus out _)).trans (setCsn_bus true _)
  simpa [window, burstTx] using h

@[simp] theorem burstTx_length (c : Byte) (out : List Byte) (s : State) : (burstTx c out s).1.length = out.length := by
  simp [burstTx]

/-- `readTx` is one window with its command byte and `n` open MOSI bytes (R135, R136). -/
theorem readTx_bus (c : Byte) (n : Nat) (s : State) :
    ∃ fill : List Byte, fill.length = n ∧ Bus (window (c :: fill)) s (readTx c n s).2 := by
  obtain ⟨fill, hlen, hb⟩ := readBytes_bus n (openWindow c s)
  refine ⟨fill, hlen, ?_⟩
  have h := ((openWindow_bus c s).trans hb).trans (setCsn_bus true _)
  simpa [window, readTx] using h

@[simp] theorem readTx_length (c : Byte) (n : Nat) (s : State) : (readTx c n s).1.length = n := by simp [readTx]

/-- A 1-byte register read inside an operation: one window, and `x[tmp]` takes the byte (R22). -/
theorem readTmp_drives (addr : Nat) (s : State) :
    ∃ fill : Byte, Drives (window [cmdReg opRead (maskAddr addr), fill]) 1 s (readTmp addr s).2 ∧
      (readTmp addr s).2.regs.tmp = (readTmp addr s).1 ∧
      Quiet { s with regs := { s.regs with tmp := (readTmp addr s).1 } } (readTmp addr s).2 ∧
      (readTmp addr s).2.op = s.op ∧ (s.pins.sck = .driven false → (readTmp addr s).2.pins.sck = .driven false) ∧
      (s.shifter.bitcnt = 0 → (readTmp addr s).2.shifter.bitcnt = 0) := by
  obtain ⟨fill, hlen, hb⟩ := readTx_bus (cmdReg opRead (maskAddr addr)) 1 s
  obtain ⟨b, rfl⟩ := List.length_eq_one_iff.mp hlen
  obtain ⟨hd, hq, ho, hs, hbit⟩ := hb
  refine ⟨b, ?_, rfl, ?_, ho, hs, hbit⟩
  · have := hd.ticked; cases this; constructor <;> assumption
  · cases hq; constructor <;> first | rfl | assumption

end Sys2Proof.Laws
end

