-- ==== Sys2Proof/Laws/Device.lean ====
section
/-! SUPPORT. What each shared operation of the Reference device can do: one lemma per operation. The air and the mode
rules change no setting (`settings`), keep the reserved bits clear and the FIFOs bounded, and the mode rules come to
rest. -/

namespace Sys2Proof.Laws

open Sys2Proof.Machine

/-! ### The mode rules come to rest -/

theorem modeRule_rest_of_txMode {d : RefDev} {ce : Bool} (h : d.mode = .txMode) (hp : d.regs.pwrUp = true) :
    d.modeRule ce = none := by simp [RefDev.modeRule, h, hp]

@[simp] theorem enterTx_pwrUp (d : RefDev) (b : Bool) : (d.enterTx b).regs.pwrUp = d.regs.pwrUp := rfl

@[simp] theorem enterTx_mode (d : RefDev) (b : Bool) : (d.enterTx b).mode = .txMode := rfl

/-- After `settle` no mode rule matches (R250). -/
theorem settle_rest (d : RefDev) (ce : Bool) : (d.settle ce).modeRule ce = none := by
  have hm' : ∀ m b, RefDev.canSend { d with mode := m, held := b } = d.canSend := fun _ _ => rfl
  have h0 : ∀ m b, RefDev.startUpOver { d with mode := m, tMark := d.now, held := b } = false := by
    simp [RefDev.startUpOver, Config.tStartUp]
  cases hp : d.regs.pwrUp
  · by_cases hm : d.mode = .powerDown <;> simp [RefDev.settle, RefDev.settleFuel, RefDev.modeRule, hp, hm]
  · cases hm : d.mode <;> cases ce <;> cases hr : d.regs.primRx <;> cases hs : d.canSend <;>
      cases ho : d.startUpOver <;> cases hh : d.held <;>
      simp [RefDev.settle, RefDev.settleFuel, RefDev.modeRule, hp, hm, hr, hs, ho, hh, hm', h0]

/-- A device at rest stays as it is. -/
theorem settle_of_rest (d : RefDev) (ce : Bool) (h : d.modeRule ce = none) : d.settle ce = d := by
  simp [RefDev.settle, RefDev.settleFuel, h]

/-! ### A property that one mode rule keeps, settling keeps -/

theorem settleFuel_keeps (P : RefDev → Prop) (ce : Bool) (h : ∀ d d', d.modeRule ce = some d' → P d → P d')
    (fuel : Nat) (d : RefDev) (hd : P d) : P (RefDev.settleFuel ce fuel d) := by
  induction fuel generalizing d with
  | zero => exact hd
  | succ n ih =>
    unfold RefDev.settleFuel
    cases hr : d.modeRule ce with
    | none => exact hd
    | some d' => exact ih d' (h d d' hr hd)

/-- Everything one mode rule can do: it sets the mode, the mark and what is on air, and clears the packet's retransmit
count; a packet is on air afterwards exactly in TxMode. -/
theorem modeRule_cases {d d' : RefDev} {ce : Bool} (h : d.modeRule ce = some d') :
    (d' = d.enterTx false ∧ d.canSend = true ∧ d.mode ≠ .txMode) ∨
      (∃ m, d' = { d with mode := .powerDown, onAir := none, airQueued := false, noSettle := false } ∧ m = d.mode) ∨
      (∃ m t, d' = { d with mode := m, tMark := t } ∧ m ≠ .txMode ∧ d.mode ≠ .txMode) := by
  unfold RefDev.modeRule at h
  split at h
  · split at h
    · cases h
    · exact .inr (.inl ⟨_, (Option.some.inj h).symm, rfl⟩)
  · cases hm : d.mode <;> simp only [hm] at h
    case powerDown => exact .inr (.inr ⟨_, _, (Option.some.inj h).symm, by simp, by simp⟩)
    case startUp =>
      split at h
      · exact .inr (.inr ⟨_, d.tMark, (Option.some.inj h).symm, by simp, by simp⟩)
      · cases h
    case standbyI =>
      split at h
      · cases h
      · split at h
        · exact .inr (.inr ⟨_, _, (Option.some.inj h).symm, by simp, by simp⟩)
        · split at h
          · exact .inl ⟨(Option.some.inj h).symm, ‹_›, by simp⟩
          · exact .inr (.inr ⟨_, d.tMark, (Option.some.inj h).symm, by simp, by simp⟩)
    case rxMode =>
      split at h
      · exact .inr (.inr ⟨_, d.tMark, (Option.some.inj h).symm, by simp, by simp⟩)
      · cases h
    case txMode => cases h
    case standbyII =>
      split at h
      · exact .inl ⟨(Option.some.inj h).symm, ‹_›, by simp⟩
      · split at h
        · exact .inr (.inr ⟨_, d.tMark, (Option.some.inj h).symm, by simp, by simp⟩)
        · split at h
          · exact .inr (.inr ⟨_, _, (Option.some.inj h).symm, by simp, by simp⟩)
          · cases h

/-- Whether a mode rule matches depends on these alone; and with the start-up no more over than before, none comes to
match. -/
theorem rest_of {d d' : RefDev} {ce : Bool} (h : d.modeRule ce = none) (m : d'.mode = d.mode)
    (p : d'.regs.pwrUp = d.regs.pwrUp) (r : d'.regs.primRx = d.regs.primRx) (c : d'.canSend = d.canSend)
    (u : (d'.startUpOver && !d'.held) = true → (d.startUpOver && !d.held) = true) : d'.modeRule ce = none := by
  have e : (d.modeRule ce).isNone = true → (d'.modeRule ce).isNone = true := by
    unfold RefDev.modeRule
    rw [m, p, r, c]
    cases d.mode <;> simp only [apply_ite Option.isNone, Option.isNone_some, Option.isNone_none, imp_self]
    cases d.regs.pwrUp <;> cases h2 : (d'.startUpOver && !d'.held) <;> simp_all
  simpa [h] using e

/-! ### What is put off -/

/-- Putting off, or no longer, changes nothing else. -/
theorem fireDue_cases (d : RefDev) : d.fireDue = d ∨ d.fireDue = d.hold false := by
  unfold RefDev.fireDue; split
  · exact .inr rfl
  · exact .inl rfl

/-- With nothing put off there is nothing to let go. -/
theorem hold_of_free {d : RefDev} (h : d.held = false) : d.hold false = d := by cases d; simp_all [RefDev.hold]

theorem fireDue_of_free {d : RefDev} (h : d.held = false) : d.fireDue = d := by
  rcases fireDue_cases d with e | e
  · exact e
  · rw [e, hold_of_free h]

/-! ### Settings -/

theorem hold_settings (d : RefDev) (b : Bool) : settings (d.hold b).regs = settings d.regs := rfl


theorem fireDue_settings (d : RefDev) : settings d.fireDue.regs = settings d.regs := by
  rcases fireDue_cases d with e | e <;> rw [e]; rfl

@[simp] theorem settings_clear (r : DevRegs) (a b c : Bool) (o : Byte) :
    settings { r with rxDr := a, txDs := b, maxRt := c, observeTx := o } = settings r := rfl

theorem enterTx_settings (d : RefDev) (b : Bool) : settings (d.enterTx b).regs = settings d.regs := rfl

/-- The mode rules change no setting. -/
theorem settle_settings (d : RefDev) (ce : Bool) : settings (d.settle ce).regs = settings d.regs := by
  refine settleFuel_keeps (fun e => settings e.regs = settings d.regs) ce ?_ 3 d rfl
  intro e e' h he
  rcases modeRule_cases h with ⟨rfl, -, -⟩ | ⟨m, rfl, -⟩ | ⟨m, t, rfl, -, -⟩ <;> exact he

/-- The mode rules touch neither FIFO nor TX_REUSE nor the clock nor the flags of STATUS, nor what the environment puts
off. -/
theorem settle_keeps (d : RefDev) (ce : Bool) :
    (d.settle ce).txFifo = d.txFifo ∧ (d.settle ce).rxFifo = d.rxFifo ∧ (d.settle ce).reuse = d.reuse ∧
      (d.settle ce).now = d.now ∧ (d.settle ce).regs.rxDr = d.regs.rxDr ∧ (d.settle ce).regs.txDs = d.regs.txDs ∧
      (d.settle ce).regs.maxRt = d.regs.maxRt ∧ (d.settle ce).held = d.held := by
  refine settleFuel_keeps (fun e => e.txFifo = d.txFifo ∧ e.rxFifo = d.rxFifo ∧ e.reuse = d.reuse ∧ e.now = d.now ∧
    e.regs.rxDr = d.regs.rxDr ∧ e.regs.txDs = d.regs.txDs ∧ e.regs.maxRt = d.regs.maxRt ∧ e.held = d.held) ce ?_ 3 d
    (by simp)
  intro e e' h he
  rcases modeRule_cases h with ⟨rfl, -, -⟩ | ⟨m, rfl, -⟩ | ⟨m, t, rfl, -, -⟩ <;> exact he

theorem pushRx_settings (d : RefDev) (p : Nat) (b : List Byte) : settings (d.pushRx p b).regs = settings d.regs := by
  unfold RefDev.pushRx; split <;> rfl

theorem sendAck_settings (d : RefDev) (p : Nat) : settings (d.sendAck p).regs = settings d.regs := by
  unfold RefDev.sendAck; split <;> rfl

/-- The air event `rx` changes no setting. -/
theorem rx_settings (d : RefDev) (p : Nat) (b : List Byte) (w : Bool) : settings (d.rx p b w).regs = settings d.regs := by
  unfold RefDev.rx
  split
  · rfl
  · split
    · rw [sendAck_settings, pushRx_settings]
    · exact pushRx_settings d p b

theorem afterTx_settings (d : RefDev) (ce : Bool) : settings (d.afterTx ce).regs = settings d.regs := by
  unfold RefDev.afterTx; split <;> rfl

theorem popSent_settings (d : RefDev) : settings d.popSent.regs = settings d.regs := by
  unfold RefDev.popSent; split <;> rfl

theorem takeAckPayload_settings (d : RefDev) (k : Bool) (b : Option (List Byte)) :
    settings (d.takeAckPayload k b).regs = settings d.regs := by
  unfold RefDev.takeAckPayload
  cases b with
  | none => rfl
  | some b => dsimp only; split; exacts [pushRx_settings d 0 b, rfl]

/-- The air event `tx_ok` changes no setting. -/
theorem txOk_settings (d : RefDev) (ce : Bool) (n : Nat) (b : Option (List Byte)) :
    settings (d.txOk ce n b).regs = settings d.regs := by
  unfold RefDev.txOk
  split
  · rfl
  · split
    · rfl
    · rw [afterTx_settings, takeAckPayload_settings]; rfl

/-- The air event `tx_fail` changes no setting. -/
theorem txFail_settings (d : RefDev) (ce : Bool) : settings (d.txFail ce).regs = settings d.regs := by
  unfold RefDev.txFail
  split
  · rfl
  · split
    · rfl
    · rw [afterTx_settings]; rfl

/-- The reserved bits are a matter of the settings alone. -/
theorem reservedClear_settings (r : DevRegs) : ReservedClear (settings r) ↔ ReservedClear r := Iff.rfl

theorem reservedClear_of_settings {r r' : DevRegs} (h : settings r' = settings r) (hr : ReservedClear r) :
    ReservedClear r' := by
  rw [← reservedClear_settings, h]; exact hr

/-! ### FIFOs -/

theorem rxFull_false {d : RefDev} : d.rxFull = false ↔ d.rxFifo.length < 3 := by
  simp [RefDev.rxFull, Config.fifoDepth]

theorem txFull_false {d : RefDev} : d.txFull = false ↔ d.txFifo.length < 3 := by
  simp [RefDev.txFull, Config.fifoDepth]

theorem enterTx_fifos {d : RefDev} (b : Bool) (hc : d.canSend = true) (h : FifosOk d) : FifosOk (d.enterTx b) := by
  obtain ⟨h1, h2, h3, h4, -⟩ := h
  refine ⟨h1, h2, h3, h4, ?_⟩
  cases hf : d.txFifo with
  | nil => simp [RefDev.canSend, hf] at hc
  | cons e es => simp [RefDev.enterTx, hf]

theorem hold_fifos (d : RefDev) (b : Bool) (h : FifosOk d) : FifosOk (d.hold b) := h

theorem fireDue_fifos (d : RefDev) (h : FifosOk d) : FifosOk d.fireDue := by
  rcases fireDue_cases d with e | e <;> rw [e] <;> exact h

/-- The mode rules keep the FIFOs bounded and what is on air right. -/
theorem settle_fifos (d : RefDev) (ce : Bool) (h : FifosOk d) : FifosOk (d.settle ce) := by
  refine settleFuel_keeps FifosOk ce ?_ 3 d h
  intro e e' hr he
  rcases modeRule_cases hr with ⟨rfl, hc, -⟩ | ⟨m, rfl, -⟩ | ⟨m, t, rfl, hm, hn⟩
  · exact enterTx_fifos false hc he
  · exact ⟨he.1, he.2.1, he.2.2.1, he.2.2.2.1, by simp⟩
  · refine ⟨he.1, he.2.1, he.2.2.1, he.2.2.2.1, ?_⟩
    have := he.2.2.2.2
    simp_all

theorem pushRx_fifos (d : RefDev) (p : Nat) (b : List Byte) (hp : p ≤ 5) (hb : PayloadOk b) (h : FifosOk d) :
    FifosOk (d.pushRx p b) := by
  unfold RefDev.pushRx
  split
  · exact h
  · rename_i hf
    obtain ⟨h1, h2, h3, h4, h5⟩ := h
    have hf := rxFull_false.mp (by simpa using hf)
    refine ⟨h1, h2, ?_, ?_, h5⟩
    · simp; omega
    · intro e he
      rcases List.mem_append.mp he with he | he
      · exact h4 e he
      · obtain rfl := List.mem_singleton.mp he; exact ⟨hb, hp⟩

theorem sendAck_fifos (d : RefDev) (p : Nat) (h : FifosOk d) : FifosOk (d.sendAck p) := by
  unfold RefDev.sendAck
  split
  · exact h
  · obtain ⟨h1, h2, h3, h4, h5⟩ := h
    exact ⟨le_trans List.length_eraseP_le h1, fun e he => h2 e (List.mem_of_mem_eraseP he), h3, h4, h5⟩

/-- What `accepts` says of a packet: its pipe and its length are in range (R261). -/
theorem accepts_bounds {d : RefDev} {p n : Nat} (h : d.accepts p n = true) : p ≤ 5 ∧ 1 ≤ n ∧ n ≤ 32 := by
  simp only [RefDev.accepts, DevRegs.pipeEnabled, Bool.and_eq_true, decide_eq_true_eq] at h
  exact ⟨h.1.1.1.1, h.1.1.2, h.1.2⟩

/-- The air event `rx` keeps the FIFOs bounded. -/
theorem rx_fifos (d : RefDev) (p : Nat) (b : List Byte) (w : Bool) (h : FifosOk d) : FifosOk (d.rx p b w) := by
  unfold RefDev.rx
  split
  · exact h
  · rename_i hc
    simp only [Bool.or_eq_true, Bool.not_eq_true', not_or, Bool.not_eq_false] at hc
    obtain ⟨hp, hb⟩ := accepts_bounds hc.1.2
    split
    · exact sendAck_fifos _ _ (pushRx_fifos d p b hp hb h)
    · exact pushRx_fifos d p b hp hb h

/-- A device whose FIFOs are bounded, whatever is on air, is right again after a packet's outcome. -/
theorem afterTx_fifos (d : RefDev) (ce : Bool) (h1 : d.txFifo.length ≤ 3) (h2 : ∀ e ∈ d.txFifo, TxEntryOk e)
    (h3 : d.rxFifo.length ≤ 3) (h4 : ∀ e ∈ d.rxFifo, RxEntryOk e) : FifosOk (d.afterTx ce) := by
  unfold RefDev.afterTx
  split
  · rename_i hc
    simp only [Bool.and_eq_true] at hc
    refine ⟨h1, h2, h3, h4, ?_⟩
    cases hf : d.txFifo with
    | nil => simp [RefDev.canSend, hf] at hc
    | cons e es => simp [RefDev.enterTx, hf]
  · exact ⟨h1, h2, h3, h4, by simp⟩

/-- The air event `tx_ok` keeps the FIFOs bounded. -/
theorem txOk_fifos (d : RefDev) (ce : Bool) (n : Nat) (b : Option (List Byte)) (h : FifosOk d) :
    FifosOk (d.txOk ce n b) := by
  unfold RefDev.txOk
  split
  · exact h
  · split
    · exact h
    · dsimp only
      rename_i e _ hs
      have key : ∀ r : DevRegs, FifosOk { d.popSent with regs := r } := by
        intro r
        obtain ⟨h1, h2, h3, h4, h5⟩ := h
        unfold RefDev.popSent
        split
        · refine ⟨?_, fun e he => h2 e (List.mem_of_mem_tail he), h3, h4, h5⟩
          simp only [List.length_tail]; omega
        · exact ⟨h1, h2, h3, h4, h5⟩
      have key2 : ∀ r : DevRegs, FifosOk (RefDev.takeAckPayload { d.popSent with regs := r } (d.wantsAck e) b) := by
        intro r
        unfold RefDev.takeAckPayload
        cases b with
        | none => exact key r
        | some b =>
          dsimp only
          split
          · rename_i hk
            simp only [Bool.and_eq_true] at hk
            obtain ⟨hp, hb⟩ := accepts_bounds hk.2
            exact pushRx_fifos _ 0 b hp hb (key r)
          · exact key r
      exact afterTx_fifos _ ce (key2 _).1 (key2 _).2.1 (key2 _).2.2.1 (key2 _).2.2.2.1

/-- The air event `tx_fail` keeps the FIFOs bounded. -/
theorem txFail_fifos (d : RefDev) (ce : Bool) (h : FifosOk d) : FifosOk (d.txFail ce) := by
  unfold RefDev.txFail
  split
  · exact h
  · split
    · exact h
    · exact afterTx_fifos _ ce h.1 h.2.1 h.2.2.1 h.2.2.2.1

/-! ### Commits -/

theorem queueTx_fifos (d : RefDev) (data : List Byte) (n : Bool) (h : FifosOk d) : FifosOk (d.queueTx data n) := by
  unfold RefDev.queueTx
  split
  · exact h
  · rename_i hc
    obtain ⟨h1, h2, h3, h4, h5⟩ := h
    cases data with
    | nil => simp at hc
    | cons b bs =>
      have hc := txFull_false.mp (by simpa using hc)
      refine ⟨by simp; omega, ?_, h3, h4, h5⟩
      intro e he
      rcases List.mem_append.mp he with he | he
      · exact h2 e he
      · obtain rfl := List.mem_singleton.mp he
        refine ⟨⟨?_, ?_⟩, rfl⟩ <;> simp [Config.payloadMax]

theorem queueAck_fifos (d : RefDev) (p : Nat) (data : List Byte) (h : FifosOk d) : FifosOk (d.queueAck p data) := by
  unfold RefDev.queueAck
  split
  · exact h
  · rename_i hc
    obtain ⟨h1, h2, h3, h4, h5⟩ := h
    cases data with
    | nil => simp at hc
    | cons b bs =>
      simp only [List.isEmpty_cons, Bool.or_false, Bool.or_eq_true, not_or, decide_eq_true_eq, Bool.not_eq_true] at hc
      have hf := txFull_false.mp hc.2
      refine ⟨by simp; omega, ?_, h3, h4, h5⟩
      intro e he
      rcases List.mem_append.mp he with he | he
      · exact h2 e he
      · obtain rfl := List.mem_singleton.mp he
        refine ⟨⟨?_, ?_⟩, ?_⟩ <;> simp [Config.payloadMax]
        omega

/-- W_REGISTER changes registers only (R234). -/
theorem writeReg_eq (d : RefDev) (a : RegAddr) (data : List Byte) :
    d.writeReg a data = { d with regs := (d.writeReg a data).regs } := by
  unfold RefDev.writeReg; split
  · rfl
  · split <;> rfl

/-- Every command keeps the FIFOs bounded (R52). -/
theorem commit_fifos (d : RefDev) (c : Byte) (data : List Byte) (n : Nat) (h : FifosOk d) : FifosOk (d.commit c data n) := by
  unfold RefDev.commit
  repeat' split
  all_goals first
    | exact h
    | exact queueAck_fifos d _ data h
    | exact queueTx_fifos d data _ h
    | (rw [writeReg_eq]; exact h)
    | (refine ⟨h.1, h.2.1, ?_, ?_, h.2.2.2.2⟩ <;> simp [RefDev.flushRx])
    | (refine ⟨?_, ?_, h.2.2.1, h.2.2.2.1, h.2.2.2.2⟩ <;> simp [RefDev.flushTx])
    | (unfold RefDev.popRx; split
       · refine ⟨h.1, h.2.1, ?_, fun e he => h.2.2.2.1 e (List.mem_of_mem_tail he), h.2.2.2.2⟩
         have := h.2.2.1
         simp only [List.length_tail]; omega
       · exact h)

/-- Only W_REGISTER changes a setting (R232–R243). -/
theorem commit_settings (d : RefDev) (c : Byte) (data : List Byte) (n : Nat) (h : isWriteCmd c = false) :
    settings (d.commit c data n).regs = settings d.regs := by
  unfold RefDev.commit RefDev.queueAck RefDev.queueTx RefDev.popRx
  simp only [h]
  repeat' split
  all_goals first | rfl | simp_all

end Sys2Proof.Laws
end

