-- ==== Sys2Proof/Laws/Memory.lean ====
section
/-! SUPPORT. The laws of the byte memory: a read after a write, and the canonical form. -/

namespace Sys2Proof.Laws

open Sys2Proof.Machine

theorem wfFrom_mono {lo lo' : Nat} (h : lo' ≤ lo) (m : Memory) (hw : Memory.wfFrom lo m = true) :
    Memory.wfFrom lo' m = true := by
  cases m with
  | nil => rfl
  | cons c m =>
    obtain ⟨b, w⟩ := c
    simp only [Memory.wfFrom, Bool.and_eq_true, decide_eq_true_eq] at hw ⊢
    exact ⟨⟨by omega, hw.1.2⟩, hw.2⟩

/-- Below its first address a canonical memory lists nothing. -/
theorem read_below (m : Memory) (lo a : Nat) (hw : Memory.wfFrom lo m = true) (h : a < lo) :
    Memory.read m a = Memory.unlisted := by
  induction m generalizing lo with
  | nil => rfl
  | cons c m ih =>
    obtain ⟨b, w⟩ := c
    simp only [Memory.wfFrom, Bool.and_eq_true, decide_eq_true_eq] at hw
    have hab : a ≠ b := by omega
    simp only [Memory.read, hab, if_false]
    exact ih (b + 1) hw.2 (by omega)

theorem write_wfFrom (m : Memory) (lo a : Nat) (v : Byte) (hw : Memory.wfFrom lo m = true) (h : lo ≤ a) :
    Memory.wfFrom lo (Memory.write m a v) = true := by
  induction m generalizing lo with
  | nil =>
    simp only [Memory.write]
    split
    · rfl
    · simp_all [Memory.wfFrom]
  | cons c m ih =>
    obtain ⟨b, w⟩ := c
    simp only [Memory.wfFrom, Bool.and_eq_true, decide_eq_true_eq] at hw
    obtain ⟨⟨hlo, hne⟩, hm⟩ := hw
    simp only [Memory.write]
    by_cases hab : a < b
    · by_cases hv : v = Memory.unlisted
      · simp [hab, hv, Memory.wfFrom, hlo, hne, hm]
      · simp only [hab, hv, if_true, if_false, Memory.wfFrom, Bool.and_eq_true, decide_eq_true_eq]
        exact ⟨⟨h, hv⟩, ⟨by omega, hne⟩, hm⟩
    · by_cases heq : a = b
      · by_cases hv : v = Memory.unlisted
        · simp only [heq, hv, if_true, if_false, lt_self_iff_false]
          exact wfFrom_mono (by omega) m hm
        · subst heq
          simp only [hv, if_true, if_false, lt_self_iff_false, Memory.wfFrom, Bool.and_eq_true, decide_eq_true_eq]
          exact ⟨⟨h, hv⟩, hm⟩
      · simp only [hab, heq, if_false, Memory.wfFrom, Bool.and_eq_true, decide_eq_true_eq]
        exact ⟨⟨hlo, hne⟩, ih (b + 1) hm (by omega)⟩

/-- A write keeps the canonical form. -/
theorem write_wf (m : Memory) (a : Nat) (v : Byte) (hw : Memory.wf m = true) : Memory.wf (Memory.write m a v) = true :=
  write_wfFrom m 0 a v hw (Nat.zero_le a)

theorem writeBytes_wf (vs : List Byte) (m : Memory) (a : Nat) (hw : Memory.wf m = true) :
    Memory.wf (Memory.writeBytes m a vs) = true := by
  induction vs generalizing m a with
  | nil => exact hw
  | cons v vs ih => exact ih _ _ (write_wf m a v hw)

/-- Every memory operation of the RegFile device keeps the canonical form. -/
theorem regFileWrite_wf (m : Memory) (a : RegAddr) (data : List Byte) (hw : Memory.wf m = true) :
    Memory.wf (regFileWrite m a data) = true := writeBytes_wf _ _ _ hw

theorem read_write_same_from (m : Memory) (lo a : Nat) (v : Byte) (hw : Memory.wfFrom lo m = true) :
    Memory.read (Memory.write m a v) a = v := by
  induction m generalizing lo with
  | nil =>
    simp only [Memory.write]
    split
    · simp_all [Memory.read]
    · simp [Memory.read]
  | cons c m ih =>
    obtain ⟨b, w⟩ := c
    simp only [Memory.wfFrom, Bool.and_eq_true, decide_eq_true_eq] at hw
    obtain ⟨⟨hlo, hne⟩, hm⟩ := hw
    simp only [Memory.write]
    by_cases hab : a < b
    · by_cases hv : v = Memory.unlisted
      · have : a ≠ b := by omega
        simp only [hab, hv, if_true, Memory.read, this, if_false]
        exact read_below m (b + 1) a hm (by omega)
      · simp [hab, hv, Memory.read]
    · by_cases heq : a = b
      · by_cases hv : v = Memory.unlisted
        · simp only [heq, hv, if_true, if_false, lt_self_iff_false]
          exact read_below m (b + 1) b hm (by omega)
        · simp [heq, hv, Memory.read]
      · simp only [hab, heq, if_false, Memory.read]
        exact ih (b + 1) hm

/-- A read of the address just written gives the value written. -/
theorem read_write_same (m : Memory) (a : Nat) (v : Byte) (hw : Memory.wf m = true) :
    Memory.read (Memory.write m a v) a = v := read_write_same_from m 0 a v hw

theorem read_write_other_from (m : Memory) (lo a b : Nat) (v : Byte) (hw : Memory.wfFrom lo m = true) (h : b ≠ a) :
    Memory.read (Memory.write m a v) b = Memory.read m b := by
  induction m generalizing lo with
  | nil =>
    simp only [Memory.write]
    split <;> simp [Memory.read, h]
  | cons c m ih =>
    obtain ⟨x, w⟩ := c
    simp only [Memory.wfFrom, Bool.and_eq_true, decide_eq_true_eq] at hw
    obtain ⟨-, hm⟩ := hw
    simp only [Memory.write]
    by_cases hax : a < x
    · by_cases hv : v = Memory.unlisted <;> simp [hax, hv, Memory.read, h]
    · by_cases heq : a = x
      · subst heq
        by_cases hv : v = Memory.unlisted <;> simp [hv, Memory.read, h]
      · simp only [hax, heq, if_false, Memory.read]
        rw [ih (x + 1) hm]

/-- A write leaves every other address alone. -/
theorem read_write_other (m : Memory) (a b : Nat) (v : Byte) (hw : Memory.wf m = true) (h : b ≠ a) :
    Memory.read (Memory.write m a v) b = Memory.read m b := read_write_other_from m 0 a b v hw h

/-- After a burst of writes a byte is the one written to it, or what it was. -/
theorem read_writeBytes (vs : List Byte) (m : Memory) (a x : Nat) (hw : Memory.wf m = true) :
    Memory.read (Memory.writeBytes m a vs) x =
      if a ≤ x ∧ x < a + vs.length then vs[x - a]?.getD 0 else Memory.read m x := by
  induction vs generalizing m a with
  | nil => simp [Memory.writeBytes]
  | cons v vs ih =>
    rw [Memory.writeBytes, ih _ _ (write_wf m a v hw)]
    by_cases hx : x = a
    · subst hx
      rw [if_neg (by omega), read_write_same m x v hw, if_pos (by simp)]
      simp
    · rw [read_write_other m a x v hw hx]
      by_cases h1 : a + 1 ≤ x ∧ x < a + 1 + vs.length
      · rw [if_pos h1, if_pos (by simp; omega), show x - a = (x - (a + 1)) + 1 by omega, List.getElem?_cons_succ]
      · rw [if_neg h1, if_neg (by simp; omega)]

end Sys2Proof.Laws
end

