-- ==== Sys2Proof/Laws/Window.lean ====
section
/-! SUPPORT. What a point of the environment and a re-evaluation of the device leave alone (`Silent`), and what each bus
operation does to the window's framing, the MISO bytes of the trace, and the device's registers. -/

namespace Sys2Proof

open Sys2Proof.Machine

theorem DeviceKept.refl (s : State) : DeviceKept s s := ⟨rfl, rfl⟩

theorem DeviceKept.trans {s t u : State} (h : DeviceKept s t) (k : DeviceKept t u) : DeviceKept s u :=
  ⟨k.settings.trans h.settings, k.store.trans h.store⟩

end Sys2Proof

namespace Sys2Proof.Laws

open Sys2Proof.Machine

/-- Nothing but the interrupt state, the IRQ pin, the environment's choices, the record of packets and the fields that the
device itself changes differs; no event of the controller was added. -/
structure Silent (s t : State) : Prop where
  cfg : t.cfg = s.cfg
  params : t.params = s.params
  csn : t.pins.csn = s.pins.csn
  ce : t.pins.ce = s.pins.ce
  sck : t.pins.sck = s.pins.sck
  mosi : t.pins.mosi = s.pins.mosi
  regs : t.regs = s.regs
  shifter : t.shifter = s.shifter
  op : t.op = s.op
  pc : t.pc = s.pc
  initialised : t.initialised = s.initialised
  lastTarget : t.lastTarget = s.lastTarget
  link : t.link = s.link
  settings : settings t.ref.regs = settings s.ref.regs
  otherRef : s.params.deviceModel ≠ .reference → t.ref = s.ref
  regFile : t.regFile = s.regFile
  oracleMiso : t.oracleMiso = s.oracleMiso
  draws : t.draws = s.draws
  requests : t.requests = s.requests
  result : t.result = s.result
  driven : driven t.trace = driven s.trace
  miso : misoOf t.trace = misoOf s.trace

theorem Silent.refl (s : State) : Silent s s := by constructor <;> simp

theorem Silent.trans {s t u : State} (h : Silent s t) (k : Silent t u) : Silent s u := by
  constructor
  all_goals first
    | exact fun hp => (k.otherRef (by rw [h.params]; exact hp)).trans (h.otherRef hp)
    | (first
        | exact k.cfg.trans h.cfg | exact k.params.trans h.params | exact k.csn.trans h.csn | exact k.ce.trans h.ce
        | exact k.sck.trans h.sck | exact k.mosi.trans h.mosi | exact k.regs.trans h.regs
        | exact k.shifter.trans h.shifter | exact k.op.trans h.op | exact k.pc.trans h.pc
        | exact k.initialised.trans h.initialised | exact k.lastTarget.trans h.lastTarget | exact k.link.trans h.link
        | exact k.settings.trans h.settings | exact k.regFile.trans h.regFile | exact k.oracleMiso.trans h.oracleMiso
        | exact k.draws.trans h.draws | exact k.requests.trans h.requests | exact k.result.trans h.result
        | exact k.driven.trans h.driven | exact k.miso.trans h.miso)

@[simp] theorem misoOf_append (a b : List Event) : misoOf (a ++ b) = misoOf a ++ misoOf b := by simp [misoOf]

@[simp] theorem misoOf_single (e : Event) : misoOf [e] = (misoByte e).toList := by
  cases h : misoByte e <;> simp [misoOf, h]

theorem sense_silent (l : Bool) (s : State) : Silent s (sense l s) := by constructor <;> simp

theorem sample_silent (l : Bool) (s : State) : Silent s (sample l s) := by constructor <;> simp

/-- A change of the Reference device that touches no setting is silent. -/
theorem onRef_silent (f : RefDev → RefDev) (hf : ∀ d, settings (f d).regs = settings d.regs) (s : State) :
    Silent s (onRef f s) := by
  unfold onRef
  split <;> constructor <;> simp_all

theorem refresh_silent (s : State) : Silent s (refresh s) :=
  (onRef_silent _ (fun d => settle_settings d _) s).trans (sample_silent _ _)

theorem noteAir_silent (a : WorldAct) (s : State) : Silent s (noteAir a s) := by
  unfold noteAir
  split <;> constructor <;> simp

theorem worldEffect_silent (s : State) (a : WorldAct) : Silent s (worldEffect s a) := by
  cases a with
  | elapse us => exact (onRef_silent (fun d => d.advance us) (fun d => rfl) s).trans (refresh_silent _)
  | irqLevel level =>
    simp only [worldEffect]
    split
    · exact sense_silent level s
    · exact Silent.refl s
    · exact Silent.refl s
  | rx p payload wantsAck => exact (onRef_silent _ (fun d => rx_settings d _ _ _) s).trans (refresh_silent _)
  | txOk retries ackPayload => exact (onRef_silent _ (fun d => txOk_settings d _ _ _) s).trans (refresh_silent _)
  | txFail => exact (onRef_silent _ (fun d => txFail_settings d _) s).trans (refresh_silent _)
  | missed payload wantsAck => exact Silent.refl s
  | hold => exact onRef_silent (fun d => d.hold true) (fun _ => rfl) s
  | release => exact (onRef_silent (fun d => d.hold false) (fun _ => rfl) s).trans (refresh_silent _)

theorem applyWorld_silent (s : State) (a : WorldAct) : Silent s (applyWorld s a) :=
  (noteAir_silent a s).trans (worldEffect_silent _ a)

theorem foldl_silent {α : Type} (f : State → α → State) (h : ∀ s a, Silent s (f s a)) (g : List α) (s : State) :
    Silent s (g.foldl f s) := by
  induction g generalizing s with
  | nil => exact Silent.refl s
  | cons a g ih => exact (h s a).trans (ih _)

theorem notify_silent (during : List WorldAct) (s : State) : Silent s (notify during s) := by
  have h1 : Silent s (notifierEnter s) := by constructor <;> simp
  have h2 : ∀ u, Silent u (notifierBody u) := fun u => by constructor <;> simp [drivenOf, misoByte]
  have h3 : ∀ u, Silent u (notifierReturn u) := fun u => by constructor <;> simp
  unfold notify takeInterrupt
  split
  · exact ((h1.trans (foldl_silent applyWorld applyWorld_silent during _)).trans (h2 _)).trans (h3 _)
  · exact foldl_silent applyWorld applyWorld_silent during s

theorem applyAct_silent (s : State) (a : EnvAct) : Silent s (applyAct s a) := by
  cases a with
  | world a => exact applyWorld_silent s a
  | notify during => exact notify_silent during s

theorem letGo_silent (s : State) : Silent s (letGo s) :=
  (onRef_silent (fun d => d.hold false) (fun _ => rfl) s).trans (refresh_silent _)

theorem fireDue_silent (s : State) : Silent s (fireDue s) :=
  (onRef_silent _ fireDue_settings s).trans (refresh_silent _)

/-- The environment's point is silent. -/
theorem envSlot_silent (s : State) : Silent s (envSlot s) := by
  unfold envSlot
  split
  · exact (letGo_silent s).trans (notify_silent [] _)
  · rename_i rest _
    have h : Silent s { s with env := rest } := by constructor <;> simp
    exact h.trans (foldl_silent applyAct applyAct_silent _ _)

/-! ### One byte -/

/-- A draw or an answer touches the answers still to come only. -/
theorem answer_keeps (s : State) :
    (answer s).2.trace = s.trace ∧ (answer s).2.link = s.link ∧ (answer s).2.ref = s.ref ∧
      (answer s).2.regFile = s.regFile ∧ (answer s).2.regs = s.regs ∧ (answer s).2.pins = s.pins ∧
      (answer s).2.op = s.op ∧ (answer s).2.env = s.env ∧ (answer s).2.params = s.params ∧
      (answer s).2.intr = s.intr ∧ (answer s).2.cfg = s.cfg ∧ (answer s).2.initialised = s.initialised := by
  unfold answer orDraw oracleByte draw
  repeat' split
  all_goals simp

/-- The framing after the device took a byte (R232). -/
def takeLink (o : Byte) (l : Link) : Link :=
  if l.inTxn then
    (if l.idx = 0 then { l with cmd := o, idx := 1 } else { l with data := l.data ++ [o], idx := l.idx + 1 })
  else l

theorem linkTake_eq (o : Byte) (s : State) : linkTake o s = { s with link := takeLink o s.link } := by
  unfold linkTake takeLink
  split
  · split <;> rfl
  · rfl

/-- What the bits of an exchange do to the pins and the shifter (R121): MISO's byte is captured, SCK is back at 0, MOSI
stays at the last bit sent. -/
def clocked (o i : Byte) (s : State) : State :=
  { s with
    pins := { s.pins with mosi := .driven (bitAt o 0), sck := .driven false, miso := bitAt i 0 }
    shifter := { shOut := o, shIn := i, bitcnt := 0 } }

/-- The byte that eight samples put together is the byte sampled (R121). -/
theorem bits_gather (i : Byte) : [7, 6, 5, 4, 3, 2, 1, 0].foldl
    (fun (v : Byte) k => if bitAt i k then v ||| bit k else v &&& ~~~(bit k)) 0 = i := by
  revert i; decide +kernel

/-- The eight bits of an exchange in a world at rest (R121). -/
theorem shiftBits_eq (o i : Byte) (s : State) :
    [7, 6, 5, 4, 3, 2, 1, 0].foldl (shiftBit i) { s with shifter := { s.shifter with shOut := o, shIn := 0 } } =
      { clocked o i s with shifter := { shOut := o, shIn := i, bitcnt := 8 } } := by
  have e := bits_gather i
  simp only [List.foldl_cons, List.foldl_nil] at e ⊢
  simp only [shiftBit, clocked, e, Nat.sub_zero]

/-- One bit, up to what the environment does before it (R78, R283). -/
theorem nextBit_silent {u w : State} (i : Byte) (k : Nat) (h : Silent w u) : Silent (shiftBit i w k) (nextBit i u k) := by
  have h := h.trans (envSlot_silent u)
  obtain ⟨h1, h2, h3, h4, h5, h6, h7, h8, h9, h10, h11, h12, h13, h14, h15, h16, h17, h18, h19, h20, h21, h22⟩ := h
  constructor <;> first | assumption | simp only [nextBit, shiftBit, h8]

/-- Any number of bits, up to what the environment does between them (R78, R283). -/
theorem nextBits_silent (i : Byte) (ks : List Nat) {u w : State} (h : Silent w u) :
    Silent (ks.foldl (shiftBit i) w) (ks.foldl (nextBit i) u) := by
  induction ks generalizing u w with
  | nil => exact h
  | cons k ks ih => exact ih (nextBit_silent i k h)

/-- `Xfer` at the pins, up to what the environment does between its bits (R78, R121, R283). -/
theorem shiftByte_silent (o i : Byte) (s : State) : Silent (clocked o i s) (shiftByte o i s) := by
  have h := nextBits_silent i [7, 6, 5, 4, 3, 2, 1, 0]
    (Silent.refl { s with shifter := { s.shifter with shOut := o, shIn := 0 } })
  rw [shiftBits_eq] at h
  unfold shiftByte
  generalize List.foldl (nextBit i) _ _ = u at *
  obtain ⟨h1, h2, h3, h4, h5, h6, h7, h8, h9, h10, h11, h12, h13, h14, h15, h16, h17, h18, h19, h20, h21, h22⟩ := h
  constructor <;> first | assumption | simp only [clocked, h8]

/-- An exchange, up to what the environment and the device do by themselves in it. -/
theorem xfer_silent (o : Byte) (s : State) :
    Silent { clocked o (answer (envSlot s)).1 (answer (envSlot s)).2 with
      trace := (answer (envSlot s)).2.trace ++ [.x o (answer (envSlot s)).1]
      pc := (answer (envSlot s)).2.pc + 1
      link := takeLink o (answer (envSlot s)).2.link } (xfer o s).2 := by
  have h := shiftByte_silent o (answer (envSlot s)).1 (answer (envSlot s)).2
  have k := refresh_silent (linkTake o (emit (.x o (answer (envSlot s)).1) (shiftByte o (answer (envSlot s)).1
    (answer (envSlot s)).2)))
  refine Silent.trans ?_ k
  rw [linkTake_eq]
  generalize shiftByte o (answer (envSlot s)).1 (answer (envSlot s)).2 = u at *
  obtain ⟨h1, h2, h3, h4, h5, h6, h7, h8, h9, h10, h11, h12, h13, h14, h15, h16, h17, h18, h19, h20, h21, h22⟩ := h
  constructor
  case pc => simp only [emit_pc, h10, clocked]
  case link => simp only [emit_link, h13, clocked]
  case driven => rw [driven_append]; simp only [emit_trace, driven_append, h21, clocked]
  case miso => rw [misoOf_append]; simp only [emit_trace, misoOf_append, h22, clocked]
  all_goals first | assumption

/-- The byte returned is the MISO byte of the one event an exchange adds. -/
theorem xfer_miso (o : Byte) (s : State) : misoOf (xfer o s).2.trace = misoOf s.trace ++ [(xfer o s).1] := by
  rw [(xfer_silent o s).miso]
  simp [(answer_keeps _).1, (envSlot_silent s).miso, misoByte, xfer]

theorem xfer_link (o : Byte) (s : State) : (xfer o s).2.link = takeLink o s.link := by
  rw [(xfer_silent o s).link]
  simp [(answer_keeps _).2.1, (envSlot_silent s).link]

theorem xfer_kept (o : Byte) (s : State) : DeviceKept s (xfer o s).2 := by
  constructor
  · rw [(xfer_silent o s).settings]
    simp [clocked, (answer_keeps _).2.2.1, (envSlot_silent s).settings]
  · rw [(xfer_silent o s).regFile]
    simp [clocked, (answer_keeps _).2.2.2.1, (envSlot_silent s).regFile]

theorem xfer_regs (o : Byte) (s : State) : (xfer o s).2.regs = s.regs := by
  rw [(xfer_silent o s).regs]
  simp [clocked, (answer_keeps _).2.2.2.2.1, (envSlot_silent s).regs]

/-- The pins and the shifter after an exchange (R121). -/
theorem xfer_pins (o : Byte) (s : State) :
    (xfer o s).2.pins.sck = .driven false ∧ (xfer o s).2.pins.mosi = .driven (bitAt o 0) ∧
      (xfer o s).2.shifter = { shOut := o, shIn := (xfer o s).1, bitcnt := 0 } :=
  ⟨(xfer_silent o s).sck, (xfer_silent o s).mosi, (xfer_silent o s).shifter⟩

/-! ### Bursts -/

theorem exchange_miso (os : List Byte) (s : State) : misoOf (exchange os s).2.trace = misoOf s.trace ++ (exchange os s).1 := by
  induction os generalizing s with
  | nil => simp [exchange]
  | cons o os ih => simp [exchange, ih, xfer_miso]

theorem exchange_kept (os : List Byte) (s : State) : DeviceKept s (exchange os s).2 := by
  induction os generalizing s with
  | nil => exact DeviceKept.refl s
  | cons o os ih => exact (xfer_kept o s).trans (ih _)

theorem exchange_regs (os : List Byte) (s : State) : (exchange os s).2.regs = s.regs := by
  induction os generalizing s with
  | nil => rfl
  | cons o os ih => simp [exchange, ih, xfer_regs]

/-- Inside a window a burst is taken as data. -/
theorem exchange_link (os : List Byte) (s : State) (k : Nat) (c : Byte) (ds : List Byte)
    (h : s.link = { inTxn := true, idx := k + 1, cmd := c, data := ds }) :
    (exchange os s).2.link = { inTxn := true, idx := k + 1 + os.length, cmd := c, data := ds ++ os } := by
  induction os generalizing s k ds with
  | nil => simp [exchange, h]
  | cons o os ih =>
    have := ih (xfer o s).2 (k + 1) (ds ++ [o]) (by rw [xfer_link, h]; simp [takeLink])
    simp only [exchange, this, List.append_assoc, List.singleton_append, List.length_cons]
    congr 1
    omega

theorem readBytes_miso (n : Nat) (s : State) : misoOf (readBytes n s).2.trace = misoOf s.trace ++ (readBytes n s).1 := by
  induction n generalizing s with
  | zero => simp [readBytes]
  | succ n ih => simp [readBytes, ih, xfer_miso]

theorem draw_kept (s : State) : DeviceKept s (draw s).2 := ⟨rfl, rfl⟩

theorem readBytes_kept (n : Nat) (s : State) : DeviceKept s (readBytes n s).2 := by
  induction n generalizing s with
  | zero => exact DeviceKept.refl s
  | succ n ih => exact ((draw_kept s).trans (xfer_kept _ _)).trans (ih _)

theorem readBytes_regs (n : Nat) (s : State) : (readBytes n s).2.regs = s.regs := by
  induction n generalizing s with
  | zero => rfl
  | succ n ih => simp [readBytes, ih, xfer_regs]

/-- Inside a window the fill bytes of a read, which are open, are taken as data. -/
theorem readBytes_link (n : Nat) (s : State) (k : Nat) (c : Byte) (ds : List Byte)
    (h : s.link = { inTxn := true, idx := k + 1, cmd := c, data := ds }) :
    ∃ fill : List Byte, fill.length = n ∧ Bus (fill.map Drive.mosi) s (readBytes n s).2 ∧
      (readBytes n s).2.link = { inTxn := true, idx := k + 1 + n, cmd := c, data := ds ++ fill } := by
  induction n generalizing s k ds with
  | zero => exact ⟨[], rfl, Bus.refl s, by simp [readBytes, h]⟩
  | succ n ih =>
    obtain ⟨fill, hl, hb, hk⟩ := ih (xfer (draw s).1 (draw s).2).2 (k + 1) (ds ++ [(draw s).1])
      (by rw [xfer_link, draw_link, h]; simp [takeLink])
    refine ⟨(draw s).1 :: fill, by simp [hl], ((draw_bus s).nil_trans (xfer_bus _ _)).trans hb, ?_⟩
    simp only [readBytes, hk, List.append_assoc, List.singleton_append]
    congr 1
    omega

/-! ### The edges of CSN -/

/-- CSN falls: the window is open and empty. -/
theorem setCsn_false_link (s : State) : (setCsn false s).link = { s.link with inTxn := true, idx := 0, data := [] } := by
  show (refresh (csnFall _)).link = _
  rw [(refresh_silent _).link]
  simp [(envSlot_silent s).link]

theorem setCsn_miso (l : Bool) (s : State) : misoOf (setCsn l s).trace = misoOf s.trace := by
  unfold setCsn csnRise commitDevice
  rw [(refresh_silent _).miso]
  cases l
  · simp [(envSlot_silent s).miso, misoByte]
  · simp only [if_true]
    repeat' split
    all_goals simp [(envSlot_silent s).miso, misoByte]

theorem setCsn_regs (l : Bool) (s : State) : (setCsn l s).regs = s.regs := by
  unfold setCsn csnRise commitDevice
  rw [(refresh_silent _).regs]
  cases l
  · simp [(envSlot_silent s).regs]
  · simp only [if_true]
    repeat' split
    all_goals simp [(envSlot_silent s).regs]

theorem setCsn_false_kept (s : State) : DeviceKept s (setCsn false s) := by
  constructor
  · show settings (refresh (csnFall _)).ref.regs = _
    rw [(refresh_silent _).settings]
    simp [(envSlot_silent s).settings]
  · show (refresh (csnFall _)).regFile = _
    rw [(refresh_silent _).regFile]
    simp [(envSlot_silent s).regFile]

/-- Registers with the same settings differ in the flags and OBSERVE_TX only. -/
theorem eq_of_settings {r r' : DevRegs} (h : settings r = settings r') :
    ∃ x y z o, r' = { r with rxDr := x, txDs := y, maxRt := z, observeTx := o } :=
  ⟨r'.rxDr, r'.txDs, r'.maxRt, r'.observeTx, by cases r; cases r'; simp_all [settings]⟩

/-- The settings after W_REGISTER depend on the settings before it alone. -/
theorem writeReg_settings {d d' : RefDev} (h : settings d.regs = settings d'.regs) (a : RegAddr) (data : List Byte) :
    settings (d.writeReg a data).regs = settings (d'.writeReg a data).regs := by
  obtain ⟨x, y, z, o, hr⟩ := eq_of_settings h
  have hw : d'.regs.width a = d.regs.width a := by rw [hr]; rfl
  unfold RefDev.writeReg
  rw [hw]
  split
  · exact h
  · split
    · exact h
    · unfold DevRegs.store RefDev.regValue
      rw [hr]
      generalize a.toNat = m
      split <;> rfl

/-- What a command does to the settings depends on the settings alone. -/
theorem commit_settings_congr {d d' : RefDev} (h : settings d.regs = settings d'.regs) (c : Byte) (data : List Byte)
    (n : Nat) : settings (d.commit c data n).regs = settings (d'.commit c data n).regs := by
  cases hc : isWriteCmd c
  · rw [commit_settings d c data n hc, commit_settings d' c data n hc, h]
  · by_cases hn : n = 0
    · simp [RefDev.commit, hn, h]
    · simp [RefDev.commit, hn, hc, writeReg_settings h]

/-- The end of a window, on the framing and the two devices that hold state (R232, R249). -/
theorem csnRise_eq (s : State) (n : Nat) (c : Byte) (data : List Byte)
    (h : s.link = { inTxn := true, idx := n, cmd := c, data := data }) :
    csnRise s = { s with
      link := { inTxn := false, idx := n, cmd := c, data := data }
      ref := if s.params.deviceModel = .reference then s.ref.commit c data n else s.ref
      regFile := if s.params.deviceModel = .regFile ∧ n ≠ 0 ∧ isWriteCmd c = true then
        regFileWrite s.regFile (cmdAddr c) data else s.regFile } := by
  unfold csnRise commitDevice
  rw [h]
  cases s.params.deviceModel with
  | oracle => simp [h]
  | reference => simp
  | regFile =>
    by_cases hn : n = 0
    · subst hn; simp [h]
    · by_cases hw : isWriteCmd c = true <;> simp [h, hn, hw]

/-- CSN rises at the end of a window: the window closes, and the chosen device applies its command once. -/
theorem setCsn_true_window (s : State) (n : Nat) (c : Byte) (data : List Byte)
    (h : s.link = { inTxn := true, idx := n, cmd := c, data := data }) :
    (setCsn true s).link = { inTxn := false, idx := n, cmd := c, data := data } ∧
      (s.params.deviceModel = .reference →
        settings (setCsn true s).ref.regs = settings (s.ref.commit c data n).regs) ∧
      (setCsn true s).regFile = (if s.params.deviceModel = .regFile ∧ n ≠ 0 ∧ isWriteCmd c = true then
        regFileWrite s.regFile (cmdAddr c) data else s.regFile) := by
  have hs := envSlot_silent s
  have hl := hs.link.trans h
  have key := csnRise_eq (emit (.csn true) { envSlot s with pins := { (envSlot s).pins with csn := .driven true } }) n c data hl
  have hr : setCsn true s = refresh (csnRise (emit (.csn true)
    { envSlot s with pins := { (envSlot s).pins with csn := .driven true } })) := rfl
  rw [hr]
  refine ⟨?_, ?_, ?_⟩
  · rw [(refresh_silent _).link, key]
  · intro hm
    rw [(refresh_silent _).settings, key]
    simp only [emit_params, hs.params, hm, if_true, emit_ref]
    exact commit_settings_congr hs.settings c data n
  · rw [(refresh_silent _).regFile, key]
    simp only [emit_params, hs.params, emit_regFile, hs.regFile]

/-! ### Whole windows -/

/-- The window after its command byte. -/
theorem openWindow_link (c : Byte) (s : State) :
    (openWindow c s).link = { inTxn := true, idx := 1, cmd := c, data := [] } := by
  show (xfer c (setCsn false s)).2.link = _
  rw [xfer_link, setCsn_false_link]
  simp [takeLink]

theorem openWindow_kept (c : Byte) (s : State) : DeviceKept s (openWindow c s) :=
  ⟨(xfer_kept c _).settings.trans (setCsn_false_kept s).settings, (xfer_kept c _).store.trans (setCsn_false_kept s).store⟩

theorem openWindow_miso (c : Byte) (s : State) :
    misoOf (openWindow c s).trace = misoOf s.trace ++ [(openWindow c s).regs.status] := by
  show misoOf (xfer c (setCsn false s)).2.trace = _
  rw [xfer_miso, setCsn_miso]
  rfl

/-- What a window is to the device and to the trace: it ran over `c :: data`, and its MISO bytes are STATUS, which is
kept, and `ins`. -/
structure Window (c : Byte) (data ins : List Byte) (s t : State) : Prop where
  bus : Bus (window (c :: data)) s t
  miso : misoOf t.trace = misoOf s.trace ++ t.regs.status :: ins
  closed : t.link = { inTxn := false, idx := data.length + 1, cmd := c, data := data }
  reference : s.params.deviceModel = .reference →
    settings t.ref.regs = settings (s.ref.commit c data (data.length + 1)).regs
  regFile : t.regFile = (if s.params.deviceModel = .regFile ∧ isWriteCmd c = true then
    regFileWrite s.regFile (cmdAddr c) data else s.regFile)

/-- A window, from its open state `w` with the data taken to its end. -/
theorem window_close (c : Byte) (data ins : List Byte) (s w : State) (hb : Bus (.csn false :: (c :: data).map Drive.mosi) s w)
    (hm : misoOf w.trace = misoOf s.trace ++ w.regs.status :: ins)
    (hl : w.link = { inTxn := true, idx := data.length + 1, cmd := c, data := data }) (hk : DeviceKept s w) :
    Window c data ins s (setCsn true w) where
  bus := by simpa [window] using hb.trans (setCsn_bus true w)
  miso := by rw [setCsn_miso, hm, setCsn_regs]
  closed := (setCsn_true_window w _ c data hl).1
  reference := fun h => by
    rw [(setCsn_true_window w _ c data hl).2.1 (by rw [hb.drives.params]; exact h)]
    exact commit_settings_congr hk.settings c data _
  regFile := by
    rw [(setCsn_true_window w _ c data hl).2.2, hb.drives.params, hk.store]
    simp

theorem burstTx_window (c : Byte) (out : List Byte) (s : State) : Window c out (burstTx c out s).1 s (burstTx c out s).2 := by
  refine window_close c out (exchange out (openWindow c s)).1 s (exchange out (openWindow c s)).2 ?_ ?_ ?_ ?_
  · simpa using (openWindow_bus c s).trans (exchange_bus out _)
  · rw [exchange_miso, openWindow_miso, exchange_regs]; simp
  · rw [exchange_link out _ 0 c [] (openWindow_link c s)]; simp [Nat.add_comm]
  · exact (openWindow_kept c s).trans (exchange_kept out _)

theorem writeTx_window (c : Byte) (out : List Byte) (s : State) :
    ∃ ins : List Byte, ins.length = out.length ∧ Window c out ins s (writeTx c out s) :=
  ⟨(burstTx c out s).1, burstTx_length c out s, burstTx_window c out s⟩

theorem readTx_window (c : Byte) (n : Nat) (s : State) :
    ∃ fill : List Byte, fill.length = n ∧ Window c fill (readTx c n s).1 s (readTx c n s).2 := by
  obtain ⟨fill, hl, hb, hk⟩ := readBytes_link n (openWindow c s) 0 c [] (openWindow_link c s)
  refine ⟨fill, hl, window_close c fill _ s (readBytes n (openWindow c s)).2 ?_ ?_ ?_ ?_⟩
  · simpa using (openWindow_bus c s).trans hb
  · rw [readBytes_miso, openWindow_miso, readBytes_regs]; simp [readTx]
  · rw [hk, hl]; simp [Nat.add_comm]
  · exact (openWindow_kept c s).trans (readBytes_kept n _)

/-- Only W_REGISTER writes a device register or a byte of the store. -/
theorem Window.kept {c : Byte} {data ins : List Byte} {s t : State} (h : Window c data ins s t) (hc : isWriteCmd c = false) :
    DeviceKept s t := by
  constructor
  · cases hm : s.params.deviceModel
    · rw [h.bus.drives.otherRef (by simp [hm])]
    · rw [h.bus.drives.otherRef (by simp [hm])]
    · rw [h.reference hm, commit_settings _ _ _ _ hc]
  · rw [h.regFile]; simp [hc]

/-- W_REGISTER writes the register its address names. -/
theorem Window.written {c : Byte} {data ins : List Byte} {s t : State} (h : Window c data ins s t) (hc : isWriteCmd c = true)
    (hw : Memory.wf s.regFile = true) : RegisterWritten (cmdAddr c) data s t where
  reference := fun hm => by
    rw [h.reference hm]
    simp [RefDev.commit, hc]
  stored := fun hm j v hj hv => by
    rw [h.regFile]
    simp only [hm, hc, and_self, if_true]
    have := read_writeBytes (data.take 5) s.regFile (regFileCell (cmdAddr c) 0) (regFileCell (cmdAddr c) 0 + j) hw
    rw [regFileWrite, show 5 * (cmdAddr c).toNat + j = regFileCell (cmdAddr c) 0 + j by simp [regFileCell], this]
    simp only [Nat.le_add_right, Nat.add_sub_cancel_left, true_and]
    rw [List.getElem?_take, if_pos hj, hv]
    have : j < (data.take 5).length := by
      have := (List.getElem?_eq_some_iff.mp hv).1
      simp; omega
    rw [if_pos (by omega)]; rfl
  others := fun x hx => by
    rw [h.regFile]
    split
    · have := read_writeBytes (data.take 5) s.regFile (regFileCell (cmdAddr c) 0) x hw
      rw [regFileWrite, this, if_neg]
      simp [regFileCell] at hx ⊢
      omega
    · rfl

end Sys2Proof.Laws
end

