-- ==== Sys2Proof/Laws/Operations.lean ====
section
/-! SUPPORT. What the composite operations drive and leave alone: register reads and writes inside an operation, the state
arms, `init`, the parts of `sendMessage`, and the parts of `readMessage`. One lemma per operation. -/

namespace Sys2Proof.Laws

open Sys2Proof.Machine

/-! ### Frames -/

/-- `Drives` reads only some of the fields. -/
theorem drives_congr {evs n s t s' t'} (h : Drives evs n s t) (a : s'.trace = s.trace) (b : s'.pins.csn = s.pins.csn)
    (c : s'.pins.ce = s.pins.ce) (d : s'.pc = s.pc) (e : s'.cfg = s.cfg) (f : s'.params = s.params)
    (g : s'.requests = s.requests) (i : s'.intr = s.intr) (j : s'.ref = s.ref) (k : s'.regFile = s.regFile)
    (a' : t'.trace = t.trace) (b' : t'.pins.csn = t.pins.csn) (c' : t'.pins.ce = t.pins.ce) (d' : t'.pc = t.pc)
    (e' : t'.cfg = t.cfg) (f' : t'.params = t.params) (g' : t'.requests = t.requests) (i' : t'.intr = t.intr)
    (j' : t'.ref = t.ref) (k' : t'.regFile = t.regFile) : Drives evs n s' t' := by
  obtain ⟨h1, h2, h3, h4, h5, h6, h7, h8, h9, h10, h11, h12, h13⟩ := h
  constructor <;> simp only [a, b, c, d, e, f, g, i, j, k, a', b', c', d', e', f', g', i', j', k'] <;> assumption

/-- An operation that drove `evs` and ends with `r` has run. -/
theorem finish_runs {evs : List Drive} {n : Nat} {i : Instr} {s t : State} (r : Result) (h : Drives evs n (begin i s) t) :
    Runs evs n r s (finish r t) :=
  ⟨drives_congr h rfl rfl rfl rfl rfl rfl rfl rfl rfl rfl rfl rfl rfl rfl rfl rfl rfl rfl rfl rfl, rfl, rfl⟩

theorem finish_quiet {s s' t : State} (r : Result) (h : Quiet s' t) (h1 : s'.regs = s.regs)
    (h2 : s'.initialised = s.initialised) (h3 : s'.lastTarget = s.lastTarget) : Quiet s (finish r t) := by
  cases h; constructor <;> simp_all

/-! ### How many bytes are exchanged -/

@[simp] theorem exchanges_append (a b : List Drive) : exchanges (a ++ b) = exchanges a + exchanges b := by
  induction a with
  | nil => simp [exchanges]
  | cons d a ih => cases d <;> simp [exchanges, ih]; omega

@[simp] theorem exchanges_mosi (l : List Byte) : exchanges (l.map Drive.mosi) = l.length := by
  induction l with
  | nil => rfl
  | cons a l ih => simp [exchanges, ih]

@[simp] theorem exchanges_window (l : List Byte) : exchanges (window l) = l.length := by
  simp [window, exchanges]

/-- A trace holds one MISO byte for each byte exchanged. -/
theorem misoOf_length (tr : List Event) : (misoOf tr).length = exchanges (driven tr) := by
  induction tr with
  | nil => rfl
  | cons e tr ih => cases e <;> simp_all [misoOf, driven, List.filterMap_cons, drivenOf, misoByte, exchanges]

/-- What was driven says how many bytes were captured. -/
theorem drives_captured {evs n m} {s t : State} (h : Drives evs n s t) (hm : misoOf t.trace = misoOf s.trace ++ m) :
    m.length = exchanges evs := by
  have h1 := congrArg List.length hm
  rw [misoOf_length, h.trace, exchanges_append, List.length_append, misoOf_length] at h1
  omega

/-- Past a prefix. -/
theorem getElem?_past {α : Type} (a b : List α) (k i : Nat) (h : a.length = k) : (a ++ b)[k + i]? = b[i]? := by
  rw [List.getElem?_append_right (by omega), h, Nat.add_sub_cancel_left]

/-- Exchanges leave CSN alone. -/
theorem foldl_mosi_csn (l : List Byte) (p : Pin) : (l.map Drive.mosi).foldl csnStep p = p := by
  induction l with | nil => rfl | cons a l ih => simp [csnStep, ih]

/-- Exchanges leave CE alone. -/
theorem foldl_mosi_ce (l : List Byte) (p : Pin) : (l.map Drive.mosi).foldl ceStep p = p := by
  induction l with | nil => rfl | cons a l ih => simp [ceStep, ih]

/-- A window ends with CSN high. -/
theorem csn_window (l : List Byte) (p) : (window l).foldl csnStep p = .driven true := by simp [window, csnStep,
    List.foldl_append]

/-! ### Command bytes -/

/-- The command byte of a register read (R97). -/
theorem readCmd_eq (addr : Nat) : cmdReg opRead (maskAddr addr) = readCmd addr := by
  unfold readCmd cmdReg opRead maskAddr
  have h : addr % 32 < 32 := Nat.mod_lt _ (by decide)
  rw [show (BitVec.ofNat 5 addr) = BitVec.ofNat 5 (addr % 32) by apply BitVec.eq_of_toNat_eq; simp]
  generalize addr % 32 = k at *
  revert h; revert k
  decide

/-- The command byte of a register write (R97). -/
theorem writeCmd_eq (addr : Nat) : cmdReg opWrite (maskAddr addr) = writeCmd addr := by
  unfold writeCmd cmdReg opWrite maskAddr
  have h : addr % 32 < 32 := Nat.mod_lt _ (by decide)
  rw [show (BitVec.ofNat 5 addr) = BitVec.ofNat 5 (addr % 32) by apply BitVec.eq_of_toNat_eq; simp]
  generalize addr % 32 = k at *
  revert h; revert k
  decide

theorem isWrite_write (a : RegAddr) : isWriteCmd (cmdReg opWrite a) = true ∧ cmdAddr (cmdReg opWrite a) = a := by
  revert a; decide

theorem isWrite_read (a : RegAddr) : isWriteCmd (cmdReg opRead a) = false := by
  revert a; decide

/-! ### Register reads and writes inside an operation -/

/-- A piece of an operation: it drove `evs`, wrote `n` registers beside them, captured the MISO bytes `m`, and is still in
progress. -/
structure Act (evs : List Drive) (n : Nat) (m : List Byte) (s t : State) : Prop where
  drives : Drives evs n s t
  miso : misoOf t.trace = misoOf s.trace ++ m
  op : t.op = s.op
  sck : s.pins.sck = .driven false → t.pins.sck = .driven false
  bit : s.shifter.bitcnt = 0 → t.shifter.bitcnt = 0

theorem Act.refl (s : State) : Act [] 0 [] s s := ⟨Drives.refl s, by simp, rfl, id, id⟩

theorem Act.trans {e1 e2 n1 n2 m1 m2 s t u} (h : Act e1 n1 m1 s t) (k : Act e2 n2 m2 t u) :
    Act (e1 ++ e2) (n1 + n2) (m1 ++ m2) s u :=
  ⟨h.drives.trans k.drives, by rw [k.miso, h.miso, List.append_assoc], k.op.trans h.op, fun x => k.sck (h.sck x),
    fun x => k.bit (h.bit x)⟩

theorem Act.length {e n m s t} (h : Act e n m s t) : m.length = exchanges e := drives_captured h.drives h.miso

theorem Act.of_bus {e m s t} (h : Bus e s t) (hm : misoOf t.trace = misoOf s.trace ++ m) : Act e 0 m s t :=
  ⟨h.drives, hm, h.op, h.sck, h.bit⟩

/-- A register write that is no event. -/
theorem Act.ticked {e n m s t} (h : Act e n m s t) : Act e (n + 1) m s (tick t) :=
  ⟨h.drives.ticked, h.miso, h.op, h.sck, h.bit⟩

/-- Working registers and sequencer flags are no part of `Act`. -/
theorem Act.congr {e n m s t t'} (h : Act e n m s t) (a : t'.trace = t.trace) (b : t'.pins = t.pins) (c : t'.pc = t.pc)
    (d : t'.cfg = t.cfg) (f : t'.params = t.params) (g : t'.requests = t.requests) (i : t'.intr = t.intr)
    (j : t'.ref = t.ref) (k : t'.regFile = t.regFile) (l : t'.op = t.op) (o : t'.shifter = t.shifter) :
    Act e n m s t' :=
  ⟨drives_congr h.drives rfl rfl rfl rfl rfl rfl rfl rfl rfl rfl a (by rw [b]) (by rw [b]) c d f g i j k,
    by rw [a]; exact h.miso, l.trans h.op, by rw [b]; exact h.sck, by rw [o]; exact h.bit⟩

/-- A 1-byte register read (R22): `st` and `x[tmp]` are the two bytes captured. -/
theorem readTmp_act (addr : Nat) (s : State) :
    ∃ f st, Act (window [readCmd addr, f]) 1 [st, (readTmp addr s).1] s (readTmp addr s).2 ∧
      Quiet { s with regs := { s.regs with tmp := (readTmp addr s).1 } } (readTmp addr s).2 := by
  obtain ⟨fill, hl, hw⟩ := readTx_window (cmdReg opRead (maskAddr addr)) 1 s
  obtain ⟨f, rfl⟩ := List.length_eq_one_iff.mp hl
  obtain ⟨c, hc⟩ := List.length_eq_one_iff.mp (readTx_length (cmdReg opRead (maskAddr addr)) 1 s)
  have e : (readTmp addr s).1 = c := by
    show (readTx (cmdReg opRead (maskAddr addr)) 1 s).1.headD 0 = c
    rw [hc]; rfl
  have hm := hw.miso
  rw [hc] at hm
  have h := Act.of_bus hw.bus hm
  refine ⟨f, (readTx (cmdReg opRead (maskAddr addr)) 1 s).2.regs.status, ?_, ?_⟩
  · rw [e, ← readCmd_eq]
    exact h.ticked.congr rfl rfl rfl rfl rfl rfl rfl rfl rfl rfl rfl
  · have := hw.bus.quiet
    cases this; constructor <;> first | rfl | assumption

/-- A register write is one window (R137). -/
theorem writeReg_bus (addr : Nat) (buf : List Byte) (s : State) :
    Bus (window (writeCmd addr :: buf)) s (writeReg addr buf s) := by
  rw [← writeCmd_eq]; exact writeTx_bus _ _ s

theorem writeTx_act (c : Byte) (out : List Byte) (s : State) : ∃ m, Act (window (c :: out)) 0 m s (writeTx c out s) := by
  obtain ⟨ins, -, hw⟩ := writeTx_window c out s
  exact ⟨_, Act.of_bus hw.bus hw.miso⟩

theorem writeReg_act (addr : Nat) (buf : List Byte) (s : State) :
    ∃ m, Act (window (writeCmd addr :: buf)) 0 m s (writeReg addr buf s) := by
  rw [← writeCmd_eq]; exact writeTx_act _ _ s

theorem setCe_miso (l : Bool) (s : State) : misoOf (setCe l s).trace = misoOf s.trace := by
  show misoOf (refresh _).trace = _
  rw [(refresh_silent _).miso]
  simp [misoByte, (fireDue_silent _).miso, (envSlot_silent s).miso]

theorem waitFor_miso (us : Nat) (s : State) : misoOf (waitFor us s).trace = misoOf s.trace := by
  show misoOf (refresh _).trace = _
  rw [(refresh_silent _).miso]
  simp only [emit_trace, misoOf_append]
  rw [(onRef_silent (fun d => d.advance _) (fun _ => rfl) _).miso, (envSlot_silent _).miso, (envSlot_silent s).miso]
  simp [misoByte]

theorem setCe_act (l : Bool) (s : State) : Act [.ce l] 0 [] s (setCe l s) :=
  Act.of_bus (setCe_bus l s) (by rw [setCe_miso]; simp)

theorem waitFor_act (us : Nat) (s : State) : Act [.wait us] 0 [] s (waitFor us s) :=
  Act.of_bus (waitFor_bus us s) (by rw [waitFor_miso]; simp)

/-! ### applyState, startListening, init -/

/-- The arm of a target drives `armEvents` (R172–R177). -/
theorem arm_bus (g : OperatingState) (c : Byte) (s : State) : Bus (armEvents g c) s (applyArm g c s) := by
  cases g <;> simp only [applyArm, armEvents]
  · exact writeReg_bus 0x00 _ s
  · unfold armPowerUp
    have : bitAt c 1 = c.getLsbD 1 := rfl
    rw [this]
    split
    · exact Bus.refl s
    · exact (writeReg_bus 0x00 _ s).trans (waitFor_bus _ _)
  · exact setCe_bus _ s
  · unfold armStandbyII
    have := ((writeReg_bus 0x00 [clearBits c primRxMask] s).trans (setCe_bus true _)).trans
      (waitFor_bus Config.tSettle _)
    rw [List.append_assoc] at this; exact this
  · unfold armReceiving
    exact (writeReg_bus 0x00 _ s).trans (writeReg_bus 0x07 _ _)
  · exact writeReg_bus 0x00 _ s

/-- The arm of a target captures some bytes. -/
theorem arm_act (g : OperatingState) (c : Byte) (s : State) : ∃ m, Act (armEvents g c) 0 m s (applyArm g c s) := by
  refine (?_ : ∃ m, misoOf (applyArm g c s).trace = misoOf s.trace ++ m).imp (fun m h => Act.of_bus (arm_bus g c s) h)
  cases g <;> simp only [applyArm]
  · exact (writeReg_act 0x00 _ s).imp (fun m h => h.miso)
  · unfold armPowerUp
    split
    · exact ⟨[], by simp⟩
    · simp only [waitFor_miso]; exact (writeReg_act 0x00 _ s).imp (fun m h => h.miso)
  · exact ⟨[], by simp [armStandbyI, setCe_miso]⟩
  · simp only [armStandbyII, waitFor_miso, setCe_miso]; exact (writeReg_act 0x00 _ s).imp (fun m h => h.miso)
  · obtain ⟨m1, h1⟩ := writeReg_act 0x00 [setBits c primRxMask] s
    obtain ⟨m2, h2⟩ := writeReg_act 0x07 [0x70] (writeReg 0x00 [setBits c primRxMask] s)
    exact ⟨m1 ++ m2, (h1.trans h2).miso⟩
  · exact (writeReg_act 0x00 _ s).imp (fun m h => h.miso)

/-- `applyState`: a CONFIG read, then the arm on the byte it gave (R170). -/
theorem applyState_spec (g : OperatingState) (s : State) :
    ∃ f st c m, Act (window [0x00, f] ++ armEvents g c) 2 (st :: c :: m) s (applyState g s) ∧
      Quiet { s with regs := { s.regs with tmp := c }, lastTarget := some g } (applyState g s) ∧
      c = (readTmp 0x00 s).1 := by
  obtain ⟨f, st, h, hq⟩ := readTmp_act 0x00 s
  obtain ⟨m, h2⟩ := arm_act g (readTmp 0x00 s).1 (readTmp 0x00 s).2
  refine ⟨f, st, (readTmp 0x00 s).1, m, ?_, ?_, rfl⟩
  · exact (h.trans h2).ticked.congr rfl rfl rfl rfl rfl rfl rfl rfl rfl rfl rfl
  · have := hq.trans (arm_bus g (readTmp 0x00 s).1 (readTmp 0x00 s).2).quiet
    cases this; constructor <;> first | rfl | assumption

/-- The six instructions of `applyState`. -/
theorem exec_apply (g : OperatingState) (s : State) (hi : s.initialised = true) :
    exec (applyInstr g) s = .next (finish .unit (applyState g (begin (applyInstr g) s))) := by
  cases g <;> simp [applyInstr, exec, execApplyPowerUp, execApplyPowerDown, execApplyReceiving, execApplyTransmitting,
    execApplyStandbyI, execApplyStandbyII, runRequest, hi, finishWith, unitResult]

/-- The end of `startListening` (R179). -/
theorem startReceiver_act (s : State) : Act [.ce true, .wait 150] 0 [] s (startReceiver s) ∧ (startReceiver s).pins.ce = .driven true := by
  have h := (setCe_act true s).trans (waitFor_act Config.tSettle _)
  exact ⟨h, h.drives.ce⟩

theorem startReceiver_quiet (s : State) : Quiet s (startReceiver s) :=
  (setCe_bus true s).quiet.trans (waitFor_bus Config.tSettle _).quiet

/-- `startListening` (R179). -/
theorem listen_spec (s : State) :
    ∃ f st c m, Act (listenEvents f c) 2 (st :: c :: m) s (startListeningBody s) ∧
      Quiet { s with regs := { s.regs with tmp := c }, lastTarget := some .receiving } (startListeningBody s) ∧
      (startListeningBody s).pins.ce = .driven true := by
  obtain ⟨f, st, c, m, h1, h2, -⟩ := applyState_spec .receiving s
  obtain ⟨h3, h4⟩ := startReceiver_act (applyState .receiving s)
  refine ⟨f, st, c, m, ?_, h2.trans (startReceiver_quiet _), h4⟩
  have h := h1.trans h3
  rw [List.append_nil] at h
  exact h

/-- `init` step 3 (R127). -/
theorem busInit_act (s : State) : Act [] 1 [] s (busInit s) := by
  refine ⟨?_, ?_, rfl, fun _ => rfl, fun _ => rfl⟩
  · constructor <;> simp [busInit]
  · simp [busInit]

theorem busInit_quiet (s : State) : Quiet s (busInit s) := by constructor <;> simp [busInit]

/-- `init` steps 1–4 (R165). -/
theorem initPins_act (s : State) : Act [.ce false, .csn true, .wait 100000] 1 [] (enableInterrupts s) (initPins s) :=
  (((setCe_act false (enableInterrupts s)).trans (Act.of_bus (setCsn_bus true _) (m := []) (by rw [setCsn_miso]; simp))).trans
    (busInit_act _)).trans (waitFor_act Config.tPor _)

theorem initPins_quiet (s : State) : Quiet (enableInterrupts s) (initPins s) :=
  (((setCe_bus false (enableInterrupts s)).quiet.trans (setCsn_bus true _).quiet).trans (busInit_quiet _)).trans
    (waitFor_bus Config.tPor _).quiet

/-- `init` steps 5–14 (R165). -/
theorem initRest_act (c : Cfg) (g : FeatureGating) (s : State) :
    (∃ m, Act (window [0x20, configInit c] ++
      window [0x21, if c.autoAck then 0x3F else 0x00] ++ window [0x24, 0xF1] ++ window [0x22, 0x00] ++
      window [0x25, c.channel] ++ window [0x26, rfSetupByte c] ++ window [0x27, 0x70] ++
      window [0x3C, if c.dynPayload then 0x3F else 0x00] ++ window [0x3D, featureByte c g] ++ window [0xE1] ++
      window [0xE2]) 0 m s (initFeatures c g (initRadio c s))) ∧ Quiet s (initFeatures c g (initRadio c s)) := by
  unfold initFeatures initRadio
  constructor
  · obtain ⟨m5, h5⟩ := writeReg_act 0x00 [configInit c] s
    obtain ⟨m6, h6⟩ := writeReg_act 0x01 [allPipes c.autoAck] (writeReg 0x00 [configInit c] s)
    obtain ⟨m7, h7⟩ := writeReg_act 0x04 [setupRetrInit] (writeReg 0x01 [allPipes c.autoAck] (writeReg 0x00 [configInit c] s))
    dsimp only
    generalize writeReg 0x04 [setupRetrInit] _ = s7 at *
    obtain ⟨m8, h8⟩ := writeReg_act 0x02 [0x00] s7
    obtain ⟨m9, h9⟩ := writeReg_act 0x05 [c.channel] (writeReg 0x02 [0x00] s7)
    obtain ⟨m10, h10⟩ := writeReg_act 0x06 [rfSetupByte c] (writeReg 0x05 [c.channel] (writeReg 0x02 [0x00] s7))
    generalize writeReg 0x06 [rfSetupByte c] _ = s10 at *
    obtain ⟨m11, h11⟩ := writeReg_act 0x07 [0x70] s10
    obtain ⟨m12, h12⟩ := writeReg_act 0x1C [allPipes c.dynPayload] (writeReg 0x07 [0x70] s10)
    obtain ⟨m13, h13⟩ := writeReg_act 0x1D [featureByte c g] (writeReg 0x1C [allPipes c.dynPayload] (writeReg 0x07 [0x70] s10))
    generalize writeReg 0x1D [featureByte c g] _ = s13 at *
    obtain ⟨m14, h14⟩ := writeTx_act 0xE1 [] s13
    obtain ⟨m15, h15⟩ := writeTx_act 0xE2 [] (writeTx 0xE1 [] s13)
    exact ⟨_, ((((((((((h5.trans h6).trans h7).trans h8).trans h9).trans h10).trans h11).trans h12).trans h13).trans
      h14).trans h15)⟩
  · have w := fun a b u => (writeReg_bus a b u).quiet
    exact ((((((((((w _ _ _).trans (w _ _ _)).trans (w _ _ _)).trans (w _ _ _)).trans (w _ _ _)).trans
      (w _ _ _)).trans (w _ _ _)).trans (w _ _ _)).trans (w _ _ _)).trans (writeTx_bus 0xE1 [] _).quiet).trans
      (writeTx_bus 0xE2 [] _).quiet

/-- `init` steps 15 and 16 (R165). -/
theorem initAddr_spec (c : Cfg) (s14 : State) :
    ∃ f e pre st post, Act (window (0x2A :: addrBytes c.rxAddr) ++ window (0x30 :: addrBytes c.txAddr) ++
      window [0x02, f] ++ window [0x22, e ||| 0x01]) 1 (pre ++ [st, e] ++ post) s14 (initAddresses c s14) ∧
      pre.length = 12 ∧ post.length = 2 ∧
      Quiet { s14 with regs := { s14.regs with tmp := e } } (initAddresses c s14) := by
  obtain ⟨m1, h1⟩ := writeReg_act 0x0A (addrBytes c.rxAddr) s14
  obtain ⟨m2, h2⟩ := writeReg_act 0x10 (addrBytes c.txAddr) (writeReg 0x0A (addrBytes c.rxAddr) s14)
  have q := (writeReg_bus 0x0A (addrBytes c.rxAddr) s14).quiet.trans (writeReg_bus 0x10 (addrBytes c.txAddr) _).quiet
  unfold initAddresses
  dsimp only
  have h3 := h1.trans h2
  generalize writeReg 0x10 (addrBytes c.txAddr) (writeReg 0x0A (addrBytes c.rxAddr) s14) = s15 at *
  obtain ⟨f, st, h4, q4⟩ := readTmp_act 0x02 s15
  obtain ⟨m3, h5⟩ := writeReg_act 0x02 [setBits (readTmp 0x02 s15).1 (bit Config.rxPipe)] (readTmp 0x02 s15).2
  refine ⟨f, (readTmp 0x02 s15).1, m1 ++ m2, st, m3, (h3.trans h4).trans h5, ?_, ?_, ?_⟩
  · rw [h3.length]; simp [addrBytes]
  · rw [h5.length]; simp
  · have := q4.trans (writeReg_bus 0x02 [setBits (readTmp 0x02 s15).1 (bit Config.rxPipe)] _).quiet
    cases q; cases this; constructor <;> simp_all

theorem initPins_sck (s : State) : (initPins s).pins.sck = .driven false ∧ (initPins s).shifter.bitcnt = 0 := by
  unfold initPins
  generalize setCsn true (setCe false (enableInterrupts s)) = u
  exact ⟨(waitFor_bus _ (busInit u)).sck rfl, (waitFor_bus _ (busInit u)).bit rfl⟩

/-- The whole of `init` (R165). -/
theorem initBody_spec (s : State) :
    (initBody s).pins.sck = .driven false ∧ (initBody s).shifter.bitcnt = 0 ∧ ∃ f e pre post,
      Drives (initEvents s.cfg s.params.featureGating f e) 3 (enableInterrupts s) (initBody s) ∧
      misoOf (initBody s).trace = misoOf s.trace ++ pre ++ [e] ++ post ∧ pre.length = 33 ∧ post.length = 2 ∧
      Quiet { s with regs := { s.regs with tmp := e }, initialised := true } (initBody s) := by
  have h1 := initPins_act s
  have q1 := initPins_quiet s
  have hs := initPins_sck s
  unfold initBody
  dsimp only
  generalize initPins s = s4 at *
  obtain ⟨⟨m2, h2⟩, q2⟩ := initRest_act s.cfg s.params.featureGating s4
  generalize initFeatures s.cfg s.params.featureGating (initRadio s.cfg s4) = s14 at *
  obtain ⟨f, e, pre, st, post, h3, hl1, hl2, q3⟩ := initAddr_spec s.cfg s14
  generalize initAddresses s.cfg s14 = t at *
  have h6 := ((h1.trans h2).trans h3).ticked
  have hl : m2.length = 20 := by rw [h2.length]; simp
  refine ⟨h3.sck (h2.sck hs.1), h3.bit (h2.bit hs.2), f, e, m2 ++ pre ++ [st], post, ?_, ?_, ?_, hl2, ?_⟩
  · have := h6.drives
    unfold initEvents
    simp only [List.append_assoc] at this ⊢
    exact drives_congr this rfl rfl rfl rfl rfl rfl rfl rfl rfl rfl rfl rfl rfl rfl rfl rfl rfl rfl rfl rfl
  · show misoOf t.trace = _
    have := ((h1.trans h2).trans h3).miso
    rw [this]; simp
  · simp [hl, hl1]
  · have := q1.trans q2
    cases this; cases q3
    constructor <;> simp_all

/-! ### sendMessage -/

/-- Muting RX_DR, or no longer, is nothing the controller drives or writes (R204 (e)). -/
theorem mute_silent (b : Bool) (s : State) : Silent s (mute b s) := by constructor <;> simp

theorem mute_bus (b : Bool) (s : State) : Bus [] s (mute b s) := by
  refine ⟨?_, ?_, rfl, id, id⟩ <;> constructor <;> simp

theorem mute_act (b : Bool) (s : State) : Act [] 0 [] s (mute b s) :=
  Act.of_bus (mute_bus b s) (by rw [(mute_silent b s).miso, List.append_nil])

theorem muteRx_silent (s : State) : Silent s (muteRx s) := mute_silent _ s

theorem muteRx_bus (s : State) : Bus [] s (muteRx s) := mute_bus _ s

theorem muteRx_act (s : State) : Act [] 0 [] s (muteRx s) := mute_act _ s

/-- Steps 1–3 (R201). -/
theorem sendPrepare_spec (s : State) : ∃ f1 c1 f2 c2 m, Act (window [0x00, f1] ++ window [0x20, c1 &&& 0xFE] ++
    window [0xE2] ++ window [0xE1] ++ window [0x27, 0x20] ++ window [0x00, f2] ++ window [0x20, c2 ||| 0x40]) 3 m s
      (sendPrepare s) ∧ m[1]? = some c1 ∧ m[9]? = some c2 ∧
      Quiet { s with regs := { s.regs with tmp := c2 }, lastTarget := some .transmitting } (sendPrepare s) := by
  obtain ⟨f1, st1, c1, m1, h1, q1, -⟩ := applyState_spec .transmitting s
  unfold sendPrepare
  dsimp only
  generalize applyState .transmitting s = s1 at *
  obtain ⟨m2, h2⟩ := writeTx_act 0xE2 [] s1
  obtain ⟨m3, h3⟩ := writeTx_act 0xE1 [] (flushRxOp s1)
  obtain ⟨m4, h4⟩ := writeReg_act 0x07 [0x20] (flushTxOp (flushRxOp s1))
  have q2 := (((writeTx_bus 0xE2 [] s1).quiet.trans (writeTx_bus 0xE1 [] (flushRxOp s1)).quiet).trans
    (writeReg_bus 0x07 [0x20] (flushTxOp (flushRxOp s1))).quiet)
  have h5 := ((h1.trans h2).trans h3).trans h4
  change Quiet s1 (writeReg 0x07 [0x20] (flushTxOp (flushRxOp s1))) at q2
  generalize writeReg 0x07 [0x20] (flushTxOp (flushRxOp s1)) = s2 at *
  obtain ⟨f2, st2, h6, q3⟩ := readTmp_act 0x00 s2
  obtain ⟨m5, h7⟩ := writeReg_act 0x00 [setBits (readTmp 0x00 s2).1 maskRxDrMask] (readTmp 0x00 s2).2
  have q4 := q3.trans (writeReg_bus 0x00 [setBits (readTmp 0x00 s2).1 maskRxDrMask] (readTmp 0x00 s2).2).quiet
  generalize writeReg 0x00 [setBits (readTmp 0x00 s2).1 maskRxDrMask] (readTmp 0x00 s2).2 = s3 at *
  have q5 := q4.trans (muteRx_bus s3).quiet
  have h8 := ((h5.trans h6).trans h7).trans (muteRx_act s3)
  refine ⟨f1, c1, f2, (readTmp 0x00 s2).1, st1 :: c1 :: m1 ++ m2 ++ m3 ++ m4 ++ ([st2, (readTmp 0x00 s2).1] ++ m5), ?_,
    rfl, ?_, ?_⟩
  · simp only [armEvents, List.append_assoc, List.append_nil] at h8 ⊢; exact h8
  · have hl : (st1 :: c1 :: m1 ++ m2 ++ m3 ++ m4).length = 8 := by rw [h5.length]; simp [armEvents]
    rw [getElem?_past _ _ 8 1 hl]; rfl
  · have q := q1.trans q2
    cases q; cases q5; constructor <;> simp_all

/-- Steps 1–5 (R201). -/
theorem sendStart_spec (p : List Byte) (s : State) :
    ∃ f1 c1 f2 c2 m, Act (sendEvents s.cfg p f1 c1 f2 c2) 4 m s (sendStart p s) ∧ m[1]? = some c1 ∧ m[9]? = some c2 ∧
      Quiet { s with regs := { s.regs with tmp := c2, pollCount := 0 }, lastTarget := some .transmitting }
        (sendStart p s) := by
  obtain ⟨f1, c1, f2, c2, m1, h1, e1, e2, q1⟩ := sendPrepare_spec s
  unfold sendStart sendPulse sendPayload
  dsimp only
  have hc : (sendPrepare s).cfg = s.cfg := h1.drives.cfg
  rw [hc]
  generalize sendPrepare s = s3 at *
  obtain ⟨m2, h2⟩ := writeTx_act (sendCommand s.cfg) (p ++ [Config.padByte]) s3
  have h3 := ((h1.trans h2).trans (setCe_act true _)).trans ((waitFor_act Config.tCePulse _).trans (setCe_act false _))
  have q2 := q1.trans ((writeTx_bus (sendCommand s.cfg) (p ++ [Config.padByte]) s3).quiet.trans
    (((setCe_bus true _).quiet.trans (waitFor_bus Config.tCePulse _).quiet).trans (setCe_bus false _).quiet))
  generalize setCe false _ = t at *
  refine ⟨f1, c1, f2, c2, m1 ++ m2, ?_, ?_, ?_, ?_⟩
  · have := h3.ticked.congr (t' := tick { t with regs := { t.regs with pollCount := 0 } })
      rfl rfl rfl rfl rfl rfl rfl rfl rfl rfl rfl
    simp only [List.append_nil] at this
    unfold sendEvents
    simp only [List.append_assoc] at this ⊢
    exact this
  · have : m1.length = 12 := by rw [h1.length]; simp
    rw [List.getElem?_append_left (by omega), e1]
  · have : m1.length = 12 := by rw [h1.length]; simp
    rw [List.getElem?_append_left (by omega), e2]
  · cases q2; constructor <;> first | rfl | assumption

/-- Steps 7 and 8 (R201). -/
theorem sendRestore_spec (s : State) :
    ∃ f1 c1 f2 c2 m, Act (restoreEvents f1 c1 f2 c2) 3 m s (sendRestore s) ∧ m[1]? = some c1 ∧ m[5]? = some c2 ∧
      (sendRestore s).pins.ce = .driven true ∧
      Quiet { s with regs := { s.regs with tmp := c2 }, lastTarget := some .receiving } (sendRestore s) := by
  obtain ⟨f1, st1, h1, q1⟩ := readTmp_act 0x00 s
  obtain ⟨m2, h2⟩ := writeReg_act 0x00 [clearBits (readTmp 0x00 s).1 maskRxDrMask] (readTmp 0x00 s).2
  have q2 := q1.trans (writeReg_bus 0x00 [clearBits (readTmp 0x00 s).1 maskRxDrMask] (readTmp 0x00 s).2).quiet
  have h6 := h1.trans h2
  unfold sendRestore
  dsimp only
  generalize writeReg 0x00 [clearBits (readTmp 0x00 s).1 maskRxDrMask] (readTmp 0x00 s).2 = s2 at *
  obtain ⟨f2, st2, c2, m3, h3, q3, -⟩ := applyState_spec .receiving s2
  have hl : ([st1, (readTmp 0x00 s).1] ++ m2).length = 4 := by rw [h6.length]; simp
  have hb := startReceiver_act (mute false (applyState .receiving s2))
  have q4 := (q3.trans (mute_bus false _).quiet).trans (startReceiver_quiet _)
  have h7 := h6.trans ((h3.trans (mute_act false _)).trans hb.1)
  refine ⟨f1, (readTmp 0x00 s).1, f2, c2, [st1, (readTmp 0x00 s).1] ++ m2 ++ st2 :: c2 :: m3, ?_, rfl, ?_, hb.2, ?_⟩
  · simp only [List.append_nil, List.append_assoc] at h7 ⊢
    simp only [restoreEvents, listenEvents, List.append_assoc]
    exact h7
  · rw [getElem?_past _ _ 4 1 hl]; rfl
  · cases q2; cases q4; constructor <;> simp_all

/-- A pass that decides so has counted its read. -/
def counted (p : Params) : PollNext → Bool
  | .again => p.pollBound.isSome
  | .leave (.err (.radioNotResponding _)) => true
  | .leave _ => false

/-- What `countPoll` does, by what the pass decides. -/
theorem countPoll_eq (p : Params) (b : Byte) (k : Nat) (u : State) :
    countPoll p b u = if counted p (pollDecision p b k) then
      tick { u with regs := { u.regs with pollCount := u.regs.pollCount + 1 } } else u := by
  unfold countPoll pollDecision
  by_cases h1 : bitAt b 5 = true
  · simp [h1, counted]
  · by_cases h2 : (p.checkMaxRt && bitAt b 4) = true
    · simp [h1, h2, counted]
    · cases h3 : p.pollBound with
      | none => simp [h1, h2, h3, counted]
      | some B =>
        simp only [h1, h2, Bool.false_eq_true, if_false, Option.isNone_some, Bool.or_self]
        by_cases h4 : B ≤ k <;> simp [h3, h4, counted]

/-- Counting a read writes `poll_count` alone. -/
theorem countPoll_quiet {s0 u : State} (p : Params) (b : Byte) (k : Nat) (h : Quiet s0 u) :
    Quiet { s0 with regs := { s0.regs with
      pollCount := s0.regs.pollCount + if counted p (pollDecision p b k) then 1 else 0 } } (countPoll p b u) := by
  rw [countPoll_eq p b k]
  obtain ⟨q1, q2, q3, q4, q5, q6⟩ := h
  split
  · exact ⟨q1, q2, q3, congrArg (· + 1) q4, q5, q6⟩
  · exact ⟨q1, q2, q3, q4, q5, q6⟩

theorem countedWrites_eq (p : Params) (r : Result) : countedWrites r = if counted p (.leave r) then 1 else 0 := by
  cases r <;> simp [countedWrites, counted]
  rename_i e
  cases e <;> rfl

/-- One pass of the loop: one STATUS read, then what the byte decides (R201–R203). `s0` is where the pass is seen from, and
what was kept since is `hq`. -/
theorem pollPass_spec (p : List Byte) (before : List Drive) (n : Nat) (m0 : List Byte) (g : Option OperatingState)
    (c : Byte) (s0 s : State) (h0 : Drives before n s0 s) (hm0 : misoOf s.trace = misoOf s0.trace ++ m0)
    (hop : s.op = some (.sendMessage p))
    (hk : Quiet { s0 with regs := { s0.regs with tmp := c, pollCount := s.regs.pollCount }, lastTarget := g } s) :
    ∃ b more, b = (readTmp 0x07 s).1 ∧
      ((pollDecision s0.params b (s.regs.pollCount + 1) = .again ∧
          PollsAgain p before n b (m0 ++ more)
            (if s0.params.pollBound.isSome then s.regs.pollCount + 1 else s.regs.pollCount) g s0 (pollPass s)) ∨
        (∃ r, pollDecision s0.params b (s.regs.pollCount + 1) = .leave r ∧
          PollsOut before n b (m0 ++ more) s.regs.pollCount r s0 (pollPass s))) := by
  obtain ⟨f, st, h1, hq⟩ := readTmp_act 0x07 s
  have hl : m0.length = exchanges before := drives_captured h0 hm0
  have h2 := h0.trans h1.drives
  unfold pollPass
  dsimp only
  rw [h0.params]
  generalize readTmp 0x07 s = r at *
  obtain ⟨b, u⟩ := r
  dsimp only at *
  have hu : Quiet { s0 with regs := { s0.regs with tmp := b, pollCount := s.regs.pollCount }, lastTarget := g } u := by
    cases hk; cases hq; constructor <;> simp_all
  have hc := countPoll_quiet s0.params b (s.regs.pollCount + 1) hu
  cases hd : pollDecision s0.params b (s.regs.pollCount + 1) with
  | again =>
    rw [hd] at hc
    refine ⟨b, [st, b], rfl, .inl ⟨hd, ?_⟩⟩
    dsimp only
    refine ⟨?_, ?_, ?_, ?_, ?_, ?_⟩
    · rw [countPoll_eq _ _ (s.regs.pollCount + 1), hd]
      refine ⟨f, ?_⟩
      have key : ∀ v : State, v.trace = u.trace → v.pins = u.pins → v.cfg = u.cfg → v.params = u.params →
          v.requests = u.requests → v.intr = u.intr → v.ref = u.ref → v.regFile = u.regFile →
          Drives (before ++ window [0x07, f]) n s0 { v with pc := s0.pc + before.length + 4 + n } := by
        intro v a1 a2 a3 a4 a5 a6 a7 a8
        have := h2.pc
        have k : Drives (before ++ window [0x07, f]) n s0 { u with pc := s0.pc + before.length + 4 + n } := by
          obtain ⟨b1, b2, b3, b4, b5, b6, b7, b8, b9, b10, b11, b12, b13⟩ := h2
          exact ⟨b1, b2, b3, by simp [window]; omega, b5, b6, b7, b8, b9, b10, b11, b12, b13⟩
        exact drives_congr k rfl rfl rfl rfl rfl rfl rfl rfl rfl rfl a1 (by rw [a2]) (by rw [a2]) rfl a3 a4 a5 a6 a7 a8
      split <;> exact key _ rfl rfl rfl rfl rfl rfl rfl rfl
    · exact h0.pc
    · have : u.op = some (.sendMessage p) := by rw [h1.op, hop]
      show (countPoll s0.params b u).op = _
      rw [countPoll_eq _ _ (s.regs.pollCount + 1)]
      split <;> exact this
    · have : misoOf u.trace = misoOf s0.trace ++ (m0 ++ [st, b]) := by
        rw [h1.miso, hm0, List.append_assoc]
      show misoOf (countPoll s0.params b u).trace = _
      rw [countPoll_eq _ _ (s.regs.pollCount + 1)]
      split <;> exact this
    · rw [getElem?_past _ _ _ 1 hl]; rfl
    · obtain ⟨q1, q2, q3, q4, q5, q6⟩ := hc
      refine ⟨q1, q2, q3, q4.trans ?_, q5, q6⟩
      by_cases hb : s0.params.pollBound.isSome = true <;> simp [counted, hb]
  | leave r =>
    have hcd : Act [] (countedWrites r) [] u (countPoll s0.params b u) := by
      rw [countPoll_eq _ _ (s.regs.pollCount + 1), hd, countedWrites_eq s0.params]
      split
      · exact (Act.refl u).ticked.congr rfl rfl rfl rfl rfl rfl rfl rfl rfl rfl rfl
      · exact Act.refl u
    rw [hd, ← countedWrites_eq s0.params] at hc
    obtain ⟨f1, c1, f2, c2, m, k1, k2, k3, k5, k6⟩ := sendRestore_spec (countPoll s0.params b u)
    have hk := (h2.trans hcd.drives).trans k1.drives
    have hmi : misoOf (sendRestore (countPoll s0.params b u)).trace = misoOf s0.trace ++ (m0 ++ (st :: b :: m)) := by
      rw [k1.miso, hcd.miso, h1.miso, hm0]; simp
    dsimp only
    generalize sendRestore (countPoll s0.params b u) = w at *
    generalize countPoll s0.params b u = v at *
    refine ⟨b, st :: b :: m, rfl, .inr ⟨r, hd, ⟨f, f1, c1, f2, c2, ?_, ?_, ?_, ?_⟩, rfl, rfl, hmi, ?_, k5⟩⟩
    · have e : n + 1 + countedWrites r + 3 = n + 4 + countedWrites r := by omega
      rw [List.append_nil, e] at hk
      exact drives_congr hk rfl rfl rfl rfl rfl rfl rfl rfl rfl rfl rfl rfl rfl rfl rfl rfl rfl rfl rfl rfl
    · rw [getElem?_past _ _ _ 3 hl]; exact k2
    · rw [getElem?_past _ _ _ 7 hl]; exact k3
    · cases hc; cases k6; constructor <;> simp_all
    · rw [getElem?_past _ _ _ 1 hl]; rfl

/-! ### readMessage -/

/-- The receive buffer after a burst into it (R89). -/
theorem overlay_toList (ins : List Byte) (buf : Vector Byte 33) (h : ins.length ≤ 33) :
    (overlay ins buf).toList = ins ++ buf.toList.drop ins.length := by
  have hl : (ins ++ buf.toList.drop ins.length).length = 33 := by simp; omega
  have : (overlay ins buf).toList = ((ins ++ buf.toList.drop ins.length).take 33) ++
      List.replicate (33 - (ins ++ buf.toList.drop ins.length).length) 0 := by
    simp [overlay, Vector.toList]
  rw [this, hl, List.take_of_length_le (by omega)]; simp

/-- Step 2 (R205). -/
theorem readWidth_act (s : State) : ∃ f st, Act (window [0x60, f]) 1 [st, (readWidth s).regs.len] s (readWidth s) ∧
    (readWidth s).regs.rxbuf = s.regs.rxbuf ∧ (readWidth s).regs.tmp = s.regs.tmp ∧
    (readWidth s).regs.pollCount = s.regs.pollCount ∧ (readWidth s).initialised = s.initialised ∧
    (readWidth s).lastTarget = s.lastTarget := by
  obtain ⟨fill, hl, hw⟩ := readTx_window 0x60 1 s
  obtain ⟨f, rfl⟩ := List.length_eq_one_iff.mp hl
  obtain ⟨c, hc⟩ := List.length_eq_one_iff.mp (readTx_length 0x60 1 s)
  have e : (readWidth s).regs.len = c := by
    show (readTx 0x60 1 s).1.headD 0 = c
    rw [hc]; rfl
  have hm := hw.miso
  rw [hc] at hm
  have hq := hw.bus.quiet
  refine ⟨f, (readTx 0x60 1 s).2.regs.status, ?_, hq.rxbuf, hq.tmp, hq.pollCount, hq.initialised, hq.lastTarget⟩
  rw [e]
  exact (Act.of_bus hw.bus hm).ticked.congr rfl rfl rfl rfl rfl rfl rfl rfl rfl rfl rfl

/-- What `readMessage` keeps of the controller, `len` and `rxbuf` apart. -/
structure ReadKeeps (s t : State) : Prop where
  tmp : t.regs.tmp = s.regs.tmp
  pollCount : t.regs.pollCount = s.regs.pollCount
  initialised : t.initialised = s.initialised
  lastTarget : t.lastTarget = s.lastTarget

theorem ReadKeeps.trans {s t u} (h : ReadKeeps s t) (k : ReadKeeps t u) : ReadKeeps s u :=
  ⟨k.tmp.trans h.tmp, k.pollCount.trans h.pollCount, k.initialised.trans h.initialised, k.lastTarget.trans h.lastTarget⟩

theorem Quiet.readKeeps {s t} (h : Quiet s t) : ReadKeeps s t := ⟨h.tmp, h.pollCount, h.initialised, h.lastTarget⟩

/-- Steps 1 and 2 (R205). -/
theorem readPre_spec (s : State) :
    ∃ f pre, Act (widthEvents s.cfg f) 1 (pre ++ [(readWidth (readAck s)).regs.len]) s (readWidth (readAck s)) ∧
      pre.length = (if s.cfg.autoAck then 3 else 1) ∧ (readWidth (readAck s)).regs.rxbuf = s.regs.rxbuf ∧
      ReadKeeps s (readWidth (readAck s)) := by
  unfold readAck widthEvents
  cases ha : s.cfg.autoAck
  · obtain ⟨f, st, h1, h2, h3, h4, h5, h6⟩ := readWidth_act s
    exact ⟨f, [st], h1, rfl, h2, h3, h4, h5, h6⟩
  · obtain ⟨m, hm⟩ := writeTx_act (cmdPipe 0) [Config.ackByte] s
    have hq := (writeTx_bus (cmdPipe 0) [Config.ackByte] s).quiet
    obtain ⟨f, st, h1, h2, h3, h4, h5, h6⟩ := readWidth_act (writeTx (cmdPipe 0) [Config.ackByte] s)
    refine ⟨f, m ++ [st], ?_, ?_, h2.trans hq.rxbuf, (Quiet.readKeeps hq).trans ⟨h3, h4, h5, h6⟩⟩
    · have := hm.trans h1
      rw [List.append_assoc]
      exact this
    · simp [hm.length]

theorem drain_zero (s : State) : drain 0 s = s := by simp [drain]

/-- Placing the command byte leaves the rest of the buffer (R205). -/
theorem placeCommand_drop (s : State) :
    (placeCommand s).regs.rxbuf.toList.drop 1 = s.regs.rxbuf.toList.drop 1 := by
  have h : (placeCommand s).regs.rxbuf.toList = 0x61 :: s.regs.rxbuf.toList.drop 1 :=
    overlay_toList [0x61] s.regs.rxbuf (by simp)
  rw [h]; rfl

/-- Step 3 under the default framing (R205). -/
theorem drainInBurst_spec (w : Nat) (s : State) (hw0 : w ≤ 32) :
    Act (window (0x61 :: (s.regs.rxbuf.toList.take (w + 1)).drop 1)) 1 ((drainInBurst w s).regs.rxbuf.toList.take (w + 1))
        s (drainInBurst w s) ∧
      (∀ k, w < k → (drainInBurst w s).regs.rxbuf.toList[k]? = s.regs.rxbuf.toList[k]?) ∧
      (drainInBurst w s).regs.len = s.regs.len ∧ ReadKeeps s (drainInBurst w s) := by
  have hw := burstTx_window 0x61 ((s.regs.rxbuf.toList.take (w + 1)).drop 1) (placeCommand s)
  have hlen : (burstTx 0x61 ((s.regs.rxbuf.toList.take (w + 1)).drop 1) (placeCommand s)).1.length = w := by simp; omega
  have hp := placeCommand_drop s
  have hk : ReadKeeps s (placeCommand s) := ⟨rfl, rfl, rfl, rfl⟩
  have h1 : Act [] 1 [] s (placeCommand s) :=
    (Act.refl s).ticked.congr rfl rfl rfl rfl rfl rfl rfl rfl rfl rfl rfl
  have hlen0 : (placeCommand s).regs.len = s.regs.len := rfl
  unfold drainInBurst
  dsimp only
  rw [show (burstOut w s.regs.rxbuf).tail = (s.regs.rxbuf.toList.take (w + 1)).drop 1 from rfl]
  generalize placeCommand s = s1 at *
  generalize burstTx 0x61 ((s.regs.rxbuf.toList.take (w + 1)).drop 1) s1 = q at *
  have hb := hw.bus.quiet.rxbuf
  have e : (overlay (q.2.regs.status :: q.1) q.2.regs.rxbuf).toList =
      (q.2.regs.status :: q.1) ++ s.regs.rxbuf.toList.drop (w + 1) := by
    rw [overlay_toList _ _ (by simp only [List.length_cons, hlen]; omega), hb, List.length_cons, hlen]
    have := congrArg (List.drop w) hp
    rw [List.drop_drop, List.drop_drop, Nat.add_comm 1 w] at this
    rw [this]
  refine ⟨?_, ?_, hw.bus.quiet.len.trans hlen0, hk.trans ⟨hw.bus.quiet.tmp, hw.bus.quiet.pollCount,
    hw.bus.quiet.initialised, hw.bus.quiet.lastTarget⟩⟩
  · have h2 := (h1.trans (Act.of_bus hw.bus hw.miso)).congr
      (t' := { q.2 with regs := { q.2.regs with rxbuf := overlay (q.2.regs.status :: q.1) q.2.regs.rxbuf } })
      rfl rfl rfl rfl rfl rfl rfl rfl rfl rfl rfl
    have e2 : (overlay (q.2.regs.status :: q.1) q.2.regs.rxbuf).toList.take (w + 1) = q.2.regs.status :: q.1 := by
      rw [e, List.take_append_of_le_length (by simp [hlen]), List.take_of_length_le (by simp [hlen])]
    show Act _ _ ((overlay (q.2.regs.status :: q.1) q.2.regs.rxbuf).toList.take (w + 1)) _ _
    rw [e2]
    exact h2
  · intro k hk
    show (overlay (q.2.regs.status :: q.1) q.2.regs.rxbuf).toList[k]? = _
    rw [e, List.getElem?_append_right (by simp [hlen]; omega), List.length_cons, hlen, List.getElem?_drop,
      show w + 1 + (k - (w + 1)) = k by omega]

/-- Step 3 under `CommandThenBurst` (R208). -/
theorem drainThenBurst_spec (w : Nat) (s : State) (hw0 : w ≤ 32) :
    ∃ (fill : List Byte) (st : Byte), fill.length = w + 1 ∧
      Act (window (0x61 :: fill)) 0 (st :: (drainThenBurst w s).regs.rxbuf.toList.take (w + 1)) s (drainThenBurst w s) ∧
      (∀ k, w < k → (drainThenBurst w s).regs.rxbuf.toList[k]? = s.regs.rxbuf.toList[k]?) ∧
      (drainThenBurst w s).regs.len = s.regs.len ∧ ReadKeeps s (drainThenBurst w s) := by
  obtain ⟨fill, hl, hw⟩ := readTx_window 0x61 (w + 1) s
  have hlen : (readTx 0x61 (w + 1) s).1.length = w + 1 := by simp
  have hb := hw.bus.quiet.rxbuf
  have ho := overlay_toList (readTx 0x61 (w + 1) s).1 (readTx 0x61 (w + 1) s).2.regs.rxbuf (by rw [hlen]; omega)
  have e : (drainThenBurst w s).regs.rxbuf.toList = (readTx 0x61 (w + 1) s).1 ++ s.regs.rxbuf.toList.drop (w + 1) := by
    rw [← hb]; rw [hlen] at ho; exact ho
  refine ⟨fill, (readTx 0x61 (w + 1) s).2.regs.status, hl, ?_, ?_, hw.bus.quiet.len, ⟨hw.bus.quiet.tmp,
    hw.bus.quiet.pollCount, hw.bus.quiet.initialised, hw.bus.quiet.lastTarget⟩⟩
  · rw [e, List.take_append_of_le_length (by simp), List.take_of_length_le (by simp)]
    exact (Act.of_bus hw.bus hw.miso).congr rfl rfl rfl rfl rfl rfl rfl rfl rfl rfl rfl
  · intro k hk
    rw [e, List.getElem?_append_right (by rw [hlen]; omega), hlen, List.getElem?_drop,
      show w + 1 + (k - (w + 1)) = k by omega]

/-- Steps 4 and 5 (R205, R206). -/
theorem readFinish_spec (w : Nat) (s : State) :
    ∃ a b, Act (window [0x27, 0x40]) 0 [a, b] s (readFinish w s).2 ∧ Quiet s (readFinish w s).2 ∧
      (readFinish w s).1 = decodeMessage s.params.rxReadFraming w s.regs.rxbuf.toList := by
  obtain ⟨ins, hl, hw⟩ := writeTx_window 0x27 [0x40] s
  obtain ⟨b, rfl⟩ := List.length_eq_one_iff.mp hl
  refine ⟨(writeTx 0x27 [0x40] s).regs.status, b, Act.of_bus hw.bus hw.miso, hw.bus.quiet, ?_⟩
  show decodeMessage (writeTx 0x27 [0x40] s).params.rxReadFraming w (writeTx 0x27 [0x40] s).regs.rxbuf.toList = _
  rw [hw.bus.drives.params, hw.bus.quiet.rxbuf]

/-- `readMessage` by its steps (R205, R207). -/
theorem readMessage_eq (s : State) (hi : s.initialised = true) :
    exec .readMessage s = .next (readRest (readWidth (readAck (begin .readMessage s)))) := by
  simp only [exec, execReadMessage, hi, if_true]

/-! ### The step -/

/-- A step with the sequencer Idle (R24, R293). -/
theorem step_of_idle (s : State) (ho : s.op = none) : step s = match s.requests with
    | [] => .next (envSlot s)
    | f :: rest => runFrame f (envSlot { s with requests := rest }) := by
  cases s; simp only at ho; subst ho; rfl

/-- A step with a send in progress (R24). -/
theorem step_of_send (s : State) (p : List Byte) (h : s.op = some (.sendMessage p)) : step s = .next (pollPass s) := by
  simp [step, Machine.sequence, h, resume]

/-- A step of a stopped `readMessage` (R286, R292). -/
theorem step_of_stopped (s : State) (h : s.op = some .readMessage) (hw : 32 < s.regs.len.toNat) :
    step s = if envMoves s then .next (envSlot s) else .fault (.rxWidthOverflow s.regs.len.toNat) := by
  simp only [step, Machine.sequence, h, resume, stay]
  rw [if_neg (by simp [Config.rxBufCap]; omega)]

end Sys2Proof.Laws
end

