-- ==== Sys2Proof/Laws/Invariant.lean ====
section
/-! SUPPORT. What each shared operation keeps of the invariant: `Mid` in the middle of an operation, where a window may be
open, and `Idle` where none is; and what the controller's side of it needs (`Ctl`). -/

namespace Sys2Proof.Laws

open Sys2Proof.Machine

/-- What no device rule and no pin write breaks. -/
structure Pre (s : State) : Prop where
  gie : s.intr.gie = s.intr.intEn
  latch : s.intr.edgeLatch = true → s.intr.intEn = true
  store : StoreOk s.regFile
  reserved : ReservedClear s.ref.regs
  fifos : FifosOk s.ref
  clock : s.ref.tMark ≤ s.ref.now
  sck : s.pins.sck ≠ .driven true

/-- `Pre`, with the IRQ pin and the device settled. -/
structure Mid (s : State) : Prop where
  pre : Pre s
  prev : s.intr.irqPrev = s.pins.irq
  irq : irqLevel s = s.pins.irq
  settled : ModesSettled s

theorem Pre.congr {s t : State} (h : Pre s) (i : t.intr = s.intr) (r : t.ref = s.ref) (m : t.regFile = s.regFile)
    (k : t.pins.sck ≠ .driven true) : Pre t := by
  obtain ⟨h1, h2, h3, h4, h5, h6, h7⟩ := h
  constructor <;> first | assumption | (simp only [i, r, m]; assumption)

theorem Mid.congr {s t : State} (h : Mid s) (i : t.intr = s.intr) (r : t.ref = s.ref) (m : t.regFile = s.regFile)
    (k : t.pins.sck ≠ .driven true) (q : t.pins.irq = s.pins.irq) (e : t.pins.ce = s.pins.ce)
    (p : t.params = s.params) : Mid t := by
  obtain ⟨h1, h2, h3, h4⟩ := h
  refine ⟨h1.congr i r m k, by rw [i, q, h2], ?_, ?_⟩
  · unfold irqLevel at *; rw [p, r, q]; exact h3
  · unfold ModesSettled at *; rw [p, r, e]; exact h4

theorem modeRule_clock {d d' : RefDev} {ce : Bool} (h : d.modeRule ce = some d') (hc : d.tMark ≤ d.now) : d'.tMark ≤
    d'.now := by
  unfold RefDev.modeRule at h
  repeat' split at h
  all_goals first
    | (cases h; done)
    | (cases h; exact hc)
    | (cases h; exact Nat.le_refl _)

theorem settle_clock (d : RefDev) (ce : Bool) (hc : d.tMark ≤ d.now) : (d.settle ce).tMark ≤ (d.settle ce).now :=
  settleFuel_keeps (fun e => e.tMark ≤ e.now) ce (fun _ _ h => modeRule_clock h) 3 d hc

/-- Every event ends with a re-evaluation, which settles the pin and the device. -/
theorem Pre.refresh {s : State} (h : Pre s) : Mid (refresh s) := by
  have hs := refresh_silent s
  have key : ∀ t : State, Pre t → (t.params.deviceModel = .reference → t.ref.modeRule t.pins.ce.isHigh = none) → Mid
      (sample (irqLevel t) t) := by
    intro t ht hr
    obtain ⟨h1,h2,h3,h4,h5,h6,h7⟩ := ht
    refine ⟨⟨h1, ?_, h3, h4, h5, h6, h7⟩, rfl, ?_, hr⟩
    · simp only [sample, sense, Bool.or_eq_true, Bool.and_eq_true]
      rintro (h | ⟨h | ⟨-, h⟩, -⟩)
      · exact h2 h
      · exact h2 h
      · exact h
    · unfold irqLevel sample sense; cases t.params.deviceModel <;> rfl
  show Mid (sample (irqLevel (onRef (fun d => d.settle s.pins.ce.isHigh) s)) (onRef (fun d => d.settle
      s.pins.ce.isHigh) s))
  apply key
  · unfold onRef; split
    · obtain ⟨h1,h2,h3,h4,h5,h6,h7⟩ := h
      exact ⟨h1,h2,h3, reservedClear_of_settings (settle_settings _ _) h4, settle_fifos _ _ h5, settle_clock _ _ h6, h7⟩
    · exact h
    · exact h
  · unfold onRef; cases hm : s.params.deviceModel <;> simp [hm]
    exact settle_rest _ _

theorem afterTx_clock (d : RefDev) (ce : Bool) (h : d.tMark ≤ d.now) : (d.afterTx ce).tMark ≤ (d.afterTx ce).now := by
  unfold RefDev.afterTx; split
  · simp [RefDev.enterTx]
  · exact h

theorem pushRx_clock (d : RefDev) (p b) (h : d.tMark ≤ d.now) : (d.pushRx p b).tMark ≤ (d.pushRx p b).now := by
  unfold RefDev.pushRx; split <;> exact h

theorem sendAck_clock (d : RefDev) (p) (h : d.tMark ≤ d.now) : (d.sendAck p).tMark ≤ (d.sendAck p).now := by
  unfold RefDev.sendAck; split <;> exact h

theorem rx_clock (d : RefDev) (p b w) (h : d.tMark ≤ d.now) : (d.rx p b w).tMark ≤ (d.rx p b w).now := by
  unfold RefDev.rx; repeat' split
  · exact h
  · exact sendAck_clock _ _ (pushRx_clock _ _ _ h)
  · exact pushRx_clock _ _ _ h

theorem takeAck_clock (d : RefDev) (a b) (h : d.tMark ≤ d.now) : (d.takeAckPayload a b).tMark ≤ (d.takeAckPayload a
    b).now := by
  unfold RefDev.takeAckPayload; repeat' split
  · exact h
  · exact pushRx_clock _ _ _ h
  · exact h

theorem txOk_clock (d : RefDev) (ce n b) (h : d.tMark ≤ d.now) : (d.txOk ce n b).tMark ≤ (d.txOk ce n b).now := by
  unfold RefDev.txOk; repeat' split
  · exact h
  · exact h
  · apply afterTx_clock; apply takeAck_clock; unfold RefDev.popSent; split <;> exact h

theorem txFail_clock (d : RefDev) (ce) (h : d.tMark ≤ d.now) : (d.txFail ce).tMark ≤ (d.txFail ce).now := by
  unfold RefDev.txFail; repeat' split
  · exact h
  · exact h
  · apply afterTx_clock; exact h

theorem Pre.onRef {s : State} (f : RefDev → RefDev) (h : Pre s) (h1 : ∀ d, settings (f d).regs = settings d.regs) (h2
    : ∀ d, FifosOk d → FifosOk (f d))
   (h3 : ∀ d : RefDev, d.tMark ≤ d.now → (f d).tMark ≤ (f d).now) : Pre (onRef f s) := by
  unfold Machine.onRef; split
  · obtain ⟨a1,a2,a3,a4,a5,a6,a7⟩ := h
    exact ⟨a1,a2,a3, reservedClear_of_settings (h1 _) a4, h2 _ a5, h3 _ a6, a7⟩
  · exact h
  · exact h

theorem hold_clock (d : RefDev) (b : Bool) (h : d.tMark ≤ d.now) : (d.hold b).tMark ≤ (d.hold b).now := h

theorem fireDue_clock (d : RefDev) (h : d.tMark ≤ d.now) : d.fireDue.tMark ≤ d.fireDue.now := by
  rcases fireDue_cases d with e | e <;> rw [e] <;> exact h

/-- The end of the start-up time is put off: nothing else moves, so no rule matches that did not. -/
theorem hold_rest (d : RefDev) (ce : Bool) (h : d.modeRule ce = none) : (d.hold true).modeRule ce = none :=
  rest_of h rfl rfl rfl rfl (by simp [RefDev.hold])

/-- What happens in the world keeps `Mid`. -/
theorem Mid.worldEffect {s : State} (h : Mid s) (a : WorldAct) : Mid (worldEffect s a) := by
  cases a with
  | elapse us => exact (h.pre.onRef (fun d => d.advance us) (fun _ => rfl) (fun _ h => h) (fun d h => Nat.le_trans h
      (Nat.le_add_right _ _))).refresh
  | irqLevel level =>
    simp only [Machine.worldEffect]
    cases hm : s.params.deviceModel <;> simp only
    · obtain ⟨⟨h1,h2,h3,h4,h5,h6,h7⟩, k1, k2, k3⟩ := h
      refine ⟨⟨h1, ?_, h3, h4, h5, h6, h7⟩, rfl, ?_, k3⟩
      · simp only [sense, Bool.or_eq_true, Bool.and_eq_true]
        rintro (h | ⟨-, h⟩)
        · exact h2 h
        · exact h
      · unfold Machine.irqLevel sense; simp [hm]
    · exact h
    · exact h
  | rx p payload wantsAck => exact (h.pre.onRef _ (fun d => rx_settings d _ _ _) (fun d => rx_fifos d _ _ _) (fun d
      => rx_clock d _ _ _)).refresh
  | txOk n b => exact (h.pre.onRef _ (fun d => txOk_settings d _ _ _) (fun d => txOk_fifos d _ _ _) (fun d =>
      txOk_clock d _ _ _)).refresh
  | txFail => exact (h.pre.onRef _ (fun d => txFail_settings d _) (fun d => txFail_fifos d _) (fun d => txFail_clock
      d _)).refresh
  | missed payload wantsAck => exact h
  | hold =>
    refine ⟨h.pre.onRef (fun d => d.hold true) (fun _ => rfl) (fun _ h => h) (fun _ h => h), ?_, ?_, ?_⟩
    · show (onRef _ s).intr.irqPrev = (onRef _ s).pins.irq
      unfold onRef; split <;> exact h.prev
    · have := h.irq
      show Machine.irqLevel (onRef _ s) = (onRef _ s).pins.irq
      unfold Machine.irqLevel onRef at *
      cases hm : s.params.deviceModel <;> simp_all [RefDev.hold, RefDev.irqOut]
    · intro hm
      show RefDev.modeRule (onRef (fun d => d.hold true) s).ref (onRef (fun d => d.hold true) s).pins.ce.isHigh = none
      have hm : s.params.deviceModel = .reference := by
        unfold Machine.worldEffect onRef at hm
        cases hq : s.params.deviceModel <;> simp_all
      unfold onRef
      rw [hm]
      exact hold_rest _ _ (h.settled hm)
  | release => exact (h.pre.onRef (fun d => d.hold false) (fun _ => rfl) (fun _ h => h) (fun _ h => h)).refresh

theorem noteAir_same (a : WorldAct) (s : State) : noteAir a s = { s with air := (noteAir a s).air } := by
  unfold noteAir; split <;> rfl

theorem Mid.applyWorld {s : State} (h : Mid s) (a : WorldAct) : Mid (applyWorld s a) := by
  refine Mid.worldEffect ?_ a
  rw [noteAir_same]
  exact h.congr rfl rfl rfl h.pre.sck rfl rfl rfl

theorem Mid.foldl {α : Type} {f : State → α → State} (hf : ∀ {s}, Mid s → ∀ a, Mid (f s a)) {s : State} (g : List α)
    (h : Mid s) : Mid (g.foldl f s) := by
  induction g generalizing s with
  | nil => exact h
  | cons a g ih => exact ih (hf h a)

/-- What happens in the world does not read the global enable. -/
theorem applyWorld_gie (s : State) (a : WorldAct) (b : Bool) :
    applyWorld { s with intr := { s.intr with gie := b } } a =
      { applyWorld s a with intr := { (applyWorld s a).intr with gie := b } } := by
  cases hm : s.params.deviceModel <;> cases a <;>
    simp [applyWorld, noteAir, worldEffect, refresh, onRef, irqLevel, sample, sense, spared, hm]

theorem foldl_applyWorld_gie (g : List WorldAct) (s : State) (b : Bool) :
    g.foldl applyWorld { s with intr := { s.intr with gie := b } } =
      { g.foldl applyWorld s with intr := { (g.foldl applyWorld s).intr with gie := b } } := by
  induction g generalizing s with
  | nil => rfl
  | cons a g ih => rw [List.foldl_cons, applyWorld_gie, ih]; rfl

/-- The notifier keeps `Mid`. -/
theorem Mid.notify {s : State} (during : List WorldAct) (h : Mid s) : Mid (notify during s) := by
  unfold Machine.notify
  split
  · rename_i hc
    simp only [Bool.and_eq_true] at hc
    obtain ⟨⟨h1,h2,h3,h4,h5,h6,h7⟩, k1, k2, k3⟩ := h
    have hi : s.intr.intEn = true := h2 hc.1
    have hs : Mid { s with intr := { s.intr with edgeLatch := false } } :=
      ⟨⟨h1, by simp, h3, h4, h5, h6, h7⟩, k1, k2, k3⟩
    have e : notifierEnter s = { ({ s with intr := { s.intr with edgeLatch := false } } : State) with
        intr := { ({ s with intr := { s.intr with edgeLatch := false } } : State).intr with gie := false } } := rfl
    have hu := Mid.foldl Mid.applyWorld during hs
    unfold takeInterrupt
    rw [e, foldl_applyWorld_gie]
    have hg : (during.foldl Machine.applyWorld { s with intr := { s.intr with edgeLatch := false } }).intr.intEn = true := by
      rw [(foldl_bus Machine.applyWorld applyWorld_bus during _).drives.intEn]; exact hi
    generalize during.foldl Machine.applyWorld { s with intr := { s.intr with edgeLatch := false } } = u at *
    obtain ⟨⟨h1,h2,h3,h4,h5,h6,h7⟩, k1, k2, k3⟩ := hu
    exact ⟨⟨hg.symm, h2, h3, h4, h5, h6, h7⟩, k1, k2, k3⟩
  · exact Mid.foldl Mid.applyWorld during h

/-- Every choice of the environment. -/
theorem Mid.applyAct {s : State} (h : Mid s) (a : EnvAct) : Mid (applyAct s a) := by
  cases a with
  | world a => exact h.applyWorld a
  | notify during => exact h.notify during

theorem Mid.letGo {s : State} (h : Mid s) : Mid (letGo s) :=
  (h.pre.onRef (fun d => d.hold false) (fun _ => rfl) (fun _ h => h) (fun _ h => h)).refresh

theorem Mid.fireDue {s : State} (h : Mid s) : Mid (fireDue s) :=
  (h.pre.onRef _ fireDue_settings fireDue_fifos fireDue_clock).refresh

theorem Mid.envSlot {s : State} (h : Mid s) : Mid (envSlot s) := by
  unfold Machine.envSlot; split
  · exact h.letGo.notify []
  · rename_i rest _
    exact Mid.foldl Mid.applyAct _ (h.congr (t := { s with env := rest }) rfl rfl rfl h.pre.sck rfl rfl rfl)

theorem merge_clear (o : Byte) (data m : Word40) (R : Byte) (h : o &&& R = 0) (hm : m &&& R.zeroExtend 40 = 0) :
    (mergeBits (o.zeroExtend 40) data m).setWidth 8 &&& R = 0 := by
  apply BitVec.eq_of_getLsbD_eq
  intro i hi
  have h1 := congrArg (fun v => v.getLsbD i) h
  have h2 := congrArg (fun v => v.getLsbD i) hm
  have h40 : i < 40 := by omega
  simp only [BitVec.getLsbD_and, BitVec.getLsbD_setWidth, BitVec.truncate_eq_setWidth, h40,
      decide_true, Bool.true_and] at h1 h2
  simp [mergeBits, hi, h40]
  cases hr : R.getLsbD i <;> simp_all

/-- W_REGISTER keeps the reserved bits clear. -/
theorem writeReg_reserved (d : RefDev) (a : RegAddr) (data : List Byte) (h : ReservedClear d.regs) : ReservedClear
    (d.writeReg a data).regs := by
  unfold RefDev.writeReg
  split
  · exact h
  · split
    · exact h
    · generalize packBytes _ = v
      have hm : ∀ m : Word40, ∀ R : Byte, m &&& R.zeroExtend 40 = 0 → ∀ k, (m &&& bytesMask k) &&& R.zeroExtend 40 =
          0 := by
        intro m R h k
        rw [BitVec.and_assoc, BitVec.and_comm (bytesMask k), ← BitVec.and_assoc, h]; simp
      generalize d.regs.width a = k
      unfold RefDev.regValue rwMask DevRegs.store
      generalize a.toNat = n
      obtain ⟨h1,h2,h3,h4,h5,h6,h7,h8,h9,h10,h11,h12,h13,h14,h15⟩ := h
      split <;> 
        (refine ⟨?_,?_,?_,?_,?_,?_,?_,?_,?_,?_,?_,?_,?_,?_,?_⟩ <;> first | assumption | (apply merge_clear <;> first
            | assumption | (apply hm; decide)))

theorem commit_reserved (d : RefDev) (c : Byte) (data : List Byte) (n : Nat) (h : ReservedClear d.regs) :
    ReservedClear (d.commit c data n).regs := by
  cases hc : isWriteCmd c
  · exact reservedClear_of_settings (commit_settings d c data n hc) h
  · by_cases hn : n = 0
    · simpa [RefDev.commit, hn] using h
    · simpa [RefDev.commit, hn, hc] using writeReg_reserved d (cmdAddr c) data h

theorem commit_clock (d : RefDev) (c : Byte) (data : List Byte) (n : Nat) (h : d.tMark ≤ d.now) : (d.commit c data
    n).tMark ≤ (d.commit c data n).now := by
  unfold RefDev.commit RefDev.queueAck RefDev.queueTx RefDev.popRx
  repeat' split
  all_goals first | exact h | (rw [writeReg_eq]; exact h)

theorem write_bound (m : Memory) (a : Nat) (v : Byte) (n : Nat) (ha : a < n) (h : ∀ c ∈ m, c.1 < n) : ∀ c ∈
    Memory.write m a v, c.1 < n := by
  induction m with
  | nil => unfold Memory.write; split <;> simp [ha]
  | cons c m ih =>
    obtain ⟨b, w⟩ := c
    have h1 : b < n := h (b, w) (by simp)
    have h2 : ∀ c ∈ m, c.1 < n := fun c hc => h c (List.mem_cons_of_mem _ hc)
    unfold Memory.write
    repeat' split
    · exact h
    · intro c hc; rcases List.mem_cons.mp hc with rfl | hc
      · exact ha
      · exact h c hc
    · exact h2
    · intro c hc; rcases List.mem_cons.mp hc with rfl | hc
      · exact ha
      · exact h2 c hc
    · intro c hc; rcases List.mem_cons.mp hc with rfl | hc
      · exact h1
      · exact ih h2 c hc

theorem writeBytes_bound (vs : List Byte) (m : Memory) (a : Nat) (n : Nat) (ha : a + vs.length ≤ n) (h : ∀ c ∈ m, c.1
    < n) : ∀ c ∈ Memory.writeBytes m a vs, c.1 < n := by
  induction vs generalizing m a with
  | nil => exact h
  | cons v vs ih => exact ih _ _ (by simp at ha; omega) (write_bound m a v n (by simp at ha; omega) h)

theorem Mid.csnRise {s : State} (h : Mid s) : Pre (csnRise s) := by
  have hp := h.pre
  unfold Machine.csnRise
  split
  · unfold commitDevice
    obtain ⟨h1,h2,h3,h4,h5,h6,h7⟩ := hp
    split
    · exact ⟨h1,h2,h3,h4,h5,h6,h7⟩
    · split
      · refine ⟨h1,h2,⟨regFileWrite_wf _ _ _ h3.1, ?_⟩,h4,h5,h6,h7⟩
        apply writeBytes_bound _ _ _ _ _ h3.2
        have := (cmdAddr s.link.cmd).isLt
        simp [regFileCell]; omega
      · exact ⟨h1,h2,h3,h4,h5,h6,h7⟩
    · exact ⟨h1,h2,h3,commit_reserved _ _ _ _ h4,commit_fifos _ _ _ _ h5,commit_clock _ _ _ _ h6,h7⟩
  · exact hp

theorem Mid.setCsn {s : State} (l : Bool) (h : Mid s) : Mid (setCsn l s) := by
  have h1 := h.envSlot
  have h2 : Mid (emit (.csn l) { Machine.envSlot s with pins := { (Machine.envSlot s).pins with csn := .driven l } }) :=
    h1.congr rfl rfl rfl h1.pre.sck rfl rfl rfl
  cases l
  · show Mid (refresh (csnFall _))
    exact (h2.pre.congr (t := csnFall (emit (.csn false)
      { Machine.envSlot s with pins := { (Machine.envSlot s).pins with csn := .driven false } })) rfl rfl rfl
      h1.pre.sck).refresh
  · exact h2.csnRise.refresh

theorem Mid.setCe {s : State} (l : Bool) (h : Mid s) : Mid (setCe l s) := by
  have h1 := h.envSlot.fireDue
  exact (h1.pre.congr (t := emit (.ce l) { Machine.fireDue (Machine.envSlot s) with
    pins := { (Machine.fireDue (Machine.envSlot s)).pins with ce := .driven l } }) rfl rfl rfl h1.pre.sck).refresh

theorem Mid.waitFor {s : State} (us : Nat) (h : Mid s) : Mid (waitFor us s) := by
  have := h.envSlot.envSlot.pre.onRef (fun d => d.advance (us -
    ((Machine.envSlot (Machine.envSlot s)).ref.now - (Machine.envSlot s).ref.now))) (fun _ => rfl) (fun _ h => h)
    (fun d h => Nat.le_trans h (Nat.le_add_right _ _))
  exact (this.congr (t := emit (.wait us) _) rfl rfl rfl this.sck).refresh

/-- The environment's points between the bits keep `Mid`. -/
theorem Mid.shiftByte {s : State} (o i : Byte) (h : Mid s) : Mid (shiftByte o i s) := by
  have key : ∀ (ks : List Nat) {u : State}, Mid u → Mid (ks.foldl (nextBit i) u) := fun ks u hu =>
    Mid.foldl (f := nextBit i) (fun h k => h.envSlot.congr rfl rfl rfl (by simp [nextBit, shiftBit]) rfl rfl rfl) ks hu
  have := key [7, 6, 5, 4, 3, 2, 1, 0] (h.congr (t := { s with shifter := { s.shifter with shOut := o, shIn := 0 } })
    rfl rfl rfl h.pre.sck rfl rfl rfl)
  exact this.congr rfl rfl rfl this.pre.sck rfl rfl rfl

theorem Mid.answer {s : State} (h : Mid s) : Mid (answer s).2 := by
  obtain ⟨k1,k2,k3,k4,k5,k6,k7,k8,k9,k10,-,-⟩ := answer_keeps s
  exact h.congr k10 k3 k4 (by rw [k6]; exact h.pre.sck) (by rw [k6]) (by rw [k6]) k9

theorem Mid.xfer {s : State} (o : Byte) (h : Mid s) : Mid (xfer o s).2 := by
  have h1 := h.envSlot.answer.shiftByte o (Machine.answer (Machine.envSlot s)).1
  refine Pre.refresh ?_
  rw [linkTake_eq]
  exact h1.pre.congr rfl rfl rfl h1.pre.sck

theorem Mid.draw {s : State} (h : Mid s) : Mid (draw s).2 := h.congr rfl rfl rfl h.pre.sck rfl rfl rfl

theorem Mid.exchange {s : State} (os : List Byte) (h : Mid s) : Mid (exchange os s).2 := by
  induction os generalizing s with
  | nil => exact h
  | cons o os ih => exact ih (h.xfer o)

theorem Mid.readBytes {s : State} (n : Nat) (h : Mid s) : Mid (readBytes n s).2 := by
  induction n generalizing s with
  | zero => exact h
  | succ n ih => exact ih (h.draw.xfer _)

theorem Mid.openWindow {s : State} (c : Byte) (h : Mid s) : Mid (openWindow c s) := by
  have := (h.setCsn false).xfer c
  exact this.congr rfl rfl rfl this.pre.sck rfl rfl rfl

theorem Mid.writeTx {s : State} (c : Byte) (out) (h : Mid s) : Mid (writeTx c out s) := ((h.openWindow c).exchange
    out).setCsn true

theorem Mid.burstTx {s : State} (c : Byte) (out) (h : Mid s) : Mid (burstTx c out s).2 := ((h.openWindow c).exchange
    out).setCsn true

theorem Mid.readTx {s : State} (c : Byte) (n) (h : Mid s) : Mid (readTx c n s).2 := ((h.openWindow c).readBytes
    n).setCsn true

/-- `Mid`, with no window open and the shifter empty. -/
structure Idle (s : State) : Prop where
  mid : Mid s
  inTxn : s.link.inTxn = false
  csn : s.pins.csn ≠ .driven false
  bit : s.shifter.bitcnt = 0

theorem Idle.congr {s t : State} (h : Idle s) (i : t.intr = s.intr) (r : t.ref = s.ref) (m : t.regFile = s.regFile)
    (b : t.shifter = s.shifter) (q : t.pins = s.pins) (p : t.params = s.params) (l : t.link = s.link) : Idle t :=
  ⟨h.mid.congr i r m (by rw [q]; exact h.mid.pre.sck) (by rw [q]) (by rw [q]) p, by rw [l, h.inTxn],
    by rw [q]; exact h.csn, by rw [b]; exact h.bit⟩

theorem Idle.finish {s : State} (r) (h : Idle s) : Idle (finish r s) := h.congr rfl rfl rfl rfl rfl rfl rfl

theorem Idle.begin {s : State} (j) (h : Idle s) : Idle (begin j s) := h.congr rfl rfl rfl rfl rfl rfl rfl

theorem Idle.finishWith {r : Result × State} (h : Idle r.2) : Idle (finishWith r) := h.congr rfl rfl rfl rfl rfl rfl rfl

theorem Idle.writeTx {s : State} (c out) (h : Idle s) : Idle (writeTx c out s) := by
  obtain ⟨ins, -, hw⟩ := writeTx_window c out s
  exact ⟨h.mid.writeTx _ _, by rw [hw.closed], by rw [hw.bus.drives.csn]; simp [window, csnStep, List.foldl_append],
    hw.bus.bit h.bit⟩

theorem Idle.burstTx {s : State} (c out) (h : Idle s) : Idle (burstTx c out s).2 := by
  have hw := burstTx_window c out s
  exact ⟨h.mid.burstTx _ _, by rw [hw.closed], by rw [hw.bus.drives.csn]; simp [window, csnStep, List.foldl_append],
    hw.bus.bit h.bit⟩

theorem Idle.readTx {s : State} (c n) (h : Idle s) : Idle (readTx c n s).2 := by
  obtain ⟨ins, -, hw⟩ := readTx_window c n s
  exact ⟨h.mid.readTx _ _, by rw [hw.closed], by rw [hw.bus.drives.csn]; simp [window, csnStep, List.foldl_append],
    hw.bus.bit h.bit⟩

theorem Idle.readTmp {s : State} (a) (h : Idle s) : Idle (readTmp a s).2 := (h.readTx _ 1).congr rfl rfl rfl rfl rfl
    rfl rfl

theorem Idle.writeReg {s : State} (a b) (h : Idle s) : Idle (writeReg a b s) := h.writeTx _ _

theorem setCe_link (l s) : (setCe l s).link = s.link := by
  show (refresh _).link = _
  rw [(refresh_silent _).link]
  exact (fireDue_silent _).link.trans (envSlot_silent s).link

theorem waitFor_link (l s) : (waitFor l s).link = s.link := by
  show (refresh _).link = _
  rw [(refresh_silent _).link]
  show (onRef _ _).link = _
  rw [(onRef_silent (fun d => d.advance _) (fun _ => rfl) _).link, (envSlot_silent _).link, (envSlot_silent s).link]

theorem Idle.setCe {s : State} (l) (h : Idle s) : Idle (setCe l s) :=
  ⟨h.mid.setCe l, by rw [setCe_link, h.inTxn], by rw [(setCe_bus l s).drives.csn]; exact h.csn, (setCe_bus l s).bit h.bit⟩

theorem Idle.waitFor {s : State} (l) (h : Idle s) : Idle (waitFor l s) :=
  ⟨h.mid.waitFor l, by rw [waitFor_link, h.inTxn], by rw [(waitFor_bus l s).drives.csn]; exact h.csn,
    (waitFor_bus l s).bit h.bit⟩

theorem Idle.envSlot {s : State} (h : Idle s) : Idle (envSlot s) :=
  ⟨h.mid.envSlot, by rw [(envSlot_silent s).link, h.inTxn], by rw [(envSlot_silent s).csn]; exact h.csn,
    (envSlot_bus s).bit h.bit⟩

theorem Idle.xfer {s : State} (o) (h : Idle s) : Idle (xfer o s).2 :=
  ⟨h.mid.xfer o, by rw [xfer_link, takeLink, h.inTxn]; simp [h.inTxn], by rw [(xfer_bus o s).drives.csn]; exact h.csn,
    (xfer_bus o s).bit h.bit⟩

theorem Idle.exchange {s : State} (os) (h : Idle s) : Idle (exchange os s).2 := by
  induction os generalizing s with
  | nil => exact h
  | cons o os ih => exact ih (h.xfer o)

theorem Idle.applyState {s : State} (g) (h : Idle s) : Idle (applyState g s) := by
  have h1 := h.readTmp 0x00
  refine Idle.congr (s := applyArm g (Machine.readTmp 0x00 s).1 (Machine.readTmp 0x00 s).2) ?_ rfl rfl rfl rfl rfl
      rfl rfl
  generalize Machine.readTmp 0x00 s = r at *
  cases g
  · exact h1.writeReg _ _
  · show Idle (armPowerUp _ _)
    unfold armPowerUp; split
    · exact h1
    · exact (h1.writeReg _ _).waitFor _
  · exact h1.setCe _
  · exact ((h1.writeReg _ _).setCe _).waitFor _
  · exact (h1.writeReg _ _).writeReg _ _
  · exact h1.writeReg _ _

theorem Idle.startReceiver {s : State} (h : Idle s) : Idle (startReceiver s) := (h.setCe _).waitFor _

theorem Idle.listen {s : State} (h : Idle s) : Idle (startListeningBody s) := (h.applyState _).startReceiver

theorem Idle.mute {s : State} (b : Bool) (h : Idle s) : Idle (mute b s) := by
  obtain ⟨⟨⟨h1, h2, h3, h4, h5, h6, h7⟩, k1, k2, k3⟩, l1, l2, l3⟩ := h
  exact ⟨⟨⟨h1, h2, h3, h4, h5, h6, h7⟩, k1, k2, k3⟩, l1, l2, l3⟩

theorem Idle.muteRx {s : State} (h : Idle s) : Idle (muteRx s) := h.mute _

/-- How an operation moves what `InitialisedOk` reads. -/
structure Ctl (s t : State) : Prop where
  cfg : t.cfg = s.cfg
  init : t.initialised = s.initialised
  intEn : t.intr.intEn = s.intr.intEn
  csn : s.pins.csn = .driven true → t.pins.csn = .driven true
  ce : s.pins.ce ≠ .undriven → t.pins.ce ≠ .undriven
  sck : s.pins.sck = .driven false → t.pins.sck = .driven false

theorem ctl_ok {s t : State} (h : Ctl s t) (k : InitialisedOk s) : InitialisedOk t := by
  intro hi
  obtain ⟨a,b,c,d,e⟩ := k (by rw [← h.init]; exact hi)
  exact ⟨by rw [h.cfg]; exact a, by rw [h.intEn]; exact b, h.csn c, h.ce d, h.sck e⟩

theorem Ctl.trans {s t u} (h : Ctl s t) (k : Ctl t u) : Ctl s u :=
  ⟨k.cfg.trans h.cfg, k.init.trans h.init, k.intEn.trans h.intEn, fun x => k.csn (h.csn x), fun x => k.ce (h.ce x),
      fun x => k.sck (h.sck x)⟩

theorem ce_ok (evs : List Drive) (p : Pin) (h : p ≠ .undriven) : evs.foldl ceStep p ≠ .undriven := by
  induction evs generalizing p with
  | nil => exact h
  | cons e evs ih => apply ih; cases e <;> simp [ceStep, h]

theorem ctl_bus {evs} {s t : State} (h : Bus evs s t) (hc : evs.foldl csnStep (.driven true) = .driven true) :
    Ctl s t where
  cfg := h.drives.cfg
  init := h.quiet.initialised
  intEn := h.drives.intEn
  csn := fun x => by rw [h.drives.csn, x, hc]
  ce := fun x => by rw [h.drives.ce]; exact ce_ok _ _ x
  sck := h.sck

theorem Ctl.refl (s) : Ctl s s := ⟨rfl, rfl, rfl, id, id, id⟩

theorem Ctl.congr {s t t' : State} (h : Ctl s t) (a : t'.cfg = t.cfg) (b : t'.initialised = t.initialised)
    (c : t'.intr.intEn = t.intr.intEn) (d : t'.pins = t.pins) : Ctl s t' where
  cfg := a.trans h.cfg
  init := b.trans h.init
  intEn := c.trans h.intEn
  csn := fun x => by rw [d]; exact h.csn x
  ce := fun x => by rw [d]; exact h.ce x
  sck := fun x => by rw [d]; exact h.sck x

end Sys2Proof.Laws
end

