-- ==== Sys2Proof/Laws/Muted.lean ====
section
/-! SUPPORT. Only `sendMessage` mutes RX_DR and ends that (R204 (e), log 35): one lemma per shared operation, and what an
instruction can leave. -/

namespace Sys2Proof.Laws

open Sys2Proof.Machine

/-! ### The environment -/

@[simp] theorem onRef_muted (f : RefDev → RefDev) (s : State) : (onRef f s).intr.muted = s.intr.muted := by
  unfold onRef; split <;> rfl

@[simp] theorem refresh_muted (s : State) : (refresh s).intr.muted = s.intr.muted := onRef_muted _ s

@[simp] theorem applyWorld_muted (s : State) (a : WorldAct) : (applyWorld s a).intr.muted = s.intr.muted := by
  have h : (noteAir a s).intr = s.intr := by unfold noteAir; split <;> rfl
  have : ∀ v : State, (worldEffect v a).intr.muted = v.intr.muted := by
    intro v
    cases a <;> simp only [worldEffect, refresh_muted, onRef_muted]
    split <;> rfl
  exact (this _).trans (by rw [h])

theorem foldl_muted {α : Type} (f : State → α → State) (h : ∀ s a, (f s a).intr.muted = s.intr.muted) (g : List α)
    (s : State) : (g.foldl f s).intr.muted = s.intr.muted := by
  induction g generalizing s with
  | nil => rfl
  | cons a g ih => exact (ih _).trans (h s a)

@[simp] theorem notify_muted (during : List WorldAct) (s : State) : (notify during s).intr.muted = s.intr.muted := by
  unfold notify; split
  · exact foldl_muted _ applyWorld_muted during (notifierEnter s)
  · exact foldl_muted _ applyWorld_muted during s

@[simp] theorem envSlot_muted (s : State) : (envSlot s).intr.muted = s.intr.muted := by
  unfold envSlot; split
  · rw [notify_muted, letGo, refresh_muted]; exact onRef_muted (fun d => d.hold false) s
  · refine foldl_muted applyAct ?_ _ _
    rintro u (a | d) <;> simp [applyAct]

/-! ### The bus -/

@[simp] theorem setCsn_muted (l : Bool) (s : State) : (setCsn l s).intr.muted = s.intr.muted := by
  unfold setCsn
  rw [refresh_muted]
  split
  · unfold csnRise commitDevice
    repeat' split
    all_goals simp
  · exact envSlot_muted s

@[simp] theorem setCe_muted (l : Bool) (s : State) : (setCe l s).intr.muted = s.intr.muted := by
  show (refresh _).intr.muted = _
  rw [refresh_muted]
  show (fireDue _).intr.muted = _
  rw [fireDue, refresh_muted, onRef_muted, envSlot_muted]

@[simp] theorem waitFor_muted (us : Nat) (s : State) : (waitFor us s).intr.muted = s.intr.muted := by
  show (refresh _).intr.muted = _
  rw [refresh_muted]
  exact (onRef_muted (fun d => d.advance _) _).trans ((envSlot_muted _).trans (envSlot_muted s))

@[simp] theorem shiftByte_muted (o i : Byte) (s : State) : (shiftByte o i s).intr.muted = s.intr.muted :=
  foldl_muted (nextBit i) (fun u _ => envSlot_muted u) [7, 6, 5, 4, 3, 2, 1, 0] _

@[simp] theorem xfer_muted (o : Byte) (s : State) : (xfer o s).2.intr.muted = s.intr.muted := by
  show (refresh _).intr.muted = _
  rw [refresh_muted, linkTake_eq]
  show (shiftByte o _ _).intr.muted = _
  rw [shiftByte_muted, (answer_keeps _).2.2.2.2.2.2.2.2.2.1, envSlot_muted]

@[simp] theorem exchange_muted (os : List Byte) (s : State) : (exchange os s).2.intr.muted = s.intr.muted := by
  induction os generalizing s with
  | nil => rfl
  | cons o os ih => exact (ih _).trans (xfer_muted o s)

@[simp] theorem readBytes_muted (n : Nat) (s : State) : (readBytes n s).2.intr.muted = s.intr.muted := by
  induction n generalizing s with
  | zero => rfl
  | succ n ih => exact (ih _).trans ((xfer_muted _ _).trans rfl)

@[simp] theorem openWindow_muted (c : Byte) (s : State) : (openWindow c s).intr.muted = s.intr.muted :=
  (xfer_muted c _).trans (setCsn_muted false s)

@[simp] theorem writeTx_muted (c : Byte) (out : List Byte) (s : State) : (writeTx c out s).intr.muted = s.intr.muted := by
  simp [writeTx]

@[simp] theorem burstTx_muted (c : Byte) (out : List Byte) (s : State) :
    (burstTx c out s).2.intr.muted = s.intr.muted := by simp [burstTx]

@[simp] theorem readTx_muted (c : Byte) (n : Nat) (s : State) : (readTx c n s).2.intr.muted = s.intr.muted := by
  simp [readTx]

@[simp] theorem writeReg_muted (a : Nat) (b : List Byte) (s : State) : (writeReg a b s).intr.muted = s.intr.muted :=
  writeTx_muted _ _ s

@[simp] theorem readTmp_muted (a : Nat) (s : State) : (readTmp a s).2.intr.muted = s.intr.muted := readTx_muted _ _ s

/-! ### The operations -/

@[simp] theorem applyState_muted (g : OperatingState) (s : State) : (applyState g s).intr.muted = s.intr.muted := by
  refine Eq.trans ?_ (readTmp_muted 0x00 s)
  show (applyArm g _ _).intr.muted = _
  cases g <;> simp [applyArm, armPowerDown, armPowerUp, armStandbyI, armStandbyII, armReceiving, armTransmitting]
  split <;> simp

@[simp] theorem startReceiver_muted (s : State) : (startReceiver s).intr.muted = s.intr.muted := by simp [startReceiver]

@[simp] theorem startListeningBody_muted (s : State) : (startListeningBody s).intr.muted = s.intr.muted := by
  simp [startListeningBody]

/-- A send that is over has RX_DR muted no longer (R204 (e)). -/
theorem sendRestore_muted (s : State) : (sendRestore s).intr.muted = false := by simp [sendRestore]

/-- After a pass of the polling loop the flag is muted only if the send is in progress still. -/
theorem pollPass_muted (s : State) (p : List Byte) (hop : s.op = some (.sendMessage p)) : MutedOk (pollPass s) := by
  obtain ⟨f, st, h1, -⟩ := readTmp_act 0x07 s
  have hu : (countPoll s.params (readTmp 0x07 s).1 (readTmp 0x07 s).2).op = some (.sendMessage p) := by
    rw [countPoll_eq _ _ 0]
    split <;> exact h1.op.trans hop
  unfold pollPass
  dsimp only
  generalize countPoll s.params (readTmp 0x07 s).1 (readTmp 0x07 s).2 = u at *
  split
  · intro _
    show isSending u.op = true
    rw [hu]; rfl
  · intro hf
    have h := sendRestore_muted u
    generalize sendRestore u = w at *
    exact absurd (h.symm.trans hf) (by simp)

/-- `init` mutes nothing and ends no muting (R165). -/
theorem initBody_muted (s : State) : (initBody s).intr.muted = s.intr.muted := by
  simp only [initBody, tick_intr, initAddresses, initFeatures, initRadio, flushRxOp, flushTxOp, writeReg_muted,
    readTmp_muted, writeTx_muted, initPins, waitFor_muted]
  show (setCsn true (setCe false (enableInterrupts s))).intr.muted = _
  rw [setCsn_muted, setCe_muted]
  rfl

/-- `readMessage` mutes nothing and ends no muting (R205). -/
theorem readRest_muted (s : State) : (readRest s).intr.muted = s.intr.muted := by
  have hd : ∀ w, (drain w s).intr.muted = s.intr.muted := by
    intro w
    unfold drain
    repeat' split
    · rfl
    · exact burstTx_muted 0x61 _ (placeCommand s)
    · exact readTx_muted 0x61 _ s
  have hf : ∀ w u, (finishWith (readFinish w u)).intr.muted = u.intr.muted := by
    intro w u
    simp only [finishWith, finish, readFinish, writeReg_muted]
  unfold readRest
  split
  · exact (hf _ _).trans (hd _)
  · rfl

theorem runRequest_muted {i : Instr} {body : State → Result × State} {s t : State}
    (hb : ∀ u, (body u).2.intr.muted = u.intr.muted) (h : runRequest i body s = .next t) : t.intr.muted = s.intr.muted := by
  unfold runRequest at h
  split at h
  · cases h; exact hb _
  · cases h

theorem runBuffered_muted {i : Instr} {buf : List Byte} {n : Nat} {body : State → Result × State} {s t : State}
    (hb : ∀ u, (body u).2.intr.muted = u.intr.muted) (h : runBuffered i buf n body s = .next t) :
    t.intr.muted = s.intr.muted := by
  unfold runBuffered at h
  repeat' split at h
  · cases h; exact hb _
  · cases h
  · cases h

/-- No instruction but `sendMessage` mutes RX_DR or ends that, and a `sendMessage` leaves it muted only while it is in
progress (R204 (e)). -/
theorem exec_muted {s t : State} (i : Instr) (he : exec i s = .next t) : MutedOk t ∨ t.intr.muted = s.intr.muted := by
  cases i
  case init =>
    right
    have hu := initBody_muted (begin .init s)
    simp only [exec, execInit] at he
    generalize initBody (begin .init s) = u at *
    split at he
    · cases he; exact hu
    · cases he
  case sendMessage p =>
    simp only [exec, execSendMessage] at he
    repeat' split at he
    · cases he
      left
      obtain ⟨_, _, _, _, _, h, -⟩ := sendStart_spec p (begin (.sendMessage p) s)
      exact pollPass_muted _ p (h.op.trans rfl)
    · cases he; exact .inr rfl
    · cases he
  case readMessage =>
    right
    simp only [exec, execReadMessage] at he
    split at he
    · cases he
      rw [readRest_muted]
      show (readTx 0x60 1 _).2.intr.muted = _
      rw [readTx_muted]
      unfold readAck
      split
      · exact writeTx_muted _ _ _
      · rfl
    · cases he
  all_goals right
  case rRegisterCmd => simp only [exec, execRRegisterCmd] at he; exact runRequest_muted (fun u => burstTx_muted _ _ u) he
  case wRegisterCmd => simp only [exec, execWRegisterCmd] at he; exact runRequest_muted (fun u => burstTx_muted _ _ u) he
  case activateCmd => simp only [exec, execActivateCmd] at he; exact runRequest_muted (fun u => burstTx_muted _ _ u) he
  case rRxPlWidCmd => simp only [exec, execRRxPlWidCmd] at he; exact runRequest_muted (fun u => burstTx_muted _ _ u) he
  case rRxPayloadCmd => simp only [exec, execRRxPayloadCmd] at he; exact runRequest_muted (fun u => burstTx_muted _ _ u) he
  case wTxPayloadCmd => simp only [exec, execWTxPayloadCmd] at he; exact runRequest_muted (fun u => burstTx_muted _ _ u) he
  case wAckPayloadCmd => simp only [exec, execWAckPayloadCmd] at he; exact runRequest_muted (fun u => burstTx_muted _ _ u) he
  case wTxPayloadNoAckCmd => simp only [exec, execWTxPayloadNoAckCmd] at he; exact runRequest_muted (fun u => burstTx_muted _ _ u) he
  case flushTxCmd => simp only [exec, execFlushTxCmd] at he; exact runRequest_muted (fun u => burstTx_muted _ _ u) he
  case flushRxCmd => simp only [exec, execFlushRxCmd] at he; exact runRequest_muted (fun u => burstTx_muted _ _ u) he
  case reuseTxPlCmd => simp only [exec, execReuseTxPlCmd] at he; exact runRequest_muted (fun u => burstTx_muted _ _ u) he
  case nopCmd => simp only [exec, execNopCmd] at he; exact runRequest_muted (fun u => burstTx_muted _ _ u) he
  case exchangeByte => simp only [exec, execExchangeByte] at he; exact runRequest_muted (fun u => xfer_muted _ u) he
  case exchangeBurst => simp only [exec, execExchangeBurst] at he; exact runBuffered_muted (fun u => exchange_muted _ u) he
  case readRegister => simp only [exec, execReadRegister] at he; exact runRequest_muted (fun u => readTx_muted _ _ u) he
  case readRxPayload => simp only [exec, execReadRxPayload] at he; exact runRequest_muted (fun u => readTx_muted _ _ u) he
  case readRxPayloadWidth => simp only [exec, execReadRxPayloadWidth] at he; exact runRequest_muted (fun u => readTx_muted _ _ u) he
  case flushTx => simp only [exec, execFlushTx] at he; exact runRequest_muted (fun u => writeTx_muted _ _ u) he
  case flushRx => simp only [exec, execFlushRx] at he; exact runRequest_muted (fun u => writeTx_muted _ _ u) he
  case activate => simp only [exec, execActivate] at he; exact runRequest_muted (fun u => writeTx_muted _ _ u) he
  case nop => simp only [exec, execNop] at he; exact runRequest_muted (fun u => writeTx_muted _ _ u) he
  case writeRegister => simp only [exec, execWriteRegister] at he; exact runBuffered_muted (fun u => writeTx_muted _ _ u) he
  case writeTxPayload => simp only [exec, execWriteTxPayload] at he; exact runBuffered_muted (fun u => writeTx_muted _ _ u) he
  case writeTxPayloadNoAck => simp only [exec, execWriteTxPayloadNoAck] at he; exact runBuffered_muted (fun u => writeTx_muted _ _ u) he
  case writeAckPayload => simp only [exec, execWriteAckPayload] at he; exact runBuffered_muted (fun u => writeTx_muted _ _ u) he
  case applyPowerUp => simp only [exec, execApplyPowerUp] at he; exact runRequest_muted (fun u => applyState_muted _ u) he
  case applyPowerDown => simp only [exec, execApplyPowerDown] at he; exact runRequest_muted (fun u => applyState_muted _ u) he
  case applyStandbyI => simp only [exec, execApplyStandbyI] at he; exact runRequest_muted (fun u => applyState_muted _ u) he
  case applyStandbyII => simp only [exec, execApplyStandbyII] at he; exact runRequest_muted (fun u => applyState_muted _ u) he
  case applyReceiving => simp only [exec, execApplyReceiving] at he; exact runRequest_muted (fun u => applyState_muted _ u) he
  case applyTransmitting => simp only [exec, execApplyTransmitting] at he; exact runRequest_muted (fun u => applyState_muted _ u) he
  case startListening => simp only [exec, execStartListening] at he; exact runRequest_muted (fun u => by simp [unitResult]) he
  case available => simp only [exec, execAvailable] at he; exact runRequest_muted (fun u => by simp [availableBody]) he
  case readPending => simp only [exec, execReadPending] at he; exact runRequest_muted (fun _ => rfl) he
  case clearPending => simp only [exec, execClearPending] at he; exact runRequest_muted (fun _ => rfl) he

end Sys2Proof.Laws
end

