-- ==== Sys2Proof/Laws/Oracle.lean ====
section
/-! SUPPORT. What each operation takes of the Oracle's inputs (R230), and the STATUS read of the RegFile device (R249). -/

namespace Sys2Proof.Laws

open Sys2Proof.Machine

/-- Under the Oracle, `n` of the inputs were taken. -/
def Takes (n : Nat) (s t : State) : Prop := s.params.deviceModel = .oracle → t.params.deviceModel = .oracle ∧
    t.oracleMiso = s.oracleMiso.drop n

theorem Takes.trans {n m s t u} (h : Takes n s t) (k : Takes m t u) : Takes (n + m) s u := by
  intro hs
  obtain ⟨h1, h2⟩ := h hs
  obtain ⟨k1, k2⟩ := k h1
  exact ⟨k1, by rw [k2, h2, List.drop_drop]⟩

theorem Takes.of_silent {s t} (h : Silent s t) : Takes 0 s t := fun hs => ⟨by rw [h.params]; exact hs, by
    rw [h.oracleMiso]; rfl⟩

theorem Takes.refl (s) : Takes 0 s s := fun hs => ⟨hs, rfl⟩

theorem Takes.same {s t : State} (hp : t.params = s.params) (h : t.oracleMiso = s.oracleMiso) : Takes 0 s t := fun hs
    => ⟨by rw [hp]; exact hs, by rw [h]; rfl⟩

/-- One exchange in a window takes one input and answers it. -/
theorem xfer_oracle (o : Byte) (s : State) (h : s.link.inTxn = true) : Takes 1 s (xfer o s).2 ∧
    (s.params.deviceModel = .oracle → ∀ v, s.oracleMiso[0]? = some v → (xfer o s).1 = v) := by
  have hs := envSlot_silent s
  have hp := xfer_silent o s
  have hx : (xfer o s).1 = (answer (envSlot s)).1 := rfl
  have hl : (envSlot s).link.inTxn = true := by rw [hs.link]; exact h
  have ha : s.params.deviceModel = .oracle → answer (envSlot s) = oracleByte (envSlot s) := by
    intro ho
    unfold answer
    rw [hl, hs.params, ho]; rfl
  constructor
  · intro ho
    refine ⟨?_, ?_⟩
    · rw [hp.params]; show (answer (envSlot s)).2.params.deviceModel = _; rw [(answer_keeps _).2.2.2.2.2.2.2.2.1,
        hs.params, ho]
    · rw [hp.oracleMiso]; show (answer (envSlot s)).2.oracleMiso = _
      rw [ha ho]; unfold oracleByte; rw [hs.oracleMiso]
      split <;> rename_i hq <;> simp [hq, hs.oracleMiso]
  · intro ho v hv
    rw [hx, ha ho]; unfold oracleByte; rw [hs.oracleMiso]
    cases hq : s.oracleMiso <;> simp_all

theorem takeLink_inTxn (o : Byte) (l : Link) : (takeLink o l).inTxn = l.inTxn := by
  unfold takeLink; repeat' split
  all_goals simp_all

theorem exchange_oracle (os : List Byte) (s : State) (h : s.link.inTxn = true) : Takes os.length s (exchange os s).2
    ∧ (exchange os s).2.link.inTxn = true := by
  induction os generalizing s with
  | nil => exact ⟨Takes.refl s, h⟩
  | cons o os ih =>
    have h2 : (xfer o s).2.link.inTxn = true := by rw [xfer_link, takeLink_inTxn, h]
    obtain ⟨k1, k2⟩ := ih (xfer o s).2 h2
    refine ⟨?_, k2⟩
    have := (xfer_oracle o s h).1.trans k1
    rw [show 1 + os.length = (o :: os).length by simp [Nat.add_comm]] at this
    exact this

theorem readBytes_oracle (n : Nat) (s : State) (h : s.link.inTxn = true) : Takes n s (readBytes n s).2 ∧
   (s.params.deviceModel = .oracle → ∀ v, 1 ≤ n → s.oracleMiso[0]? = some v → (readBytes n s).1.headD 0 = v) := by
  induction n generalizing s with
  | zero => exact ⟨Takes.refl s, by intros; omega⟩
  | succ n ih =>
    have hd : (draw s).2.link.inTxn = true := h
    have h2 : (xfer (draw s).1 (draw s).2).2.link.inTxn = true := by rw [xfer_link, takeLink_inTxn, hd]
    obtain ⟨k1, k2⟩ := ih _ h2
    constructor
    · have := ((Takes.same rfl rfl : Takes 0 s (draw s).2).trans (xfer_oracle (draw s).1 _ hd).1).trans k1
      rw [show 0 + 1 + n = n + 1 by omega] at this
      exact this
    · intro ho v _ hv
      exact (xfer_oracle (draw s).1 (draw s).2 hd).2 ho v hv

theorem setCsn_oracle (l : Bool) (s : State) : Takes 0 s (setCsn l s) := by
  have hs := envSlot_silent s
  have e : Takes 0 (emit (.csn l) { envSlot s with pins := { (envSlot s).pins with csn := .driven l } }) (if l then csnRise (emit (.csn l) { envSlot s with pins := { (envSlot s).pins with csn := .driven l } }) else csnFall (emit (.csn l) { envSlot s with pins := { (envSlot s).pins with csn := .driven l } })) := by
    cases l
    · exact Takes.same rfl rfl
    · simp only [if_true]
      unfold csnRise commitDevice
      split
      · split
        · exact Takes.same rfl rfl
        · split <;> exact Takes.same rfl rfl
        · exact Takes.same rfl rfl
      · exact Takes.refl _
  have := ((Takes.of_silent hs).trans (Takes.same rfl rfl : Takes 0 (envSlot s) (emit (.csn l) { envSlot s with pins := { (envSlot s).pins with csn := .driven l } }))).trans (e.trans (Takes.of_silent (refresh_silent _)))
  exact this

theorem setCe_oracle (l : Bool) (s : State) : Takes 0 s (setCe l s) :=
  (((Takes.of_silent (envSlot_silent s)).trans (Takes.of_silent (fireDue_silent _))).trans
    (Takes.same rfl rfl : Takes 0 (fireDue (envSlot s)) (emit (.ce l)
      { fireDue (envSlot s) with pins := { (fireDue (envSlot s)).pins with ce := .driven l } }))).trans
    (Takes.of_silent (refresh_silent _))

theorem waitFor_oracle (us : Nat) (s : State) : Takes 0 s (waitFor us s) :=
  ((((Takes.of_silent (envSlot_silent s)).trans (Takes.of_silent (envSlot_silent _))).trans
    (Takes.of_silent (onRef_silent (fun d => d.advance (us - ((envSlot (envSlot s)).ref.now - (envSlot s).ref.now)))
      (fun _ => rfl) _))).trans
    (Takes.same rfl rfl : Takes 0 (onRef (fun d => d.advance (us - ((envSlot (envSlot s)).ref.now - (envSlot s).ref.now)))
      (envSlot (envSlot s))) (emit (.wait us) _))).trans (Takes.of_silent (refresh_silent _))

theorem openWindow_oracle (c : Byte) (s : State) : Takes 1 s (openWindow c s) := by
  have h : (setCsn false s).link.inTxn = true := by rw [setCsn_false_link]
  have := ((setCsn_oracle false s).trans (xfer_oracle c _ h).1).trans (Takes.same rfl rfl : Takes 0 _ (openWindow c s))
  exact this

theorem writeTx_oracle (c : Byte) (out : List Byte) (s : State) : Takes (out.length + 1) s (writeTx c out s) := by
  have h : (openWindow c s).link.inTxn = true := by rw [openWindow_link]
  have := ((openWindow_oracle c s).trans (exchange_oracle out _ h).1).trans (setCsn_oracle true _)
  rw [show 1 + out.length + 0 = out.length + 1 by omega] at this
  exact this

/-- A 1-byte read takes two inputs and gives the second. -/
theorem readTmp_oracle (addr : Nat) (s : State) : Takes 2 s (readTmp addr s).2 ∧
   (s.params.deviceModel = .oracle → ∀ v, s.oracleMiso[1]? = some v → (readTmp addr s).1 = v) := by
  have h : (openWindow (cmdReg opRead (maskAddr addr)) s).link.inTxn = true := by rw [openWindow_link]
  have ho := openWindow_oracle (cmdReg opRead (maskAddr addr)) s
  have hr := readBytes_oracle 1 _ h
  constructor
  · exact ((ho.trans hr.1).trans (setCsn_oracle true _)).trans (Takes.same rfl rfl)
  · intro hs v hv
    obtain ⟨h1, h2⟩ := ho hs
    exact hr.2 h1 v (le_refl _) (by rw [h2, List.getElem?_drop]; exact hv)

/-- An exchange that the RegFile device answers. -/
theorem xfer_answer_regFile (o : Byte) (s : State) (hm : s.params.deviceModel = .regFile) (hl : s.link.inTxn = true)
    (v : Byte)
   (h : ∀ u : State, u.link = s.link → u.regFile = s.regFile → regFileAnswer u = some v) : (xfer o s).1 = v := by
  have hs := envSlot_silent s
  show (answer (envSlot s)).1 = v
  unfold answer
  rw [hs.link, hl, hs.params, hm]
  simp only [if_true]
  rw [h _ hs.link hs.regFile]
  rfl

/-- The STATUS read of the RegFile device is byte 0 of address 7. -/
theorem readTmp_regFile7 (s : State) (hm : s.params.deviceModel = .regFile) : (readTmp 0x07 s).1 = Memory.read
    s.regFile 35 := by
  have e1 : (cmdReg opRead (maskAddr 0x07)) = 0x07 := by decide
  have hk := openWindow_kept 0x07 s
  have hb := openWindow_bus 0x07 s
  show (readBytes 1 (openWindow (cmdReg opRead (maskAddr 0x07)) s)).1.headD 0 = _
  rw [e1]
  show (xfer (draw (openWindow 0x07 s)).1 (draw (openWindow 0x07 s)).2).1 = _
  apply xfer_answer_regFile
  · show (openWindow 0x07 s).params.deviceModel = _
    rw [hb.drives.params, hm]
  · show (openWindow 0x07 s).link.inTxn = _
    rw [openWindow_link]
  · intro u h1 h2
    have h1 : u.link = (openWindow 0x07 s).link := h1
    have h2 : u.regFile = (openWindow 0x07 s).regFile := h2
    unfold regFileAnswer
    rw [h1, h2, openWindow_link, hk.store]
    simp [isReadCmd, opRead, regFileRead, cmdAddr, regFileCell]


end Sys2Proof.Laws
end

