-- ==== Sys2Proof/Laws/PerInstr.lean ====
section
/-! SUPPORT. Per instruction: the code byte of its encoding lies in exactly one row of its level of the opcode table, and
that row is the instruction's (R98, R102). -/

namespace Sys2Proof.Laws.OneRow

/-- The rows of a level. -/
def rowsOf : Level → List OpRow
  | .wire => wireRows
  | .operation => operationRows

/-- The mnemonic of an instruction in the opcode table. -/
def mnemonic : Instr → String
  | .rRegisterCmd _ _ => "R_REGISTER"
  | .wRegisterCmd _ _ => "W_REGISTER"
  | .activateCmd _ => "ACTIVATE"
  | .rRxPlWidCmd _ => "R_RX_PL_WID"
  | .rRxPayloadCmd _ => "R_RX_PAYLOAD"
  | .wTxPayloadCmd _ => "W_TX_PAYLOAD"
  | .wAckPayloadCmd _ _ => "W_ACK_PAYLOAD"
  | .wTxPayloadNoAckCmd _ => "W_TX_PAYLOAD_NOACK"
  | .flushTxCmd _ => "FLUSH_TX"
  | .flushRxCmd _ => "FLUSH_RX"
  | .reuseTxPlCmd _ => "REUSE_TX_PL"
  | .nopCmd _ => "NOP"
  | .exchangeByte _ => "exchangeByte"
  | .exchangeBurst _ _ => "exchangeBurst"
  | .readRegister _ _ => "readRegister"
  | .writeRegister _ _ _ => "writeRegister"
  | .flushTx => "flushTx"
  | .flushRx => "flushRx"
  | .readRxPayload _ => "readRxPayload"
  | .writeTxPayload _ _ => "writeTxPayload"
  | .writeTxPayloadNoAck _ _ => "writeTxPayloadNoAck"
  | .writeAckPayload _ _ => "writeAckPayload"
  | .readRxPayloadWidth => "readRxPayloadWidth"
  | .activate => "activate"
  | .nop => "nop"
  | .init => "init"
  | .applyPowerUp => "applyState(PowerUp)"
  | .applyPowerDown => "applyState(PowerDown)"
  | .applyReceiving => "applyState(Receiving)"
  | .applyTransmitting => "applyState(Transmitting)"
  | .applyStandbyI => "applyState(StandbyI)"
  | .applyStandbyII => "applyState(StandbyII)"
  | .startListening => "startListening"
  | .sendMessage _ => "sendMessage"
  | .readMessage => "readMessage"
  | .available => "available"
  | .readPending => "readPending"
  | .clearPending => "clearPending"

/-- One row covers the instruction's code byte, and it is the instruction's row. -/
def Statement (i : Instr) : Prop :=
  ∃ c, (encode i).code = some c ∧
    ((rowsOf (encode i).level).filter (fun r => r.covers c)).map OpRow.mnemonic = [mnemonic i]

theorem rRegisterCmd (a : RegAddr) (data : List Byte) : Statement (.rRegisterCmd a data) := by
  have h : ∀ a : RegAddr, (wireRows.filter (fun r => r.covers (cmdReg opRead a))).map OpRow.mnemonic = ["R_REGISTER"] := by decide
  exact ⟨_, rfl, h a⟩
theorem wRegisterCmd (a : RegAddr) (data : List Byte) : Statement (.wRegisterCmd a data) := by
  have h : ∀ a : RegAddr, (wireRows.filter (fun r => r.covers (cmdReg opWrite a))).map OpRow.mnemonic = ["W_REGISTER"] := by decide
  exact ⟨_, rfl, h a⟩
theorem activateCmd (data : List Byte) : Statement (.activateCmd data) := ⟨_, rfl, rfl⟩
theorem rRxPlWidCmd (data : List Byte) : Statement (.rRxPlWidCmd data) := ⟨_, rfl, rfl⟩
theorem rRxPayloadCmd (data : List Byte) : Statement (.rRxPayloadCmd data) := ⟨_, rfl, rfl⟩
theorem wTxPayloadCmd (data : List Byte) : Statement (.wTxPayloadCmd data) := ⟨_, rfl, rfl⟩
theorem wAckPayloadCmd (p : BitVec 3) (data : List Byte) : Statement (.wAckPayloadCmd p data) := by
  have h : ∀ p : BitVec 3, (wireRows.filter (fun r => r.covers (cmdPipe p))).map OpRow.mnemonic = ["W_ACK_PAYLOAD"] := by decide
  exact ⟨_, rfl, h p⟩
theorem wTxPayloadNoAckCmd (data : List Byte) : Statement (.wTxPayloadNoAckCmd data) := ⟨_, rfl, rfl⟩
theorem flushTxCmd (data : List Byte) : Statement (.flushTxCmd data) := ⟨_, rfl, rfl⟩
theorem flushRxCmd (data : List Byte) : Statement (.flushRxCmd data) := ⟨_, rfl, rfl⟩
theorem reuseTxPlCmd (data : List Byte) : Statement (.reuseTxPlCmd data) := ⟨_, rfl, rfl⟩
theorem nopCmd (data : List Byte) : Statement (.nopCmd data) := ⟨_, rfl, rfl⟩
theorem exchangeByte (out : Byte) : Statement (.exchangeByte out) := ⟨_, rfl, rfl⟩
theorem exchangeBurst (buf : List Byte) (count : Nat) : Statement (.exchangeBurst buf count) := ⟨_, rfl, rfl⟩
theorem readRegister (addr n : Nat) : Statement (.readRegister addr n) := ⟨_, rfl, rfl⟩
theorem writeRegister (addr : Nat) (buf : List Byte) (n : Nat) : Statement (.writeRegister addr buf n) := ⟨_, rfl, rfl⟩
theorem flushTx : Statement .flushTx := ⟨_, rfl, rfl⟩
theorem flushRx : Statement .flushRx := ⟨_, rfl, rfl⟩
theorem readRxPayload (n : Nat) : Statement (.readRxPayload n) := ⟨_, rfl, rfl⟩
theorem writeTxPayload (buf : List Byte) (n : Nat) : Statement (.writeTxPayload buf n) := ⟨_, rfl, rfl⟩
theorem writeTxPayloadNoAck (buf : List Byte) (n : Nat) : Statement (.writeTxPayloadNoAck buf n) := ⟨_, rfl, rfl⟩
theorem writeAckPayload (buf : List Byte) (n : Nat) : Statement (.writeAckPayload buf n) := ⟨_, rfl, rfl⟩
theorem readRxPayloadWidth : Statement .readRxPayloadWidth := ⟨_, rfl, rfl⟩
theorem activate : Statement .activate := ⟨_, rfl, rfl⟩
theorem nop : Statement .nop := ⟨_, rfl, rfl⟩
theorem init : Statement .init := ⟨_, rfl, rfl⟩
theorem applyPowerUp : Statement .applyPowerUp := ⟨_, rfl, rfl⟩
theorem applyPowerDown : Statement .applyPowerDown := ⟨_, rfl, rfl⟩
theorem applyReceiving : Statement .applyReceiving := ⟨_, rfl, rfl⟩
theorem applyTransmitting : Statement .applyTransmitting := ⟨_, rfl, rfl⟩
theorem applyStandbyI : Statement .applyStandbyI := ⟨_, rfl, rfl⟩
theorem applyStandbyII : Statement .applyStandbyII := ⟨_, rfl, rfl⟩
theorem startListening : Statement .startListening := ⟨_, rfl, rfl⟩
theorem sendMessage (payload : List Byte) : Statement (.sendMessage payload) := ⟨_, rfl, rfl⟩
theorem readMessage : Statement .readMessage := ⟨_, rfl, rfl⟩
theorem available : Statement .available := ⟨_, rfl, rfl⟩
theorem readPending : Statement .readPending := ⟨_, rfl, rfl⟩
theorem clearPending : Statement .clearPending := ⟨_, rfl, rfl⟩

end Sys2Proof.Laws.OneRow
end

