-- ==== Sys2Proof/Laws/Reference.lean ====
section
/-! SUPPORT. The Reference device in an environment that makes no choice: where each shared operation takes it, and what it
answers (`AtRest`). -/

namespace Sys2Proof.Laws

open Sys2Proof.Machine

/-- The Reference device is `d`, at rest under CE `ce` with nothing put off, in a silent environment. -/
structure AtRest (s : State) (d : RefDev) (ce : Bool) : Prop where
  model : s.params.deviceModel = .reference
  env : s.env = []
  ref : s.ref = d
  hce : s.pins.ce.isHigh = ce
  rest : d.modeRule ce = none
  held : d.held = false

theorem AtRest.congr {s t d ce} (h : AtRest s d ce) (a : t.params = s.params) (b : t.env = s.env) (c : t.ref = s.ref)
    (e : t.pins.ce = s.pins.ce) : AtRest t d ce :=
  ⟨by rw [a]; exact h.model, by rw [b]; exact h.env, by rw [c]; exact h.ref, by rw [e]; exact h.hce, h.rest, h.held⟩

theorem onRef_reference {s : State} (h : s.params.deviceModel = .reference) (f : RefDev → RefDev) :
    onRef f s = { s with ref := f s.ref } := by
  unfold onRef; rw [h]

theorem commit_held (d : RefDev) (c : Byte) (data : List Byte) (n : Nat) : (d.commit c data n).held = d.held := by
  unfold RefDev.commit RefDev.writeReg RefDev.queueAck RefDev.queueTx RefDev.popRx
  repeat' split
  all_goals rfl

theorem settle_held (d : RefDev) (ce : Bool) : (d.settle ce).held = d.held := (settle_keeps d ce).2.2.2.2.2.2.2

theorem refresh_atRest {s : State} {d ce} (hm : s.params.deviceModel = .reference) (he : s.env = []) (hd : s.ref = d)
    (hc : s.pins.ce.isHigh = ce) (hh : d.held = false) :
    AtRest (refresh s) (d.settle ce) ce ∧ (refresh s).pins.irq = (d.settle ce).irqOut := by
  unfold refresh
  rw [onRef_reference hm]
  refine ⟨⟨hm, he, ?_, hc, settle_rest _ _, by rw [settle_held, hh]⟩, ?_⟩
  · show s.ref.settle _ = _; rw [hd, hc]
  · show irqLevel { s with ref := _ } = _
    unfold irqLevel; simp [hm, hd, hc]

theorem AtRest.refresh_rest {s d ce} (h : AtRest s d ce) : AtRest (refresh s) d ce ∧ (refresh s).pins.irq = d.irqOut := by
  have := refresh_atRest h.model h.env h.ref h.hce h.held
  rwa [settle_of_rest d ce h.rest] at this

/-- What leaves the device as it is leaves it at rest. -/
theorem AtRest.at_onRef {s d ce} (h : AtRest s d ce) (f : RefDev → RefDev) (hf : f d = d) : AtRest (onRef f s) d ce := by
  rw [onRef_reference h.model]
  exact ⟨h.model, h.env, by show f s.ref = d; rw [h.ref, hf], h.hce, h.rest, h.held⟩

theorem AtRest.at_mute {s d ce} (h : AtRest s d ce) (b : Bool) : AtRest (mute b s) d ce :=
  h.congr rfl rfl rfl rfl

theorem AtRest.at_muteRx {s d ce} (h : AtRest s d ce) : AtRest (muteRx s) d ce := h.at_mute _

theorem AtRest.at_fireDue {s d ce} (h : AtRest s d ce) : AtRest (fireDue s) d ce :=
  (h.at_onRef _ (fireDue_of_free h.held)).refresh_rest.1

/-- The point of an environment that makes no choice any more: a latched edge is taken, and the device stays. -/
theorem AtRest.at_envSlot {s d ce} (h : AtRest s d ce) : AtRest (envSlot s) d ce := by
  have hl : AtRest (letGo s) d ce := (h.at_onRef (fun d => d.hold false) (hold_of_free h.held)).refresh_rest.1
  have e : envSlot s = notify [] (letGo s) := by unfold envSlot; rw [h.env]
  rw [e]
  unfold notify
  split <;> exact hl.congr rfl rfl rfl rfl

theorem AtRest.setCsn_false {s d ce} (h : AtRest s d ce) : AtRest (setCsn false s) d ce := by
  have : AtRest (csnFall (emit (.csn false) { Machine.envSlot s with pins := { (Machine.envSlot s).pins with
      csn := .driven false } })) d ce := h.at_envSlot.congr rfl rfl rfl rfl
  exact this.refresh_rest.1

/-- CSN rises: the command commits, and the modes settle (R232, R250). -/
theorem AtRest.setCsn_true {s d ce} (h : AtRest s d ce) (n : Nat) (c : Byte) (data : List Byte)
    (hl : s.link = { inTxn := true, idx := n, cmd := c, data := data }) :
    AtRest (setCsn true s) ((d.commit c data n).settle ce) ce ∧ (setCsn true s).pins.irq = ((d.commit c data
        n).settle ce).irqOut := by
  have h1 := h.at_envSlot
  have hl1 : (Machine.envSlot s).link = { inTxn := true, idx := n, cmd := c, data := data } := by
    rw [(envSlot_silent s).link, hl]
  simp only [setCsn, if_true]
  generalize Machine.envSlot s = e at *
  rw [csnRise_eq (emit (.csn true) { e with pins := { e.pins with csn := .driven true } }) n c data hl1]
  have hm : (emit (.csn true) { e with pins := { e.pins with csn := .driven true } }).params.deviceModel = .reference :=
    h1.model
  rw [if_pos hm, if_neg (by rw [hm]; simp)]
  refine refresh_atRest (s := { (emit (.csn true) { e with pins := { e.pins with csn := .driven true } }) with
    link := { inTxn := false, idx := n, cmd := c, data := data }, ref := e.ref.commit c data n }) h1.model h1.env ?_
    h1.hce ((commit_held d c data n).trans h.held)
  show e.ref.commit c data n = _
  rw [h1.ref]

theorem AtRest.setCsn_true_closed {s d ce} (h : AtRest s d ce) (hl : s.link.inTxn = false) :
    AtRest (setCsn true s) d ce := by
  have h1 := h.at_envSlot
  have hl1 : (Machine.envSlot s).link.inTxn = false := by rw [(envSlot_silent s).link, hl]
  simp only [setCsn, if_true]
  generalize Machine.envSlot s = e at *
  have : csnRise (emit (.csn true) { e with pins := { e.pins with csn := .driven true } }) =
      emit (.csn true) { e with pins := { e.pins with csn := .driven true } } := by
    unfold csnRise
    rw [show (emit (.csn true) { e with pins := { e.pins with csn := .driven true } }).link = e.link from rfl, hl1]
    simp
  rw [this]
  exact (h1.congr (t := emit (.csn true) { e with pins := { e.pins with csn := .driven true } })
    rfl rfl rfl rfl).refresh_rest.1

theorem AtRest.at_setCe {s d ce} (h : AtRest s d ce) (l : Bool) : AtRest (setCe l s) (d.settle l) l := by
  have h1 := h.at_envSlot.at_fireDue
  simp only [setCe]
  generalize fireDue (Machine.envSlot s) = e at *
  exact (refresh_atRest (s := emit (.ce l) { e with pins := { e.pins with ce := .driven l } }) h1.model h1.env h1.ref
    rfl h1.held).1

theorem AtRest.at_wait {s d ce} (h : AtRest s d ce) (us : Nat) : AtRest (waitFor us s) ((d.advance us).settle ce) ce := by
  have h1 := h.at_envSlot
  have h2 := h1.at_envSlot
  simp only [waitFor, h1.ref, h2.ref, Nat.sub_self, Nat.sub_zero]
  generalize Machine.envSlot (Machine.envSlot s) = e at *
  rw [onRef_reference h2.model]
  exact (refresh_atRest (s := emit (.wait us) { e with ref := e.ref.advance us }) (d := d.advance us) h2.model h2.env
    (by show e.ref.advance us = _; rw [h2.ref]) h2.hce h2.held).1

theorem AtRest.at_shiftByte {s d ce} (h : AtRest s d ce) (o i : Byte) : AtRest (shiftByte o i s) d ce := by
  have key : ∀ (ks : List Nat) {u : State}, AtRest u d ce → AtRest (ks.foldl (nextBit i) u) d ce := by
    intro ks
    induction ks with
    | nil => exact id
    | cons k ks ih => exact fun hu => ih (hu.at_envSlot.congr rfl rfl rfl rfl)
  exact (key [7, 6, 5, 4, 3, 2, 1, 0] (h.congr (t := { s with shifter := { s.shifter with shOut := o, shIn := 0 } })
    rfl rfl rfl rfl)).congr rfl rfl rfl rfl

theorem answer_env (s : State) : (answer s).2.env = s.env := (answer_keeps s).2.2.2.2.2.2.2.1

theorem answer_params (s : State) : (answer s).2.params = s.params := (answer_keeps s).2.2.2.2.2.2.2.2.1

theorem answer_pins (s : State) : (answer s).2.pins = s.pins := (answer_keeps s).2.2.2.2.2.1

theorem answer_ref (s : State) : (answer s).2.ref = s.ref := (answer_keeps s).2.2.1

theorem AtRest.at_answer {s d ce} (h : AtRest s d ce) : AtRest (answer s).2 d ce :=
  h.congr (answer_params s) (answer_env s) (answer_ref s) (by rw [answer_pins])

theorem AtRest.at_xfer {s d ce} (h : AtRest s d ce) (o : Byte) : AtRest (xfer o s).2 d ce := by
  have h1 := h.at_envSlot.at_answer.at_shiftByte o (answer (Machine.envSlot s)).1
  refine (AtRest.refresh_rest ?_).1
  rw [linkTake_eq]
  exact h1.congr rfl rfl rfl rfl

theorem AtRest.at_draw {s d ce} (h : AtRest s d ce) : AtRest (draw s).2 d ce := h.congr rfl rfl rfl rfl

/-- What the device answers to one byte (R231, R232). -/
theorem AtRest.xfer_fst {s d ce} (h : AtRest s d ce) (o : Byte) (ht : s.link.inTxn = true) :
    (s.link.idx = 0 → (xfer o s).1 = d.statusByte) ∧
    (∀ k v, s.link.idx = k + 1 → d.miso s.link.cmd k = some v → (xfer o s).1 = v) := by
  have h1 := h.at_envSlot
  have hl : (Machine.envSlot s).link = s.link := (envSlot_silent s).link
  have e : (xfer o s).1 = (orDraw (referenceAnswer (Machine.envSlot s)) (Machine.envSlot s)).1 := by
    show (answer (Machine.envSlot s)).1 = _
    unfold answer; rw [hl, ht, h1.model]; rfl
  constructor
  · intro hi; rw [e]; unfold referenceAnswer; rw [hl, hi, h1.ref]; rfl
  · intro k v hi hv; rw [e]; unfold referenceAnswer; rw [hl, hi, h1.ref]; simp [hv, orDraw]

theorem AtRest.at_exchange {s d ce} (h : AtRest s d ce) (os : List Byte) : AtRest (exchange os s).2 d ce := by
  induction os generalizing s with
  | nil => exact h
  | cons o os ih => exact ih (h.at_xfer o)

theorem AtRest.exchange_fst {s d ce} (h : AtRest s d ce) (os : List Byte) (k : Nat) (c : Byte) (ds : List Byte)
    (hl : s.link = { inTxn := true, idx := k + 1, cmd := c, data := ds }) :
    ∀ j v, j < os.length → d.miso c (k + j) = some v → (exchange os s).1[j]? = some v := by
  induction os generalizing s k ds with
  | nil => intro j v hj; simp at hj
  | cons o os ih =>
    intro j v hj hv
    have hl2 : (Machine.xfer o s).2.link = { inTxn := true, idx := k + 1 + 1, cmd := c, data := ds ++ [o] } := by
      rw [xfer_link, hl]; simp [takeLink]
    cases j with
    | zero =>
      have := (h.xfer_fst o (by rw [hl])).2 k v (by rw [hl]) (by rw [hl]; exact hv)
      simp [Machine.exchange, this]
    | succ j =>
      have := ih (h.at_xfer o) (k + 1) _ hl2 j v (by simp at hj; omega) (by rw [show k + 1 + j = k + (j + 1) by omega]; exact hv)
      simpa [Machine.exchange] using this

theorem AtRest.at_readBytes {s d ce} (h : AtRest s d ce) (n : Nat) : AtRest (readBytes n s).2 d ce := by
  induction n generalizing s with
  | zero => exact h
  | succ n ih => exact ih (h.at_draw.at_xfer _)

theorem AtRest.readBytes_fst {s d ce} (h : AtRest s d ce) (n : Nat) (k : Nat) (c : Byte) (ds : List Byte)
    (hl : s.link = { inTxn := true, idx := k + 1, cmd := c, data := ds }) :
    ∀ j v, j < n → d.miso c (k + j) = some v → (readBytes n s).1[j]? = some v := by
  induction n generalizing s k ds with
  | zero => intro j v hj; simp at hj
  | succ n ih =>
    intro j v hj hv
    have hl2 : (Machine.xfer (Machine.draw s).1 (Machine.draw s).2).2.link = { inTxn := true, idx := k + 1 + 1, cmd := c, data := ds ++ [(Machine.draw s).1] } := by
      rw [xfer_link]; show takeLink _ s.link = _; rw [hl]; simp [takeLink]
    have hl1 : (Machine.draw s).2.link = s.link := rfl
    cases j with
    | zero =>
      have := (h.at_draw.xfer_fst (Machine.draw s).1 (by rw [hl1, hl])).2 k v (by rw [hl1, hl]) (by rw [hl1, hl]; exact hv)
      show some _ = some v
      rw [this]
    | succ j =>
      have := ih (h.at_draw.at_xfer _) (k + 1) _ hl2 j v (by omega) (by rw [show k + 1 + j = k + (j + 1) by omega]; exact hv)
      simpa only [Machine.readBytes, List.getElem?_cons_succ] using this

theorem AtRest.at_open {s d ce} (h : AtRest s d ce) (c : Byte) : AtRest (openWindow c s) d ce ∧ (openWindow
    c s).regs.status = d.statusByte := by
  refine ⟨(h.setCsn_false.at_xfer c).congr rfl rfl rfl rfl, ?_⟩
  show (Machine.xfer c (setCsn false s)).1 = _
  exact (h.setCsn_false.xfer_fst c (by rw [setCsn_false_link])).1 (by rw [setCsn_false_link])

/-- After a window: the device is `d'`, IRQ is its output, and STATUS was that of `d`. -/
structure AfterWindow (s t : State) (d d' : RefDev) (ce : Bool) : Prop where
  ref : AtRest t d' ce
  irq : t.pins.irq = d'.irqOut
  status : t.regs.status = d.statusByte

/-- A window with given MOSI bytes. -/
theorem AtRest.at_burst {s d ce} (h : AtRest s d ce) (c : Byte) (out : List Byte) :
    AfterWindow s (burstTx c out s).2 d ((d.commit c out (out.length + 1)).settle ce) ce ∧
    (∀ j v, j < out.length → d.miso c j = some v → (burstTx c out s).1[j]? = some v) := by
  obtain ⟨h1, h2⟩ := h.at_open c
  have hl := exchange_link out (Machine.openWindow c s) 0 c [] (openWindow_link c s)
  have h3 := (h1.at_exchange out).setCsn_true _ _ _ hl
  rw [show 0 + 1 + out.length = out.length + 1 by omega, List.nil_append] at h3
  refine ⟨⟨h3.1, h3.2, ?_⟩, ?_⟩
  · show (setCsn true _).regs.status = _
    rw [setCsn_regs, exchange_regs, h2]
  · intro j v hj hv
    exact h1.exchange_fst out 0 c [] (openWindow_link c s) j v hj (by simpa using hv)

theorem AtRest.at_write {s d ce} (h : AtRest s d ce) (c : Byte) (out : List Byte) :
    AfterWindow s (writeTx c out s) d ((d.commit c out (out.length + 1)).settle ce) ce := (h.at_burst c out).1

theorem commit_read (d : RefDev) (c : Byte) (fill fill' : List Byte) (n : Nat) (h1 : isWriteCmd c = false) (h2 :
    isAckCmd c = false) (h3 : c ≠ 0xA0) (h4 : c ≠ 0xB0) : d.commit c fill n = d.commit c fill' n := by
  simp only [RefDev.commit, h1, h2, if_neg h3, if_neg h4, Bool.false_eq_true, if_false]

/-- A window that reads. -/
theorem AtRest.at_read {s d ce} (h : AtRest s d ce) (c : Byte) (n : Nat) (h1 : isWriteCmd c = false) (h2 :
    isAckCmd c = false) (h3 : c ≠ 0xA0) (h4 : c ≠ 0xB0) :
    AfterWindow s (readTx c n s).2 d ((d.commit c [] (n + 1)).settle ce) ce ∧
    (∀ j v, j < n → d.miso c j = some v → (readTx c n s).1[j]? = some v) := by
  obtain ⟨g1, g2⟩ := h.at_open c
  obtain ⟨fill, hf, -, hl⟩ := readBytes_link n (Machine.openWindow c s) 0 c [] (openWindow_link c s)
  have g3 := (g1.at_readBytes n).setCsn_true _ _ _ hl
  rw [show 0 + 1 + n = n + 1 by omega, commit_read d c _ [] _ h1 h2 h3 h4] at g3
  refine ⟨⟨g3.1, g3.2, ?_⟩, ?_⟩
  · show (setCsn true _).regs.status = _
    rw [setCsn_regs, readBytes_regs, g2]
  · intro j v hj hv
    exact g1.readBytes_fst n 0 c [] (openWindow_link c s) j v hj (by simpa using hv)

theorem quiet_atRest {s : State} (h : QuietReference s) : AtRest s s.ref s.pins.ce.isHigh :=
  ⟨h.model, h.env, rfl, rfl, h.rest, h.held⟩

theorem quiet_begin {s : State} (i : Instr) (h : QuietReference s) : AtRest (begin i s) s.ref s.pins.ce.isHigh :=
  (quiet_atRest h).congr rfl rfl rfl rfl

theorem readCmd_props (addr : Nat) : isWriteCmd (cmdReg opRead (maskAddr addr)) = false ∧ isAckCmd (cmdReg opRead
    (maskAddr addr)) = false ∧ cmdReg opRead (maskAddr addr) ≠ 0xA0 ∧ cmdReg opRead (maskAddr addr) ≠ 0xB0 ∧
   isReadCmd (cmdReg opRead (maskAddr addr)) = true ∧ cmdAddr (cmdReg opRead (maskAddr addr)) = BitVec.ofNat 5 addr ∧
       ∀ (d : RefDev) n, d.commit (cmdReg opRead (maskAddr addr)) [] n = d := by
  have e : maskAddr addr = BitVec.ofNat 5 addr := rfl
  rw [e]
  generalize BitVec.ofNat 5 addr = a
  have h : ∀ a : BitVec 5, isWriteCmd (cmdReg opRead a) = false ∧ isAckCmd (cmdReg opRead a) = false ∧ cmdReg opRead
      a ≠ 0xA0 ∧ cmdReg opRead a ≠ 0xB0 ∧
   isReadCmd (cmdReg opRead a) = true ∧ cmdAddr (cmdReg opRead a) = a ∧ cmdReg opRead a ≠ 0x61 ∧ cmdReg opRead a ≠ 0xE1 ∧ cmdReg opRead a ≠ 0xE2 ∧ cmdReg opRead a ≠ 0xE3 := by decide
  obtain ⟨h1,h2,h3,h4,h5,h6,h7,h8,h9,h10⟩ := h a
  refine ⟨h1,h2,h3,h4,h5,h6,?_⟩
  intro d n
  simp only [RefDev.commit, h1, h2, if_neg h3, if_neg h4, if_neg h7, if_neg h8, if_neg h9, if_neg h10,
      Bool.false_eq_true, if_false, ite_self]

/-- A register read (R233). -/
theorem AtRest.at_readReg {s d ce} (h : AtRest s d ce) (addr n : Nat) :
    AfterWindow s (readReg addr n s).2 d d ce ∧
    (∀ j v, j < n → d.readReg (BitVec.ofNat 5 addr) j = some v → (readReg addr n s).1[j]? = some v) := by
  obtain ⟨h1,h2,h3,h4,h5,h6,h7⟩ := readCmd_props addr
  have := h.at_read (cmdReg opRead (maskAddr addr)) n h1 h2 h3 h4
  rw [h7, settle_of_rest _ _ h.rest] at this
  refine ⟨this.1, fun j v hj hv => this.2 j v hj ?_⟩
  unfold RefDev.miso; rw [h5, h6]; simpa using hv

theorem AtRest.at_readTmp {s d ce} (h : AtRest s d ce) (addr : Nat) :
    AtRest (readTmp addr s).2 d ce ∧ (∀ v, d.readReg (BitVec.ofNat 5 addr) 0 = some v → (readTmp addr s).1 = v) := by
  obtain ⟨h1, h2⟩ := h.at_readReg addr 1
  refine ⟨h1.ref.congr rfl rfl rfl rfl, ?_⟩
  intro v hv
  have := h2 0 v (by omega) hv
  show (readReg addr 1 s).1.headD 0 = v
  cases hq : (readReg addr 1 s).1 <;> simp_all

theorem writeCmd_props (addr : Nat) (d : RefDev) (data : List Byte) (n : Nat) :
    d.commit (cmdReg opWrite (maskAddr addr)) data (n + 1) = d.writeReg (BitVec.ofNat 5 addr) data := by
  have e : maskAddr addr = BitVec.ofNat 5 addr := rfl
  rw [e]
  generalize BitVec.ofNat 5 addr = a
  have h : ∀ a : BitVec 5, isWriteCmd (cmdReg opWrite a) = true ∧ cmdAddr (cmdReg opWrite a) = a := by decide
  obtain ⟨h1, h2⟩ := h a
  simp [RefDev.commit, h1, h2]

/-- A register write (R234). -/
theorem AtRest.at_writeReg {s d ce} (h : AtRest s d ce) (addr : Nat) (data : List Byte) :
    AfterWindow s (writeReg addr data s) d ((d.writeReg (BitVec.ofNat 5 addr) data).settle ce) ce := by
  have := h.at_write (cmdReg opWrite (maskAddr addr)) data
  rwa [writeCmd_props] at this


end Sys2Proof.Laws
end

