-- ==== Sys2Proof/Machine/Trace.lean ====
section
/-! DEFINITION. The decoder of a wire trace (R101): split it at the CSN edges, read the first byte of each window by
R98 and the rest as its data. -/

namespace Sys2Proof.Machine

/-- The windows of a trace as their exchanges, MOSI and MISO (R95, R101); the second argument is the window that is open, if
one is. R101 ends a window at its CSN rising edge, and does not say what a trace gives that stops inside an open window: here
that window is yielded too, with the exchanges it has so far, as the model's choice (DESIGN CHOICE, log 40). A level written
again inside a window is no edge, and an exchange outside every window is of none. -/
def splitWindows : List Event → Option (List (Byte × Byte)) → List (List (Byte × Byte))
  | [], none => []
  | [], some w => [w]
  | .csn false :: es, none => splitWindows es (some [])
  | .csn false :: es, some w => splitWindows es (some w)
  | .csn true :: es, none => splitWindows es none
  | .csn true :: es, some w => w :: splitWindows es none
  | .x _ _ :: es, none => splitWindows es none
  | .x o i :: es, some w => splitWindows es (some (w ++ [(o, i)]))
  | .ce _ :: es, w => splitWindows es w
  | .wait _ :: es, w => splitWindows es w
  | .irq :: es, w => splitWindows es w

/-- Each window of a trace as the decoder of R98 reads its MOSI bytes (R101), the unfinished last one like a whole one
(DESIGN CHOICE, log 40). -/
def traceCommands (tr : List Event) : List Decoded :=
  (splitWindows tr none).map (fun w => decode (.transaction (w.map Prod.fst)))

end Sys2Proof.Machine
end

