-- ==== Sys2Proof/Tests/Slice0.lean ====
section
/-! SUPPORT. Tests of the model: the encodings written out from the spec's tables, the ill-formed operands, and one step
each on small states, with the results the spec's own vectors give (95_test_vectors.md). -/

namespace Sys2Proof.Tests

open Sys2Proof.Machine

/-! ### Well-formedness refuses what R98, R100 and R103 leave out -/

theorem test_wf_pipe_six : Instr.wellFormed (.wAckPayloadCmd 6 []) = false := by decide
theorem test_wf_burst_short : Instr.wellFormed (.exchangeBurst [0x01] 2) = false := by decide
theorem test_wf_write_short : Instr.wellFormed (.writeRegister 0x10 [0x01, 0x02] 5) = false := by decide
theorem test_wf_payload_short : Instr.wellFormed (.writeTxPayload [] 1) = false := by decide
theorem test_wf_noack_short : Instr.wellFormed (.writeTxPayloadNoAck [] 1) = false := by decide
theorem test_wf_ack_short : Instr.wellFormed (.writeAckPayload [] 1) = false := by decide
theorem test_wf_message_long : Instr.wellFormed (.sendMessage (List.replicate 33 0)) = false := by decide
theorem test_wf_message_full : Instr.wellFormed (.sendMessage (List.replicate 32 0)) = true := by decide

/-! ### Decoding: the words of R98 and R102 and of vector V46 -/

theorem test_dec_rRegister : decode (.transaction [0b00010111]) = .instr (.rRegisterCmd 0x17 []) := by decide
theorem test_dec_rRegister_a : decode (.transaction [0b00001010, 9]) = .instr (.rRegisterCmd 0x0A [9]) := by decide
theorem test_dec_wRegister : decode (.transaction [0b00111101, 5]) = .instr (.wRegisterCmd 0x1D [5]) := by decide
theorem test_dec_activate : decode (.transaction [0b01010000, 0x73]) = .instr (.activateCmd [0x73]) := by decide
theorem test_dec_rRxPlWid : decode (.transaction [0b01100000, 0]) = .instr (.rRxPlWidCmd [0]) := by decide
theorem test_dec_rRxPayload : decode (.transaction [0b01100001]) = .instr (.rRxPayloadCmd []) := by decide
theorem test_dec_wTxPayload : decode (.transaction [0b10100000, 1]) = .instr (.wTxPayloadCmd [1]) := by decide
theorem test_dec_wAckPayload : decode (.transaction [0b10101001, 1]) = .instr (.wAckPayloadCmd 1 [1]) := by decide
theorem test_dec_wTxNoAck : decode (.transaction [0b10110000, 1]) = .instr (.wTxPayloadNoAckCmd [1]) := by decide
theorem test_dec_flushTxCmd : decode (.transaction [0b11100001]) = .instr (.flushTxCmd []) := by decide
theorem test_dec_flushRxCmd : decode (.transaction [0b11100010]) = .instr (.flushRxCmd []) := by decide
theorem test_dec_reuseTxPl : decode (.transaction [0b11100011]) = .instr (.reuseTxPlCmd []) := by decide
theorem test_dec_nopCmd : decode (.transaction [0b11111111]) = .instr (.nopCmd []) := by decide
theorem test_dec_reserved : decode (.transaction [0x62, 1]) = .reservedCommand 0x62 [1] := by decide
theorem test_dec_reserved_pipe : decode (.transaction [0xAE]) = .reservedCommand 0xAE [] := by decide
theorem test_dec_exchangeByte : decode (.request 0x01 { out := 7 }) = .instr (.exchangeByte 7) := by decide
theorem test_dec_exchangeBurst : decode (.request 0x02 { buf := [7], n := 1 }) = .instr (.exchangeBurst [7] 1) := by decide
theorem test_dec_readRegister : decode (.request 0x10 { addr := 0x61, n := 1 }) = .instr (.readRegister 0x61 1) := by decide
theorem test_dec_writeRegister :
    decode (.request 0x11 { addr := 7, buf := [0x70], n := 1 }) = .instr (.writeRegister 7 [0x70] 1) := by decide
theorem test_dec_flushTx : decode (.request 0x12 {}) = .instr .flushTx := by decide
theorem test_dec_flushRx : decode (.request 0x13 {}) = .instr .flushRx := by decide
theorem test_dec_readRxPayload : decode (.request 0x14 { n := 3 }) = .instr (.readRxPayload 3) := by decide
theorem test_dec_writeTxPayload : decode (.request 0x15 { buf := [7], n := 1 }) = .instr (.writeTxPayload [7] 1) := by decide
theorem test_dec_writeTxNoAck :
    decode (.request 0x16 { buf := [7], n := 1 }) = .instr (.writeTxPayloadNoAck [7] 1) := by decide
theorem test_dec_writeAck : decode (.request 0x17 { buf := [7], n := 1 }) = .instr (.writeAckPayload [7] 1) := by decide
theorem test_dec_readWidth : decode (.request 0x18 {}) = .instr .readRxPayloadWidth := by decide
theorem test_dec_activateOp : decode (.request 0x19 {}) = .instr .activate := by decide
theorem test_dec_nop : decode (.request 0x1A {}) = .instr .nop := by decide
theorem test_dec_init : decode (.request 0x20 {}) = .instr .init := by decide
theorem test_dec_powerUp : decode (.request 0x21 {}) = .instr .applyPowerUp := by decide
theorem test_dec_powerDown : decode (.request 0x22 {}) = .instr .applyPowerDown := by decide
theorem test_dec_receiving : decode (.request 0x23 {}) = .instr .applyReceiving := by decide
theorem test_dec_transmitting : decode (.request 0x24 {}) = .instr .applyTransmitting := by decide
theorem test_dec_standbyI : decode (.request 0x25 {}) = .instr .applyStandbyI := by decide
theorem test_dec_standbyII : decode (.request 0x26 {}) = .instr .applyStandbyII := by decide
theorem test_dec_startListening : decode (.request 0x27 {}) = .instr .startListening := by decide
theorem test_dec_sendMessage : decode (.request 0x30 { buf := [0x48] }) = .instr (.sendMessage [0x48]) := by decide
theorem test_dec_readMessage : decode (.request 0x31 {}) = .instr .readMessage := by decide
theorem test_dec_available : decode (.request 0x32 {}) = .instr .available := by decide
theorem test_dec_readPending : decode (.request 0x33 {}) = .instr .readPending := by decide
theorem test_dec_clearPending : decode (.request 0x34 {}) = .instr .clearPending := by decide
/-- Vector V47. -/
theorem test_dec_unknown : decode (.request 0x35 {}) = .unknownOperation 0x35 := by decide

/-- No two rows of one level share a code byte. -/
theorem test_rows_disjoint :
    wireRows.Pairwise (fun r q => r.pattern &&& q.mask ≠ q.pattern ∧ q.pattern &&& r.mask ≠ r.pattern) ∧
      operationRows.Pairwise (fun r q => r.pattern &&& q.mask ≠ q.pattern) := by decide
theorem test_table_word : decodeTableWord 8 0x0A = some (.rRegisterCmd 0x0A []) ∧
    decodeTableWord 8 0x30 = some (.sendMessage []) := by decide

/-! ### Small states -/

/-- A test on the state an outcome gives. -/
def onNext (o : Host.Outcome State Fault Refusal) (p : State → Bool) : Bool :=
  match o with
  | .next t => p t
  | .fault _ => false
  | .refused _ => false

/-- The fault an outcome is. -/
def faultOf (o : Host.Outcome State Fault Refusal) : Option Fault :=
  match o with
  | .next _ => none
  | .fault f => some f
  | .refused _ => none

/-- The refusal an outcome is. -/
def refusalOf (o : Host.Outcome State Fault Refusal) : Option Refusal :=
  match o with
  | .next _ => none
  | .fault _ => none
  | .refused r => some r

/-- The block initialised, with its bus idle and CE at a level. -/
def ready (ce : Bool) : State :=
  { State.reset with
    initialised := true
    pins := { csn := .driven true, ce := .driven ce, sck := .driven false, mosi := .driven false, miso := false, irq := true }
    intr := { gie := true, intEn := true, edgeLatch := false, irqPrev := true, pending := false, muted := false } }

/-- Under the Oracle, with the answers still to come. -/
def oracle (answers : List Byte) : State := { ready false with oracleMiso := answers }

/-- Under the RegFile device. -/
def store : State := { ready false with params := { deviceModel := .regFile } }

/-- The device settings after the default `init` (R313). -/
def initRegs : DevRegs :=
  { DevRegs.reset with
    config := 0x3F, enAa := 0x00, enRxaddr := 0x01, setupRetr := 0xF1, rfCh := 0x76, dynpd := 0x3F, feature := 0x05 }

/-- "Listening" of 95_test_vectors.md. -/
def listening : State :=
  { ready true with
    params := { deviceModel := .reference }
    ref := { RefDev.reset with regs := initRegs, mode := .rxMode, now := 1000 } }

/-- Listening, with one payload of pipe 0 received. -/
def received (p : List Byte) : State :=
  { listening with
    pins := { listening.pins with irq := false }
    intr := { listening.intr with irqPrev := false }
    ref := { listening.ref with regs := { initRegs with rxDr := true }, rxFifo := [{ payload := p, pipe := 0 }] } }

/-- In Standby-I as the Reference device, with a CONFIG byte. -/
def standby (config : Byte) : State :=
  { ready false with
    params := { deviceModel := .reference }
    ref := { RefDev.reset with regs := { initRegs with config := config }, mode := .standbyI, now := 5000 } }

/-! ### Reset and refusals -/

theorem test_reset_status : RefDev.statusByte RefDev.reset = 0x0E ∧ RefDev.fifoStatusByte RefDev.reset = 0x11 := by decide
/-- Vector V11. -/
theorem test_refused_before_init : refusalOf (exec (.exchangeByte 0xFF) State.reset) = some .notInitialised := by decide
/-- Vector V13. -/
theorem test_burst_short : refusalOf (exec (.exchangeBurst [0x01] 2) (ready false)) = some .shortBuffer := by decide
/-- Vector V17. -/
theorem test_write_short : refusalOf (exec (.writeRegister 0x10 [1, 2] 5) (ready false)) = some .shortBuffer := by decide
/-- Vector V39. -/
theorem test_init_channel :
    refusalOf (exec .init { State.reset with cfg := { channel := 126 } }) = some .illFormedConfig := by decide
theorem test_step_unknown :
    refusalOf (step { State.reset with requests := [.request 0x35 {}] }) = some (.unknownOperation 0x35) := by decide

/-! ### Bus transport -/

/-- Vector V12. -/
theorem test_burst : onNext (exec (.exchangeBurst [0x61, 0, 0] 3)
    { oracle [0x0E, 1, 2] with link := { inTxn := true, idx := 0, cmd := 0, data := [] } })
    (fun t => t.result == some (.bytes [0x0E, 1, 2]) &&
      t.trace == [.x 0x61 0x0E, .x 0 1, .x 0 2] && t.pins.csn == .driven true) = true := by decide
/-- Vector V13. -/
theorem test_burst_zero : onNext (exec (.exchangeBurst [5] 0) (ready false))
    (fun t => t.trace == [] && t.result == some (.bytes [5])) = true := by decide
/-- Vector V10. -/
theorem test_xfer_pins : (xfer 0x20 { oracle [0x0E] with link := { inTxn := true, idx := 0, cmd := 0, data := [] } }).1 = 0x0E ∧
    (xfer 0x20 { oracle [0x0E] with link := { inTxn := true, idx := 0, cmd := 0, data := [] } }).2.pins.sck = .driven false := by
  decide

/-! ### Register access and commands -/

/-- Vector V14. -/
theorem test_read_config : onNext (exec (.readRegister 0x00 1) listening)
    (fun t => t.result == some (.statusBytes 0x0E [0x3F])) = true := by decide
/-- Vector V15. -/
theorem test_read_masked : onNext (exec (.readRegister 0x61 1) (oracle [0x0E, 0x55]))
    (fun t => (driven t.trace).take 2 == [.csn false, .mosi 0x01] && t.result == some (.statusBytes 0x0E [0x55])) = true := by
  decide
/-- Vector V1 under RegFile. -/
theorem test_store_write : onNext (exec (.writeRegister 0x05 [0x28] 1) store)
    (fun t => onNext (exec (.readRegister 0x05 1) t) (fun u => u.result == some (.statusBytes 0x00 [0x28]))) = true := by decide
/-- Vector V1 under Reference: the address register. -/
theorem test_write_txAddr : onNext (exec (.writeRegister 0x10 [1, 2, 3, 4, 5] 5) listening)
    (fun t => onNext (exec (.readRegister 0x10 5) t) (fun u => u.result == some (.statusBytes 0x0E [1, 2, 3, 4, 5]))) = true := by
  decide +kernel
/-- Vector V16. -/
theorem test_write_empty : onNext (exec (.writeRegister 0x00 [] 0) listening)
    (fun t => t.trace == [.csn false, .x 0x20 0x0E, .csn true] && t.ref.regs == initRegs) = true := by decide
/-- Vector V18. -/
theorem test_flushTx : onNext (exec .flushTx
    { standby 0x3E with ref := { (standby 0x3E).ref with txFifo := [⟨[1], false, none⟩], reuse := true } })
    (fun t => t.ref.txFifo == [] && !t.ref.reuse && t.trace == [.csn false, .x 0xE1 0x0E, .csn true]) = true := by decide
/-- R141: the flush leaves RX_DR. -/
theorem test_flushRx : onNext (exec .flushRx (received [1, 2]))
    (fun t => t.ref.rxFifo == [] && t.ref.regs.rxDr && t.result == some (.status 0x40)) = true := by decide
/-- Vector V18. -/
theorem test_width : onNext (exec .readRxPayloadWidth (received [1, 2, 3]))
    (fun t => t.result == some (.statusByte 0x40 3)) = true := by decide
/-- Vector V18. -/
theorem test_nop : onNext (exec .nop listening)
    (fun t => t.result == some (.status 0x0E) && t.trace == [.csn false, .x 0xFF 0x0E, .csn true]) = true := by decide
/-- Vector V18. -/
theorem test_activate : onNext (exec .activate listening)
    (fun t => driven t.trace == window [0x50, 0x73] && t.ref == listening.ref) = true := by decide
/-- R238: the head is popped. -/
theorem test_readRxPayload : onNext (exec (.readRxPayload 3) (received [7, 8, 9]))
    (fun t => t.result == some (.statusBytes 0x40 [7, 8, 9]) && t.ref.rxFifo == []) = true := by decide +kernel
/-- Vector V19. -/
theorem test_writeTxPayload : onNext (exec (.writeTxPayload [0x48, 0x69] 2) (standby 0x3E))
    (fun t => driven t.trace == window [0xA0, 0x48, 0x69] && t.ref.txFifo == [⟨[0x48, 0x69], false, none⟩]) = true := by decide
/-- Vector V19. -/
theorem test_writeTxNoAck : onNext (exec (.writeTxPayloadNoAck [0x48] 1) (standby 0x3E))
    (fun t => driven t.trace == window [0xB0, 0x48] && t.ref.txFifo == [⟨[0x48], true, none⟩]) = true := by decide
/-- R241: without EN_ACK_PAY nothing is queued. -/
theorem test_writeAck : onNext (exec (.writeAckPayload [0x41] 1) (standby 0x3E))
    (fun t => driven t.trace == window [0xA8, 0x41] && t.ref.txFifo == []) = true := by decide

/-! ### Wire commands -/

/-- Vector V42. -/
theorem test_wire_clear_flag : onNext (exec (.wRegisterCmd 0x07 [0x20])
    { listening with ref := { listening.ref with regs := { initRegs with rxDr := true, txDs := true, maxRt := true } } })
    (fun t => t.ref.statusByte == 0x5E) = true := by decide
/-- Vector V43. -/
theorem test_wire_write_ro : onNext (exec (.wRegisterCmd 0x17 [0x00]) listening)
    (fun t => t.ref.fifoStatusByte == 0x11) = true := by decide
theorem test_wire_read : onNext (exec (.rRegisterCmd 0x02 [0x99]) listening)
    (fun t => t.trace == [.csn false, .x 0x02 0x0E, .x 0x99 0x01, .csn true]) = true := by decide
theorem test_wire_width : onNext (exec (.rRxPlWidCmd [0]) listening)
    (fun t => t.result == some (.statusBytes 0x0E [0])) = true := by decide
theorem test_wire_payload : onNext (exec (.rRxPayloadCmd [0]) (received [7, 8, 9]))
    (fun t => t.result == some (.statusBytes 0x40 [7]) && t.ref.rxFifo == []) = true := by decide
theorem test_wire_payload_none : onNext (exec (.rRxPayloadCmd []) (received [7])) (fun t => t.ref.rxFifo.length == 1) = true := by
  decide
/-- R239: the 33rd byte is dropped. -/
theorem test_wire_tx33 : onNext (exec (.wTxPayloadCmd (List.replicate 33 1)) (standby 0x3E))
    (fun t => t.ref.txFifo == [⟨List.replicate 32 1, false, none⟩]) = true := by decide +kernel
theorem test_wire_noack_gated : onNext (exec (.wTxPayloadNoAckCmd [1])
    { standby 0x3E with ref := { (standby 0x3E).ref with regs := { initRegs with config := 0x3E, feature := 0x04 } } })
    (fun t => t.ref.txFifo == []) = true := by decide
theorem test_wire_ack : onNext (exec (.wAckPayloadCmd 3 [1])
    { standby 0x3E with ref := { (standby 0x3E).ref with regs := { initRegs with config := 0x3E, feature := 0x02 } } })
    (fun t => t.ref.txFifo == [⟨[1], false, some 3⟩]) = true := by decide
theorem test_wire_reuse : onNext (exec (.reuseTxPlCmd []) listening) (fun t => t.ref.fifoStatusByte == 0x51) = true := by decide
theorem test_wire_flushTx : onNext (exec (.flushTxCmd []) listening) (fun t => t.ref == listening.ref) = true := by decide
theorem test_wire_flushRx : onNext (exec (.flushRxCmd []) (received [1])) (fun t => t.ref.rxFifo == []) = true := by decide
theorem test_wire_activate : onNext (exec (.activateCmd [0x73]) listening) (fun t => t.ref == listening.ref) = true := by decide
theorem test_wire_nop : onNext (exec (.nopCmd []) (ready false)) (fun t => driven t.trace == window [0xFF]) = true := by decide
/-- R25, R323: before `init` a wire command is refused, and so is a window with a reserved byte. -/
theorem test_wire_refused : refusalOf (exec (.nopCmd []) State.reset) = some .notInitialised ∧
    refusalOf (step { State.reset with requests := [.transaction [0x62]] }) = some .notInitialised := by decide
/-- R243: a reserved command byte answers STATUS and does nothing. -/
theorem test_wire_reserved : onNext (step { listening with requests := [.transaction [0x62]] })
    (fun t => t.result == some (.statusBytes 0x0E []) && t.ref == listening.ref) = true := by decide

/-! ### init -/

/-- The state right after reset, under the Reference device. -/
def powerOn : State := { State.reset with params := { deviceModel := .reference } }

/-- Vector V36 without its last two transactions, whose read sends an open byte. -/
theorem test_init_trace : onNext (exec .init powerOn)
    (fun t => (driven t.trace).take 48 ==
      [.ce false, .csn true, .wait 100000] ++ window [0x20, 0x3F] ++ window [0x21, 0x00] ++ window [0x24, 0xF1] ++
        window [0x22, 0x00] ++ window [0x25, 0x76] ++ window [0x26, 0x0E] ++ window [0x27, 0x70] ++ window [0x3C, 0x3F] ++
        window [0x3D, 0x05] ++ window [0xE1] ++ window [0xE2] ++ [.csn false, .mosi 0x2A, .mosi 0xE7]) = true := by
  decide +kernel
/-- R313 and vector V7. -/
theorem test_init_device : onNext (exec .init powerOn)
    (fun t => t.ref.regs == initRegs && t.ref.mode == .startUp && t.initialised && t.intr.gie && t.intr.intEn &&
      t.pins.ce == .driven false && t.pins.csn == .driven true && t.regs.tmp == 0x00) = true := by decide +kernel
/-- Vector V38. -/
theorem test_init_bytes :
    configInit { irqRxEn := true, irqTxEn := true, irqRtEn := true, crcEn := false } = 0x07 ∧
      rfSetupByte { dataRate := .r1M, power := .pMin } = 0x00 ∧ rfSetupByte { dataRate := .r250K, power := .pLow } = 0x22 ∧
      featureByte {} .allOnDyn = 0x07 ∧ featureByte { autoAck := true } .perFlag = 0x07 ∧
      featureByte { dynPayload := false } .perFlag = 0x00 := by decide

/-! ### Radio state machine -/

/-- Vector V40. -/
theorem test_powerUp : onNext (exec .applyPowerUp (oracle [0, 0x3C]))
    (fun t => (driven t.trace).drop 4 == window [0x20, 0x3E] ++ [.wait 2000] && t.lastTarget == some .powerUp) = true := by decide
/-- Vector V2. -/
theorem test_powerUp_twice : onNext (exec .applyPowerUp (oracle [0, 0x3F])) (fun t => (driven t.trace).length == 4) = true := by
  decide
/-- Vector V40. -/
theorem test_powerDown : onNext (exec .applyPowerDown (standby 0x3F))
    (fun t => t.ref.regs.config == 0x3D && t.ref.mode == .powerDown) = true := by decide +kernel
/-- Vector V40. -/
theorem test_receiving : onNext (exec .applyReceiving (oracle [0, 0x3E]))
    (fun t => (driven t.trace).drop 4 == window [0x20, 0x3F] ++ window [0x27, 0x70]) = true := by decide +kernel
/-- Vector V40 and R254: RxMode is left for Standby-II. -/
theorem test_transmitting : onNext (exec .applyTransmitting listening)
    (fun t => t.ref.regs.config == 0x3E && t.ref.mode == .standbyII) = true := by decide +kernel
/-- Vector V40. -/
theorem test_standbyI : onNext (exec .applyStandbyI listening)
    (fun t => (driven t.trace).drop 4 == [.ce false] && t.ref.mode == .standbyI) = true := by decide
/-- Vector V40. -/
theorem test_standbyII : onNext (exec .applyStandbyII (standby 0x3F))
    (fun t => (driven t.trace).drop 4 == window [0x20, 0x3E] ++ [.ce true, .wait 150] && t.ref.mode == .standbyII) = true := by
  decide +kernel
/-- Vector V41. -/
theorem test_startListening : onNext (exec .startListening (standby 0x3E))
    (fun t => (driven t.trace).drop 4 == window [0x20, 0x3F] ++ window [0x27, 0x70] ++ [.ce true, .wait 150] &&
      t.ref.mode == .rxMode && t.ref.listening) = true := by decide +kernel

/-! ### Link protocol -/

/-- Vector V22. -/
theorem test_send_long : onNext (exec (.sendMessage (List.replicate 33 0)) listening)
    (fun t => t.trace == [] && t.result == some (.err (.payloadTooLarge 33))) = true := by decide
/-- Vector V20: the first poll still sees 0x0E, and the packet is on air. -/
theorem test_send_first_poll : onNext (exec (.sendMessage [0x48, 0x69]) listening)
    (fun t => t.op == some (.sendMessage [0x48, 0x69]) && t.ref.mode == .txMode &&
      t.ref.txFifo == [⟨[0x48, 0x69, 0x00], true, none⟩] && t.ref.regs.config == 0x7E) = true := by decide +kernel
/-- The state V20 stands in while it polls, once the TX has settled. -/
def polling : State :=
  { listening with
    op := some (.sendMessage [0x48, 0x69])
    pins := { listening.pins with ce := .driven false }
    ref := { listening.ref with
      regs := { initRegs with config := 0x7E }, mode := .txMode, now := 2000, tMark := 1000
      txFifo := [⟨[0x48, 0x69, 0x00], true, none⟩], onAir := some ⟨[0x48, 0x69, 0x00], true, none⟩, airQueued := true } }
/-- Vector V20: `tx_ok` before the next poll ends the send. -/
theorem test_send_done : onNext (step { polling with env := [[.world (.txOk 0 none)]] })
    (fun t => t.result == some .sent && t.op == none && t.ref.regs.config == 0x3F && t.ref.statusByte == 0x0E &&
      t.ref.txFifo == [] && t.ref.mode == .rxMode && t.pins.ce == .driven true && !t.intr.pending && t.pins.irq) = true := by
  decide +kernel
/-- The same send with the packet to be acknowledged. -/
def pollingAcked : State :=
  { polling with
    intr := { polling.intr with muted := true }
    ref := { polling.ref with
      regs := { initRegs with config := 0x7E, enAa := 0x3F }
      txFifo := [⟨[0x48, 0x69, 0x00], false, none⟩], onAir := some ⟨[0x48, 0x69, 0x00], false, none⟩ } }
/-- The same under the wider reading of R204 (e) (log 35). -/
def pollingSpared : State := { pollingAcked with params := { pollingAcked.params with sendUnmask := .spared } }
/-- R204 (e), V45: an ACK payload received while RX_DR is masked raises no edge, and stays in the RX FIFO. -/
theorem test_send_ack_masked : let t := applyWorld pollingAcked (.txOk 0 (some [9]))
    t.ref.regs.rxDr = true ∧ t.pins.irq = true ∧ t.intr.edgeLatch = false ∧ t.ref.rxFifo = [⟨[9], 0⟩] := by decide
/-- R260, R280: clearing the mask bit while its flag is 1 is a falling edge. -/
theorem test_send_ack_payload : onNext (step { pollingAcked with env := [[.world (.txOk 0 (some [9]))]] })
    (fun t => t.result == some .sent && t.ref.rxFifo == [⟨[9], 0⟩] && !t.ref.regs.rxDr && t.intr.pending && t.pins.irq &&
      irqMarks t.trace == 1) = true := by decide +kernel
/-- Under the wider reading that edge is not taken. -/
theorem test_send_ack_payload_spared : onNext (step { pollingSpared with env := [[.world (.txOk 0 (some [9]))]] })
    (fun t => t.result == some .sent && t.ref.rxFifo == [⟨[9], 0⟩] && !t.ref.regs.rxDr && !t.intr.pending &&
      !t.intr.edgeLatch && t.pins.irq && !t.intr.muted && irqMarks t.trace == 0) = true := by decide +kernel
/-- R55, R260: the pin follows the flags and the masks under either reading. -/
theorem test_pin_unmasked : ([pollingAcked, pollingSpared] : List State).all (fun s =>
    let u := writeReg 0x00 [0x3E] { s with ref := { s.ref with regs := { s.ref.regs with rxDr := true } } }
    !u.pins.irq && !u.intr.irqPrev && u.intr.edgeLatch == (s.params.sendUnmask == .taken)) = true := by decide +kernel
/-- R201, R260: an RX_DR that stood before step 3 masked it is an edge at step 7. -/
theorem test_send_rxDr_before : onNext (exec (.sendMessage [0x48]) (received [7]))
    (fun t => !t.intr.muted && t.pins.irq && onNext (step (applyWorld (applyWorld t (.elapse 130)) (.txOk 0 none)))
      (fun u => u.result == some .sent && u.intr.pending && u.ref.rxFifo == [] && !u.ref.regs.rxDr && u.pins.irq)) = true := by
  decide +kernel
/-- Vector V26. -/
theorem test_send_bound : onNext (step { polling with
      params := { pollBound := some 2 }
      oracleMiso := [0, 0x0E, 0, 0x7E]
      regs := { polling.regs with pollCount := 1 } }) (fun t => t.result == some (.err (.radioNotResponding 2))) = true := by
  decide +kernel
/-- Vector V25: the decision. -/
theorem test_poll_decision : pollDecision { checkMaxRt := true } 0x1E 1 = .leave (.err .maxRetransmitExceeded) ∧
    pollDecision {} 0x1E 1 = .again ∧ pollDecision { checkMaxRt := true } 0x3E 1 = .leave .sent := by decide
/-- Vector V29. -/
theorem test_read_message : onNext (exec .readMessage (received [0x48, 0x69, 0x00]))
    (fun t => t.result == some (.message [0x48, 0x69, 0x00]) && t.regs.len == 3 && !t.ref.regs.rxDr &&
      t.regs.rxbuf.toList.take 4 == [0x40, 0x48, 0x69, 0x00] && t.ref.rxFifo == [] && t.pins.irq) = true := by decide +kernel
/-- Vector V31: the fault comes after the width read, whose events stand. -/
theorem test_read_overflow : onNext (exec .readMessage (oracle [0x40, 0x21]))
    (fun t => t.result == some (.fault (.rxWidthOverflow 33)) && t.op == some .readMessage && t.regs.len == 33 &&
      (driven t.trace).length == 4) = true := by decide
/-- R292: the notifier still takes an edge after the fault; with nothing left to happen, the machine stops with it. -/
theorem test_read_stopped : onNext (exec .readMessage (oracle [0x40, 0x21]))
    (fun t => onNext (step { t with env := [[.world (.irqLevel false), .notify []]] })
      (fun u => u.intr.pending && u.result == some (.fault (.rxWidthOverflow 33)) &&
        faultOf (step u) == some (.rxWidthOverflow 33))) = true := by decide
/-- Vector V4. -/
theorem test_read_empty : onNext (exec .readMessage (oracle [0x0E, 0x00]))
    (fun t => t.result == some .failure && (driven t.trace).drop 4 == window [0x27, 0x40]) = true := by decide
/-- Vector V33. -/
theorem test_read_then_burst : onNext (exec .readMessage { received [0x48, 0x69, 0x00] with
    params := { deviceModel := .reference, rxReadFraming := .commandThenBurst } })
    (fun t => t.result == some (.message [0x48, 0x69, 0x00])) = true := by decide +kernel
theorem test_text : textOf [0x48, 0x69, 0x00, 0x41] = [0x48, 0x69] := by decide
/-- Vector V34. -/
theorem test_available : onNext (exec .available (received [1])) (fun t => t.result == some (.flag true)) = true ∧
    onNext (exec .available (oracle [0x0E, 0x13])) (fun t => t.result == some (.flag false)) = true := by decide
/-- Vector V35. -/
theorem test_readPending : onNext (exec .readPending { ready false with intr := { (ready false).intr with pending := true } })
    (fun t => t.result == some (.flag true) && t.trace == []) = true := by decide
/-- Vector V35. -/
theorem test_clearPending : onNext (exec .clearPending { ready false with intr := { (ready false).intr with pending := true } })
    (fun t => !t.intr.pending && t.trace == []) = true := by decide

/-- R101 on the trace of vector V41: the windows read back as their commands. -/
theorem test_trace_commands :
    traceCommands [.csn false, .x 0x20 0x0E, .x 0x3F 0, .csn true, .irq, .csn false, .x 0xE1 0x0E, .csn true, .ce true] =
      [.instr (.wRegisterCmd 0x00 [0x3F]), .instr (.flushTxCmd [])] := by decide

/-! ### Interrupt, device and air -/

/-- Vector V6. -/
theorem test_notifier : onNext (step { oracle [] with env := [[.world (.irqLevel false), .notify []]] })
    (fun t => t.intr.pending && !t.intr.edgeLatch && t.intr.gie && t.trace == [.irq]) = true := by decide
/-- Vector V45: a received packet pulls IRQ low. -/
theorem test_rx_irq : onNext (step { listening with env := [[.world (.rx 0 [0x48, 0x69, 0x00] false), .notify []]] })
    (fun t => t.ref.statusByte == 0x40 && !t.pins.irq && t.intr.pending && t.ref.fifoStatusByte == 0x10) = true := by decide
/-- Vector V44. -/
theorem test_tx_full : RefDev.fifoStatusByte ((((RefDev.reset.queueTx [1, 2] false).queueTx [3] false).queueTx [4] false).queueTx [5] false) =
    0x21 := by decide
/-- Vector V25: MAX_RT after `tx_fail`. -/
theorem test_tx_fail : RefDev.statusByte (RefDev.txFail { polling.ref with
    regs := { polling.ref.regs with enAa := 0x3F }, onAir := some ⟨[1], false, none⟩ } false) = 0x1E := by decide
/-- R78, R283: the notifier runs between two bits of an exchange, and the byte goes on. -/
theorem test_notifier_between_bits : let r := xfer 0x20 { oracle [0x0E] with
      link := { inTxn := true, idx := 0, cmd := 0, data := [] }, env := [[], [], [], [.world (.irqLevel false), .notify []]] }
    r.1 = 0x0E ∧ r.2.trace = [.irq, .x 0x20 0x0E] ∧ r.2.intr.pending = true := by decide
/-- R283: the notifier runs inside a wait. -/
theorem test_notifier_in_wait :
    (waitFor 150 { oracle [] with env := [[], [.world (.irqLevel false), .notify []]] }).trace = [.irq, .wait 150] := by decide
/-- R284: an edge that arrives while the notifier runs is latched again. -/
theorem test_nested_edge :
    let t := notify [.irqLevel true, .irqLevel false] { oracle [] with intr := { (oracle []).intr with edgeLatch := true } }
    t.intr.edgeLatch = true ∧ t.intr.pending = true ∧ t.trace = [.irq] := by decide
/-- R248: the end of the start-up is put off, until CE rises. -/
theorem test_startUp_held : onNext (step { standby 0x3E with
      ref := { (standby 0x3E).ref with mode := .startUp, tMark := 4000 }
      env := [[.world .hold, .world (.elapse 1000)], []] })
    (fun t => t.ref.mode == .startUp && t.ref.now == 6000 && (setCe true t).ref.mode == .standbyII) = true := by decide
/-- R44: pipe 3 takes its low byte from its own register and the others from RX_ADDR_P1. -/
theorem test_pipe_address : DevRegs.reset.pipeAddr 3 = 0xC2C2C2C2C4 ∧ DevRegs.reset.pipeAddr 1 = 0xC2C2C2C2C2 := by decide
/-- R262: a packet on air reaches the other node, V5 at L = 1. -/
theorem test_loopback :
    (deliver 0 { a := { polling with ref := { polling.ref with onAir := some ⟨[0x41, 0x00], true, none⟩ } }, b := listening }).b.ref.rxFifo =
      [⟨[0x41, 0x00], 0⟩] := by decide

/-! ### Witnesses: states and operands that meet the hypotheses of the obligations

One per statement that has hypotheses; where it has several clauses, each clause at a value where its range ends. -/

/-- A Reference device at a mode, with its CONFIG byte, `us` µs after the mark. -/
def device (config : Byte) (mode : DevMode) (us : Nat) : RefDev :=
  { RefDev.reset with regs := { initRegs with config := config }, mode := mode, now := 5000 + us, tMark := 5000 }

/-- A TX entry. -/
def entry (noAck : Bool) : TxEntry := { payload := [7], noAck := noAck, ackPipe := none }

/-- A device in TxMode with a packet on air, `us` µs after the mark. -/
def onAir (noAck : Bool) (enAa : Byte) (us : Nat) : RefDev :=
  { device 0x3E .txMode us with
    regs := { initRegs with config := 0x3E, enAa := enAa }, txFifo := [entry noAck], onAir := some (entry noAck)
    airQueued := true }

theorem quiet_listening : QuietReference listening := ⟨rfl, rfl, rfl, by decide⟩
theorem quiet_received : QuietReference (received [7]) := ⟨rfl, rfl, rfl, by decide⟩
theorem quiet_standby : QuietReference (standby 0x3E) := ⟨rfl, rfl, rfl, by decide⟩

theorem witness_DecodeOfEncode : Instr.wellFormed (.wAckPayloadCmd 5 [0x41]) = true ∧
    Instr.wellFormed (.sendMessage (List.replicate 32 1)) = true := by decide
theorem witness_EncodeOfDecodedWindow : decode (.transaction [0xAD]) = .instr (.wAckPayloadCmd 5 []) := by decide
theorem witness_ReservedCommandBytes :
    ([0x40, 0x4F, 0x51, 0x5F, 0x62, 0x9F, 0xA1, 0xA7, 0xAE, 0xAF, 0xB1, 0xE0, 0xE4, 0xFE] : List Byte).all reservedByte = true ∧
      ([0x00, 0x3F, 0x50, 0x60, 0x61, 0xA0, 0xA8, 0xAD, 0xB0, 0xE1, 0xE3, 0xFF] : List Byte).all (fun c => !reservedByte c) =
        true := by decide
theorem witness_StepRunsDecodedInstruction :
    State.reset.op = none ∧ decode (.request 0x20 {}) = .instr .init ∧ decodeTableWord 8 0xFF = some (.nopCmd []) := by decide
theorem witness_StepWithoutInstruction :
    ([0x00, 0x03, 0x0F, 0x1B, 0x1F, 0x28, 0x2F, 0x35, 0xFF] : List Byte).all (fun b => !selectors.contains b) = true ∧
      listening.op = none ∧ listening.requests = [] ∧ listening.initialised = true ∧ reservedByte 0x62 = true := by decide
theorem witness_NotInitialisedRefused : State.reset.initialised = false ∧ State.reset.op = none ∧
    Instr.nopCmd [] ≠ .init ∧ Instr.clearPending ≠ .init ∧ cfgWellFormed State.reset.cfg = true := by decide
theorem witness_ShortBufferRefused : (ready false).initialised = true ∧ ([0x01] : List Byte).length < 2 := by decide
theorem witness_IllFormedConfigRefused : cfgWellFormed { channel := 126 } = false ∧ cfgWellFormed { channel := 125 } = true ∧
    cfgWellFormed { autoAck := true, txAddr := ⟨1, 1, 1, 1, 1⟩, rxAddr := ⟨2, 1, 1, 1, 1⟩ } = false := by decide
theorem witness_PayloadTooLargeReturned : (ready false).initialised = true ∧ 32 < (List.replicate 33 (0 : Byte)).length := by
  decide
theorem witness_WireCommandsRun : (ready false).initialised = true ∧ encode (.nopCmd []) = .transaction [0xFF] ∧
    encode (.wRegisterCmd 0x1F [1]) = .transaction [0x3F, 1] := by decide
theorem witness_RegisterWriteEffect : Memory.wf store.regFile = true ∧ store.initialised = true ∧
    5 ≤ ([1, 2, 3, 4, 5] : List Byte).length ∧ 0 ≤ ([] : List Byte).length := by decide
theorem witness_ExchangeByteRuns : (ready false).initialised = true := by decide
theorem witness_ExchangeBurstRuns : (ready false).initialised = true ∧ 1 ≤ ([0x61] : List Byte).length ∧
    0 ≤ ([] : List Byte).length := by decide
theorem witness_ReadTransactionsRun : (oracle [0x0E, 0x55]).initialised = true := by decide
theorem witness_SpecialCommandsRun : (ready false).initialised = true ∧ 2 ≤ ([1, 2] : List Byte).length := by decide
theorem witness_WriteRegisterRuns : (ready true).initialised = true ∧ 1 ≤ ([0x70] : List Byte).length := by decide
theorem witness_InitRuns : cfgWellFormed State.reset.cfg = true ∧ cfgWellFormed { channel := 125 } = true := by decide
theorem witness_ApplyStateRuns : listening.initialised = true := by decide
theorem witness_StartListeningRuns : (standby 0x3E).initialised = true := by decide
theorem witness_AvailableRuns : (received [1]).initialised = true := by decide
theorem witness_PendingOperations : (ready false).initialised = true := by decide
theorem witness_PollDecisionOrder :
    (0x20 : Byte).getLsbD 5 = true ∧ (0x10 : Byte).getLsbD 5 = false ∧
      (({ checkMaxRt := true } : Params).checkMaxRt && (0x10 : Byte).getLsbD 4) = true ∧
      (({} : Params).checkMaxRt && (0x10 : Byte).getLsbD 4) = false ∧ ({} : Params).pollBound = none ∧
      ({ pollBound := some 3 } : Params).pollBound = some 3 := by decide
theorem witness_SendMessagePolls : listening.initialised = true ∧ (List.replicate 32 (1 : Byte)).length ≤ 32 ∧
    polling.op = some (.sendMessage [0x48, 0x69]) := by decide
theorem witness_SendMessageCompletes :
    (oracle (List.replicate 15 0 ++ [0x2E])).initialised = true ∧
      (oracle (List.replicate 15 0 ++ [0x2E])).params.deviceModel = .oracle ∧
      (oracle (List.replicate 15 0 ++ [0x2E])).oracleMiso[15 + ([] : List Byte).length]? = some 0x2E ∧
      pollDecision {} 0x2E 1 = .leave .sent ∧
      (oracle (List.replicate 47 0 ++ [0x2E])).oracleMiso[15 + (List.replicate 32 (1 : Byte)).length]? = some 0x2E := by
  decide
theorem witness_BoundedPollEnds :
    ({ polling with params := { pollBound := some 2 } } : State).params.pollBound = some 2 ∧
      ({ polling with params := { pollBound := some 0 } } : State).op = some (.sendMessage [0x48, 0x69]) := by decide
theorem witness_UnboundedPollHangs :
    ({ store with op := some (.sendMessage []) } : State).op = some (.sendMessage []) ∧ store.params.pollBound = none ∧
      store.params.deviceModel = .regFile ∧ (Memory.read store.regFile 35).getLsbD 5 = false ∧
      (store.params.checkMaxRt && (Memory.read store.regFile 35).getLsbD 4) = false := by decide
/-- The last clause: with MAX_RT standing and not checked (R259), and with a payload that was ignored (R240). -/
theorem witness_UnboundedPollHangs_reference :
    ([{ polling with ref := { device 0x7E .standbyI 0 with
          regs := { initRegs with config := 0x7E, maxRt := true }, txFifo := [entry false] } },
      { polling with ref := device 0x7E .standbyII 0 }] : List State).all (fun s =>
        s.op == some (.sendMessage [0x48, 0x69]) && s.params.pollBound == none && s.params.deviceModel == .reference &&
          decide (FifosOk s.ref) && !s.ref.regs.txDs && !s.ref.regs.primRx && s.ref.mode != .txMode &&
          s.ref.mode != .rxMode && (s.ref.txFifo.isEmpty || s.ref.regs.maxRt) &&
          !(s.params.checkMaxRt && s.ref.regs.maxRt)) = true := by decide

/-- The send of V20 once its packet was delivered. -/
def delivered : State :=
  { polling with
    pins := { polling.pins with irq := false }
    ref := { device 0x7E .standbyI 0 with regs := { initRegs with config := 0x7E, txDs := true } } }

theorem witness_SendLeavesReceiving : delivered.op = some (.sendMessage [0x48, 0x69]) ∧ QuietReference delivered ∧
    delivered.ref.regs.txDs = true ∧ delivered.ref.regs.pwrUp = true ∧ delivered.ref.mode ≠ .startUp :=
  ⟨rfl, ⟨rfl, rfl, rfl, by decide⟩, by decide, by decide, by decide⟩
/-- The same with RX_DR set, by an ACK payload during the send or before it, and what is made of the edge. -/
def deliveredRx (u : SendUnmask) (muted : Bool) : State :=
  { polling with
    params := { polling.params with sendUnmask := u }
    intr := { polling.intr with muted := muted }
    ref := { device 0x7E .standbyI 0 with
      regs := { initRegs with config := 0x7E, txDs := true, rxDr := true }, rxFifo := [⟨[9], 0⟩] } }
/-- The clauses on the interrupt: with TX_DS masked, as after the default `init`, no edge came yet. -/
theorem witness_SendLeavesReceiving_edges :
    ([(.spared, true), (.spared, false), (.taken, true)] : List (SendUnmask × Bool)).all (fun q =>
      let s := deliveredRx q.1 q.2
      s.op == some (.sendMessage [0x48, 0x69]) && s.params.deviceModel == .reference && s.env == [] && !s.ref.held &&
        decide (InterruptOk s) && (s.ref.modeRule s.pins.ce.isHigh).isNone && !s.intr.edgeLatch && s.intr.intEn &&
        s.pins.irq && onNext (step s) (fun t =>
          t.intr.pending == !(q.1 == .spared && q.2) && t.ref.rxFifo == [⟨[9], 0⟩])) = true := by
  decide +kernel
theorem witness_ReadMessageInBurst : listening.initialised = true ∧ listening.params.rxReadFraming = .commandInBurst ∧
    onNext (exec .readMessage (oracle [0x40, 0x20])) (fun t => t.regs.len == 32) = true ∧
    onNext (exec .readMessage (oracle [0x40, 0x21])) (fun t => t.regs.len == 33) = true := by decide +kernel
theorem witness_ReadMessageThenBurst :
    ({ (oracle [0x40, 0x20]) with params := { rxReadFraming := .commandThenBurst } } : State).initialised = true ∧
      onNext (exec .readMessage { oracle [0x40, 0x20] with params := { rxReadFraming := .commandThenBurst } })
        (fun t => t.regs.len == 32) = true ∧
      onNext (exec .readMessage { oracle [0x40, 0x21] with params := { rxReadFraming := .commandThenBurst } })
        (fun t => t.regs.len == 33) = true := by decide +kernel
theorem witness_ReadMessageByWidth :
    (oracle [0x40, 0x00]).initialised = true ∧ (oracle [0x40, 0x00]).params.deviceModel = .oracle ∧
      (oracle [0x40, 0x00]).oracleMiso[(if (oracle [0x40, 0x00]).cfg.autoAck then 2 else 0) + 1]? = some 0 ∧
      (0 : Byte).toNat ≤ 32 ∧ (0x20 : Byte).toNat ≤ 32 ∧ 32 < (0x21 : Byte).toNat := by decide
/-- The state in which `readMessage` stopped at width 33. -/
def stoppedAt (env : List (List EnvAct)) (latch : Bool) : State :=
  { ready false with
    op := some .readMessage, env := env
    regs := { (ready false).regs with len := 33 }
    intr := { (ready false).intr with edgeLatch := latch } }
theorem witness_FaultStops : (stoppedAt [[.notify []]] false).op = some .readMessage ∧
    32 < (stoppedAt [[.notify []]] false).regs.len.toNat ∧ (stoppedAt [[.notify []]] false).env ≠ [] ∧
    (stoppedAt [] true).intr.edgeLatch = true ∧ (stoppedAt [] true).intr.gie = true ∧
    (stoppedAt [] false).env = [] ∧ (stoppedAt [] false).intr.edgeLatch = false := by decide
theorem witness_ReadMessageReference : QuietReference (received [7]) ∧ (received [7]).initialised = true ∧
    (received [7]).ref.rxFifo = [⟨[7], 0⟩] ∧ PayloadOk [7] ∧ PayloadOk (List.replicate 32 7) ∧ QuietReference listening ∧
    listening.ref.rxFifo = [] := ⟨quiet_received, rfl, rfl, by decide, by decide, quiet_listening, rfl⟩
theorem witness_ReferenceWindow : QuietReference listening ∧ listening.initialised = true ∧
    encode (.rRegisterCmd 0x02 [0]) = .transaction [0x02, 0] := ⟨quiet_listening, rfl, by decide⟩
theorem witness_ReferenceSpecialCommands : QuietReference (standby 0x3E) ∧ (standby 0x3E).initialised = true ∧
    1 ≤ ([0x41] : List Byte).length := ⟨quiet_standby, rfl, by decide⟩
theorem witness_ReferenceReads : QuietReference (received [7]) ∧ (received [7]).initialised = true ∧
    isReserved (BitVec.ofNat 5 0x0A) = false ∧ 4 < (received [7]).ref.regs.width (BitVec.ofNat 5 0x0A) ∧
    (received [7]).ref.rxHead[0]? = some 7 := ⟨quiet_received, rfl, by decide, by decide, by decide⟩
theorem witness_ApplyStateReference : QuietReference listening ∧ listening.initialised = true := ⟨quiet_listening, rfl⟩
theorem witness_PowerUpWaitsOnce :
    QuietReference { standby 0x3C with ref := { (standby 0x3C).ref with mode := .powerDown } } ∧
      (standby 0x3C).initialised = true := ⟨⟨rfl, rfl, rfl, by decide⟩, rfl⟩
theorem witness_StartListeningReference : QuietReference (standby 0x3E) ∧ (standby 0x3E).initialised = true ∧
    (standby 0x3E).ref.mode = .standbyI := ⟨quiet_standby, rfl, rfl⟩
theorem witness_InitFromPowerOn : cfgWellFormed {} = true ∧ ({ deviceModel := .reference } : Params).deviceModel = .reference := by
  decide
theorem witness_RegisterWriteBits :
    isReserved 0x10 = false ∧ (0x10 : RegAddr) ≠ 0x07 ∧ RefDev.reset.regs.width 0x10 ≤ ([1, 2, 3, 4, 5] : List Byte).length ∧
      isReserved 0x1D = false ∧ RefDev.reset.regs.width 0x1D ≤ ([1] : List Byte).length ∧
      ([0x18, 0x1B, 0x1E, 0x1F] : List RegAddr).all isReserved = true ∧
      ([1, 2, 3, 4] : List Byte).length < RefDev.reset.regs.width 0x10 := by decide
theorem witness_DerivedStatusBytes : FifosOk RefDev.reset ∧ FifosOk (received [7]).ref := by decide
theorem witness_CommandCommits : reservedByte 0xAF = true ∧ listening.params.deviceModel = .reference ∧
    ({ inTxn := true, idx := 0, cmd := 0, data := [] } : Link).inTxn = true := by decide
theorem witness_DeviceModes :
    (device 0x3C .rxMode 0).regs.pwrUp = false ∧ (device 0x3E .powerDown 0).regs.pwrUp = true ∧
      (device 0x3E .startUp 1499).now - (device 0x3E .startUp 1499).tMark < 1500 ∧
      1500 ≤ (device 0x3E .startUp 1500).now - (device 0x3E .startUp 1500).tMark ∧
      (device 0x3E .startUp 1500).held = false ∧ ((device 0x3E .startUp 1500).hold true).held = true ∧
      (device 0x3F .standbyI 0).regs.primRx = true ∧ (onAir true 0 0).txFifo ≠ [] ∧ (onAir true 0 0).regs.maxRt = false ∧
      (device 0x3E .standbyII 0).txFifo = [] ∧ (device 0x3E .rxMode 0).regs.primRx = false ∧
      (device 0x3F .rxMode 0).regs.primRx = true := by decide
/-- A device that listens, with an ACK payload for pipe 0 and static width 1 on pipe 1. -/
def receiver (us : Nat) : RefDev :=
  { device 0x3F .rxMode us with
    regs := { initRegs with enAa := 0x3F, enRxaddr := 0x03, rxPwP1 := 1, dynpd := 0x01 }
    txFifo := [⟨[0x41], false, some 0⟩] }
theorem witness_PacketReceived :
    (receiver 130).mode = .rxMode ∧ 130 ≤ (receiver 130).now - (receiver 130).tMark ∧
      (receiver 130).regs.enRxaddr.getLsbD 0 = true ∧ (receiver 130).regs.enRxaddr.getLsbD 1 = true ∧
      (receiver 130).regs.feature.getLsbD 2 = true ∧ (receiver 130).regs.dynpd.getLsbD 0 = true ∧
      ([9] : List Byte).length = (receiver 130).regs.rxPw 1 ∧ (receiver 130).rxFifo.length < 3 ∧
      (receiver 130).regs.enAa.getLsbD 0 = true ∧ (∃ e ∈ (receiver 130).txFifo, e.ackPipe = some 0) ∧
      (∀ e ∈ (receiver 130).txFifo, e.ackPipe ≠ some 1) ∧ ¬ 130 ≤ (receiver 129).now - (receiver 129).tMark := by decide
theorem witness_PacketOutcomes :
    (onAir false 0x3F 130).onAir = some (entry false) ∧ (onAir false 0x3F 130).mode = .txMode ∧
      130 ≤ (onAir false 0x3F 130).now - (onAir false 0x3F 130).tMark ∧ (entry false).noAck = false ∧
      (onAir false 0x3F 130).regs.enAa.getLsbD 0 = true ∧ (entry true).noAck = true ∧
      ({ (onAir false 0x3F 0).regs with maxRt := true } : DevRegs).maxRt = true ∧ (device 0x3E .standbyII 0).mode ≠ .txMode ∧
      (onAir false 0x3F 130).regs.enRxaddr.getLsbD 0 = true ∧ (onAir false 0x3F 130).regs.feature.getLsbD 2 = true ∧
      (onAir false 0x3F 130).regs.dynpd.getLsbD 0 = true ∧ (onAir false 0x3F 130).rxFifo.length < 3 ∧
      (onAir false 0x3F 129).noSettle = false ∧ (onAir false 0x3F 129).now - (onAir false 0x3F 129).tMark < 130 := by decide
/-- R255: with CE = 1 and a second packet the device is on air again at once; with CE = 0, or after the last, it is not. -/
theorem test_after_tx :
    let d := { onAir true 0 130 with txFifo := [entry true, entry false] }
    ((d.txOk true 0 none).mode, (d.txOk true 0 none).onAir, (d.txOk true 0 none).sending) =
        (DevMode.txMode, some (entry false), true) ∧
      (d.txOk false 0 none).mode = .standbyI ∧ ((onAir true 0 130).txOk true 0 none).mode = .standbyI := by decide
/-- R258, R261: the ACK payload goes in the sender's RX FIFO and sets RX_DR. -/
theorem test_ack_payload : (RefDev.txOk (onAir false 0x3F 130) false 2 (some [9])).rxFifo = [⟨[9], 0⟩] ∧
    (RefDev.txOk (onAir false 0x3F 130) false 2 (some [9])).statusByte = 0x60 := by decide
theorem witness_InterruptPath :
    ({ listening.intr with edgeLatch := true } : Intr).edgeLatch = true ∧ listening.intr.gie = true ∧
      listening.intr.edgeLatch = false ∧ listening.env = [] ∧ (oracle []).params.deviceModel = .oracle ∧
      (oracle []).intr.gie = true ∧ (oracle []).intr.intEn = true ∧ (deliveredRx .spared true).intr.muted = true ∧
      spared (deliveredRx .spared true) = true ∧ spared (deliveredRx .taken true) = false ∧
      spared (deliveredRx .spared false) = false ∧ store.params.deviceModel = .regFile := by decide
theorem witness_InterruptInvisible :
    forgetNotifier { listening with
        intr := { listening.intr with pending := true, edgeLatch := true }
        env := [[.notify [.elapse 3], .world (.elapse 5)]]
        trace := [.irq] } =
      forgetNotifier { listening with env := [[.world (.elapse 3), .world (.elapse 5)]] } ∧
    (listening.op = none ∧ ∀ args rest, listening.requests ≠ .request 0x33 args :: rest) ∧
    (stoppedAt [[.notify []]] false).op = some .readMessage ∧ (stoppedAt [[.notify []]] false).env ≠ [] :=
  ⟨by decide, ⟨rfl, fun _ _ h => by cases h⟩, rfl, by decide⟩
theorem witness_ResetValues : controllerReset listening = controllerReset listening := rfl
theorem witness_StepKeepsInv : Inv { listening with requests := [.request 0x32 {}] } ∧
    onNext (step { listening with requests := [.request 0x32 {}] }) (fun t => t.result == some (.flag false)) = true :=
  ⟨by constructor <;> decide, by decide⟩
theorem witness_WhatNoStepClears :
    onNext (step { ready false with
        requests := [.request 0x34 {}]
        intr := { (ready false).intr with pending := true } }) (fun t => !t.intr.pending && t.intr.gie) = true := by decide
theorem witness_EmittedCommandBytes : isHigherLevel .available = true ∧ isOperation .nop = true ∧
    onNext (exec .available listening) (fun t => commandsOf (driven t.trace) == [0x17]) = true ∧
    onNext (exec .nop listening) (fun t => commandsOf (driven t.trace) == [0xFF]) = true ∧
    polling.op = some (.sendMessage [0x48, 0x69]) ∧
    onNext (step polling) (fun t => commandsOf (driven t.trace) == [0x07]) = true := by decide +kernel
theorem witness_OnlyRoleBitsChange : isHigherLevel .applyStandbyII = true ∧ Instr.applyStandbyII ≠ .init ∧
    onNext (exec .applyStandbyII listening) (fun t => t.ref.regs.config == 0x3E) = true ∧
    onNext (step polling) (fun t => t.ref.regs.config == 0x7E) = true := by decide +kernel
theorem witness_StoreFrame : isHigherLevel .applyReceiving = true ∧ BusIdle store ∧ Memory.wf store.regFile = true ∧
    1 ∉ storedCells .applyReceiving ∧ 35 ∉ storedCells .applyPowerUp ∧ 0 ∉ storedCells .applyStandbyI ∧
    0 ∉ storedCells .readMessage ∧ 0 ∉ storedCells .available ∧ 1 ∉ storedCells .init ∧
    onNext (exec .applyReceiving store) (fun t => Memory.read t.regFile 0 == 1) = true ∧
    onNext (step { store with op := some (.sendMessage []) }) (fun t => t.regFile == []) = true := by decide +kernel
theorem witness_RegisterRoundTrip :
    store.initialised = true ∧ store.params.deviceModel = .regFile ∧ Memory.wf store.regFile = true ∧
      ([1, 2, 3, 4, 5] : List Byte).length ≤ 5 ∧ QuietReference listening ∧ ReservedClear listening.ref.regs ∧
      isAddrReg (BitVec.ofNat 5 0x10) = true ∧ listening.ref.regs.aw = 3 ∧ isAddrReg (BitVec.ofNat 5 0x05) = false ∧
      rwMask (BitVec.ofNat 5 0x05) ≠ 0 ∧ (0x7F : Byte).zeroExtend 40 &&& ~~~(rwMask (BitVec.ofNat 5 0x05)) = 0 :=
  ⟨rfl, rfl, rfl, by decide, quiet_listening, by decide, by decide, by decide, by decide, by decide, by decide⟩
/-- The same with its RX FIFO full. -/
def fullReceiver : RefDev := { receiver 130 with rxFifo := [⟨[1], 0⟩, ⟨[2], 0⟩, ⟨[3], 0⟩] }
theorem witness_LoopbackDelivery :
    (onAir true 0 130).sending = true ∧ hears (onAir true 0 130) listening.ref 1 = true ∧ listening.ref.rxFifo.length < 3 ∧
      (onAir true 0 130).wantsAck (entry true) = false ∧ (onAir false 0x3F 130).wantsAck (entry false) = true ∧
      listening.ref.regs.enaa 0 = false ∧ hears (onAir false 0x3F 130) listening.ref 1 = true ∧
      (receiver 130).regs.enaa 0 = true ∧ hears (onAir false 0x3F 130) (receiver 130) 1 = true ∧
      3 ≤ fullReceiver.rxFifo.length ∧ hears (onAir false 0x3F 130) fullReceiver 1 = true ∧
      hears (onAir true 0x3F 130) fullReceiver 1 = true ∧ (receiver 130).ackPayload 0 = some [0x41] ∧ (onAir false 0x3F 130).accepts 0 1 = true ∧
      hears (onAir false 0x3F 130) { listening.ref with regs := { initRegs with rfCh := 1 } } 1 = false := by decide

/-- R261, R262: a full RX FIFO drops the packet and gives no ACK: MAX_RT for A if it asked for one, TX_DS if not. -/
theorem test_loopback_full : ([false, true] : List Bool).all (fun noAck =>
    let q := deliver 0 { a := { polling with ref := onAir noAck 0x3F 130 }, b := { listening with ref := fullReceiver } }
    q.b.ref.rxFifo.length == 3 && q.a.ref.regs.maxRt == !noAck && q.a.ref.regs.txDs == noAck) = true := by decide

/-- Node A in the poll of V20 and node B listening, with the choices each environment has left. -/
def nodes (envA envB : List (List EnvAct)) : Pair :=
  { a := { polling with env := envA }, b := { listening with env := envB } }

theorem witness_LoopbackCoupled : (nodes [] []).a.params.deviceModel = .reference ∧
    (nodes [] []).b.params.deviceModel = .reference ∧ (nodes [] []).coupled = true ∧
    (deliver 0 (nodes [] [])).a.air.length = 1 ∧
    (Pair.step 0 1 (nodes [] [])).isSome = true := by decide
/-- R262: A's `tx_ok` inside its poll and B's `rx` are one packet: the pair goes on only with both. -/
theorem test_pair_step :
    (Pair.step 1 1 (nodes [[], [], [.world (.txOk 0 none)]] [[.world (.rx 0 [0x48, 0x69, 0x00] false)]])).any
      (fun q => q.a.air.length == 1 && q.b.ref.rxFifo == [⟨[0x48, 0x69, 0x00], 0⟩] && q.a.result == some .sent) = true := by
  decide +kernel
/-- R262: it does not if B has no such packet, or another one, or only B has one. -/
theorem test_pair_step_alone :
    (Pair.step 1 1 (nodes [[.world (.txOk 0 none)]] [])).isNone = true ∧
    (Pair.step 1 1 (nodes [[.world (.txOk 0 none)]] [[.world (.rx 0 [0x48] false)]])).isNone = true ∧
    (Pair.step 0 1 (nodes [] [[.world (.rx 0 [0x48, 0x69, 0x00] false)]])).isNone = true := by decide +kernel
/-- R262: no acknowledged `tx_ok` with B powered down. -/
theorem test_pair_step_down :
    let a : State := { polling with
      ref := { polling.ref with regs := { initRegs with config := 0x7E, enAa := 0x3F }, onAir := some (entry false) } }
    (Pair.step 1 1 { a := { a with env := [[.world (.txOk 0 none)]] },
                     b := { standby 0x3C with ref := { (standby 0x3C).ref with mode := .powerDown }
                                              env := [[.world (.rx 0 [7] true)]] } }).isNone = true := by decide +kernel

/-- Listening with auto-acknowledge on (R263). -/
def acking : State :=
  { listening with
    cfg := { autoAck := true }
    ref := { listening.ref with regs := { initRegs with enAa := 0x3F, feature := 0x07 } } }

/-- The same with an ACK payload queued on pipe 0. -/
def ackQueued : State := { acking with ref := { acking.ref with txFifo := [⟨[0x41], false, some 0⟩] } }

theorem witness_PayloadLoopback :
    QuietReference listening ∧ listening.initialised = true ∧ listening.cfg.autoAck = false ∧ listening.params.pollBound = none ∧
      listening.pins.ce = .driven true ∧ listening.ref.mode = .rxMode ∧ listening.ref.regs.pwrUp = true ∧
      listening.ref.regs.enDynAck = true ∧ listening.ref.regs.maxRt = false ∧ listening.ref.txFifo = [] ∧
      listening.ref.listening = true ∧ listening.ref.rxFifo = [] ∧ listening.ref.accepts 0 (min 32 ([0x48].length + 1)) = true ∧
      listening.ref.regs.rxDr = false ∧ listening.ref.regs.maskRxDr = false ∧ listening.pins.irq = true ∧
      InterruptOk listening ∧ listening.intr.intEn = true ∧ sameAir listening.ref listening.ref = true ∧
      listening.op = none ∧ MutedOk listening ∧ listening.intr.edgeLatch = false ∧ listening.ref.regs.txDs = false ∧
      listening.ref.regs.maskTxDs = true :=
  ⟨quiet_listening, by decide⟩
/-- The same with auto-acknowledge on, and a message of 32 bytes. -/
theorem witness_PayloadLoopback_acked :
    QuietReference acking ∧ acking.initialised = true ∧ acking.cfg.autoAck = true ∧ acking.ref.regs.enaa 0 = true ∧
      acking.ref.accepts 0 (min 32 ((List.replicate 32 (7 : Byte)).length + 1)) = true ∧ InterruptOk acking ∧
      ackQueued.ref.ackPayload 0 = some [0x41] ∧ acking.ref.accepts 0 1 = true ∧
      sameAir acking.ref acking.ref = true := ⟨⟨rfl, rfl, rfl, by decide⟩, by decide⟩

/-- V5 from end to end: A's send of `p`, its delivery, and the read on B; `pending` is A's own flag at its end. -/
def loopbackRuns (a b : State) (p : List Byte) (pending : Bool) : Bool :=
  onNext (exec (.sendMessage p) a) (fun a1 =>
    let q := deliver 0 { a := applyWorld a1 (.elapse 130), b := b }
    onNext (step q.a) (fun a2 => a2.result == some .sent && a2.op == none && a2.intr.pending == pending) &&
      (notify [] q.b).intr.pending && onNext (exec .clearPending (notify [] q.b)) (fun b1 =>
        onNext (exec .readMessage b1) (fun b2 => b2.result == some (.message ((p ++ [0x00]).take 32)))))
theorem test_payload_loopback : loopbackRuns listening listening [0x48] false = true := by decide +kernel
/-- B has an ACK payload for A (R205, R241, R262). -/
theorem test_payload_loopback_acked : loopbackRuns acking ackQueued [0x48] true = true := by decide +kernel
/-- Under the wider reading of R204 (e) A takes no edge at its step 7. -/
theorem test_payload_loopback_spared :
    loopbackRuns { acking with params := { acking.params with sendUnmask := .spared } } ackQueued [0x48] false = true := by
  decide +kernel

end Sys2Proof.Tests
end

section
/-!
Well-formed configurations (R11): what `cfgWellFormed` says of the fields, and what `init` answers without it. That an
enum field holds a listed value is its type's own doing, so only the channel and the addresses are left to check.
-/

namespace Sys2Proof.Proofs

open Sys2Proof.Machine

/-- The addresses meet R11 when auto-acknowledge is off or they agree: the model's disjunction, as an implication. -/
theorem addrCheck_eq_true_iff (c : Cfg) :
    (!c.autoAck || decide (c.txAddr = c.rxAddr)) = true ↔ (c.autoAck = true → c.txAddr = c.rxAddr) := by
  cases c.autoAck <;> simp

theorem cfgWellFormed_eq_true_iff (c : Cfg) :
    cfgWellFormed c = true ↔ c.channel.toNat ≤ 125 ∧ (c.autoAck = true → c.txAddr = c.rxAddr) := by
  rw [cfgWellFormed, Bool.and_eq_true, decide_eq_true_iff, addrCheck_eq_true_iff]

theorem exec_init (s : State) : exec .init s = execInit s := rfl

/-- `init` checks the configuration before it touches anything else of the state. -/
theorem execInit_of_illFormed {s : State} (h : cfgWellFormed s.cfg = false) : execInit s = .refused .illFormedConfig := by
  simp [execInit, h]

/-- Settles O9: `cfgWellFormed` read field by field, and the refusing branch of `init`. -/
theorem illFormedConfigRefused : Obligations.IllFormedConfigRefused :=
  ⟨cfgWellFormed_eq_true_iff, fun s h => (exec_init s).trans (execInit_of_illFormed h)⟩

end Sys2Proof.Proofs
end

section
/-!
What an operation can do (R24, R78): a chain of shared operations, each a window, a read, a burst, a write of CE, a wait or a
write of the controller's own registers. A CONFIG write inside an operation sets or clears bits of the byte just read.
-/

namespace Sys2Proof.Proofs

open Sys2Proof.Machine Sys2Proof.Laws

/-- A write of the controller's own registers and of the sequencer: no pin, no device, no event (R22, R24). -/
def OwnWrite (s t : State) : Prop :=
  ∃ regs op pc target result muted, t = { s with
    regs := regs, op := op, pc := pc, lastTarget := target, result := result, intr := { s.intr with muted := muted } }

/-- A change of a CONFIG byte that touches bits 6, 1 and 0 at most (R54): it sets or clears the bits of a mask. -/
def RoleChange (f : Byte → Byte) : Prop :=
  ∃ m : Byte, m &&& 0xBC = 0 ∧ (f = (setBits · m) ∨ f = (clearBits · m))

/-- CONFIG read, and written back with a change (R172–R177, R201). -/
def updateConfig (f : Byte → Byte) (s : State) : State := writeReg 0x00 [f (readTmp 0x00 s).1] (readTmp 0x00 s).2

/-- `t` comes from `s` by shared operations: of the windows whose bytes are given in advance those that `W` allows, and
updates of CONFIG if `role`. -/
inductive Does (W : Byte → List Byte → Prop) (role : Prop) (s : State) : State → Prop
  | refl : Does W role s s
  | own {t u : State} : Does W role s t → OwnWrite t u → Does W role s u
  | bytes {t : State} (os : List Byte) : Does W role s t → Does W role s (exchange os t).2
  | burst {t : State} (c : Byte) (out : List Byte) : W c out → Does W role s t → Does W role s (burstTx c out t).2
  | read {t : State} (c : Byte) (n : Nat) : isWriteCmd c = false → Does W role s t → Does W role s (readTx c n t).2
  | ce {t : State} (l : Bool) : Does W role s t → Does W role s (setCe l t)
  | wait {t : State} (us : Nat) : Does W role s t → Does W role s (waitFor us t)
  | config {t : State} (f : Byte → Byte) : role → RoleChange f → Does W role s t → Does W role s (updateConfig f t)

section
variable {W : Byte → List Byte → Prop} {role : Prop} {s t u : State}

theorem Does.trans (h : Does W role s t) (k : Does W role t u) : Does W role s u := by
  induction k with
  | refl => exact h
  | own _ ho ih => exact ih.own ho
  | bytes os _ ih => exact ih.bytes os
  | burst c out hw _ ih => exact ih.burst c out hw
  | read c n hc _ ih => exact ih.read c n hc
  | ce l _ ih => exact ih.ce l
  | wait us _ ih => exact ih.wait us
  | config f hr hf _ ih => exact ih.config f hr hf

theorem OwnWrite.does (h : OwnWrite s t) : Does W role s t := Does.refl.own h

theorem Does.ticked (h : Does W role s t) : Does W role s (tick t) := h.own ⟨_, _, _, _, _, _, rfl⟩

theorem Does.finished (r : Result) (h : Does W role s t) : Does W role s (finish r t) := h.own ⟨_, _, _, _, _, _, rfl⟩

theorem begin_does (i : Instr) (s : State) : Does W role s (begin i s) := OwnWrite.does ⟨_, _, _, _, _, _, rfl⟩

/-- `writeTx` is `burstTx` without its answers. -/
theorem Does.write (c : Byte) (out : List Byte) (hw : W c out) (h : Does W role s t) : Does W role s (writeTx c out t) :=
  h.burst c out hw

theorem Does.readTmp (addr : Nat) (h : Does W role s t) : Does W role s (readTmp addr t).2 :=
  (h.read _ 1 (isWrite_read _)).own ⟨_, _, _, _, _, _, rfl⟩

end

/-! ### Which windows -/

/-- The plain windows of an instruction: a higher-level operation but `init` writes no register by them but STATUS, and that
with one byte and only if its step list does (R54, R165). -/
def MayWrite (i : Instr) (c : Byte) (out : List Byte) : Prop :=
  isHigherLevel i = true → isWriteCmd c = true → c = 0x27 ∧ out.length = 1 ∧ 35 ∈ storedCells i

/-- The operation updates CONFIG. -/
abbrev UpdatesConfig (i : Instr) : Prop := 0 ∈ storedCells i

theorem mayWrite_of_read {i : Instr} {c : Byte} {out : List Byte} (h : isWriteCmd c = false) : MayWrite i c out :=
  fun _ hc => absurd (hc.symm.trans h) (by decide)

theorem mayWrite_of_lower {i : Instr} (h : isHigherLevel i = false) (c : Byte) (out : List Byte) : MayWrite i c out :=
  fun hi => absurd (hi.symm.trans h) (by decide)

theorem mayWrite_status {i : Instr} (h : 35 ∈ storedCells i) (v : Byte) :
    MayWrite i (cmdReg opWrite (maskAddr 0x07)) [v] := fun _ _ => ⟨by decide, rfl, h⟩

/-! ### The parts of the operations -/

section
variable {i : Instr} {s : State}

theorem Does.status {t : State} (hi : 35 ∈ storedCells i) (v : Byte) (h : Does (MayWrite i) (UpdatesConfig i) s t) :
    Does (MayWrite i) (UpdatesConfig i) s (writeReg 0x07 [v] t) := h.write _ _ (mayWrite_status hi v)

theorem roleChange_set {m : Byte} (h : m &&& 0xBC = 0) : RoleChange (setBits · m) := ⟨m, h, .inl rfl⟩

theorem roleChange_clear {m : Byte} (h : m &&& 0xBC = 0) : RoleChange (clearBits · m) := ⟨m, h, .inr rfl⟩

/-- The end of `applyState`: the target is noted (R178). -/
theorem note_does (g : OperatingState) (t : State) : OwnWrite t (tick { t with lastTarget := some g }) :=
  ⟨_, _, _, _, _, _, rfl⟩

/-- `applyState(t)` updates CONFIG at most, and clears the flags for Receiving (R170–R178). -/
theorem applyState_does (g : OperatingState) (hc : g ≠ .standbyI → UpdatesConfig i) (hs : g = .receiving → 35 ∈ storedCells i)
    (s : State) : Does (MayWrite i) (UpdatesConfig i) s (applyState g s) := by
  refine Does.own (t := applyArm g (readTmp 0x00 s).1 (readTmp 0x00 s).2) ?_ (note_does g _)
  have read : Does (MayWrite i) (UpdatesConfig i) s (readTmp 0x00 s).2 := Does.refl.readTmp 0x00
  have set (m : Byte) (hm : m &&& 0xBC = 0) (hu : UpdatesConfig i) :
      Does (MayWrite i) (UpdatesConfig i) s (updateConfig (setBits · m) s) := Does.refl.config _ hu (roleChange_set hm)
  have clear (m : Byte) (hm : m &&& 0xBC = 0) (hu : UpdatesConfig i) :
      Does (MayWrite i) (UpdatesConfig i) s (updateConfig (clearBits · m) s) := Does.refl.config _ hu (roleChange_clear hm)
  cases g with
  | powerDown => exact clear pwrUpMask (by decide) (hc (by decide))
  | powerUp =>
    simp only [applyArm, armPowerUp]
    split
    · exact read
    · exact (set pwrUpMask (by decide) (hc (by decide))).wait _
  | standbyI => exact read.ce false
  | standbyII =>
    have h := ((clear primRxMask (by decide) (hc (by decide))).ce true).wait Config.tSettle
    exact h
  | receiving => exact (set primRxMask (by decide) (hc (by decide))).status (hs rfl) 0x70
  | transmitting => exact clear primRxMask (by decide) (hc (by decide))

theorem startReceiver_does (s : State) : Does (MayWrite i) (UpdatesConfig i) s (startReceiver s) :=
  (Does.refl.ce true).wait _

theorem mute_own (b : Bool) (s : State) : OwnWrite s (mute b s) := ⟨_, _, _, _, _, _, rfl⟩

theorem muteRx_own (s : State) : OwnWrite s (muteRx s) := mute_own _ s

theorem clearCount_own (s : State) : OwnWrite s { s with regs := { s.regs with pollCount := 0 } } :=
  ⟨_, _, _, _, _, _, rfl⟩

/-- Steps 1–5 of a send (R201). -/
theorem sendStart_does (hc : UpdatesConfig i) (hs : 35 ∈ storedCells i) (p : List Byte) (s : State) :
    Does (MayWrite i) (UpdatesConfig i) s (sendStart p s) := by
  have h1 : Does (MayWrite i) (UpdatesConfig i) s (writeReg 0x07 [0x20] (flushTxOp (flushRxOp (applyState .transmitting s)))) :=
    (((applyState_does .transmitting (fun _ => hc) (by simp) s).write 0xE2 [] (mayWrite_of_read (by decide))).write 0xE1 []
      (mayWrite_of_read (by decide))).status hs 0x20
  have h2 : Does (MayWrite i) (UpdatesConfig i) s (sendPrepare s) :=
    (h1.config _ hc (roleChange_set (m := maskRxDrMask) (by decide))).own (muteRx_own _)
  have h3 : Does (MayWrite i) (UpdatesConfig i) s (sendPayload p (sendPrepare s)) :=
    h2.write _ _ (mayWrite_of_read (by unfold sendCommand; split <;> decide))
  exact ((((h3.ce true).wait _).ce false).own (clearCount_own _)).ticked

theorem countPoll_own (p : Params) (b : Byte) (s : State) : OwnWrite s (countPoll p b s) := by
  unfold countPoll
  split <;> exact ⟨_, _, _, _, _, _, rfl⟩

/-- One pass of the polling loop, with what ends a send (R201). -/
theorem pollPass_does (hc : UpdatesConfig i) (hs : 35 ∈ storedCells i) (s : State) :
    Does (MayWrite i) (UpdatesConfig i) s (pollPass s) := by
  have h1 : Does (MayWrite i) (UpdatesConfig i) s (countPoll s.params (readTmp 0x07 s).1 (readTmp 0x07 s).2) :=
    (Does.refl.readTmp 0x07).own (countPoll_own _ _ _)
  unfold pollPass
  dsimp only
  split
  · exact h1.own ⟨_, _, _, _, _, _, rfl⟩
  · have h2 := (h1.config _ hc (roleChange_clear (m := maskRxDrMask) (by decide))).trans
      (applyState_does .receiving (fun _ => hc) (fun _ => hs) _)
    exact ((h2.own (mute_own false _)).trans (startReceiver_does _)).finished _

/-- Steps 1 and 2 of `readMessage` (R205). -/
theorem readWidth_does (s : State) : Does (MayWrite i) (UpdatesConfig i) s (readWidth (readAck s)) := by
  have h : Does (MayWrite i) (UpdatesConfig i) s (readAck s) := by
    unfold readAck
    split
    · exact Does.refl.write _ _ (mayWrite_of_read (by decide))
    · exact Does.refl
  exact (h.read 0x60 1 (by decide)).own ⟨_, _, _, _, _, _, rfl⟩

theorem drain_does (w : Nat) (s : State) : Does (MayWrite i) (UpdatesConfig i) s (drain w s) := by
  unfold drain
  split
  · exact Does.refl
  · split
    · have h1 : Does (MayWrite i) (UpdatesConfig i) s (placeCommand s) :=
        OwnWrite.does ⟨_, _, _, _, _, _, rfl⟩
      exact (h1.burst 0x61 (burstOut w s.regs.rxbuf).tail (mayWrite_of_read (by decide))).own ⟨_, _, _, _, _, _, rfl⟩
    · have h1 : Does (MayWrite i) (UpdatesConfig i) s (readTx 0x61 (w + 1) s).2 := Does.refl.read 0x61 _ (by decide)
      exact h1.own ⟨_, _, _, _, _, _, rfl⟩

/-- `readMessage` from its width on (R205, R207). -/
theorem readRest_does (hs : 35 ∈ storedCells i) (s : State) : Does (MayWrite i) (UpdatesConfig i) s (readRest s) := by
  unfold readRest
  split
  · exact ((drain_does _ s).status hs 0x40).finished _
  · exact OwnWrite.does ⟨_, _, _, _, _, _, rfl⟩

theorem wireBody_does (hi : isHigherLevel i = false) (c : Byte) (data : List Byte) (s : State) :
    Does (MayWrite i) (UpdatesConfig i) s (wireBody c data s).2 := Does.refl.burst _ _ (mayWrite_of_lower hi _ _)

theorem writeTx_does (hi : isHigherLevel i = false) (c : Byte) (out : List Byte) (s : State) :
    Does (MayWrite i) (UpdatesConfig i) s (writeTx c out s) := wireBody_does hi c out s

theorem readTx_does {c : Byte} (hc : isWriteCmd c = false) (n : Nat) (s : State) :
    Does (MayWrite i) (UpdatesConfig i) s (readTx c n s).2 := Does.refl.read _ _ hc

/-! ### Every instruction -/

variable {W : Byte → List Byte → Prop} {role : Prop} {t : State}

theorem runRequest_does {j : Instr} {body : State → Result × State} (h : runRequest j body s = .next t)
    (hb : ∀ u, Does W role u (body u).2) : Does W role s t := by
  unfold runRequest at h
  split at h
  · cases h
    exact ((begin_does j s).trans (hb _)).finished _
  · cases h

theorem runBuffered_does {j : Instr} {buf : List Byte} {n : Nat} {body : State → Result × State}
    (h : runBuffered j buf n body s = .next t) (hb : ∀ u, Does W role u (body u).2) : Does W role s t := by
  unfold runBuffered at h
  repeat' split at h
  · cases h
    exact ((begin_does j s).trans (hb _)).finished _
  · cases h
  · cases h

/-- The six instructions of `applyState` are one request (R170). -/
theorem exec_applyInstr (g : OperatingState) (s : State) :
    exec (applyInstr g) s = runRequest (applyInstr g) (fun u => unitResult (applyState g u)) s := by
  cases g <;> rfl

theorem applyInstr_does (g : OperatingState) (h : exec (applyInstr g) s = .next t) :
    Does (MayWrite (applyInstr g)) (UpdatesConfig (applyInstr g)) s t := by
  rw [exec_applyInstr] at h
  exact runRequest_does h (applyState_does g (by cases g <;> decide) (by cases g <;> decide))

theorem execSendMessage_does {p : List Byte} (h : execSendMessage p s = .next t) :
    Does (MayWrite (.sendMessage p)) (UpdatesConfig (.sendMessage p)) s t := by
  have hc : UpdatesConfig (.sendMessage p) := List.mem_cons_self
  have hs : 35 ∈ storedCells (.sendMessage p) := List.mem_cons_of_mem _ List.mem_cons_self
  unfold execSendMessage at h
  repeat' split at h
  · cases h
    exact ((begin_does _ s).trans (sendStart_does hc hs p _)).trans (pollPass_does hc hs _)
  · cases h
    exact OwnWrite.does ⟨_, _, _, _, _, _, rfl⟩
  · cases h

theorem execReadMessage_does (h : execReadMessage s = .next t) :
    Does (MayWrite .readMessage) (UpdatesConfig .readMessage) s t := by
  unfold execReadMessage at h
  split at h
  · cases h
    exact ((begin_does _ s).trans (readWidth_does _)).trans (readRest_does (by decide) _)
  · cases h

/-- What an instruction does: shared operations, in an order of its own. Left out are `init`, whose start is more than
shared operations, and `clearPending`, the one that clears PendingReceiptFlag. -/
theorem exec_does {i : Instr} (hi : i ≠ .init) (hp : i ≠ .clearPending) (h : exec i s = .next t) :
    Does (MayWrite i) (UpdatesConfig i) s t := by
  cases i
  case init => exact absurd rfl hi
  case clearPending => exact absurd rfl hp
  case rRegisterCmd | wRegisterCmd | activateCmd | rRxPlWidCmd | rRxPayloadCmd | wTxPayloadCmd | wAckPayloadCmd |
      wTxPayloadNoAckCmd | flushTxCmd | flushRxCmd | reuseTxPlCmd | nopCmd =>
    exact runRequest_does h (wireBody_does rfl _ _)
  case exchangeByte out => exact runRequest_does (body := exchangeByteBody out) h (fun _ => Does.refl.bytes [out])
  case exchangeBurst buf n =>
    exact runBuffered_does (body := exchangeBurstBody buf n) h (fun _ => Does.refl.bytes (buf.take n))
  case readRegister addr n =>
    exact runRequest_does (body := fun u => readResult (readReg addr n u)) h (readTx_does (isWrite_read _) n)
  case readRxPayload n => exact runRequest_does (body := fun u => readResult (readTx 0x61 n u)) h (readTx_does rfl n)
  case readRxPayloadWidth =>
    exact runRequest_does (body := fun u => widthResult (readTx 0x60 1 u)) h (readTx_does rfl 1)
  case flushTx => exact runRequest_does (body := fun u => statusResult (flushTxOp u)) h (writeTx_does rfl _ _)
  case flushRx => exact runRequest_does (body := fun u => statusResult (flushRxOp u)) h (writeTx_does rfl _ _)
  case activate => exact runRequest_does (body := fun u => statusResult (writeTx 0x50 [0x73] u)) h (writeTx_does rfl _ _)
  case nop => exact runRequest_does (body := fun u => statusResult (writeTx 0xFF [] u)) h (writeTx_does rfl _ _)
  case writeRegister addr buf n =>
    exact runBuffered_does (body := fun u => statusResult (writeReg addr (buf.take n) u)) h (writeTx_does rfl _ _)
  case writeTxPayload buf n =>
    exact runBuffered_does (body := fun u => statusResult (writeTx 0xA0 (buf.take n) u)) h (writeTx_does rfl _ _)
  case writeTxPayloadNoAck buf n =>
    exact runBuffered_does (body := fun u => statusResult (writeTx 0xB0 (buf.take n) u)) h (writeTx_does rfl _ _)
  case writeAckPayload buf n =>
    exact runBuffered_does (body := fun u => statusResult (writeTx (cmdPipe 0) (buf.take n) u)) h (writeTx_does rfl _ _)
  case applyPowerUp => exact applyInstr_does .powerUp h
  case applyPowerDown => exact applyInstr_does .powerDown h
  case applyReceiving => exact applyInstr_does .receiving h
  case applyTransmitting => exact applyInstr_does .transmitting h
  case applyStandbyI => exact applyInstr_does .standbyI h
  case applyStandbyII => exact applyInstr_does .standbyII h
  case startListening =>
    exact runRequest_does (body := fun u => unitResult (startListeningBody u)) h
      (fun u => (applyState_does .receiving (by decide) (by decide) u).trans (startReceiver_does _))
  case sendMessage => exact execSendMessage_does h
  case readMessage => exact execReadMessage_does h
  case available => exact runRequest_does (body := availableBody) h (fun _ => Does.refl.readTmp 0x17)
  case readPending => exact runRequest_does (body := fun u => (.flag u.intr.pending, tick u)) h (fun _ => Does.refl.ticked)

end

end Sys2Proof.Proofs
end

section
/-!
What every operation keeps: the bus idle and the device settled (`Idle`), and what the controller's side of the invariant
reads (`Keeps`). Then what a step is, and that it keeps the invariant (R24, R52, R280).
-/

namespace Sys2Proof.Proofs

open Sys2Proof.Machine Sys2Proof.Laws

/-! ### Idle -/

theorem idle_own {s t : State} (h : Idle s) (k : OwnWrite s t) : Idle t := by
  obtain ⟨_, _, _, _, _, muted, rfl⟩ := k
  exact (h.mute muted).congr rfl rfl rfl rfl rfl rfl rfl

theorem Does.idle {W : Byte → List Byte → Prop} {role : Prop} {s t : State} (h : Does W role s t) (hs : Idle s) : Idle t := by
  induction h with
  | refl => exact hs
  | own _ ho ih => exact idle_own ih ho
  | bytes os _ ih => exact ih.exchange os
  | burst c out _ _ ih => exact ih.burstTx c out
  | read c n _ _ ih => exact ih.readTx c n
  | ce l _ ih => exact ih.setCe l
  | wait us _ ih => exact ih.waitFor us
  | config f _ _ _ ih => exact (ih.readTmp 0x00).writeReg 0x00 _

/-! ### The controller's side -/

/-- What no operation but `init` and `clearPending` moves back: the configuration, the enables, the levels `init` gave the
pins, and PendingReceiptFlag once set. -/
structure Keeps (s t : State) : Prop extends Ctl s t where
  params : t.params = s.params
  gie : t.intr.gie = s.intr.gie
  pending : s.intr.pending = true → t.intr.pending = true

theorem Keeps.refl (s : State) : Keeps s s := ⟨Ctl.refl s, rfl, rfl, id⟩

theorem Keeps.trans {s t u : State} (h : Keeps s t) (k : Keeps t u) : Keeps s u :=
  ⟨h.toCtl.trans k.toCtl, k.params.trans h.params, k.gie.trans h.gie, fun x => k.pending (h.pending x)⟩

/-- Bus activity that leaves a high CSN high. -/
theorem keeps_bus {evs : List Drive} {s t : State} (h : Bus evs s t)
    (hc : evs.foldl csnStep (.driven true) = .driven true) : Keeps s t :=
  ⟨ctl_bus h hc, h.drives.params, h.drives.gie, fun x => h.drives.pending.mpr (.inl x)⟩

theorem keeps_window {bytes : List Byte} {s t : State} (h : Bus (window bytes) s t) : Keeps s t :=
  keeps_bus h (csn_window _ _)

theorem keeps_own {s t : State} (h : OwnWrite s t) : Keeps s t := by
  obtain ⟨_, _, _, _, _, _, rfl⟩ := h
  exact ⟨⟨rfl, rfl, rfl, id, id, id⟩, rfl, rfl, id⟩

theorem keeps_readTx (c : Byte) (n : Nat) (s : State) : Keeps s (readTx c n s).2 := by
  obtain ⟨fill, -, h⟩ := readTx_bus c n s
  exact keeps_window h

theorem keeps_writeReg (addr : Nat) (buf : List Byte) (s : State) : Keeps s (writeReg addr buf s) :=
  keeps_window (writeReg_bus addr buf s)

theorem readTmp_own (addr : Nat) (s : State) : OwnWrite (readReg addr 1 s).2 (readTmp addr s).2 := ⟨_, _, _, _, _, _, rfl⟩

theorem keeps_readTmp (addr : Nat) (s : State) : Keeps s (readTmp addr s).2 :=
  (keeps_readTx _ 1 s).trans (keeps_own (readTmp_own addr s))

theorem keeps_envSlot (s : State) : Keeps s (envSlot s) := keeps_bus (envSlot_bus s) rfl

theorem Does.keeps {W : Byte → List Byte → Prop} {role : Prop} {s t : State} (h : Does W role s t) : Keeps s t := by
  induction h with
  | refl => exact Keeps.refl s
  | own _ ho ih => exact ih.trans (keeps_own ho)
  | bytes os _ ih => exact ih.trans (keeps_bus (exchange_bus os _) (foldl_mosi_csn os _))
  | burst c out _ _ ih => exact ih.trans (keeps_window (burstTx_bus c out _))
  | read c n _ _ ih => exact ih.trans (keeps_readTx c n _)
  | ce l _ ih => exact ih.trans (keeps_bus (setCe_bus l _) rfl)
  | wait us _ ih => exact ih.trans (keeps_bus (waitFor_bus us _) rfl)
  | config f _ _ _ ih => exact ih.trans ((keeps_readTmp 0x00 _).trans (keeps_writeReg 0x00 _ _))

/-! ### Before init -/

/-- Every operation but `init` asks first whether `init` has run (R25). -/
theorem exec_of_not_initialised {i : Instr} {s : State} (h : s.initialised = false) (hi : i ≠ .init) :
    exec i s = .refused .notInitialised := by
  have hf : ¬ s.initialised = true := by simp [h]
  cases i
  case init => exact absurd rfl hi
  all_goals exact if_neg hf

theorem initialised_of_exec {i : Instr} {s t : State} (hi : i ≠ .init) (h : exec i s = .next t) : s.initialised = true := by
  by_contra hf
  rw [exec_of_not_initialised (by simpa using hf) hi] at h
  cases h

/-! ### Steps -/

theorem runFrame_cases {f : Frame} {u t : State} (h : runFrame f u = .next t) :
    (∃ i, decode f = .instr i ∧ exec i u = .next t) ∨
      (∃ c data, u.initialised = true ∧ t = finishWith (wireBody c data { u with pc := 0 })) := by
  unfold runFrame at h
  split at h
  · exact .inl ⟨_, by assumption, h⟩
  · unfold runReservedCommand at h
    split at h
    · exact .inr ⟨_, _, by assumption, (Host.Outcome.next.inj h).symm⟩
    · cases h
  · cases h
  · cases h

/-- What a step that answers a next state is: the environment's point alone, a pass of the polling loop, or the frame taken
(R24, R293). -/
theorem step_cases {s t : State} (h : step s = .next t) :
    (t = envSlot s ∧ (s.op = none ∨ s.op = some .readMessage)) ∨
    (∃ p, s.op = some (.sendMessage p) ∧ t = pollPass s) ∨
    (s.op = none ∧ ∃ f rest, s.requests = f :: rest ∧ runFrame f (envSlot { s with requests := rest }) = .next t) := by
  obtain ho | ⟨i, ho⟩ := Option.eq_none_or_eq_some s.op
  · rw [step_of_idle s ho] at h
    split at h
    · exact .inl ⟨(Host.Outcome.next.inj h).symm, .inl ho⟩
    next f rest hr => exact .inr (.inr ⟨ho, f, rest, hr, h⟩)
  · simp only [step, Machine.sequence, ho] at h
    unfold resume at h
    split at h
    · exact .inr (.inl ⟨_, ho, (Host.Outcome.next.inj h).symm⟩)
    · split at h
      · cases h
      · unfold stay at h
        split at h
        · exact .inl ⟨(Host.Outcome.next.inj h).symm, .inr ho⟩
        · cases h
    · cases h

/-- A window with a reserved command byte is a window like any other (log 13). -/
theorem reserved_does (c : Byte) (data : List Byte) (s : State) :
    Does (fun _ _ => True) False s (finishWith (wireBody c data { s with pc := 0 })) :=
  ((OwnWrite.does (t := { s with pc := 0 }) ⟨_, _, _, _, _, _, rfl⟩).burst c data trivial).finished _

/-! ### init -/

theorem idle_enableInterrupts {s : State} (h : Idle s) : Idle (enableInterrupts s) := by
  obtain ⟨⟨⟨h1, h2, h3, h4, h5, h6, h7⟩, k1, k2, k3⟩, l1, l2, l3⟩ := h
  exact ⟨⟨⟨rfl, fun _ => rfl, h3, h4, h5, h6, h7⟩, k1, k2, k3⟩, l1, l2, l3⟩

theorem setCsn_true_inTxn {s : State} (h : s.link.inTxn = false) : (setCsn true s).link.inTxn = false := by
  show (refresh (csnRise _)).link.inTxn = false
  rw [(refresh_silent _).link]
  have hl : (envSlot s).link.inTxn = false := by rw [(envSlot_silent s).link, h]
  unfold csnRise
  rw [emit_link, if_neg (by simpa using hl)]
  exact hl

theorem idle_setCsn_true {s : State} (h : Idle s) : Idle (setCsn true s) :=
  ⟨h.mid.setCsn true, setCsn_true_inTxn h.inTxn, by rw [(setCsn_bus true s).drives.csn]; simp [csnStep],
    (setCsn_bus true s).bit h.bit⟩

theorem idle_busInit {s : State} (h : Idle s) : Idle (busInit s) :=
  ⟨h.mid.congr rfl rfl rfl (by simp [busInit]) rfl rfl rfl, h.inTxn, h.csn, rfl⟩

theorem idle_initPins {s : State} (h : Idle s) : Idle (initPins s) :=
  (idle_busInit (idle_setCsn_true ((idle_enableInterrupts h).setCe false))).waitFor _

/-- The bytes that a W_REGISTER window stores under RegFile lie in the cells `cells` (R249). -/
def WritesIn (cells : List Nat) (c : Byte) (out : List Byte) : Prop :=
  isWriteCmd c = true → ∀ j, j < min 5 out.length → regFileCell (cmdAddr c) j ∈ cells

theorem writesIn_of_byte {cells : List Nat} {c : Byte} {out : List Byte} (h : regFileCell (cmdAddr c) 0 ∈ cells)
    (hl : out.length = 1) : WritesIn cells c out := by
  intro _ j hj
  obtain rfl : j = 0 := by omega
  exact h

theorem writesIn_of_read {cells : List Nat} {c : Byte} (h : isWriteCmd c = false) (out : List Byte) : WritesIn cells c out :=
  fun hc => absurd (hc.symm.trans h) (by decide)

theorem initWrites_byte {addr : Nat} (h : regFileCell (cmdAddr (cmdReg opWrite (maskAddr addr))) 0 ∈ initCells) (v : Byte) :
    WritesIn initCells (cmdReg opWrite (maskAddr addr)) [v] := writesIn_of_byte h rfl

theorem initWrites_address {addr : Nat}
    (h : ∀ j < 5, regFileCell (cmdAddr (cmdReg opWrite (maskAddr addr))) j ∈ initCells) (a : Addr5) :
    WritesIn initCells (cmdReg opWrite (maskAddr addr)) (addrBytes a) :=
  fun _ j hj => h j (by simp [addrBytes] at hj; omega)

/-- Steps 5–16 of `init` (R165). -/
theorem initSteps_does (c : Cfg) (g : FeatureGating) (s : State) :
    Does (WritesIn initCells) False s (initAddresses c (initFeatures c g (initRadio c s))) := by
  have h1 : Does (WritesIn initCells) False s (initRadio c s) :=
    (((((Does.refl.write _ _ (initWrites_byte (addr := 0x00) (by decide) _)).write _ _
      (initWrites_byte (addr := 0x01) (by decide) _)).write _ _ (initWrites_byte (addr := 0x04) (by decide) _)).write _ _
      (initWrites_byte (addr := 0x02) (by decide) _)).write _ _ (initWrites_byte (addr := 0x05) (by decide) _)).write _ _
      (initWrites_byte (addr := 0x06) (by decide) _)
  have h2 : Does (WritesIn initCells) False s (initFeatures c g (initRadio c s)) :=
    ((((h1.write _ _ (initWrites_byte (addr := 0x07) (by decide) _)).write _ _
      (initWrites_byte (addr := 0x1C) (by decide) _)).write _ _ (initWrites_byte (addr := 0x1D) (by decide) _)).write 0xE1 []
      (writesIn_of_read (by decide) _)).write 0xE2 [] (writesIn_of_read (by decide) _)
  exact (((h2.write _ _ (initWrites_address (addr := 0x0A) (by decide) _)).write _ _
    (initWrites_address (addr := 0x10) (by decide) _)).readTmp 0x02).write _ _
    (initWrites_byte (addr := 0x02) (by decide) _)

/-- The state `init` runs its windows from (R165, steps 1–4). -/
abbrev initStart (s : State) : State := initPins (begin .init s)

/-- What `init` ends in: its windows, then `initialised` (R25, R165). -/
theorem exec_init_cases {s t : State} (h : exec .init s = .next t) : cfgWellFormed s.cfg = true ∧
    ∃ u, Does (WritesIn initCells) False (initStart s) u ∧ t = finish .unit (tick { u with initialised := true }) := by
  rw [exec_init, execInit] at h
  split at h
  · exact ⟨by assumption, _, initSteps_does s.cfg s.params.featureGating _, (Host.Outcome.next.inj h).symm⟩
  · cases h

end Sys2Proof.Proofs
end

section
/-!
The statements on fetch, `init` and the invariant (R24, R25, R165, R312): what a step with a frame runs, what `init` drives
and leaves, what is refused before it, what no step clears, and that every step keeps the invariant.
-/

namespace Sys2Proof.Proofs

open Sys2Proof.Machine Sys2Proof.Laws

/-! ### The fetch -/

theorem runFrame_of_instr {f : Frame} {i : Instr} (h : decode f = .instr i) (s : State) : runFrame f s = exec i s := by
  rw [runFrame, h]

theorem step_of_frame {s : State} {f : Frame} {rest : List Frame} (ho : s.op = none) (hr : s.requests = f :: rest) :
    step s = runFrame f (envSlot { s with requests := rest }) := by
  rw [step_of_idle s ho, hr]

theorem decode_of_decodeTableWord {nbits w : Nat} {i : Instr} (h : decodeTableWord nbits w = some i) :
    decode (frameOfWord nbits w) = .instr i := by
  unfold decodeTableWord at h
  split at h
  · rw [← Option.some.inj h]; assumption
  all_goals cases h

/-- Settles O5: an Idle step runs the frame, and a frame that decodes to an instruction runs it. -/
theorem stepRunsDecodedInstruction : Obligations.StepRunsDecodedInstruction :=
  ⟨fun _ _ _ _ ho hr hd => (step_of_frame ho hr).trans (runFrame_of_instr hd _),
    fun s nbits w _ hd => (step_of_frame (s := s.withFetchWord nbits w) rfl rfl).trans
      (runFrame_of_instr (decode_of_decodeTableWord hd) _)⟩

/-- What a CSN-low window that holds a byte can decode to: an instruction, which is neither `init` nor `clearPending`, or
nothing, for a reserved command byte (R98, R100). -/
def WindowMeaning (c : Byte) (data : List Byte) (d : Decoded) : Prop :=
  (∃ i, d = .instr i ∧ i ≠ .init ∧ i ≠ .clearPending) ∨ d = .reservedCommand c data

theorem windowMeaning_instr {c : Byte} {data : List Byte} {i : Instr} (h1 : i ≠ .init) (h2 : i ≠ .clearPending) :
    WindowMeaning c data (.instr i) := .inl ⟨i, rfl, h1, h2⟩

theorem decodeCommand_meaning (c : Byte) (data : List Byte) : WindowMeaning c data (decodeCommand c data) := by
  unfold decodeCommand decodeFixedCommand
  repeat' apply iteInduction <;> intro _
  all_goals first | exact .inr rfl | exact windowMeaning_instr (by simp) (by simp)

theorem decodeRequest_ne_clearPending {sel : Byte} {args : Args} (hs : sel ≠ 0x34) :
    decodeRequest sel args ≠ .instr .clearPending := by
  unfold decodeRequest decodeAccess
  rw [if_neg hs]
  repeat' refine iteInduction (motive := (· ≠ Decoded.instr .clearPending)) (fun _ => ?_) (fun _ => ?_)
  all_goals simp

/-- Only selector 0x34 asks for `clearPending` (R102). -/
theorem decode_clearPending {f : Frame} (h : decode f = .instr .clearPending) : ∃ args, f = .request 0x34 args := by
  cases f with
  | transaction bs =>
    cases bs with
    | nil => cases h
    | cons c data =>
      obtain ⟨i, hd, -, hp⟩ | hd := decodeCommand_meaning c data
      · exact absurd (Decoded.instr.inj (hd.symm.trans h)) hp
      · cases hd.symm.trans h
  | request sel args =>
    refine ⟨args, congrArg (Frame.request · args) ?_⟩
    by_contra hs
    exact decodeRequest_ne_clearPending hs h

/-! ### init -/

theorem ce_window (l : List Byte) (p : Pin) : (window l).foldl ceStep p = p := by
  simp [window, ceStep, List.foldl_append, foldl_mosi_ce]

theorem csn_initEvents (c : Cfg) (g : FeatureGating) (f e : Byte) (p : Pin) :
    (initEvents c g f e).foldl csnStep p = .driven true := by simp only [initEvents, List.foldl_append, csn_window]

theorem ce_initEvents (c : Cfg) (g : FeatureGating) (f e : Byte) (p : Pin) :
    (initEvents c g f e).foldl ceStep p = .driven false := by
  simp only [initEvents, List.foldl_append, ce_window]
  rfl

theorem exec_init_of_wellFormed {s : State} (h : cfgWellFormed s.cfg = true) :
    exec .init s = .next (finish .unit (initBody (begin .init s))) :=
  (exec_init s).trans (if_pos h)

/-- The two register writes of step 1 counted with the operation's own (log 6). -/
theorem drives_from_start {evs : List Drive} {n : Nat} {s t : State} (h : Drives evs n (enableInterrupts (begin .init s)) t) :
    Drives evs (n + 2) { enableInterrupts s with pc := 0 } t := by
  obtain ⟨h1, h2, h3, h4, h5, h6, h7, h8, h9, h10, h11, h12, h13⟩ := h
  exact ⟨h1, h2, h3, by rw [h4]; simp only [enableInterrupts_pc, begin_pc]; omega, h5, h6, h7, h8, h9, h10, h11, h12, h13⟩

/-- Settles O18: the law of the whole body of `init`, and where its events leave CSN and CE. -/
theorem initRuns : Obligations.InitRuns := by
  intro s hs
  obtain ⟨hsck, -, f, e, pre, post, hd, hm, hpre, hpost, hq⟩ := initBody_spec (begin .init s)
  have hd := drives_from_start hd
  have he := exec_init_of_wellFormed hs
  generalize initBody (begin .init s) = u at *
  refine ⟨_, f, e, pre, post, he, ⟨?_, rfl, rfl⟩, hm, hpre, hpost,
    finish_quiet .unit hq rfl rfl rfl, hd.intEn, hd.gie, ?_, ?_, hsck⟩
  · exact drives_congr hd rfl rfl rfl rfl rfl rfl rfl rfl rfl rfl rfl rfl rfl rfl rfl rfl rfl rfl rfl rfl
  · exact hd.csn.trans (csn_initEvents _ _ _ _ _)
  · exact hd.ce.trans (ce_initEvents _ _ _ _ _)

/-- Before `init` a window is refused, whatever its command byte (R25, R323, log 12). -/
theorem runFrame_window_refused {s : State} {bs : List Byte} (h : s.initialised = false) (hb : bs ≠ []) :
    runFrame (.transaction bs) s = .refused .notInitialised := by
  cases bs with
  | nil => exact absurd rfl hb
  | cons c data =>
    obtain ⟨i, hd, hi, -⟩ | hd := decodeCommand_meaning c data
    · rw [runFrame_of_instr (f := .transaction (c :: data)) hd]
      exact exec_of_not_initialised h hi
    · simp [runFrame, decode, hd, runReservedCommand, h]

/-- Settles O7: every arm of `exec` but that of `init` asks for `initialised` first, and `init` sets it. -/
theorem notInitialisedRefused : Obligations.NotInitialisedRefused := by
  refine ⟨rfl, ⟨fun s i h hi => exec_of_not_initialised h hi, fun s bs rest h ho hb hr => ?_⟩, fun s hs => ?_⟩
  · rw [step_of_frame ho hr]
    exact runFrame_window_refused ((envSlot_silent _).initialised.trans h) hb
  · obtain ⟨t, f, e, pre, post, he, hr, hm, hpre, hpost, hq, -⟩ := initRuns s hs
    exact ⟨t, f, e, pre, post, he, hq.initialised, hr, hm, hpre, hpost⟩

/-! ### What no step clears -/

theorem exec_clearPending_eq {s t : State} (h : exec .clearPending s = .next t) :
    t = finish .unit (tick { begin .clearPending s with intr := { s.intr with pending := false } }) := by
  have hi := initialised_of_exec (by decide) h
  have e : exec .clearPending s = .next (finish .unit (tick { begin .clearPending s with
      intr := { s.intr with pending := false } })) := if_pos hi
  exact Host.Outcome.next.inj (h.symm.trans e)

/-- What R23 and R26 say of a step: these never go back. -/
structure Monotone (s t : State) : Prop where
  cfg : t.cfg = s.cfg
  params : t.params = s.params
  gie : s.intr.gie = true → t.intr.gie = true
  intEn : s.intr.intEn = true → t.intr.intEn = true
  initialised : s.initialised = true → t.initialised = true

theorem Monotone.trans {s t u : State} (h : Monotone s t) (k : Monotone t u) : Monotone s u :=
  ⟨k.cfg.trans h.cfg, k.params.trans h.params, fun x => k.gie (h.gie x), fun x => k.intEn (h.intEn x),
    fun x => k.initialised (h.initialised x)⟩

theorem Keeps.monotone {s t : State} (h : Keeps s t) : Monotone s t :=
  ⟨h.cfg, h.params, fun x => h.gie.trans x, fun x => h.intEn.trans x, fun x => h.init.trans x⟩

theorem exec_init_monotone {s t : State} (h : exec .init s = .next t) :
    Monotone s t ∧ (s.intr.pending = true → t.intr.pending = true) := by
  obtain ⟨hs, -⟩ := exec_init_cases h
  obtain ⟨t', f, e, pre, post, he, hr, -, -, -, hq, hen, hgie, -⟩ := initRuns s hs
  obtain rfl := Host.Outcome.next.inj (h.symm.trans he)
  exact ⟨⟨hr.drives.cfg, hr.drives.params, fun _ => hgie, fun _ => hen, fun _ => hq.initialised⟩,
    fun hp => hr.drives.pending.mpr (.inl hp)⟩

/-- An instruction moves nothing back but PendingReceiptFlag, and only `clearPending` that (R27, R214). -/
theorem exec_monotone {i : Instr} {s t : State} (h : exec i s = .next t) :
    Monotone s t ∧ (i ≠ .clearPending → s.intr.pending = true → t.intr.pending = true) := by
  by_cases hi : i = .init
  · subst hi
    exact ⟨(exec_init_monotone h).1, fun _ => (exec_init_monotone h).2⟩
  by_cases hp : i = .clearPending
  · subst hp
    rw [exec_clearPending_eq h]
    exact ⟨⟨rfl, rfl, id, id, id⟩, fun hp => absurd rfl hp⟩
  · have hk := (exec_does hi hp h).keeps
    exact ⟨hk.monotone, fun _ => hk.pending⟩

/-- The environment's point before a frame is taken. -/
theorem keeps_taken (s : State) (rest : List Frame) : Keeps s (envSlot { s with requests := rest }) := by
  have h : Keeps s { s with requests := rest } := ⟨⟨rfl, rfl, rfl, id, id, id⟩, rfl, rfl, id⟩
  exact h.trans (keeps_envSlot _)

theorem keeps_pollPass (s : State) : Keeps s (pollPass s) := (pollPass_does (i := .sendMessage []) (by decide) (by decide) s).keeps

/-- Settles O53: the cases of a step, each of which keeps what it must. -/
theorem whatNoStepClears : Obligations.WhatNoStepClears := by
  have key (s t : State) (h : step s = .next t) : Monotone s t ∧ (s.intr.pending = true → t.intr.pending = false →
      s.op = none ∧ ∃ args rest, s.requests = .request 0x34 args :: rest) := by
    have kept (hk : Keeps s t) : Monotone s t ∧ (s.intr.pending = true → t.intr.pending = false →
        s.op = none ∧ ∃ args rest, s.requests = .request 0x34 args :: rest) :=
      ⟨hk.monotone, fun hp hn => absurd ((hk.pending hp).symm.trans hn) (by decide)⟩
    obtain ⟨rfl, -⟩ | ⟨p, -, rfl⟩ | ⟨ho, f, rest, hr, hf⟩ := step_cases h
    · exact kept (keeps_envSlot s)
    · exact kept (keeps_pollPass s)
    · have hk := keeps_taken s rest
      obtain ⟨i, hd, he⟩ | ⟨c, data, -, rfl⟩ := runFrame_cases hf
      · obtain ⟨hm, hpend⟩ := exec_monotone he
        refine ⟨hk.monotone.trans hm, fun hp hn => ⟨ho, ?_⟩⟩
        by_cases hi : i = .clearPending
        · obtain ⟨args, rfl⟩ := decode_clearPending (hi ▸ hd)
          exact ⟨args, rest, hr⟩
        · exact absurd ((hpend hi (hk.pending hp)).symm.trans hn) (by decide)
      · exact kept (hk.trans (reserved_does c data _).keeps)
  refine ⟨fun s t h => ?_, fun s t h => (key s t h).2⟩
  obtain ⟨hc, hp, hg, he, hi⟩ := (key s t h).1
  exact ⟨hc, hp, hg, he, hi⟩

/-! ### The invariant -/

theorem idle_of_inv {s : State} (h : Inv s) : Idle s := by
  obtain ⟨⟨b1, b2, b3, b4⟩, ⟨i1, i2, i3, i4⟩, -, -, hst, hres, hfifo, hclk, hset, -⟩ := h
  exact ⟨⟨⟨i1, i2, hst, hres, hfifo, hclk, b3⟩, i3, i4, hset⟩, b1, b4, b2⟩

/-- The invariant, from its device and bus side, its controller side and the operation in progress. -/
theorem inv_of_idle {s : State} (h : Idle s) (hi : InitialisedOk s) (ho : opOk s = true) (hm : MutedOk s) : Inv s := by
  obtain ⟨⟨⟨i1, i2, hst, hres, hfifo, hclk, b3⟩, i3, i4, hset⟩, b1, b4, b2⟩ := h
  exact ⟨⟨b1, b2, b3, b4⟩, ⟨i1, i2, i3, i4⟩, hi, ho, hst, hres, hfifo, hclk, hset, hm⟩

theorem opOk_of_none {s : State} (h : s.op = none) : opOk s = true := by simp [opOk, h]

theorem opOk_of_send {s : State} {p : List Byte} (h : s.op = some (.sendMessage p)) (hl : p.length ≤ 32)
    (hi : s.initialised = true) : opOk s = true := by simp [opOk, h, hl, hi]

theorem opOk_of_read {s : State} (h : s.op = some .readMessage) (hl : 32 < s.regs.len.toNat) (hi : s.initialised = true) :
    opOk s = true := by simp [opOk, h, hl, hi]

theorem send_of_opOk {s : State} {p : List Byte} (ho : opOk s = true) (h : s.op = some (.sendMessage p)) :
    p.length ≤ 32 ∧ s.initialised = true := by simpa [opOk, h] using ho

/-- One pass of a send, seen from itself. -/
theorem pollPass_outcome {s : State} {p : List Byte} (hop : s.op = some (.sendMessage p)) : ∃ b m,
    (pollDecision s.params b (s.regs.pollCount + 1) = .again ∧
        PollsAgain p [] 0 b m (if s.params.pollBound.isSome then s.regs.pollCount + 1 else s.regs.pollCount)
          s.lastTarget s (pollPass s)) ∨
      (∃ r, pollDecision s.params b (s.regs.pollCount + 1) = .leave r ∧
        PollsOut [] 0 b m s.regs.pollCount r s (pollPass s)) := by
  obtain ⟨b, more, -, h⟩ := pollPass_spec p [] 0 [] s.lastTarget s.regs.tmp s s (Drives.refl s)
    (List.append_nil _).symm hop (Quiet.refl s)
  exact ⟨b, more, h⟩

theorem pollPass_op {s : State} {p : List Byte} (hop : s.op = some (.sendMessage p)) :
    (pollPass s).op = some (.sendMessage p) ∨ (pollPass s).op = none := by
  obtain ⟨b, m, ⟨-, h⟩ | ⟨r, -, h⟩⟩ := pollPass_outcome hop
  · exact .inl h.op
  · exact .inr h.op

theorem pollPass_opOk {s : State} {p : List Byte} (hop : s.op = some (.sendMessage p)) (hl : p.length ≤ 32)
    (hi : s.initialised = true) : opOk (pollPass s) = true := by
  obtain h | h := pollPass_op hop
  · exact opOk_of_send h hl ((keeps_pollPass s).init.trans hi)
  · exact opOk_of_none h

theorem readRest_op (s : State) :
    (readRest s).op = none ∨ (32 < s.regs.len.toNat ∧ (readRest s).op = s.op ∧ (readRest s).regs = s.regs) := by
  unfold readRest
  split
  next hl => exact .inl rfl
  next hl => exact .inr ⟨by simpa [Config.rxBufCap] using hl, rfl, rfl⟩

theorem op_of_finish {b : Bool} {r : Result × State} {e : Refusal} {t : State}
    (h : (if b = true then Host.Outcome.next (finishWith r) else .refused e) = .next (φ := Fault) t) : t.op = none := by
  split at h
  · cases h; rfl
  · cases h

theorem op_of_buffered {b : Bool} {n m : Nat} {r : Result × State} {e e' : Refusal} {t : State}
    (h : (if b = true then if n ≤ m then Host.Outcome.next (finishWith r) else .refused e else .refused e') =
      .next (φ := Fault) t) : t.op = none := by
  repeat' split at h
  · cases h; rfl
  · cases h
  · cases h

theorem execSendMessage_opOk {p : List Byte} {s t : State} (ho : s.op = none) (h : exec (.sendMessage p) s = .next t) :
    opOk t = true := by
  have hi := initialised_of_exec (by simp) h
  simp only [exec, execSendMessage] at h
  rw [if_pos hi] at h
  split at h
  next hl =>
    cases h
    obtain ⟨_, _, _, _, _, hs, -, -, hq⟩ := sendStart_spec p (begin (.sendMessage p) s)
    exact pollPass_opOk (hs.op.trans rfl) hl (hq.initialised.trans hi)
  next => cases h; exact opOk_of_none ho

theorem execReadMessage_opOk {s t : State} (h : exec .readMessage s = .next t) : opOk t = true := by
  have hi := initialised_of_exec (by simp) h
  have hk := (exec_does (by simp) (by simp) h).keeps
  rw [readMessage_eq s hi] at h
  obtain rfl := Host.Outcome.next.inj h
  obtain ⟨f, pre, hw, -⟩ := readPre_spec (begin .readMessage s)
  obtain ho | ⟨hl, ho, hr⟩ := readRest_op (readWidth (readAck (begin .readMessage s)))
  · exact opOk_of_none ho
  · exact opOk_of_read (ho.trans (hw.op.trans rfl)) (hr ▸ hl) (hk.init.trans hi)

/-- What an instruction leaves in progress is a send in its loop or a `readMessage` that stopped (R24, log 5). -/
theorem exec_opOk {i : Instr} {s t : State} (ho : s.op = none) (h : exec i s = .next t) : opOk t = true := by
  cases i
  case sendMessage p => exact execSendMessage_opOk ho h
  case readMessage => exact execReadMessage_opOk h
  case init =>
    obtain ⟨-, u, -, rfl⟩ := exec_init_cases h
    exact opOk_of_none rfl
  case exchangeBurst | writeRegister | writeTxPayload | writeTxPayloadNoAck | writeAckPayload =>
    exact opOk_of_none (op_of_buffered h)
  all_goals exact opOk_of_none (op_of_finish h)

theorem idle_clearPending {s : State} (h : Idle s) :
    Idle (finish .unit (tick { begin .clearPending s with intr := { s.intr with pending := false } })) := by
  obtain ⟨⟨⟨h1, h2, h3, h4, h5, h6, h7⟩, k1, k2, k3⟩, l1, l2, l3⟩ := h
  exact ⟨⟨⟨h1, h2, h3, h4, h5, h6, h7⟩, k1, k2, k3⟩, l1, l2, l3⟩

theorem exec_idle {i : Instr} {s t : State} (hs : Idle s) (h : exec i s = .next t) : Idle t := by
  by_cases hi : i = .init
  · subst hi
    obtain ⟨-, u, hu, rfl⟩ := exec_init_cases h
    have hu := hu.idle (idle_initPins (hs.begin .init))
    exact hu.congr rfl rfl rfl rfl rfl rfl rfl
  by_cases hp : i = .clearPending
  · subst hp
    rw [exec_clearPending_eq h]
    exact idle_clearPending hs
  · exact (exec_does hi hp h).idle hs

theorem exec_init_initialisedOk {s t : State} (h : exec .init s = .next t) : InitialisedOk t := by
  obtain ⟨hs, -⟩ := exec_init_cases h
  obtain ⟨t', f, e, pre, post, he, hr, -, -, -, -, hen, -, hcsn, hce, hsck⟩ := initRuns s hs
  obtain rfl := Host.Outcome.next.inj (h.symm.trans he)
  exact fun _ => ⟨by rw [hr.drives.cfg]; exact hs, hen, hcsn, by rw [hce]; simp, hsck⟩

theorem exec_initialisedOk {i : Instr} {s t : State} (hs : InitialisedOk s) (h : exec i s = .next t) : InitialisedOk t := by
  by_cases hi : i = .init
  · exact exec_init_initialisedOk (hi ▸ h)
  by_cases hp : i = .clearPending
  · subst hp
    rw [exec_clearPending_eq h]
    exact hs
  · exact ctl_ok (exec_does hi hp h).keeps.toCtl hs

theorem not_muted_of_idle {s : State} (hm : MutedOk s) (ho : s.op = none) : s.intr.muted ≠ true := fun h => by
  have h := hm h
  rw [ho] at h
  cases h

theorem exec_inv {i : Instr} {s t : State} (hs : Inv s) (ho : s.op = none) (h : exec i s = .next t) : Inv t := by
  refine inv_of_idle (exec_idle (idle_of_inv hs) h) (exec_initialisedOk hs.initialised h) (exec_opOk ho h) ?_
  obtain hm | hm := exec_muted i h
  · exact hm
  · exact fun ht => absurd (hm.symm.trans ht) (not_muted_of_idle hs.muted ho)

theorem reserved_inv {c : Byte} {data : List Byte} {s : State} (hs : Inv s) (ho : s.op = none) :
    Inv (finishWith (wireBody c data { s with pc := 0 })) := by
  have hd := reserved_does c data s
  refine inv_of_idle (hd.idle (idle_of_inv hs)) (ctl_ok hd.keeps.toCtl hs.initialised) (opOk_of_none rfl) fun ht => ?_
  have hm : (finishWith (wireBody c data { s with pc := 0 })).intr.muted = s.intr.muted := burstTx_muted c data _
  exact absurd (hm.symm.trans ht) (not_muted_of_idle hs.muted ho)

theorem envSlot_opOk {s : State} (h : opOk s = true) : opOk (envSlot s) = true := by
  have hs := envSlot_silent s
  unfold opOk at h ⊢
  rw [hs.op, hs.regs, hs.initialised]
  exact h

theorem envSlot_inv {s : State} (h : Inv s) : Inv (envSlot s) := by
  refine inv_of_idle (idle_of_inv h).envSlot (ctl_ok (keeps_envSlot s).toCtl h.initialised) (envSlot_opOk h.op) fun hm => ?_
  rw [(envSlot_silent s).op]
  exact h.muted ((envSlot_muted s).symm.trans hm)

theorem pollPass_inv {s : State} {p : List Byte} (h : Inv s) (hop : s.op = some (.sendMessage p)) : Inv (pollPass s) := by
  obtain ⟨hl, hi⟩ := send_of_opOk h.op hop
  exact inv_of_idle ((pollPass_does (i := .sendMessage []) (by decide) (by decide) s).idle (idle_of_inv h))
    (ctl_ok (keeps_pollPass s).toCtl h.initialised) (pollPass_opOk hop hl hi) (pollPass_muted s p hop)

theorem inv_requests {s : State} (h : Inv s) (rest : List Frame) : Inv { s with requests := rest } := by
  obtain ⟨h1, h2, h3, h4, h5, h6, h7, h8, h9, h10⟩ := h
  exact ⟨h1, h2, h3, h4, h5, h6, h7, h8, h9, h10⟩

/-- Settles O52: the cases of a step, each of which keeps the invariant. -/
theorem stepKeepsInv : Obligations.StepKeepsInv := by
  intro s t hs h
  obtain ⟨rfl, -⟩ | ⟨p, hop, rfl⟩ | ⟨ho, f, rest, -, hf⟩ := step_cases h
  · exact envSlot_inv hs
  · exact pollPass_inv hs hop
  · have hu := envSlot_inv (inv_requests hs rest)
    have ho : (envSlot { s with requests := rest }).op = none := (envSlot_silent _).op.trans ho
    obtain ⟨i, -, he⟩ | ⟨c, data, -, rfl⟩ := runFrame_cases hf
    · exact exec_inv hu ho he
    · exact reserved_inv hu ho

end Sys2Proof.Proofs
end

section
/-!
What an operation writes in the device (R54, R249): of the RegFile store the cells its windows name, and of the Reference
device's settings, but for `init`, bits 6, 1 and 0 of CONFIG alone.
-/

namespace Sys2Proof.Proofs

open Sys2Proof.Machine Sys2Proof.Laws

/-! ### Shared operations that write no register of the device -/

theorem kept_of_silent {s t : State} (h : Silent s t) : DeviceKept s t := ⟨h.settings, h.regFile⟩

theorem kept_own {s t : State} (h : OwnWrite s t) : DeviceKept s t := by
  obtain ⟨_, _, _, _, _, _, rfl⟩ := h
  exact ⟨rfl, rfl⟩

theorem kept_setCe (l : Bool) (s : State) : DeviceKept s (setCe l s) := by
  have h1 := kept_of_silent ((envSlot_silent s).trans (fireDue_silent _))
  have h2 := kept_of_silent (refresh_silent (emit (.ce l) { fireDue (envSlot s) with
    pins := { (fireDue (envSlot s)).pins with ce := .driven l } }))
  exact ⟨h2.settings.trans h1.settings, h2.store.trans h1.store⟩

theorem kept_waitFor (us : Nat) (s : State) : DeviceKept s (waitFor us s) := by
  have h1 := kept_of_silent (((envSlot_silent s).trans (envSlot_silent _)).trans
    (onRef_silent (fun d => d.advance (us - ((envSlot (envSlot s)).ref.now - (envSlot s).ref.now))) (fun _ => rfl) _))
  have h2 := kept_of_silent (refresh_silent (emit (.wait us) (onRef (fun d =>
    d.advance (us - ((envSlot (envSlot s)).ref.now - (envSlot s).ref.now))) (envSlot (envSlot s)))))
  exact ⟨h2.settings.trans h1.settings, h2.store.trans h1.store⟩

theorem kept_readTx {c : Byte} (hc : isWriteCmd c = false) (n : Nat) (s : State) : DeviceKept s (readTx c n s).2 := by
  obtain ⟨fill, -, h⟩ := readTx_window c n s
  exact h.kept hc

theorem kept_readTmp (addr : Nat) (s : State) : DeviceKept s (readTmp addr s).2 :=
  (kept_readTx (isWrite_read _) 1 s).trans (kept_own (readTmp_own addr s))

/-- With no window open, CSN rising commits nothing (R232). -/
theorem kept_setCsn_true {s : State} (h : s.link.inTxn = false) : DeviceKept s (setCsn true s) := by
  have h1 := kept_of_silent (envSlot_silent s)
  have hl : (envSlot s).link.inTxn = false := by rw [(envSlot_silent s).link, h]
  have e : csnRise (emit (.csn true) { envSlot s with pins := { (envSlot s).pins with csn := .driven true } }) =
      emit (.csn true) { envSlot s with pins := { (envSlot s).pins with csn := .driven true } } :=
    if_neg (by simp [hl])
  have h2 := kept_of_silent (refresh_silent (csnRise (emit (.csn true)
    { envSlot s with pins := { (envSlot s).pins with csn := .driven true } })))
  rw [e] at h2
  have h3 : DeviceKept (envSlot s) (setCsn true s) := by
    show DeviceKept _ (refresh (csnRise _))
    rw [e]
    exact ⟨h2.settings, h2.store⟩
  exact h1.trans h3

theorem kept_initPins {s : State} (h : s.link.inTxn = false) : DeviceKept s (initPins s) := by
  have h1 := kept_setCe false (enableInterrupts s)
  have h2 : DeviceKept _ (setCsn true (setCe false (enableInterrupts s))) :=
    kept_setCsn_true ((congrArg Link.inTxn (setCe_link false (enableInterrupts s))).trans h)
  have h3 := kept_waitFor Config.tPor (busInit (setCsn true (setCe false (enableInterrupts s))))
  exact ⟨h3.settings.trans (h2.settings.trans h1.settings), h3.store.trans (h2.store.trans h1.store)⟩

/-! ### The store -/

/-- A canonical store stays canonical, and only the cells of `cells` change. -/
def StoreOnly (cells : List Nat) (s t : State) : Prop :=
  Memory.wf s.regFile = true →
    Memory.wf t.regFile = true ∧ ∀ x, x ∉ cells → Memory.read t.regFile x = Memory.read s.regFile x

theorem StoreOnly.trans {cells : List Nat} {s t u : State} (h : StoreOnly cells s t) (k : StoreOnly cells t u) :
    StoreOnly cells s u := fun hw =>
  ⟨(k (h hw).1).1, fun x hx => ((k (h hw).1).2 x hx).trans ((h hw).2 x hx)⟩

theorem storeOnly_of_kept {cells : List Nat} {s t : State} (h : DeviceKept s t) : StoreOnly cells s t := fun hw =>
  ⟨by rw [h.store]; exact hw, fun x _ => by rw [h.store]⟩

theorem window_wf {c : Byte} {data ins : List Byte} {s t : State} (h : Window c data ins s t)
    (hw : Memory.wf s.regFile = true) : Memory.wf t.regFile = true := by
  rw [h.regFile]
  split
  · exact regFileWrite_wf _ _ _ hw
  · exact hw

/-- A window changes the cells it writes at most. -/
theorem storeOnly_window {cells : List Nat} {c : Byte} {data ins : List Byte} {s t : State} (h : Window c data ins s t)
    (hc : WritesIn cells c data) : StoreOnly cells s t := by
  cases hwr : isWriteCmd c with
  | false => exact storeOnly_of_kept (h.kept hwr)
  | true =>
    refine fun hw => ⟨window_wf h hw, fun x hx => (h.written hwr hw).others x ?_⟩
    by_contra hin
    have hj := hc hwr (x - 5 * (cmdAddr c).toNat) (by omega)
    rw [regFileCell, Nat.add_sub_cancel' (by omega)] at hj
    exact hx hj

theorem storeOnly_updateConfig {cells : List Nat} (hc : 0 ∈ cells) (f : Byte → Byte) (s : State) :
    StoreOnly cells s (updateConfig f s) := by
  obtain ⟨ins, -, hw⟩ := writeTx_window (cmdReg opWrite (maskAddr 0x00)) [f (readTmp 0x00 s).1] (readTmp 0x00 s).2
  exact (storeOnly_of_kept (kept_readTmp 0x00 s)).trans (storeOnly_window hw (writesIn_of_byte hc rfl))

theorem Does.storeOnly {W : Byte → List Byte → Prop} {role : Prop} {cells : List Nat} {s t : State} (h : Does W role s t)
    (hW : ∀ c out, W c out → WritesIn cells c out) (hr : role → 0 ∈ cells) : StoreOnly cells s t := by
  induction h with
  | refl => exact storeOnly_of_kept (DeviceKept.refl s)
  | own _ ho ih => exact ih.trans (storeOnly_of_kept (kept_own ho))
  | bytes os _ ih => exact ih.trans (storeOnly_of_kept (exchange_kept os _))
  | burst c out hw _ ih => exact ih.trans (storeOnly_window (burstTx_window c out _) (hW c out hw))
  | read c n hc _ ih => exact ih.trans (storeOnly_of_kept (kept_readTx hc n _))
  | ce l _ ih => exact ih.trans (storeOnly_of_kept (kept_setCe l _))
  | wait us _ ih => exact ih.trans (storeOnly_of_kept (kept_waitFor us _))
  | config f hrole _ _ ih => exact ih.trans (storeOnly_updateConfig (hr hrole) f _)

/-- The plain windows of a higher-level operation store in its cells. -/
theorem writesIn_of_mayWrite {i : Instr} (hi : isHigherLevel i = true) {c : Byte} {out : List Byte} (h : MayWrite i c out) :
    WritesIn (storedCells i) c out := by
  intro hc
  obtain ⟨rfl, hl, hs⟩ := h hi hc
  exact writesIn_of_byte hs hl hc

theorem exec_storeOnly {i : Instr} {s t : State} (hi : isHigherLevel i = true) (hb : s.link.inTxn = false)
    (h : exec i s = .next t) : StoreOnly (storedCells i) s t := by
  by_cases hn : i = .init
  · subst hn
    obtain ⟨-, u, hu, rfl⟩ := exec_init_cases h
    have hp := kept_initPins (s := begin .init s) hb
    exact (storeOnly_of_kept (s := s) ⟨hp.settings, hp.store⟩).trans (hu.storeOnly (fun _ _ h => h) False.elim)
  · exact (exec_does hn (by rintro rfl; cases hi) h).storeOnly (fun _ _ => writesIn_of_mayWrite hi) id

theorem pollPass_storeOnly (p : List Byte) (s : State) : StoreOnly (storedCells (.sendMessage p)) s (pollPass s) :=
  (pollPass_does (i := .sendMessage p) List.mem_cons_self (List.mem_cons_of_mem _ List.mem_cons_self) s).storeOnly
    (fun _ _ => writesIn_of_mayWrite rfl) id

/-- Settles O56: what the windows of each operation store, by the operations it is made of. -/
theorem storeFrame : Obligations.StoreFrame := by
  refine ⟨fun i s t x hi hb hw h hx => (exec_storeOnly hi hb.1 h hw).2 x hx, fun p s t x hop hw h h0 h35 => ?_⟩
  rw [step_of_send s p hop] at h
  obtain rfl := Host.Outcome.next.inj h
  exact (pollPass_storeOnly p s hw).2 x (by simp [storedCells, h0, h35])

/-! ### The settings -/

/-- Bytes that agree in the bits of a mask differ in none of them. -/
theorem xor_and_eq_zero {a b m : Byte} (h : a &&& m = b &&& m) : (a ^^^ b) &&& m = 0 := by
  apply BitVec.eq_of_getLsbD_eq
  intro i hi
  have h := congrArg (BitVec.getLsbD · i) h
  simp only [BitVec.getLsbD_and, BitVec.getLsbD_xor] at h ⊢
  cases hm : m.getLsbD i <;> simp_all

theorem setBits_and {c m k : Byte} (h : m &&& k = 0) : setBits c m &&& k = c &&& k := by
  apply BitVec.eq_of_getLsbD_eq
  intro i hi
  have h := congrArg (BitVec.getLsbD · i) h
  simp only [setBits, BitVec.getLsbD_and, BitVec.getLsbD_or] at h ⊢
  cases hm : m.getLsbD i <;> simp_all

theorem clearBits_and {c m k : Byte} (h : m &&& k = 0) : clearBits c m &&& k = c &&& k := by
  apply BitVec.eq_of_getLsbD_eq
  intro i hi
  have h := congrArg (BitVec.getLsbD · i) h
  simp only [clearBits, BitVec.getLsbD_and, BitVec.getLsbD_not] at h ⊢
  cases hm : m.getLsbD i <;> simp_all

theorem RoleChange.and_mask {f : Byte → Byte} (h : RoleChange f) (c : Byte) : f c &&& 0xBC = c &&& 0xBC := by
  obtain ⟨m, hm, rfl | rfl⟩ := h
  · exact setBits_and hm
  · exact clearBits_and hm

/-- The byte of CONFIG that a W_REGISTER of `v` leaves: bit 7 stays (R32). -/
abbrev mergedConfig (c v : Byte) : Byte := (c &&& 0x80) ||| (v &&& 0x7F)

theorem mergedConfig_and {c v : Byte} (h : v &&& 0xBC = c &&& 0xBC) : mergedConfig c v &&& 0xBC = c &&& 0xBC := by
  apply BitVec.eq_of_getLsbD_eq
  intro i hi
  have h := congrArg (BitVec.getLsbD · i) h
  simp only [BitVec.getLsbD_and, BitVec.getLsbD_or] at h ⊢
  interval_cases i <;> simp_all

theorem merge_config (c v : Byte) :
    (mergeBits (c.zeroExtend 40) (packBytes [v]) (rwMask 0x00 &&& bytesMask 1)).setWidth 8 = mergedConfig c v := by
  apply BitVec.eq_of_getLsbD_eq
  intro i hi
  simp only [mergeBits, packBytes, rwMask, bytesMask]
  interval_cases i <;> simp

theorem writeReg_config (d : RefDev) (v : Byte) :
    d.writeReg 0x00 [v] = { d with regs := { d.regs with config := mergedConfig d.regs.config v } } := by
  rw [← merge_config]
  rfl

theorem writeReg_status_settings (d : RefDev) (data : List Byte) :
    settings (d.writeReg 0x07 data).regs = settings d.regs := by
  unfold RefDev.writeReg
  split <;> rfl

/-- What the Reference device answers to a 1-byte register read, whatever the environment does: the settings are those the
window began with (R231, R233). -/
theorem readTmp_reference {s : State} (hm : s.params.deviceModel = .reference) (addr : Nat) :
    ∃ d : RefDev, settings d.regs = settings s.ref.regs ∧
      ∀ v, d.readReg (maskAddr addr) 0 = some v → (readTmp addr s).1 = v := by
  have hb := openWindow_bus (cmdReg opRead (maskAddr addr)) s
  have hk := openWindow_kept (cmdReg opRead (maskAddr addr)) s
  have hl := openWindow_link (cmdReg opRead (maskAddr addr)) s
  have hd : (readTmp addr s).1 = (answer (envSlot (draw (openWindow (cmdReg opRead (maskAddr addr)) s)).2)).1 := rfl
  generalize openWindow (cmdReg opRead (maskAddr addr)) s = w at *
  have he := envSlot_silent (draw w).2
  generalize envSlot (draw w).2 = u at *
  have hul : u.link = w.link := he.link
  have hum : u.params.deviceModel = .reference := by rw [he.params]; exact (congrArg _ hb.drives.params).trans hm
  refine ⟨u.ref, he.settings.trans hk.settings, fun v hv => ?_⟩
  have hr := (readCmd_props addr).2.2.2.2.1
  have ha : cmdAddr (cmdReg opRead (maskAddr addr)) = maskAddr addr := (readCmd_props addr).2.2.2.2.2.1
  rw [hd, answer, hul, hl, hum]
  simp [referenceAnswer, hul, hl, RefDev.miso, hr, ha, hv, orDraw]

/-- The byte of a one-byte register (R233). -/
theorem byteOf_zeroExtend (v : Byte) : byteOf (v.zeroExtend 40) 0 = v := by
  apply BitVec.eq_of_getLsbD_eq
  intro i hi
  simp [byteOf, hi]
  omega

theorem readReg_config (d : RefDev) : d.readReg 0x00 0 = some d.regs.config := congrArg some (byteOf_zeroExtend _)

theorem config_of_settings {r r' : DevRegs} (h : settings r' = settings r) : r'.config = r.config :=
  (congrArg DevRegs.config h :)

/-- The CONFIG byte that an operation reads is the register's, in every environment. -/
theorem readTmp_config {s : State} (hm : s.params.deviceModel = .reference) : (readTmp 0x00 s).1 = s.ref.regs.config := by
  obtain ⟨d, hd, h⟩ := readTmp_reference hm 0x00
  exact h _ ((readReg_config d).trans (by rw [config_of_settings hd]))

/-- Of the settings CONFIG alone may differ, in bits 6, 1 and 0 (R54). -/
structure RoleBits (s t : State) : Prop where
  others : settings t.ref.regs = { settings s.ref.regs with config := t.ref.regs.config }
  config : t.ref.regs.config &&& 0xBC = s.ref.regs.config &&& 0xBC

theorem RoleBits.trans {s t u : State} (h : RoleBits s t) (k : RoleBits t u) : RoleBits s u :=
  ⟨by rw [k.others, h.others], k.config.trans h.config⟩

theorem roleBits_of_settings {s t : State} (h : settings t.ref.regs = settings s.ref.regs) : RoleBits s t := by
  have hc := config_of_settings h
  exact ⟨by rw [h, hc]; rfl, by rw [hc]⟩

/-- A window that writes no register but STATUS. -/
theorem roleBits_window {c : Byte} {data ins : List Byte} {s t : State} (h : Window c data ins s t)
    (hc : isWriteCmd c = true → c = 0x27) : RoleBits s t := by
  cases hw : isWriteCmd c with
  | false => exact roleBits_of_settings (h.kept hw).settings
  | true =>
    obtain rfl := hc hw
    by_cases hm : s.params.deviceModel = .reference
    · refine roleBits_of_settings ((h.reference hm).trans ?_)
      exact writeReg_status_settings s.ref data
    · exact roleBits_of_settings (by rw [h.bus.drives.otherRef hm])

/-- The write of CONFIG after its read: the bits that the change leaves are those of the register (R172–R177). -/
theorem roleBits_updateConfig {f : Byte → Byte} (hf : RoleChange f) (s : State) : RoleBits s (updateConfig f s) := by
  obtain ⟨ins, -, hw⟩ := writeTx_window (cmdReg opWrite (maskAddr 0x00)) [f (readTmp 0x00 s).1] (readTmp 0x00 s).2
  have hk := kept_readTmp 0x00 s
  have hp := (keeps_readTmp 0x00 s).params
  refine (roleBits_of_settings hk.settings).trans ?_
  by_cases hm : s.params.deviceModel = .reference
  · have hs : settings (updateConfig f s).ref.regs = { settings (readTmp 0x00 s).2.ref.regs with
        config := mergedConfig (readTmp 0x00 s).2.ref.regs.config (f (readTmp 0x00 s).1) } := by
      refine (hw.reference (by rw [hp]; exact hm)).trans ?_
      rw [writeCmd_props, show BitVec.ofNat 5 0 = 0x00 from rfl, writeReg_config]
      rfl
    have hc : (updateConfig f s).ref.regs.config = mergedConfig (readTmp 0x00 s).2.ref.regs.config (f (readTmp 0x00 s).1) :=
      (congrArg DevRegs.config hs :)
    refine ⟨by rw [hs, hc], ?_⟩
    rw [hc]
    apply mergedConfig_and
    rw [hf.and_mask, readTmp_config hm, config_of_settings hk.settings]
  · have hr := hw.bus.drives.otherRef (by rw [hp]; exact hm)
    exact roleBits_of_settings (congrArg (fun d => settings d.regs) hr)

theorem Does.roleBits {W : Byte → List Byte → Prop} {role : Prop} {s t : State} (h : Does W role s t)
    (hW : ∀ c out, W c out → isWriteCmd c = true → c = 0x27) : RoleBits s t := by
  induction h with
  | refl => exact roleBits_of_settings rfl
  | own _ ho ih => exact ih.trans (roleBits_of_settings (kept_own ho).settings)
  | bytes os _ ih => exact ih.trans (roleBits_of_settings (exchange_kept os _).settings)
  | burst c out hw _ ih => exact ih.trans (roleBits_window (burstTx_window c out _) (hW c out hw))
  | read c n hc _ ih => exact ih.trans (roleBits_of_settings (kept_readTx hc n _).settings)
  | ce l _ ih => exact ih.trans (roleBits_of_settings (kept_setCe l _).settings)
  | wait us _ ih => exact ih.trans (roleBits_of_settings (kept_waitFor us _).settings)
  | config f _ hf _ ih => exact ih.trans (roleBits_updateConfig hf _)

theorem Does.roleBits_of_higher {i : Instr} {role : Prop} {s t : State} (h : Does (MayWrite i) role s t)
    (hi : isHigherLevel i = true) : RoleBits s t := h.roleBits fun _ _ hw hc => (hw hi hc).1

/-- Settles O55: only updates of CONFIG, and STATUS writes, which change flags, are among what these operations do. -/
theorem onlyRoleBitsChange : Obligations.OnlyRoleBitsChange := by
  refine ⟨fun i s t hi hn h => ?_, fun p s t hop h => ?_⟩
  · have hr := (exec_does hn (by rintro rfl; cases hi) h).roleBits_of_higher hi
    exact ⟨hr.others, xor_and_eq_zero hr.config⟩
  · rw [step_of_send s p hop] at h
    obtain rfl := Host.Outcome.next.inj h
    have hr := (pollPass_does (i := .sendMessage []) (by decide) (by decide) s).roleBits_of_higher rfl
    exact ⟨hr.others, xor_and_eq_zero hr.config⟩

end Sys2Proof.Proofs
end

section
/-!
The start of a send and its polling loop (R201–R203, R212), and the interrupt path (R260, R280–R284).
-/

namespace Sys2Proof.Proofs

open Sys2Proof.Machine Sys2Proof.Laws

/-! ### sendMessage -/

theorem exec_sendMessage_eq {s : State} {p : List Byte} (hi : s.initialised = true) (hl : p.length ≤ 32) :
    exec (.sendMessage p) s = .next (pollPass (sendStart p (begin (.sendMessage p) s))) := by
  simp only [exec, execSendMessage]
  rw [if_pos hi, if_pos hl]

theorem getElem?_append_of_some {α : Type} {a : List α} {k : Nat} {x : α} (h : a[k]? = some x) (b : List α) :
    (a ++ b)[k]? = some x := by
  rw [List.getElem?_append_left (List.getElem?_eq_some_iff.mp h).1, h]

/-- The first pass of a send, seen from its start (R201). -/
theorem sendStart_outcome {s : State} (p : List Byte) : ∃ f1 c1 f2 c2 b m, m[1]? = some c1 ∧ m[9]? = some c2 ∧
    ((pollDecision s.params b 1 = .again ∧
        PollsAgain p (sendEvents s.cfg p f1 c1 f2 c2) 4 b m (if s.params.pollBound.isSome then 1 else 0)
          (some .transmitting) { s with pc := 0 } (pollPass (sendStart p (begin (.sendMessage p) s)))) ∨
      (∃ r, pollDecision s.params b 1 = .leave r ∧
        PollsOut (sendEvents s.cfg p f1 c1 f2 c2) 4 b m 0 r { s with pc := 0 }
          (pollPass (sendStart p (begin (.sendMessage p) s))))) := by
  obtain ⟨f1, c1, f2, c2, m, h, h1, h9, hq⟩ := sendStart_spec p (begin (.sendMessage p) s)
  generalize sendStart p (begin (.sendMessage p) s) = u at *
  have hd : Drives (sendEvents s.cfg p f1 c1 f2 c2) 4 { s with pc := 0 } u :=
    drives_congr h.drives rfl rfl rfl rfl rfl rfl rfl rfl rfl rfl rfl rfl rfl rfl rfl rfl rfl rfl rfl rfl
  have hk : u.regs.pollCount = 0 := hq.pollCount
  obtain ⟨b, more, -, ho⟩ := pollPass_spec p _ 4 m (some .transmitting) c2 { s with pc := 0 } u hd h.miso
    (h.op.trans rfl) ⟨hq.tmp, hq.len, hq.rxbuf, rfl, hq.initialised, hq.lastTarget⟩
  rw [hk] at ho
  exact ⟨f1, c1, f2, c2, b, m ++ more, getElem?_append_of_some h1 more, getElem?_append_of_some h9 more, ho⟩

/-- Settles O25: steps 1–5 by their law, and one pass of the loop by its own, first from the start and then from the loop. -/
theorem sendMessagePolls : Obligations.SendMessagePolls := by
  refine ⟨fun s p hi hl => ?_, fun s p hop => ?_⟩
  · obtain ⟨f1, c1, f2, c2, b, m, h⟩ := sendStart_outcome (s := s) p
    exact ⟨_, f1, c1, f2, c2, b, m, exec_sendMessage_eq hi hl, h⟩
  · obtain ⟨b, m, h⟩ := pollPass_outcome hop
    exact ⟨_, b, m, step_of_send s p hop, h⟩

/-! ### The interrupt path -/

theorem notify_taken {s : State} (hl : s.intr.edgeLatch = true) (hg : s.intr.gie = true) (during : List WorldAct) :
    notify during s = takeInterrupt during s := if_pos (by rw [hl, hg]; rfl)

theorem notify_not_taken {s : State} (h : s.intr.edgeLatch = false ∨ s.intr.gie = false) (during : List WorldAct) :
    notify during s = during.foldl applyWorld s := if_neg (by obtain h | h := h <;> simp [h])

theorem sense_edgeLatch_iff (level : Bool) (s : State) : (sense level s).intr.edgeLatch = true ↔
    s.intr.edgeLatch = true ∨ (s.intr.irqPrev = true ∧ level = false ∧ s.intr.intEn = true) := by
  simp [and_assoc]

/-- The Oracle's IRQ is the environment's (R230). -/
theorem applyWorld_irqLevel {s : State} (hm : s.params.deviceModel = .oracle) (level : Bool) :
    applyWorld s (.irqLevel level) = sense level s := by
  have h : noteAir (.irqLevel level) s = s := by unfold noteAir; rw [hm]
  rw [applyWorld, h, worldEffect, hm]

/-- A rise and a fall of IRQ while the notifier runs: the fall is latched, and the run does not serve it (R284). -/
theorem takeInterrupt_pulse {s : State} (hm : s.params.deviceModel = .oracle) (he : s.intr.intEn = true) :
    (takeInterrupt [.irqLevel true, .irqLevel false] s).intr.edgeLatch = true ∧
      (takeInterrupt [.irqLevel true, .irqLevel false] s).trace = s.trace ++ [.irq] := by
  have e : [WorldAct.irqLevel true, .irqLevel false].foldl applyWorld (notifierEnter s) =
      sense false (sense true (notifierEnter s)) := by
    rw [List.foldl_cons, applyWorld_irqLevel (s := notifierEnter s) hm]
    exact applyWorld_irqLevel (s := sense true (notifierEnter s)) hm false
  rw [takeInterrupt, e]
  simp [he]

/-- A sample never clears the latch (R280). -/
theorem refresh_edgeLatch {s : State} (h : s.intr.edgeLatch = true) : (refresh s).intr.edgeLatch = true := by
  have hi : (onRef (fun d => d.settle s.pins.ce.isHigh) s).intr = s.intr := by unfold onRef; split <;> rfl
  unfold refresh
  rw [sample_intr]
  simp [hi, h]

theorem letGo_edgeLatch {s : State} (h : s.intr.edgeLatch = true) : (letGo s).intr.edgeLatch = true := by
  refine refresh_edgeLatch ?_
  unfold onRef
  split <;> exact h

/-- A point of an environment with no choice left takes a latched edge (log 16). -/
theorem envSlot_takes {s : State} (he : s.env = []) (hg : s.intr.gie = true) : (envSlot s).intr.edgeLatch = false ∧
    (s.intr.edgeLatch = true → (envSlot s).intr.pending = true) := by
  have e : envSlot s = notify [] (letGo s) := by unfold envSlot; rw [he]
  have hg : (letGo s).intr.gie = true := (letGo_bus s).drives.gie.trans hg
  rw [e]
  cases hl : (letGo s).intr.edgeLatch with
  | true =>
    rw [notify_taken hl hg]
    exact ⟨rfl, fun _ => rfl⟩
  | false =>
    rw [notify_not_taken (.inl hl)]
    exact ⟨hl, fun h => absurd ((letGo_edgeLatch h).symm.trans hl) (by decide)⟩

theorem irqOut_eq_false_iff (d : RefDev) : d.irqOut = false ↔
    (d.regs.rxDr = true ∧ d.regs.config.getLsbD 6 = false) ∨ (d.regs.txDs = true ∧ d.regs.config.getLsbD 5 = false) ∨
      (d.regs.maxRt = true ∧ d.regs.config.getLsbD 4 = false) := by
  simp only [RefDev.irqOut, DevRegs.maskRxDr, DevRegs.maskTxDs, DevRegs.maskMaxRt, bitAt, Bool.not_eq_false',
    Bool.or_eq_true, Bool.and_eq_true, Bool.not_eq_true', or_assoc]

theorem irqOut_of_masked {d : RefDev} (h : d.regs.config.getLsbD 6 = true) (flag : Bool) :
    RefDev.irqOut { d with regs := { d.regs with rxDr := flag } } = d.irqOut := by
  simp only [RefDev.irqOut, DevRegs.maskRxDr, DevRegs.maskTxDs, DevRegs.maskMaxRt, bitAt, h, Bool.not_true, Bool.and_false]

/-- The one sample that leaves a fall out keeps the latch as it was (log 35). -/
theorem sample_of_spared {s : State} (h : spared s = true) (level : Bool) : sample level s = { sense level s with
    intr := { (sense level s).intr with edgeLatch := s.intr.edgeLatch } } := by
  simp [sample, h]

theorem refresh_irq (s : State) : (s.params.deviceModel = .reference → (refresh s).pins.irq = (refresh s).ref.irqOut) ∧
    (s.params.deviceModel = .regFile → (refresh s).pins.irq = true) := by
  constructor <;> intro hm <;> simp [refresh, onRef, irqLevel, hm]

theorem onRef_edgeLatch (f : RefDev → RefDev) (s : State) : (onRef f s).intr.edgeLatch = s.intr.edgeLatch := by
  unfold onRef; split <;> rfl

/-- Settles O48: one lemma for each part of the path. -/
theorem interruptPath : Obligations.InterruptPath := by
  refine ⟨fun s level => ⟨rfl, sense_edgeLatch_iff level s, rfl, rfl, rfl, rfl⟩,
    ⟨fun s during hl hg => (notify_taken hl hg during).trans rfl, fun s during h => notify_not_taken h during,
      fun s hm hl hg he => ?_, fun s he hg => envSlot_takes he hg⟩,
    ⟨irqOut_eq_false_iff, fun d flag h => irqOut_of_masked h flag⟩, fun s => ?_⟩
  · obtain ⟨hp, ht⟩ := takeInterrupt_pulse hm he
    rw [notify_taken hl hg, notify_taken hl hg, ht]
    exact ⟨rfl, rfl, hp, by simp⟩
  · intro t left
    refine ⟨fun hn => sample_eq_sense ?_, fun hs => ?_, (refresh_irq s).1, (refresh_irq s).2, fun hm level => ?_⟩
    · exact Bool.eq_false_iff.mpr fun h => hn ((spared_iff t).mp h)
    · rw [← onRef_edgeLatch (fun d => d.settle s.pins.ce.isHigh) s]
      exact sample_of_spared ((spared_iff t).mpr hs) _
    · rw [applyWorld_irqLevel hm]
      rfl

end Sys2Proof.Proofs
end

section
/-!
W_REGISTER bit by bit (R30–R50, R234, R235): the data as one value, the mask of what may be written, and what each register
reads as afterwards.
-/

namespace Sys2Proof.Proofs

open Sys2Proof.Machine Sys2Proof.Laws

/-! ### The bits of the data and of the masks -/

/-- Bit `b` of data byte `j`, least significant byte first (R73). -/
theorem packBytes_getLsbD (ds : List Byte) {j b : Nat} (hj : j < 5) (hb : b < 8) :
    (packBytes ds).getLsbD (8 * j + b) = (ds.getD j 0).getLsbD b := by
  induction ds generalizing j with
  | nil => simp [packBytes]
  | cons d ds ih =>
    cases j with
    | zero =>
      have h40 : b < 40 := by omega
      simp [packBytes, hb, h40]
    | succ j =>
      have h := ih (j := j) (by omega)
      have h40 : 8 * (j + 1) + b < 40 := by omega
      have h8 : ¬ 8 * (j + 1) + b < 8 := by omega
      have e : 8 * (j + 1) + b - 8 = 8 * j + b := by omega
      have hd : (d.zeroExtend 40).getLsbD (8 * (j + 1) + b) = false :=
        (BitVec.getLsbD_setWidth ..).trans (by rw [BitVec.getLsbD_of_ge d _ (by omega), Bool.and_false])
      rw [packBytes, BitVec.getLsbD_or, BitVec.getLsbD_shiftLeft, e, h, hd]
      simp [h40, h8]

theorem bytesMask_getLsbD (k : Nat) {j b : Nat} (hj : j < 5) (hb : b < 8) :
    (bytesMask k).getLsbD (8 * j + b) = decide (j < k) := by
  have h40 : 8 * j + b < 40 := by omega
  simp only [bytesMask, BitVec.getLsbD_ofNat, h40, decide_true, Bool.true_and, Nat.testBit_two_pow_sub_one]
  exact decide_eq_decide.mpr (by omega)

theorem mergeBits_getLsbD (old data mask : Word40) (i : Nat) (hi : i < 40) :
    (mergeBits old data mask).getLsbD i = if mask.getLsbD i then data.getLsbD i else old.getLsbD i := by
  simp only [mergeBits, BitVec.getLsbD_or, BitVec.getLsbD_and, BitVec.getLsbD_not, hi, decide_true, Bool.true_and]
  cases mask.getLsbD i <;> simp

theorem mergeBits_zero (old data : Word40) : mergeBits old data 0 = old := by
  apply BitVec.eq_of_getLsbD_eq
  intro i hi
  rw [mergeBits_getLsbD _ _ _ i hi]
  exact if_neg (by simp)

/-- A one-byte register holds the merged value whole when nothing above its byte may be written. -/
theorem mergeBits_byte (x : Byte) (data m k : Word40) (hm : m &&& 0xFFFFFFFF00 = 0) :
    ((mergeBits (x.zeroExtend 40) data (m &&& k)).setWidth 8).zeroExtend 40 = mergeBits (x.zeroExtend 40) data (m &&& k) := by
  apply BitVec.eq_of_getLsbD_eq
  intro i hi
  have hm := congrArg (BitVec.getLsbD · i) hm
  rw [mergeBits_getLsbD _ _ _ i hi]
  simp only [BitVec.truncate_eq_setWidth, BitVec.getLsbD_setWidth, hi, decide_true, Bool.true_and, mergeBits_getLsbD _ _ _ i hi]
  by_cases h8 : i < 8
  · simp [h8]
  · have hk : (0xFFFFFFFF00 : Word40).getLsbD i = true := by interval_cases i <;> rfl
    have hm : m.getLsbD i = false := by
      simp only [BitVec.getLsbD_and, hk, Bool.and_true] at hm
      exact hm.trans BitVec.getLsbD_zero
    have hx : x.getLsbD i = false := BitVec.getLsbD_of_ge x i (by omega)
    simp [h8, hm, hx]

/-! ### What a write does -/

/-- A write that takes effect, but on STATUS (R234). -/
theorem writeReg_of_stored (d : RefDev) {a : RegAddr} {data : List Byte} (hr : isReserved a = false) (ha : a ≠ 0x07)
    (hd : data ≠ []) (hl : d.regs.width a ≤ data.length) :
    d.writeReg a data = { d with
      regs := d.regs.store a (mergeBits (d.regValue a) (packBytes (data.take (d.regs.width a)))
        (rwMask a &&& bytesMask (d.regs.width a))) } := by
  unfold RefDev.writeReg
  rw [if_neg (by simp [hr, hd, hl]), if_neg ha]

theorem writeReg_of_ignored (d : RefDev) {a : RegAddr} {data : List Byte}
    (h : isReserved a = true ∨ data = [] ∨ data.length < d.regs.width a) : d.writeReg a data = d :=
  if_pos (by obtain h | h | h := h <;> simp [h])

theorem writeReg_status (d : RefDev) (b : Byte) (more : List Byte) :
    d.writeReg 0x07 (b :: more) = { d with regs := d.regs.clearFlags b } := by
  have h1 : isReserved 7#5 = false := by decide
  have hw : d.regs.width 0x07 = 1 := rfl
  unfold RefDev.writeReg
  rw [hw, if_neg (by simp [h1]), if_pos rfl]
  rfl

/-- The register written reads as the merged value. -/
theorem regValue_store_same (d : RefDev) (a : RegAddr) (data k : Word40) (ha : a ≠ 0x07) :
    RefDev.regValue { d with regs := d.regs.store a (mergeBits (d.regValue a) data (rwMask a &&& k)) } a =
      mergeBits (d.regValue a) data (rwMask a &&& k) := by
  have hn : a.toNat ≠ 7 := fun h => ha (BitVec.eq_of_toNat_eq h)
  have hz (v : Word40) : mergeBits v data (0 &&& k) = v := by
    rw [show 0 &&& k = 0 from BitVec.zero_and, mergeBits_zero]
  unfold DevRegs.store rwMask RefDev.regValue
  have hlt := a.isLt
  generalize a.toNat = n at *
  interval_cases n
  all_goals first
    | exact absurd rfl hn
    | rfl
    | exact mergeBits_byte _ _ _ _ (by decide)
    | exact (hz _).symm

/-- A write leaves every other register as it was, but for the lost-packet count of OBSERVE_TX (R37, R40). -/
theorem regValue_store_other (d : RefDev) (a a' : RegAddr) (v : Word40) (h : a' ≠ a) (h8 : a' ≠ 0x08) :
    RefDev.regValue { d with regs := d.regs.store a v } a' = d.regValue a' := by
  have hn : a'.toNat ≠ a.toNat := fun e => h (BitVec.eq_of_toNat_eq e)
  have hn8 : a'.toNat ≠ 8 := fun e => h8 (BitVec.eq_of_toNat_eq e)
  unfold DevRegs.store RefDev.regValue
  generalize a.toNat = n at *
  generalize a'.toNat = n' at *
  split
  all_goals first
    | rfl
    | split <;> first | rfl | exact absurd rfl hn | exact absurd rfl hn8

theorem store_observeTx (r : DevRegs) (a : RegAddr) (v : Word40) :
    (r.store a v).observeTx = if a = 0x05 then r.observeTx &&& 0x0F else r.observeTx := by
  by_cases h : a = 0x05
  · subst h
    rfl
  · rw [if_neg h]
    have hn : a.toNat ≠ 5 := fun e => h (BitVec.eq_of_toNat_eq e)
    unfold DevRegs.store
    generalize a.toNat = n at *
    split <;> first | rfl | exact absurd rfl hn

/-- Bit `b` of byte `j` of the merged value. -/
theorem merged_getLsbD (old mask : Word40) (data : List Byte) (w : Nat) {j b : Nat} (hj : j < 5) (hb : b < 8) :
    (mergeBits old (packBytes (data.take w)) (mask &&& bytesMask w)).getLsbD (8 * j + b) =
      if j < w ∧ mask.getLsbD (8 * j + b) = true then (data.getD j 0).getLsbD b else old.getLsbD (8 * j + b) := by
  rw [mergeBits_getLsbD _ _ _ _ (by omega), BitVec.getLsbD_and, bytesMask_getLsbD w hj hb, packBytes_getLsbD _ hj hb]
  by_cases hw : j < w
  · simp [hw]
  · simp [hw]

/-- Settles O42: the merged value bit by bit, and the registers one by one. -/
theorem registerWriteBits : Obligations.RegisterWriteBits := by
  refine ⟨⟨fun d a data hr ha hd hl => ?_, fun d a data h => writeReg_of_ignored d h⟩, fun d b more => writeReg_status d b more,
    fun p hp => ?_⟩
  case refine_2 => fin_cases hp <;> rfl
  rw [writeReg_of_stored d hr ha hd hl]
  refine ⟨fun j b hj hb => ?_, fun a' h h8 => regValue_store_other d a a' _ h h8, store_observeTx d.regs a _⟩
  rw [regValue_store_same d a _ _ ha]
  exact merged_getLsbD _ _ _ _ hj hb

end Sys2Proof.Proofs
end

section
/-!
The end of a send against the Reference device in an environment that makes no choice (R201, R204, R260): where steps 7 and 8
take the device, and what becomes of the interrupt on the way.
-/

namespace Sys2Proof.Proofs

open Sys2Proof.Machine Sys2Proof.Laws

/-! ### The device -/

/-- CONFIG updated by `f`, and the modes settled. -/
def configured (f : Byte → Byte) (ce : Bool) (d : RefDev) : RefDev := (d.writeReg 0x00 [f d.regs.config]).settle ce

/-- RX_DR unmasked (R201, step 7). -/
abbrev unmasked (ce : Bool) (d : RefDev) : RefDev := configured (clearBits · maskRxDrMask) ce d

/-- PRIM_RX set, and then the flags cleared (R174). -/
abbrev received (ce : Bool) (d : RefDev) : RefDev := (RefDev.writeReg (configured (setBits · primRxMask) ce d) 0x07 [0x70]).settle ce

/-- CE raised, and the 150 µs of R179 over. -/
def started (d : RefDev) : RefDev := ((d.settle true).advance Config.tSettle).settle true

/-- Where steps 7 and 8 take the device (R201). -/
abbrev restored (ce : Bool) (d : RefDev) : RefDev := started (received ce (unmasked ce d))

theorem settle_config (d : RefDev) (ce : Bool) : (d.settle ce).regs.config = d.regs.config :=
  config_of_settings (settle_settings d ce)

theorem configured_config (f : Byte → Byte) (ce : Bool) (d : RefDev) :
    (configured f ce d).regs.config = mergedConfig d.regs.config (f d.regs.config) := by
  rw [configured, settle_config, writeReg_config]

theorem received_config (ce : Bool) (d : RefDev) :
    (received ce d).regs.config = mergedConfig d.regs.config (setBits d.regs.config primRxMask) := by
  rw [received, settle_config, writeReg_status]
  exact configured_config (setBits · primRxMask) ce d

theorem started_config (d : RefDev) : (started d).regs.config = d.regs.config :=
  (settle_config _ _).trans (settle_config d true)

theorem mergedConfig_receiving (c : Byte) : mergedConfig (mergedConfig c (clearBits c maskRxDrMask))
    (setBits (mergedConfig c (clearBits c maskRxDrMask)) primRxMask) = (c &&& 0xBF) ||| 0x01 := by
  apply BitVec.eq_of_getLsbD_eq
  intro i hi
  simp only [mergedConfig, clearBits, setBits, maskRxDrMask, primRxMask]
  interval_cases i <;> simp

theorem restored_config (ce : Bool) (d : RefDev) : (restored ce d).regs.config = (d.regs.config &&& 0xBF) ||| 0x01 := by
  rw [restored, started_config, received_config, configured_config]
  exact mergedConfig_receiving _

/-- The three flags of STATUS are clear. -/
def FlagsClear (d : RefDev) : Prop := d.regs.rxDr = false ∧ d.regs.txDs = false ∧ d.regs.maxRt = false

theorem flagsClear_settle {d : RefDev} (h : FlagsClear d) (ce : Bool) : FlagsClear (d.settle ce) := by
  obtain ⟨-, -, -, -, hr, ht, hm, -⟩ := settle_keeps d ce
  obtain ⟨h1, h2, h3⟩ := h
  exact ⟨hr.trans h1, ht.trans h2, hm.trans h3⟩

theorem flagsClear_write (d : RefDev) : FlagsClear (d.writeReg 0x07 [0x70]) := by
  rw [writeReg_status]
  simp [FlagsClear, DevRegs.clearFlags, bitAt]

theorem flagsClear_started {d : RefDev} (h : FlagsClear d) : FlagsClear (started d) :=
  flagsClear_settle (d := (d.settle true).advance Config.tSettle) (flagsClear_settle h true) true

theorem flagsClear_restored (ce : Bool) (d : RefDev) : FlagsClear (restored ce d) :=
  flagsClear_started (flagsClear_settle (flagsClear_write _) ce)

theorem settle_rxFifo (d : RefDev) (ce : Bool) : (d.settle ce).rxFifo = d.rxFifo := (settle_keeps d ce).2.1

theorem writeReg_rxFifo (d : RefDev) (a : RegAddr) (data : List Byte) : (d.writeReg a data).rxFifo = d.rxFifo := by
  rw [writeReg_eq]

theorem restored_rxFifo (ce : Bool) (d : RefDev) : (restored ce d).rxFifo = d.rxFifo :=
  calc (restored ce d).rxFifo = (received ce (unmasked ce d)).rxFifo := (settle_rxFifo _ _).trans (settle_rxFifo _ _)
    _ = (unmasked ce d).rxFifo := by
      rw [received, settle_rxFifo, writeReg_rxFifo, configured, settle_rxFifo, writeReg_rxFifo]
    _ = d.rxFifo := by rw [unmasked, configured, settle_rxFifo, writeReg_rxFifo]

/-- The device is powered up and past its start-up. -/
structure Up (d : RefDev) : Prop where
  pwrUp : d.regs.pwrUp = true
  notStarting : d.mode ≠ .startUp
  notDown : d.mode ≠ .powerDown

theorem modeRule_up {d d' : RefDev} {ce : Bool} (h : d.modeRule ce = some d') (hu : Up d) : Up d' := by
  obtain ⟨hp, hs, hd⟩ := hu
  unfold RefDev.modeRule at h
  rw [hp] at h
  simp only [Bool.not_true, Bool.false_eq_true, if_false] at h
  repeat' split at h
  all_goals first
    | (cases h; done)
    | exact absurd ‹d.mode = .powerDown› hd
    | (cases h; exact ⟨hp, by simp, by simp⟩)

theorem settle_up {d : RefDev} (h : Up d) (ce : Bool) : Up (d.settle ce) :=
  settleFuel_keeps Up ce (fun _ _ => modeRule_up) 3 d h

theorem up_of_regs {d : RefDev} (h : Up d) {r : DevRegs} (hr : r.pwrUp = true) : Up { d with regs := r } :=
  ⟨hr, h.notStarting, h.notDown⟩

theorem configured_up {d : RefDev} (h : Up d) {f : Byte → Byte} (hf : bitAt (f d.regs.config) 1 = true) (ce : Bool) :
    Up (configured f ce d) := by
  rw [configured, writeReg_config]
  refine settle_up (up_of_regs h ?_) ce
  simp only [DevRegs.pwrUp, bitAt, mergedConfig, BitVec.getLsbD_or, BitVec.getLsbD_and] at hf ⊢
  simp [hf]

theorem started_up {d : RefDev} (h : Up d) : Up (started d) := by
  obtain ⟨h1, h2, h3⟩ := settle_up h true
  exact settle_up (d := (d.settle true).advance Config.tSettle) ⟨h1, h2, h3⟩ true

theorem restored_up {d : RefDev} (h : Up d) (ce : Bool) : Up (restored ce d) := by
  have h1 : Up (unmasked ce d) := configured_up h (by
    have hp : d.regs.config.getLsbD 1 = true := h.pwrUp
    simp only [clearBits, maskRxDrMask, bitAt, BitVec.getLsbD_and, hp]
    decide) ce
  have h2 : Up (configured (setBits · primRxMask) ce (unmasked ce d)) := configured_up h1 (by
    have hp : (unmasked ce d).regs.config.getLsbD 1 = true := h1.pwrUp
    simp only [setBits, bitAt, BitVec.getLsbD_or, hp]
    decide) ce
  refine started_up (settle_up ?_ ce)
  rw [writeReg_status]
  exact up_of_regs h2 h2.pwrUp

/-- A device that is up, receives and has CE high is Receiving (R56). -/
theorem opstate_of_up {d : RefDev} (h : Up d) (hr : d.regs.primRx = true) : d.opstate true = .receiving := by
  simp [RefDev.opstate, h.pwrUp, h.notStarting, hr]

theorem restored_opstate {d : RefDev} (h : Up d) (ce : Bool) : (restored ce d).opstate true = .receiving := by
  refine opstate_of_up (restored_up h ce) ?_
  rw [DevRegs.primRx, restored_config, bitAt, BitVec.getLsbD_or]
  simp

/-- A device at rest that is powered up and not starting is up (R251). -/
theorem up_of_rest {d : RefDev} {ce : Bool} (h : d.modeRule ce = none) (hp : d.regs.pwrUp = true) (hs : d.mode ≠ .startUp) :
    Up d := by
  refine ⟨hp, hs, fun hd => ?_⟩
  simp [RefDev.modeRule, hp, hd] at h

/-! ### The operations on it -/

theorem atRest_updateConfig {s : State} {d : RefDev} {ce : Bool} (h : AtRest s d ce) (f : Byte → Byte) :
    AtRest (updateConfig f s) (configured f ce d) ce := by
  obtain ⟨h1, h2⟩ := h.at_readTmp 0x00
  have h3 := (h1.at_writeReg 0x00 [f (readTmp 0x00 s).1]).ref
  rw [h2 _ (readReg_config d)] at h3
  rw [updateConfig, h2 _ (readReg_config d)]
  exact h3

theorem applyReceiving_eq (s : State) : applyState .receiving s = tick { writeReg 0x07 [0x70]
    (updateConfig (setBits · primRxMask) s) with lastTarget := some .receiving } := rfl

theorem sendRestore_eq (s : State) : sendRestore s = startReceiver (mute false (applyState .receiving
    (updateConfig (clearBits · maskRxDrMask) s))) := rfl

theorem atRest_noted {s : State} {d : RefDev} {ce : Bool} (h : AtRest s d ce) (g : OperatingState) :
    AtRest (mute false (tick { s with lastTarget := some g })) d ce := h.congr rfl rfl rfl rfl

theorem atRest_sendRestore {s : State} {d : RefDev} {ce : Bool} (h : AtRest s d ce) :
    AtRest (sendRestore s) (restored ce d) true := by
  have h1 := atRest_updateConfig (atRest_updateConfig h (clearBits · maskRxDrMask)) (setBits · primRxMask)
  have h2 := (h1.at_writeReg 0x07 [0x70]).ref
  rw [sendRestore_eq, applyReceiving_eq]
  exact ((atRest_noted h2 .receiving).at_setCe true).at_wait Config.tSettle

theorem statusByte_txDs {d : RefDev} (h : d.regs.txDs = true) : bitAt d.statusByte 5 = true := by
  simp only [bitAt, RefDev.statusByte, h, flagBit, BitVec.getLsbD_or, if_true]
  simp [bit]

theorem readReg_status (d : RefDev) : d.readReg 0x07 0 = some d.statusByte := by
  have h : d.regValue 0x07 = d.statusByte.zeroExtend 40 := rfl
  rw [RefDev.readReg, h, byteOf_zeroExtend]
  rfl

/-- With TX_DS set a pass of the loop ends the send (R201). -/
theorem pollPass_sent {s : State} {d : RefDev} {ce : Bool} (h : AtRest s d ce) (ht : d.regs.txDs = true) :
    pollPass s = finish .sent (sendRestore (readTmp 0x07 s).2) := by
  have hb : bitAt (readTmp 0x07 s).1 5 = true := by
    rw [(h.at_readTmp 0x07).2 _ (readReg_status d)]
    exact statusByte_txDs ht
  simp [pollPass, pollDecision, countPoll, hb]

/-! ### The IRQ output -/

theorem irqOut_congr {d d' : RefDev} (hc : d'.regs.config = d.regs.config) (hr : d'.regs.rxDr = d.regs.rxDr)
    (ht : d'.regs.txDs = d.regs.txDs) (hm : d'.regs.maxRt = d.regs.maxRt) :
    d'.irqOut = d.irqOut ∧ d'.onlyRxDr = d.onlyRxDr := by
  simp only [RefDev.onlyRxDr, RefDev.irqOut, DevRegs.maskRxDr, DevRegs.maskTxDs, DevRegs.maskMaxRt, hc, hr, ht, hm, and_self]

theorem settle_irqOut (d : RefDev) (ce : Bool) :
    (d.settle ce).irqOut = d.irqOut ∧ (d.settle ce).onlyRxDr = d.onlyRxDr := by
  obtain ⟨-, -, -, -, hr, ht, hm, -⟩ := settle_keeps d ce
  exact irqOut_congr (settle_config d ce) hr ht hm

theorem irqOut_of_flagsClear {d : RefDev} (h : FlagsClear d) : d.irqOut = true := by
  obtain ⟨hr, ht, hm⟩ := h
  simp [RefDev.irqOut, hr, ht, hm]

theorem mergedConfig_masks (c v : Byte) : (mergedConfig c v).getLsbD 6 = v.getLsbD 6 ∧
    (mergedConfig c v).getLsbD 5 = v.getLsbD 5 ∧ (mergedConfig c v).getLsbD 4 = v.getLsbD 4 := by
  simp [mergedConfig]

/-- The masks of TX_DS and MAX_RT, and that of RX_DR when it counts, decide the output. -/
theorem irqOut_writeReg_config (d : RefDev) (v : Byte) (h5 : v.getLsbD 5 = d.regs.config.getLsbD 5)
    (h4 : v.getLsbD 4 = d.regs.config.getLsbD 4) (h6 : d.regs.rxDr = false ∨ v.getLsbD 6 = d.regs.config.getLsbD 6) :
    (d.writeReg 0x00 [v]).irqOut = d.irqOut := by
  obtain ⟨e6, e5, e4⟩ := mergedConfig_masks d.regs.config v
  rw [writeReg_config]
  simp only [RefDev.irqOut, DevRegs.maskRxDr, DevRegs.maskTxDs, DevRegs.maskMaxRt, bitAt, e6, e5, e4, h5, h4]
  obtain h6 | h6 := h6
  · simp [h6]
  · rw [h6]

theorem onlyRxDr_of_irqOut {d : RefDev} (h : d.irqOut = true) : d.onlyRxDr = true := by
  simp only [RefDev.onlyRxDr, RefDev.irqOut, DevRegs.maskRxDr, DevRegs.maskTxDs, DevRegs.maskMaxRt] at h ⊢
  simp_all

theorem onlyRxDr_writeReg_config (d : RefDev) (v : Byte) (h5 : v.getLsbD 5 = d.regs.config.getLsbD 5)
    (h4 : v.getLsbD 4 = d.regs.config.getLsbD 4) : (d.writeReg 0x00 [v]).onlyRxDr = d.onlyRxDr := by
  have h := irqOut_writeReg_config { d with regs := { d.regs with rxDr := false } } v h5 h4 (.inl rfl)
  rw [writeReg_config] at h ⊢
  exact h

theorem clearBits_rxDr (c : Byte) : (clearBits c maskRxDrMask).getLsbD 6 = false ∧
    (clearBits c maskRxDrMask).getLsbD 5 = c.getLsbD 5 ∧ (clearBits c maskRxDrMask).getLsbD 4 = c.getLsbD 4 := by
  simp [clearBits, maskRxDrMask]

theorem setBits_primRx (c : Byte) : (setBits c primRxMask).getLsbD 6 = c.getLsbD 6 ∧
    (setBits c primRxMask).getLsbD 5 = c.getLsbD 5 ∧ (setBits c primRxMask).getLsbD 4 = c.getLsbD 4 := by
  simp [setBits, primRxMask]

/-- Unmasking an RX_DR that is set pulls IRQ low (R260). -/
theorem irqOut_unmasked {d : RefDev} (h : d.regs.rxDr = true) :
    (d.writeReg 0x00 [clearBits d.regs.config maskRxDrMask]).irqOut = false := by
  rw [writeReg_config, irqOut_eq_false_iff]
  refine .inl ⟨h, ?_⟩
  simp only [mergedConfig, BitVec.getLsbD_or, BitVec.getLsbD_and, (clearBits_rxDr d.regs.config).1]
  simp

/-! ### No edge -/

/-- The wider reading of R204 (e) leaves out a fall of `d`'s IRQ (log 35). -/
def Spares (s : State) (d : RefDev) : Prop :=
  s.params.sendUnmask = .spared ∧ s.intr.muted = true ∧ d.onlyRxDr = true

/-- The device is at rest, no edge is latched, the last level sampled is its output, and PendingReceiptFlag is `p`. -/
structure Calm (p : Bool) (s : State) (d : RefDev) (ce : Bool) : Prop extends AtRest s d ce where
  latch : s.intr.edgeLatch = false
  prev : s.intr.irqPrev = d.irqOut
  pending : s.intr.pending = p

section
variable {p : Bool} {s t : State} {d : RefDev} {ce : Bool}

theorem Calm.same (h : Calm p s d ce) (a : t.params = s.params) (b : t.env = s.env) (c : t.ref = s.ref)
    (e : t.pins.ce = s.pins.ce) (hl : t.intr.edgeLatch = s.intr.edgeLatch) (hv : t.intr.irqPrev = s.intr.irqPrev)
    (hp : t.intr.pending = s.intr.pending) : Calm p t d ce :=
  ⟨h.toAtRest.congr a b c e, hl.trans h.latch, hv.trans h.prev, hp.trans h.pending⟩

/-- A re-evaluation latches no edge when the output does not fall, or when its fall is spared. -/
theorem calm_refresh (hm : s.params.deviceModel = .reference) (he : s.env = []) (hd : s.ref = d)
    (hc : s.pins.ce.isHigh = ce) (hh : d.held = false) (hl : s.intr.edgeLatch = false) (hp : s.intr.pending = p)
    (hf : (s.intr.irqPrev = true → d.irqOut = true) ∨ Spares s d) : Calm p (refresh s) (d.settle ce) ce := by
  have hr := refresh_atRest hm he hd hc hh
  have hv : (refresh s).intr.irqPrev = (d.settle ce).irqOut := hr.2
  refine ⟨hr.1, ?_, hv, ?_⟩
  · unfold refresh
    rw [onRef_reference hm, sample_intr]
    have hlevel : irqLevel { s with ref := s.ref.settle s.pins.ce.isHigh } = d.irqOut := by
      rw [irqLevel, hm, hd]
      exact (settle_irqOut d _).1
    rw [hlevel]
    obtain hf | ⟨h1, h2, h3⟩ := hf
    · cases hi : s.intr.irqPrev <;> simp [hl, hi]
      simp [hf hi]
    · have hs : spared { s with ref := s.ref.settle s.pins.ce.isHigh } = true := by
        simp only [spared, hm, h1, h2, hd, (settle_irqOut d _).2, h3, Bool.and_self]
      simp [hl, hs]
  · unfold refresh
    rw [onRef_reference hm]
    exact hp

theorem Calm.at_refresh (h : Calm p s d ce) : Calm p (refresh s) d ce := by
  have hr := calm_refresh h.model h.env h.ref h.hce h.held h.latch h.pending (.inl fun hv => h.prev.symm.trans hv)
  rwa [settle_of_rest d ce h.rest] at hr

theorem Calm.at_onRef (h : Calm p s d ce) {f : RefDev → RefDev} (hf : f d = d) : Calm p (onRef f s) d ce := by
  have hr := h.toAtRest.at_onRef f hf
  rw [onRef_reference h.model] at hr ⊢
  exact ⟨hr, h.latch, h.prev, h.pending⟩

theorem Calm.at_envSlot (h : Calm p s d ce) : Calm p (envSlot s) d ce := by
  have hl : Calm p (letGo s) d ce := (h.at_onRef (hold_of_free h.held)).at_refresh
  have e : envSlot s = notify [] (letGo s) := by unfold envSlot; rw [h.env]
  rw [e, notify_not_taken (.inl hl.latch)]
  exact hl

theorem Calm.at_draw (h : Calm p s d ce) : Calm p (draw s).2 d ce := h.same rfl rfl rfl rfl rfl rfl rfl

theorem Calm.at_xfer (h : Calm p s d ce) (o : Byte) : Calm p (xfer o s).2 d ce := by
  have bits (ks : List Nat) (i : Byte) {u : State} (hu : Calm p u d ce) : Calm p (ks.foldl (nextBit i) u) d ce := by
    induction ks generalizing u with
    | nil => exact hu
    | cons k ks ih => exact ih (hu.at_envSlot.same rfl rfl rfl rfl rfl rfl rfl)
  have ha : Calm p (answer (envSlot s)).2 d ce := by
    obtain ⟨-, -, hr, -, -, hp, -, he, hm, hi, -⟩ := answer_keeps (envSlot s)
    exact h.at_envSlot.same hm he hr (by rw [hp]) (by rw [hi]) (by rw [hi]) (by rw [hi])
  have hb : Calm p (shiftByte o (answer (envSlot s)).1 (answer (envSlot s)).2) d ce :=
    (bits [7, 6, 5, 4, 3, 2, 1, 0] _ (ha.same (t := { (answer (envSlot s)).2 with
      shifter := { (answer (envSlot s)).2.shifter with shOut := o, shIn := 0 } }) rfl rfl rfl rfl rfl rfl rfl)).same
      rfl rfl rfl rfl rfl rfl rfl
  refine Calm.at_refresh ?_
  rw [linkTake_eq]
  exact hb.same rfl rfl rfl rfl rfl rfl rfl

theorem Calm.at_exchange (h : Calm p s d ce) (os : List Byte) : Calm p (exchange os s).2 d ce := by
  induction os generalizing s with
  | nil => exact h
  | cons o os ih => exact ih (h.at_xfer o)

theorem Calm.at_readBytes (h : Calm p s d ce) (n : Nat) : Calm p (readBytes n s).2 d ce := by
  induction n generalizing s with
  | zero => exact h
  | succ n ih => exact ih (h.at_draw.at_xfer _)

theorem Calm.at_openWindow (h : Calm p s d ce) (c : Byte) : Calm p (openWindow c s) d ce := by
  have h1 : Calm p (setCsn false s) d ce := Calm.at_refresh (h.at_envSlot.same rfl rfl rfl rfl rfl rfl rfl)
  exact (h1.at_xfer c).same rfl rfl rfl rfl rfl rfl rfl

/-- A window that ends: its command commits, and the output may fall only if that is spared. -/
theorem Calm.at_setCsn_true (h : Calm p s d ce) {n : Nat} {c : Byte} {data : List Byte}
    (hl : s.link = { inTxn := true, idx := n, cmd := c, data := data })
    (hf : (d.irqOut = true → (d.commit c data n).irqOut = true) ∨ Spares s (d.commit c data n)) :
    Calm p (setCsn true s) ((d.commit c data n).settle ce) ce := by
  have h1 := h.at_envSlot
  have hs := envSlot_silent s
  have hmu := envSlot_muted s
  simp only [setCsn, if_true]
  generalize envSlot s = e at *
  rw [csnRise_eq (emit (.csn true) { e with pins := { e.pins with csn := .driven true } }) n c data (hs.link.trans hl)]
  have hm : (emit (.csn true) { e with pins := { e.pins with csn := .driven true } }).params.deviceModel = .reference :=
    h1.model
  rw [if_pos hm]
  refine calm_refresh h1.model h1.env (congrArg (RefDev.commit · c data n) h1.ref) h1.hce
    ((commit_held d c data n).trans h.held) h1.latch h1.pending ?_
  obtain hf | ⟨k1, k2, k3⟩ := hf
  · exact .inl fun hv => hf (h1.prev.symm.trans hv)
  · exact .inr ⟨(congrArg Params.sendUnmask hs.params).trans k1, hmu.trans k2, k3⟩

theorem Calm.at_readTmp (h : Calm p s d ce) (addr : Nat) : Calm p (readTmp addr s).2 d ce := by
  obtain ⟨h1, h2, h3, h4, -, -, h7⟩ := readCmd_props addr
  obtain ⟨fill, hf, -, hl⟩ := readBytes_link 1 (openWindow (cmdReg opRead (maskAddr addr)) s) 0 _ [] (openWindow_link _ s)
  have hc : d.commit (cmdReg opRead (maskAddr addr)) ([] ++ fill) (0 + 1 + 1) = d := by
    rw [commit_read d _ _ [] _ h1 h2 h3 h4, h7]
  have hr := ((h.at_openWindow _).at_readBytes 1).at_setCsn_true hl (.inl fun ho => by rw [hc]; exact ho)
  rw [hc, settle_of_rest d ce h.rest] at hr
  exact hr.same rfl rfl rfl rfl rfl rfl rfl

theorem exchange_params (os : List Byte) (s : State) : (exchange os s).2.params = s.params := (exchange_bus os s).drives.params

theorem openWindow_params (c : Byte) (s : State) : (openWindow c s).params = s.params := (openWindow_bus c s).drives.params

theorem Calm.at_writeReg (h : Calm p s d ce) (addr : Nat) (data : List Byte)
    (hf : (d.irqOut = true → (d.writeReg (BitVec.ofNat 5 addr) data).irqOut = true) ∨
      Spares s (d.writeReg (BitVec.ofNat 5 addr) data)) :
    Calm p (writeReg addr data s) ((d.writeReg (BitVec.ofNat 5 addr) data).settle ce) ce := by
  have hl := exchange_link data (openWindow (cmdReg opWrite (maskAddr addr)) s) 0 _ [] (openWindow_link _ s)
  rw [show 0 + 1 + data.length = data.length + 1 by omega, List.nil_append] at hl
  have hc := writeCmd_props addr d data data.length
  have hr := ((h.at_openWindow _).at_exchange data).at_setCsn_true hl (by
    rw [hc, Spares, exchange_params, openWindow_params, exchange_muted, openWindow_muted]
    exact hf)
  rw [hc] at hr
  exact hr

theorem Calm.at_setCe (h : Calm p s d ce) (l : Bool) : Calm p (setCe l s) (d.settle l) l := by
  have h1 : Calm p (fireDue (envSlot s)) d ce := (h.at_envSlot.at_onRef (fireDue_of_free h.held)).at_refresh
  exact calm_refresh (s := emit (.ce l) { fireDue (envSlot s) with pins := { (fireDue (envSlot s)).pins with ce := .driven l } })
    h1.model h1.env h1.ref rfl h1.held h1.latch h1.pending (.inl fun hv => h1.prev.symm.trans hv)

theorem Calm.at_waitFor (h : Calm p s d ce) (us : Nat) : Calm p (waitFor us s) ((d.advance us).settle ce) ce := by
  have h1 := h.at_envSlot
  have h2 := h1.at_envSlot
  simp only [waitFor, h1.ref, h2.ref, Nat.sub_self, Nat.sub_zero]
  generalize envSlot (envSlot s) = e at *
  rw [onRef_reference h2.model]
  exact calm_refresh (s := emit (.wait us) { e with ref := e.ref.advance us }) (d := d.advance us) h2.model h2.env
    (congrArg (RefDev.advance · us) h2.ref) h2.hce h2.held h2.latch h2.pending (.inl fun hv => h2.prev.symm.trans hv)

theorem Calm.at_updateConfig (h : Calm p s d ce) (f : Byte → Byte)
    (hf : (d.irqOut = true → (d.writeReg 0x00 [f d.regs.config]).irqOut = true) ∨
      Spares s (d.writeReg 0x00 [f d.regs.config])) : Calm p (updateConfig f s) (configured f ce d) ce := by
  have e := (h.toAtRest.at_readTmp 0x00).2 _ (readReg_config d)
  rw [updateConfig, e]
  refine (h.at_readTmp 0x00).at_writeReg 0x00 [f d.regs.config] ?_
  rw [Spares, (keeps_readTmp 0x00 s).params, readTmp_muted]
  exact hf

/-- Steps 7 and 8 of a send make no edge when RX_DR is clear, and none that counts when it is spared (R204 (e), log 35). -/
theorem Calm.at_sendRestore (h : Calm p s d ce)
    (hf : (s.params.sendUnmask = .spared ∧ s.intr.muted = true) ∨ d.regs.rxDr = false) :
    Calm p (sendRestore s) (restored ce d) true := by
  obtain ⟨-, k5, k4⟩ := clearBits_rxDr d.regs.config
  have h1 : Calm p _ (unmasked ce d) ce := h.at_updateConfig (clearBits · maskRxDrMask) (by
    obtain ⟨hs, hm⟩ | hr := hf
    · cases ho : d.irqOut
      · exact .inl fun h => absurd h (by decide)
      · exact .inr ⟨hs, hm, (onlyRxDr_writeReg_config d _ k5 k4).trans (onlyRxDr_of_irqOut ho)⟩
    · exact .inl fun ho => (irqOut_writeReg_config d _ k5 k4 (.inl hr)).trans ho)
  obtain ⟨j6, j5, j4⟩ := setBits_primRx (unmasked ce d).regs.config
  have h2 := h1.at_updateConfig (setBits · primRxMask)
    (.inl fun ho => (irqOut_writeReg_config (unmasked ce d) _ j5 j4 (.inr j6)).trans ho)
  have h3 := h2.at_writeReg 0x07 [0x70] (.inl fun _ => irqOut_of_flagsClear (flagsClear_write _))
  rw [sendRestore_eq, applyReceiving_eq]
  have noted {w : State} {e : RefDev} (hw : Calm p w e ce) :
      Calm p (mute false (tick { w with lastTarget := some .receiving })) e ce := hw.same rfl rfl rfl rfl rfl rfl rfl
  exact ((noted h3).at_setCe true).at_waitFor Config.tSettle

/-! ### The edge of step 7 -/

/-- The level last sampled, after a point of a silent environment, is the device's output (R280). -/
theorem envSlot_prev (h : AtRest s d ce) : (envSlot s).intr.irqPrev = d.irqOut := by
  have hl := (h.at_onRef (fun d => d.hold false) (hold_of_free h.held)).refresh_rest.2
  have hv : (letGo s).intr.irqPrev = d.irqOut := hl
  have e : envSlot s = notify [] (letGo s) := by unfold envSlot; rw [h.env]
  rw [e, notify]
  split <;> exact hv

/-- A re-evaluation latches a fall of the output that is not spared (R260, R280, log 35). -/
theorem refresh_edge (hm : s.params.deviceModel = .reference) (hd : s.ref = d) (hv : s.intr.irqPrev = true)
    (hi : s.intr.intEn = true) (hlow : d.irqOut = false) (hs : s.params.sendUnmask = .taken ∨ s.intr.muted = false) :
    (refresh s).intr.edgeLatch = true := by
  have ht : spared { s with ref := s.ref.settle s.pins.ce.isHigh } = false := by
    refine Bool.eq_false_iff.mpr fun h => ?_
    obtain ⟨-, k1, k2, -⟩ := (spared_iff _).mp h
    obtain hs | hs := hs
    · exact absurd (hs.symm.trans k1) (by decide)
    · exact absurd (hs.symm.trans k2) (by decide)
  unfold refresh
  rw [onRef_reference hm, sample_eq_sense ht]
  simp [sense, irqLevel, hm, hd, (settle_irqOut d _).1, hlow, hv, hi]

/-- The end of a window whose command pulls IRQ low is an edge (R260, R280). -/
theorem setCsn_true_edge (h : AtRest s d ce) {n : Nat} {c : Byte} {data : List Byte}
    (hl : s.link = { inTxn := true, idx := n, cmd := c, data := data }) (hi : s.intr.intEn = true)
    (hs : s.params.sendUnmask = .taken ∨ s.intr.muted = false) (hhigh : d.irqOut = true)
    (hlow : (d.commit c data n).irqOut = false) : (setCsn true s).intr.edgeLatch = true := by
  have h1 := h.at_envSlot
  have hv := (envSlot_prev h).trans hhigh
  have he := envSlot_silent s
  have hmu := envSlot_muted s
  have hen := (envSlot_bus s).drives.intEn.trans hi
  simp only [setCsn, if_true]
  generalize envSlot s = e at *
  rw [csnRise_eq (emit (.csn true) { e with pins := { e.pins with csn := .driven true } }) n c data (he.link.trans hl)]
  have hm : (emit (.csn true) { e with pins := { e.pins with csn := .driven true } }).params.deviceModel = .reference :=
    h1.model
  rw [if_pos hm]
  exact refresh_edge h1.model (congrArg (RefDev.commit · c data n) h1.ref) hv hen hlow
    (hs.imp ((congrArg Params.sendUnmask he.params).trans ·) (hmu.trans ·))

/-- Step 7 of a send latches the edge of an RX_DR that is set, unless it is spared (R260, R280, log 35). -/
theorem unmask_edge (h : AtRest s d ce) (hi : s.intr.intEn = true)
    (hs : s.params.sendUnmask = .taken ∨ s.intr.muted = false) (hhigh : d.irqOut = true) (hr : d.regs.rxDr = true) :
    (updateConfig (clearBits · maskRxDrMask) s).intr.edgeLatch = true := by
  obtain ⟨h1, h2⟩ := h.at_readTmp 0x00
  have e := h2 _ (readReg_config d)
  have hk := keeps_readTmp 0x00 s
  have hmu := readTmp_muted 0x00 s
  rw [updateConfig, e]
  generalize (readTmp 0x00 s).2 = u at *
  have hl := exchange_link [clearBits d.regs.config maskRxDrMask] (openWindow (cmdReg opWrite (maskAddr 0x00)) u) 0 _ []
    (openWindow_link _ u)
  have hc := writeCmd_props 0x00 d [clearBits d.regs.config maskRxDrMask] 1
  refine setCsn_true_edge ((h1.at_open _).1.at_exchange [clearBits d.regs.config maskRxDrMask]) hl ?_ ?_ hhigh ?_
  · exact (exchange_bus _ _).drives.intEn.trans ((openWindow_bus _ u).drives.intEn.trans (hk.intEn.trans hi))
  · rw [exchange_params, openWindow_params, exchange_muted, openWindow_muted, hk.params, hmu]
    exact hs
  · rw [List.nil_append]
    exact (congrArg RefDev.irqOut hc).trans (irqOut_unmasked hr)

theorem keeps_updateConfig (f : Byte → Byte) (s : State) : Keeps s (updateConfig f s) :=
  (keeps_readTmp 0x00 s).trans (keeps_writeReg 0x00 [f (readTmp 0x00 s).1] (readTmp 0x00 s).2)

theorem pending_of_bus {evs : List Drive} (h : Bus evs s t) (hp : s.intr.pending = true) : t.intr.pending = true :=
  h.drives.pending.mpr (.inl hp)

/-- A latched edge is taken at the first point of the next window (log 16). -/
theorem pending_setCsn_false (he : s.env = []) (hl : s.intr.edgeLatch = true) (hg : s.intr.gie = true) :
    (setCsn false s).intr.pending = true := by
  have hp := (envSlot_takes he hg).2 hl
  have hb : Bus [] (csnFall (emit (.csn false) { envSlot s with pins := { (envSlot s).pins with csn := .driven false } }))
      (setCsn false s) := refresh_bus _
  exact pending_of_bus hb hp

theorem pending_readTmp (he : s.env = []) (hl : s.intr.edgeLatch = true) (hg : s.intr.gie = true) (addr : Nat) :
    (readTmp addr s).2.intr.pending = true := by
  have h1 := pending_setCsn_false he hl hg
  have h2 : (openWindow (cmdReg opRead (maskAddr addr)) s).intr.pending = true := 
    pending_of_bus ((xfer_bus (cmdReg opRead (maskAddr addr)) (setCsn false s)).setStatus _) h1
  obtain ⟨fill, -, hb⟩ := readBytes_bus 1 (openWindow (cmdReg opRead (maskAddr addr)) s)
  exact (pending_of_bus (setCsn_bus true (readBytes 1 (openWindow (cmdReg opRead (maskAddr addr)) s)).2) (pending_of_bus hb h2) :)

/-- An edge latched before step 8 is taken in it (R201, R281). -/
theorem pending_restart (he : s.env = []) (hl : s.intr.edgeLatch = true) (hg : s.intr.gie = true) :
    (startReceiver (mute false (applyState .receiving s))).intr.pending = true := by
  have h1 := pending_readTmp he hl hg 0x00
  have h2 := pending_of_bus (arm_bus .receiving (readTmp 0x00 s).1 (readTmp 0x00 s).2) h1
  have h3 : (applyState .receiving s).intr.pending = true := h2
  generalize applyState .receiving s = t at h3
  exact (startReceiver_does (i := .startListening) (mute false t)).keeps.pending h3

theorem pending_sendRestore (h : AtRest s d ce) (hi : s.intr.intEn = true) (hg : s.intr.gie = true)
    (hs : s.params.sendUnmask = .taken ∨ s.intr.muted = false) (hhigh : d.irqOut = true) (hr : d.regs.rxDr = true) :
    (sendRestore s).intr.pending = true := by
  have hg := (keeps_updateConfig (clearBits · maskRxDrMask) s).gie.trans hg
  rw [sendRestore_eq]
  exact pending_restart (atRest_updateConfig h _).env (unmask_edge h hi hs hhigh hr) hg

end

theorem sendRestore_ce (s : State) : (sendRestore s).pins.ce = .driven true := by
  rw [sendRestore_eq]
  exact (startReceiver_act _).2

/-- Settles O29: where steps 7 and 8 take the device, and the two ways of the interrupt. -/
theorem sendLeavesReceiving : Obligations.SendLeavesReceiving := by
  intro s p hop hq htx hpw hst
  have hs := quiet_atRest hq
  obtain ⟨hu, -⟩ := hs.at_readTmp 0x07
  have hr := atRest_sendRestore hu
  have hup := up_of_rest hq.rest hpw hst
  obtain ⟨hrx, htd, hmr⟩ := flagsClear_restored s.pins.ce.isHigh s.ref
  have hce := sendRestore_ce (readTmp 0x07 s).2
  refine ⟨finish .sent (sendRestore (readTmp 0x07 s).2), ?_, rfl, rfl, hce, ?_, ?_, ?_, ?_, ?_, ?_,
    fun hint hl hf => ?_, fun hint hen hrxs hsp hirq => ?_⟩
  · rw [step_of_send s p hop, pollPass_sent hs htx]
  · rw [finish_ref, hr.ref, restored_opstate hup]
  · rw [finish_ref, hr.ref, restored_config]
  · rw [finish_ref, hr.ref, hrx]
  · rw [finish_ref, hr.ref, htd]
  · rw [finish_ref, hr.ref, hmr]
  · rw [finish_ref, hr.ref, restored_rxFifo]
  · obtain ⟨-, -, hprev, hlev⟩ := hint
    have hout : s.ref.irqOut = s.pins.irq := by rwa [irqLevel, hq.model] at hlev
    have hc : Calm s.intr.pending s s.ref s.pins.ce.isHigh := ⟨hs, hl, hprev.trans hout.symm, rfl⟩
    have hc := (hc.at_readTmp 0x07).at_sendRestore (by
      rw [(keeps_readTmp 0x07 s).params, readTmp_muted]
      exact hf)
    exact ⟨hc.latch, hc.pending⟩
  · obtain ⟨hgie, -, -, hlev⟩ := hint
    have hout : s.ref.irqOut = s.pins.irq := by rwa [irqLevel, hq.model] at hlev
    have hk := keeps_readTmp 0x07 s
    rw [finish_intr]
    have hsp : (readTmp 0x07 s).2.params.sendUnmask = .taken ∨ (readTmp 0x07 s).2.intr.muted = false := by
      rwa [hk.params, readTmp_muted]
    exact pending_sendRestore hu (hk.intEn.trans hen) (hk.gie.trans (hgie.trans hen)) hsp (hout.trans hirq) hrxs

end Sys2Proof.Proofs
end

section
/-!
The interrupt is invisible (R151, R283): states that differ only in what the notifier writes, and in where it is yet to run,
are alike, and every shared operation takes alike states to alike states and gives the same bytes in both.
-/

namespace Sys2Proof.Proofs

open Sys2Proof.Machine Sys2Proof.Laws

/-! ### Alike states -/

/-- The two states differ only in what the notifier writes, and in where it is yet to run. -/
def Alike (s t : State) : Prop := forgetNotifier s = forgetNotifier t

/-- The same value, and alike states after it. -/
structure AlikeOut {α : Type} (p q : α × State) : Prop where
  fst : p.1 = q.1
  snd : Alike p.2 q.2

section
variable {α β : Type} {s t u : State} {p q : α × State}

theorem Alike.refl (s : State) : Alike s s := rfl

theorem Alike.symm (h : Alike s t) : Alike t s := Eq.symm h

theorem Alike.trans (h : Alike s t) (k : Alike t u) : Alike s u := Eq.trans h k

theorem Alike.forget (h : Alike s t) : forgetNotifier s = forgetNotifier t := h

/-- What is left after forgetting agrees. -/
theorem Alike.get (f : State → α) (h : Alike s t) : f (forgetNotifier s) = f (forgetNotifier t) := by rw [h.forget]

theorem Alike.cfg (h : Alike s t) : s.cfg = t.cfg := h.get State.cfg
theorem Alike.params (h : Alike s t) : s.params = t.params := h.get State.params
theorem Alike.pins (h : Alike s t) : s.pins = t.pins := h.get State.pins
theorem Alike.regs (h : Alike s t) : s.regs = t.regs := h.get State.regs
theorem Alike.op (h : Alike s t) : s.op = t.op := h.get State.op
theorem Alike.pc (h : Alike s t) : s.pc = t.pc := h.get State.pc
theorem Alike.initialised (h : Alike s t) : s.initialised = t.initialised := h.get State.initialised
theorem Alike.link (h : Alike s t) : s.link = t.link := h.get State.link
theorem Alike.ref (h : Alike s t) : s.ref = t.ref := h.get State.ref
theorem Alike.requests (h : Alike s t) : s.requests = t.requests := h.get State.requests
theorem Alike.env (h : Alike s t) : withoutNotify s.env = withoutNotify t.env := h.get State.env

/-- An update that can be made after forgetting too keeps states alike. -/
theorem Alike.map (f g : State → State) (hf : ∀ u, forgetNotifier (f u) = g (forgetNotifier u)) (h : Alike s t) :
    Alike (f s) (f t) := by
  rw [Alike, hf, hf, h]

/-- What follows a value keeps states alike if it does so for every value. -/
theorem AlikeOut.andThen {f : α → State → State} (h : AlikeOut p q) (hf : ∀ a {u v}, Alike u v → Alike (f a u) (f a v)) :
    Alike (f p.1 p.2) (f q.1 q.2) := by
  rw [h.fst]
  exact hf _ h.snd

theorem AlikeOut.bind {f : α → State → β × State} (h : AlikeOut p q)
    (hf : ∀ a {u v}, Alike u v → AlikeOut (f a u) (f a v)) : AlikeOut (f p.1 p.2) (f q.1 q.2) := by
  rw [h.fst]
  exact hf _ h.snd

/-! ### The device and the world -/

theorem Alike.sense (l : Bool) : Alike s t → Alike (sense l s) (sense l t) :=
  Alike.map _ (fun u => { u with pins := { u.pins with irq := l }, intr := { u.intr with irqPrev := l } }) fun _ => rfl

/-- A sample leaves the same pin and the same level kept, whatever it latches (R280). -/
theorem Alike.sample (l : Bool) : Alike s t → Alike (sample l s) (sample l t) :=
  Alike.map _ (fun u => { u with pins := { u.pins with irq := l }, intr := { u.intr with irqPrev := l } }) fun _ => rfl

theorem forget_onRef (f : RefDev → RefDev) (s : State) : forgetNotifier (onRef f s) = onRef f (forgetNotifier s) := by
  unfold onRef
  rw [show (forgetNotifier s).params = s.params from rfl]
  split <;> rfl

theorem Alike.onRef (f : RefDev → RefDev) : Alike s t → Alike (onRef f s) (onRef f t) := Alike.map _ _ (forget_onRef f)

theorem Alike.irqLevel (h : Alike s t) : irqLevel s = irqLevel t := h.get Machine.irqLevel

theorem Alike.refresh (h : Alike s t) : Alike (refresh s) (refresh t) := by
  have hr := h.onRef fun d => d.settle s.pins.ce.isHigh
  unfold Machine.refresh
  dsimp only
  rw [← h.pins, hr.irqLevel]
  exact hr.sample _

theorem Alike.changeRef (f : RefDev → RefDev) (h : Alike s t) :
    Alike (Machine.refresh (Machine.onRef f s)) (Machine.refresh (Machine.onRef f t)) := (h.onRef f).refresh

theorem forget_noteAir (a : WorldAct) (s : State) : forgetNotifier (noteAir a s) = noteAir a (forgetNotifier s) := by
  unfold noteAir
  rw [show (forgetNotifier s).params = s.params from rfl]
  split <;> rfl

theorem Alike.worldEffect (h : Alike s t) (a : WorldAct) : Alike (worldEffect s a) (worldEffect t a) := by
  cases a with
  | elapse us => exact h.changeRef _
  | irqLevel level =>
    unfold Machine.worldEffect
    rw [← h.params]
    dsimp only
    split
    · exact h.sense level
    · exact h
    · exact h
  | rx p payload wantsAck => exact h.changeRef _
  | txOk retries ackPayload =>
    unfold Machine.worldEffect
    rw [← h.pins]
    exact h.changeRef _
  | txFail =>
    unfold Machine.worldEffect
    rw [← h.pins]
    exact h.changeRef _
  | missed payload wantsAck => exact h
  | hold => exact h.onRef _
  | release => exact h.changeRef _

theorem Alike.applyWorld (h : Alike s t) (a : WorldAct) : Alike (applyWorld s a) (applyWorld t a) :=
  (h.map _ _ (forget_noteAir a)).worldEffect a

/-- Successive changes, each of which keeps states alike. -/
theorem Alike.foldl {f : State → α → State} (hf : ∀ a {u v}, Alike u v → Alike (f u a) (f v a)) (as : List α)
    (h : Alike s t) : Alike (as.foldl f s) (as.foldl f t) := by
  induction as generalizing s t with
  | nil => exact h
  | cons a as ih => exact ih (hf a h)

theorem Alike.world (during : List WorldAct) (h : Alike s t) :
    Alike (during.foldl Machine.applyWorld s) (during.foldl Machine.applyWorld t) :=
  h.foldl (fun a _ _ h => h.applyWorld a) during

/-! ### The notifier -/

/-- The global interrupt enable set to a value. -/
def withGie (b : Bool) (s : State) : State := { s with intr := { s.intr with gie := b } }

theorem onRef_withGie (f : RefDev → RefDev) (b : Bool) (s : State) : onRef f (withGie b s) = withGie b (onRef f s) := by
  unfold Machine.onRef
  rw [show (withGie b s).params = s.params from rfl]
  split <;> rfl

theorem refresh_withGie (b : Bool) (s : State) : refresh (withGie b s) = withGie b (refresh s) := by
  unfold Machine.refresh
  rw [onRef_withGie]
  rfl

theorem changeRef_withGie (f : RefDev → RefDev) (b : Bool) (s : State) :
    refresh (onRef f (withGie b s)) = withGie b (refresh (onRef f s)) := by rw [onRef_withGie, refresh_withGie]

/-- The world does not read the global interrupt enable. -/
theorem applyWorld_withGie (b : Bool) (s : State) (a : WorldAct) :
    applyWorld (withGie b s) a = withGie b (applyWorld s a) := by
  have hn : noteAir a (withGie b s) = withGie b (noteAir a s) := by
    unfold noteAir
    rw [show (withGie b s).params = s.params from rfl]
    split <;> rfl
  unfold Machine.applyWorld
  rw [hn]
  generalize noteAir a s = u
  cases a with
  | elapse us => exact changeRef_withGie _ b u
  | irqLevel level =>
    unfold Machine.worldEffect
    rw [show (withGie b u).params = u.params from rfl]
    dsimp only
    split <;> rfl
  | rx p payload wantsAck => exact changeRef_withGie _ b u
  | txOk retries ackPayload => exact changeRef_withGie _ b u
  | txFail => exact changeRef_withGie _ b u
  | missed payload wantsAck => rfl
  | hold => exact onRef_withGie (fun d => d.hold true) b u
  | release => exact changeRef_withGie _ b u

theorem world_withGie (b : Bool) (during : List WorldAct) (s : State) :
    during.foldl applyWorld (withGie b s) = withGie b (during.foldl applyWorld s) := by
  induction during generalizing s with
  | nil => rfl
  | cons a during ih => rw [List.foldl_cons, applyWorld_withGie, ih, List.foldl_cons]

/-- No edge latched. -/
def withoutLatch (s : State) : State := { s with intr := { s.intr with edgeLatch := false } }

theorem notifierEnter_eq (s : State) : notifierEnter s = withGie false (withoutLatch s) := rfl

/-- A run of the notifier leaves what happens in the world meanwhile, and what it writes itself (R281, R284). -/
theorem takeInterrupt_alike (during : List WorldAct) (hg : s.intr.gie = true) :
    Alike (takeInterrupt during s) (during.foldl applyWorld s) := by
  have hl : Alike (during.foldl Machine.applyWorld (withoutLatch s)) (during.foldl Machine.applyWorld s) :=
    Alike.world during (show Alike (withoutLatch s) s from rfl)
  have hu : (during.foldl Machine.applyWorld (withoutLatch s)).intr.gie = true :=
    (foldl_bus Machine.applyWorld applyWorld_bus during _).drives.gie.trans hg
  refine Alike.trans ?_ hl
  rw [takeInterrupt, notifierEnter_eq, world_withGie]
  generalize during.foldl Machine.applyWorld (withoutLatch s) = u at hu
  simp [Alike, forgetNotifier, withGie, ← hu]

/-- A run of the notifier is nothing but what happens in the world meanwhile. -/
theorem notify_alike (during : List WorldAct) (s : State) : Alike (notify during s) (during.foldl applyWorld s) := by
  unfold Machine.notify
  split
  next h => exact takeInterrupt_alike during (Bool.and_eq_true _ _ ▸ h).2
  next => exact Alike.refl _

theorem Alike.applyAct (a : EnvAct) (h : Alike s t) : Alike (applyAct s a) (applyAct t a) := by
  cases a with
  | world a => exact h.applyWorld a
  | notify during => exact ((notify_alike during s).trans (h.world during)).trans (notify_alike during t).symm

/-- Of a group of choices only what happens in the world counts. -/
theorem group_alike (g : List EnvAct) (s : State) :
    Alike (g.foldl applyAct s) ((g.flatMap worldOf).foldl applyAct s) := by
  induction g generalizing s with
  | nil => exact Alike.refl s
  | cons a g ih =>
    rw [List.flatMap_cons, List.foldl_append]
    have ha : Alike (applyAct s a) ((worldOf a).foldl Machine.applyAct s) := by
      cases a with
      | world a => exact Alike.refl _
      | notify during =>
        unfold worldOf
        rw [List.foldl_map]
        exact notify_alike during s
    exact (ih _).trans (ha.foldl (fun a _ _ h => h.applyAct a) _)

theorem Alike.letGo (h : Alike s t) : Alike (letGo s) (letGo t) := h.changeRef _

theorem Alike.withEnv {e e' : List (List EnvAct)} (he : withoutNotify e = withoutNotify e') (h : Alike s t) :
    Alike { s with env := e } { t with env := e' } := by
  show ({ forgetNotifier s with env := withoutNotify e } : State) = { forgetNotifier t with env := withoutNotify e' }
  rw [h.forget, he]

theorem envSlot_of_nil (hs : s.env = []) : envSlot s = notify [] (letGo s) := by
  unfold Machine.envSlot
  rw [hs]

theorem envSlot_of_cons {g : List EnvAct} {rest : List (List EnvAct)} (hs : s.env = g :: rest) :
    envSlot s = g.foldl applyAct { s with env := rest } := by
  unfold Machine.envSlot
  rw [hs]

theorem withoutNotify_cons (g : List EnvAct) (rest : List (List EnvAct)) :
    withoutNotify (g :: rest) = g.flatMap worldOf :: withoutNotify rest := rfl

theorem Alike.env_nil_iff (h : Alike s t) : s.env = [] ↔ t.env = [] := by
  have he := congrArg List.length h.env
  simp only [withoutNotify, List.length_map] at he
  rw [← List.length_eq_zero_iff, he, List.length_eq_zero_iff]

/-- A point of the environment (R283): the groups taken agree in what happens in the world. -/
theorem Alike.envSlot (h : Alike s t) : Alike (envSlot s) (envSlot t) := by
  cases hs : s.env with
  | nil =>
    rw [envSlot_of_nil hs, envSlot_of_nil (h.env_nil_iff.mp hs)]
    exact ((notify_alike [] _).trans h.letGo).trans (notify_alike [] _).symm
  | cons g rest =>
    obtain ⟨g', rest', ht⟩ := List.exists_cons_of_ne_nil fun ht => List.cons_ne_nil g rest (hs ▸ h.env_nil_iff.mpr ht)
    have he := h.env
    rw [hs, ht, withoutNotify_cons, withoutNotify_cons] at he
    obtain ⟨hg, hrest⟩ := List.cons.inj he
    have hw := (h.withEnv hrest).foldl (fun a _ _ h => h.applyAct a) (g.flatMap worldOf)
    rw [envSlot_of_cons hs, envSlot_of_cons ht]
    refine ((group_alike g _).trans hw).trans ?_
    rw [hg]
    exact (group_alike g' _).symm

end
end Sys2Proof.Proofs
end

section
/-!
Alike states and the operations: each exchange, window and composite operation takes alike states to alike states, and gives
the same bytes in both (R120–R139, R165–R214).
-/

namespace Sys2Proof.Proofs

open Sys2Proof.Machine Sys2Proof.Laws

section
variable {α β : Type} {s t u : State} {p q : α × State}

/-! ### The bus -/

/-- An update that reads and writes nothing that is forgotten keeps states alike. -/
theorem Alike.own (h : Alike s t) (f : State → State) (hf : ∀ u, forgetNotifier (f u) = f (forgetNotifier u) := by
    exact fun _ => rfl) : Alike (f s) (f t) := h.map f f hf

/-- The same for an update with the value given. -/
theorem AlikeOut.own (h : AlikeOut p q) (f : α → State → State)
    (hf : ∀ a u, forgetNotifier (f a u) = f a (forgetNotifier u) := by exact fun _ _ => rfl) :
    Alike (f p.1 p.2) (f q.1 q.2) := h.andThen fun a _ _ h => h.own (f a) (hf a)

theorem Alike.emit {e : Event} (he : e ≠ .irq) : Alike s t → Alike (emit e s) (emit e t) :=
  Alike.map _ (Machine.emit e) fun u => by simp [forgetNotifier, Machine.emit, he]

theorem forget_commitDevice (u : State) : forgetNotifier (commitDevice u) = commitDevice (forgetNotifier u) := by
  unfold Machine.commitDevice
  rw [show (forgetNotifier u).params = u.params from rfl, show (forgetNotifier u).link = u.link from rfl]
  repeat' split
  all_goals rfl

theorem Alike.commitDevice : Alike s t → Alike (commitDevice s) (commitDevice t) := Alike.map _ _ forget_commitDevice

theorem Alike.csnRise (h : Alike s t) : Alike (csnRise s) (csnRise t) := by
  unfold Machine.csnRise
  rw [← h.link]
  split
  · exact h.commitDevice.own fun u => { u with link := { u.link with inTxn := false } }
  · exact h

theorem Alike.setCsn (l : Bool) (h : Alike s t) : Alike (setCsn l s) (setCsn l t) := by
  have hp := h.envSlot.own fun u => { u with pins := { u.pins with csn := .driven l } }
  have he := hp.emit (e := .csn l) (by simp)
  refine Alike.refresh ?_
  cases l
  · exact he.own csnFall
  · exact he.csnRise

theorem Alike.fireDue (h : Alike s t) : Alike (fireDue s) (fireDue t) := h.changeRef _

theorem Alike.setCe (l : Bool) (h : Alike s t) : Alike (setCe l s) (setCe l t) :=
  ((h.envSlot.fireDue.own fun u => { u with pins := { u.pins with ce := .driven l } }).emit (by simp)).refresh

theorem Alike.waitFor (us : Nat) (h : Alike s t) : Alike (waitFor us s) (waitFor us t) := by
  unfold Machine.waitFor
  dsimp only
  rw [← h.envSlot.ref, ← h.envSlot.envSlot.ref]
  exact ((h.envSlot.envSlot.onRef _).emit (by simp)).refresh

/-! ### The byte exchange -/

theorem Alike.draw (h : Alike s t) : AlikeOut (draw s) (draw t) :=
  ⟨congrArg Config.freeByte (h.get State.draws), h.own fun u => { u with draws := u.draws + 1 }⟩

theorem Alike.orDraw (b : Option Byte) (h : Alike s t) : AlikeOut (orDraw b s) (orDraw b t) := by
  cases b with
  | none => exact h.draw
  | some v => exact ⟨rfl, h⟩

theorem Alike.oracleByte (h : Alike s t) : AlikeOut (oracleByte s) (oracleByte t) := by
  have hm : s.oracleMiso = t.oracleMiso := h.get State.oracleMiso
  unfold Machine.oracleByte
  rw [← hm]
  split
  · exact h.draw
  next b rest _ => exact ⟨rfl, h.own fun u => { u with oracleMiso := rest }⟩

theorem Alike.answer (h : Alike s t) : AlikeOut (answer s) (answer t) := by
  have hf : regFileAnswer s = regFileAnswer t := h.get regFileAnswer
  have hr : referenceAnswer s = referenceAnswer t := h.get referenceAnswer
  unfold Machine.answer
  rw [← h.link, ← h.params, ← hf, ← hr]
  repeat' split
  · exact h.oracleByte
  · exact h.orDraw _
  · exact h.orDraw _
  · exact h.draw

theorem Alike.nextBit (i : Byte) (k : Nat) (h : Alike s t) : Alike (nextBit i s k) (nextBit i t k) :=
  h.envSlot.own fun u => shiftBit i u k

theorem Alike.shiftByte (o i : Byte) (h : Alike s t) : Alike (shiftByte o i s) (shiftByte o i t) :=
  ((h.own fun u => { u with shifter := { u.shifter with shOut := o, shIn := 0 } }).foldl (fun k _ _ h => h.nextBit i k)
    [7, 6, 5, 4, 3, 2, 1, 0]).own fun u => { u with shifter := { u.shifter with bitcnt := 0 } }

theorem Alike.linkTake (o : Byte) (h : Alike s t) : Alike (linkTake o s) (linkTake o t) := by
  rw [linkTake_eq, linkTake_eq]
  exact h.own fun u => { u with link := takeLink o u.link }

theorem Alike.xfer (o : Byte) (h : Alike s t) : AlikeOut (xfer o s) (xfer o t) :=
  ⟨h.envSlot.answer.fst, h.envSlot.answer.andThen
    (f := fun i u => Machine.refresh (Machine.linkTake o (Machine.emit (.x o i) (Machine.shiftByte o i u))))
    fun i _ _ h => (((h.shiftByte o i).emit (by simp)).linkTake o).refresh⟩

/-- A byte, and then more bytes. -/
theorem AlikeOut.cons {β : Type} {p q : β × State} {f : State → List β × State} (h : AlikeOut p q)
    (hf : ∀ {u v}, Alike u v → AlikeOut (f u) (f v)) :
    AlikeOut (p.1 :: (f p.2).1, (f p.2).2) (q.1 :: (f q.2).1, (f q.2).2) :=
  ⟨by rw [h.fst, (hf h.snd).fst], (hf h.snd).snd⟩

theorem Alike.exchange (os : List Byte) (h : Alike s t) : AlikeOut (exchange os s) (exchange os t) := by
  induction os generalizing s t with
  | nil => exact ⟨rfl, h⟩
  | cons o os ih => exact (h.xfer o).cons ih

theorem Alike.readBytes (n : Nat) (h : Alike s t) : AlikeOut (readBytes n s) (readBytes n t) := by
  induction n generalizing s t with
  | zero => exact ⟨rfl, h⟩
  | succ n ih => exact (h.draw.bind (f := Machine.xfer) fun b _ _ h => h.xfer b).cons ih

/-! ### Transactions -/

theorem Alike.openWindow (c : Byte) (h : Alike s t) : Alike (openWindow c s) (openWindow c t) :=
  ((h.setCsn false).xfer c).own fun b u => { u with regs := { u.regs with status := b } }

theorem Alike.burstTx (c : Byte) (out : List Byte) (h : Alike s t) : AlikeOut (burstTx c out s) (burstTx c out t) :=
  ⟨((h.openWindow c).exchange out).fst, ((h.openWindow c).exchange out).snd.setCsn true⟩

theorem Alike.writeTx (c : Byte) (out : List Byte) (h : Alike s t) : Alike (writeTx c out s) (writeTx c out t) :=
  (h.burstTx c out).snd

theorem Alike.readTx (c : Byte) (n : Nat) (h : Alike s t) : AlikeOut (readTx c n s) (readTx c n t) :=
  ⟨((h.openWindow c).readBytes n).fst, ((h.openWindow c).readBytes n).snd.setCsn true⟩

theorem Alike.writeReg (addr : Nat) (buf : List Byte) : Alike s t → Alike (writeReg addr buf s) (writeReg addr buf t) :=
  Alike.writeTx _ buf

theorem Alike.flushTxOp (h : Alike s t) : Alike (flushTxOp s) (flushTxOp t) := h.writeTx 0xE1 []

theorem Alike.flushRxOp (h : Alike s t) : Alike (flushRxOp s) (flushRxOp t) := h.writeTx 0xE2 []

theorem Alike.tick (h : Alike s t) : Alike (tick s) (tick t) := h.own Machine.tick

theorem Alike.readTmp (addr : Nat) (h : Alike s t) : AlikeOut (readTmp addr s) (readTmp addr t) := by
  have hr := h.readTx (cmdReg opRead (maskAddr addr)) 1
  exact ⟨congrArg (List.headD · 0) hr.fst,
    (hr.own fun bs u => { u with regs := { u.regs with tmp := bs.headD 0 } }).tick⟩

/-! ### applyState, startListening, init -/

theorem Alike.applyArm (g : OperatingState) (c : Byte) (h : Alike s t) : Alike (applyArm g c s) (applyArm g c t) := by
  cases g with
  | powerDown => exact h.writeReg _ _
  | powerUp =>
    unfold Machine.applyArm armPowerUp
    dsimp only
    split
    · exact h
    · exact (h.writeReg _ _).waitFor _
  | standbyI => exact h.setCe false
  | standbyII => exact ((h.writeReg _ _).setCe true).waitFor _
  | receiving => exact (h.writeReg _ _).writeReg _ _
  | transmitting => exact h.writeReg _ _

theorem Alike.applyState (g : OperatingState) (h : Alike s t) : Alike (applyState g s) (applyState g t) :=
  (((h.readTmp 0x00).andThen (f := Machine.applyArm g) fun c _ _ h => h.applyArm g c).own
    fun u => { u with lastTarget := some g }).tick

theorem Alike.startReceiver (h : Alike s t) : Alike (startReceiver s) (startReceiver t) := (h.setCe true).waitFor _

theorem Alike.busInit (h : Alike s t) : Alike (busInit s) (busInit t) :=
  (h.draw.own fun b u => { u with
    pins := { u.pins with sck := .driven false, mosi := .driven (bitAt b 0) }
    shifter := { u.shifter with bitcnt := 0 } }).tick

theorem Alike.initPins (h : Alike s t) : Alike (initPins s) (initPins t) :=
  ((((h.own enableInterrupts).setCe false).setCsn true).busInit).waitFor _

theorem Alike.initRadio (c : Cfg) (h : Alike s t) : Alike (initRadio c s) (initRadio c t) :=
  (((((h.writeReg _ _).writeReg _ _).writeReg _ _).writeReg _ _).writeReg _ _).writeReg _ _

theorem Alike.initFeatures (c : Cfg) (g : FeatureGating) (h : Alike s t) :
    Alike (initFeatures c g s) (initFeatures c g t) :=
  ((((h.writeReg _ _).writeReg _ _).writeReg _ _).flushTxOp).flushRxOp

theorem Alike.initAddresses (c : Cfg) (h : Alike s t) : Alike (initAddresses c s) (initAddresses c t) :=
  (((h.writeReg _ _).writeReg _ _).readTmp 0x02).andThen
    (f := fun b u => Machine.writeReg 0x02 [setBits b (bit Config.rxPipe)] u) fun _ _ _ h => h.writeReg _ _

theorem Alike.initBody (h : Alike s t) : Alike (initBody s) (initBody t) := by
  unfold Machine.initBody
  rw [← h.cfg, ← h.params]
  exact ((((h.initPins.initRadio _).initFeatures _ _).initAddresses _).own
    fun u => { u with initialised := true }).tick

/-! ### sendMessage -/

theorem Alike.mute (b : Bool) (h : Alike s t) : Alike (mute b s) (mute b t) := h.own (Machine.mute b)

theorem Alike.muteRx (h : Alike s t) : Alike (muteRx s) (muteRx t) := h.own Machine.muteRx

theorem Alike.sendPrepare (h : Alike s t) : Alike (sendPrepare s) (sendPrepare t) :=
  (((((h.applyState .transmitting).flushRxOp.flushTxOp).writeReg 0x07 [0x20]).readTmp 0x00).andThen
    (f := fun c u => Machine.writeReg 0x00 [setBits c maskRxDrMask] u) fun _ _ _ h => h.writeReg _ _).muteRx

theorem Alike.sendPayload (bs : List Byte) (h : Alike s t) : Alike (sendPayload bs s) (sendPayload bs t) := by
  unfold Machine.sendPayload
  rw [← h.cfg]
  exact h.writeTx _ _

theorem Alike.sendPulse (h : Alike s t) : Alike (sendPulse s) (sendPulse t) :=
  ((((h.setCe true).waitFor _).setCe false).own fun u => { u with regs := { u.regs with pollCount := 0 } }).tick

theorem Alike.sendStart (bs : List Byte) (h : Alike s t) : Alike (sendStart bs s) (sendStart bs t) :=
  (h.sendPrepare.sendPayload bs).sendPulse

theorem Alike.countPoll (c : Params) (b : Byte) (h : Alike s t) : Alike (countPoll c b s) (countPoll c b t) := by
  unfold Machine.countPoll
  split
  · exact h
  · exact (h.own fun u => { u with regs := { u.regs with pollCount := u.regs.pollCount + 1 } }).tick

theorem Alike.sendRestore (h : Alike s t) : Alike (sendRestore s) (sendRestore t) :=
  (((((h.readTmp 0x00).andThen (f := fun c u => Machine.writeReg 0x00 [clearBits c maskRxDrMask] u)
    fun _ _ _ h => h.writeReg _ _).applyState .receiving).mute false).startReceiver)

theorem Alike.finish (r : Result) (h : Alike s t) : Alike (finish r s) (finish r t) := h.own (Machine.finish r)

theorem Alike.pollPass (h : Alike s t) : Alike (pollPass s) (pollPass t) := by
  have hr := h.readTmp 0x07
  have hc := hr.andThen (f := Machine.countPoll s.params) fun b _ _ h => h.countPoll s.params b
  unfold Machine.pollPass
  dsimp only
  rw [← hr.fst] at hc
  rw [← h.params, ← h.regs, ← h.pc, ← hr.fst]
  split
  · exact hc.own fun u => { u with pc := s.pc }
  · exact hc.sendRestore.finish _

/-! ### readMessage -/

theorem Alike.readAck (h : Alike s t) : Alike (readAck s) (readAck t) := by
  unfold Machine.readAck
  rw [← h.cfg]
  split
  · exact h.writeTx _ _
  · exact h

theorem Alike.readWidth (h : Alike s t) : Alike (readWidth s) (readWidth t) :=
  ((h.readTx 0x60 1).own fun bs u => { u with regs := { u.regs with len := bs.headD 0 } }).tick

theorem Alike.drainInBurst (w : Nat) (h : Alike s t) : Alike (drainInBurst w s) (drainInBurst w t) := by
  unfold Machine.drainInBurst
  dsimp only
  rw [← h.regs]
  exact ((h.own placeCommand).burstTx _ _).own fun bs u =>
    { u with regs := { u.regs with rxbuf := overlay (u.regs.status :: bs) u.regs.rxbuf } }

theorem Alike.drainThenBurst (w : Nat) (h : Alike s t) : Alike (drainThenBurst w s) (drainThenBurst w t) :=
  (h.readTx 0x61 (w + 1)).own fun bs u => { u with regs := { u.regs with rxbuf := overlay bs u.regs.rxbuf } }

theorem Alike.drain (w : Nat) (h : Alike s t) : Alike (drain w s) (drain w t) := by
  unfold Machine.drain
  rw [← h.params]
  repeat' split
  · exact h
  · exact h.drainInBurst w
  · exact h.drainThenBurst w

theorem AlikeOut.finishWith {p q : Result × State} (h : AlikeOut p q) : Alike (finishWith p) (finishWith q) :=
  h.andThen (f := Machine.finish) fun r _ _ h => h.finish r

theorem Alike.readFinish (w : Nat) (h : Alike s t) : AlikeOut (readFinish w s) (readFinish w t) := by
  have ht := h.writeReg 0x07 [0x40]
  refine ⟨?_, ht⟩
  unfold Machine.readFinish
  dsimp only
  rw [ht.params, ht.regs]

theorem Alike.readRest (h : Alike s t) : Alike (readRest s) (readRest t) := by
  unfold Machine.readRest
  rw [← h.regs]
  split
  · exact ((h.drain _).readFinish _).finishWith
  · exact h.own (stopped _)

end

/-! ### Outcomes -/

section
variable {s t : State}

theorem forgetOutcome_next (h : Alike s t) : forgetOutcome (.next s) = forgetOutcome (.next t) :=
  congrArg Host.Outcome.next h.forget

theorem Alike.begin (i : Instr) (h : Alike s t) : Alike (begin i s) (begin i t) := h.own (Machine.begin i)

theorem Alike.onceInitialised {o o' : Host.Outcome State Fault Refusal} (h : Alike s t)
    (ho : forgetOutcome o = forgetOutcome o') :
    forgetOutcome (if s.initialised then o else .refused .notInitialised) =
      forgetOutcome (if t.initialised then o' else .refused .notInitialised) := by
  rw [h.initialised]
  split
  · exact ho
  · rfl

theorem Alike.runRequest {i : Instr} {body : State → Result × State} (h : Alike s t)
    (hb : ∀ {u v}, Alike u v → AlikeOut (body u) (body v)) :
    forgetOutcome (runRequest i body s) = forgetOutcome (runRequest i body t) :=
  h.onceInitialised (forgetOutcome_next (hb (h.begin i)).finishWith)

theorem Alike.runBuffered {i : Instr} {buf : List Byte} {n : Nat} {body : State → Result × State} (h : Alike s t)
    (hb : ∀ {u v}, Alike u v → AlikeOut (body u) (body v)) :
    forgetOutcome (runBuffered i buf n body s) = forgetOutcome (runBuffered i buf n body t) := by
  refine h.onceInitialised ?_
  split
  · exact forgetOutcome_next (hb (h.begin i)).finishWith
  · rfl

end
end Sys2Proof.Proofs
end

section
/-!
Alike states, the instructions and the step: no instruction but `readPending`, and no step but that of its request, tells
alike states apart (R151, R283).
-/

namespace Sys2Proof.Proofs

open Sys2Proof.Machine Sys2Proof.Laws

/-! ### Instructions -/

section
variable {s t : State}

theorem Alike.wireBody (c : Byte) (data : List Byte) (h : Alike s t) : AlikeOut (wireBody c data s) (wireBody c data t) := by
  have hb := h.burstTx c data
  exact ⟨by unfold Machine.wireBody; dsimp only; rw [hb.fst, hb.snd.regs], hb.snd⟩

theorem Alike.readResult (c : Byte) (n : Nat) (h : Alike s t) :
    AlikeOut (readResult (Machine.readTx c n s)) (readResult (Machine.readTx c n t)) := by
  have hr := h.readTx c n
  exact ⟨by unfold Machine.readResult; rw [hr.fst, hr.snd.regs], hr.snd⟩

theorem Alike.widthResult (c : Byte) (h : Alike s t) :
    AlikeOut (widthResult (Machine.readTx c 1 s)) (widthResult (Machine.readTx c 1 t)) := by
  have hr := h.readTx c 1
  exact ⟨by unfold Machine.widthResult; rw [hr.fst, hr.snd.regs], hr.snd⟩

theorem Alike.statusResult (c : Byte) (out : List Byte) (h : Alike s t) :
    AlikeOut (statusResult (Machine.writeTx c out s)) (statusResult (Machine.writeTx c out t)) := by
  have hw := h.writeTx c out
  exact ⟨by unfold Machine.statusResult; rw [hw.regs], hw⟩

theorem Alike.unitResult (h : Alike s t) : AlikeOut (unitResult s) (unitResult t) := ⟨rfl, h⟩

theorem Alike.exec_applyInstr (g : OperatingState) (h : Alike s t) :
    forgetOutcome (exec (applyInstr g) s) = forgetOutcome (exec (applyInstr g) t) := by
  rw [Proofs.exec_applyInstr, Proofs.exec_applyInstr]
  exact h.runRequest fun h => (h.applyState g).unitResult

theorem Alike.exec_init (h : Alike s t) : forgetOutcome (exec .init s) = forgetOutcome (exec .init t) := by
  rw [Proofs.exec_init, Proofs.exec_init, execInit, execInit, ← h.cfg]
  split
  · exact forgetOutcome_next ((h.begin .init).initBody.finish .unit)
  · rfl

theorem Alike.exec_sendMessage (bs : List Byte) (h : Alike s t) :
    forgetOutcome (exec (.sendMessage bs) s) = forgetOutcome (exec (.sendMessage bs) t) := by
  refine h.onceInitialised ?_
  split
  · exact forgetOutcome_next ((h.begin _).sendStart bs).pollPass
  · exact forgetOutcome_next (h.own fun u => { u with result := some (.err (.payloadTooLarge bs.length)) })

theorem Alike.exec_readMessage (h : Alike s t) :
    forgetOutcome (exec .readMessage s) = forgetOutcome (exec .readMessage t) :=
  h.onceInitialised (forgetOutcome_next (h.begin _).readAck.readWidth.readRest)

/-- The flag that `clearPending` writes is forgotten (R214). -/
theorem Alike.clearPending (h : Alike s t) :
    Alike (Machine.tick { s with intr := { s.intr with pending := false } })
      (Machine.tick { t with intr := { t.intr with pending := false } }) :=
  h.map (fun u => Machine.tick { u with intr := { u.intr with pending := false } }) Machine.tick fun _ => rfl

/-- No instruction but `readPending` tells alike states apart (R151). -/
theorem Alike.exec {i : Instr} (hi : i ≠ .readPending) (h : Alike s t) :
    forgetOutcome (exec i s) = forgetOutcome (exec i t) := by
  cases i
  case readPending => exact absurd rfl hi
  case rRegisterCmd | wRegisterCmd | activateCmd | rRxPlWidCmd | rRxPayloadCmd | wTxPayloadCmd | wAckPayloadCmd |
      wTxPayloadNoAckCmd | flushTxCmd | flushRxCmd | reuseTxPlCmd | nopCmd =>
    exact h.runRequest fun h => h.wireBody _ _
  case exchangeByte out =>
    exact h.runRequest (body := exchangeByteBody out) fun h => ⟨congrArg Result.byte (h.xfer out).fst, (h.xfer out).snd⟩
  case exchangeBurst buf n =>
    exact h.runBuffered (body := exchangeBurstBody buf n) fun h =>
      ⟨congrArg (fun bs => Result.bytes (bs ++ buf.drop n)) (h.exchange _).fst, (h.exchange _).snd⟩
  case readRegister | readRxPayload => exact h.runRequest fun h => h.readResult _ _
  case readRxPayloadWidth => exact h.runRequest fun h => h.widthResult _
  case flushTx | flushRx | activate | nop => exact h.runRequest fun h => h.statusResult _ _
  case writeRegister | writeTxPayload | writeTxPayloadNoAck | writeAckPayload =>
    exact h.runBuffered fun h => h.statusResult _ _
  case init => exact h.exec_init
  case applyPowerUp => exact h.exec_applyInstr .powerUp
  case applyPowerDown => exact h.exec_applyInstr .powerDown
  case applyReceiving => exact h.exec_applyInstr .receiving
  case applyTransmitting => exact h.exec_applyInstr .transmitting
  case applyStandbyI => exact h.exec_applyInstr .standbyI
  case applyStandbyII => exact h.exec_applyInstr .standbyII
  case startListening =>
    exact h.runRequest (body := fun u => Machine.unitResult (startListeningBody u))
      fun h => (h.applyState .receiving).startReceiver.unitResult
  case sendMessage bs => exact h.exec_sendMessage bs
  case readMessage => exact h.exec_readMessage
  case available =>
    exact h.runRequest (body := availableBody) fun h =>
      ⟨congrArg (fun b => Result.flag (!bitAt b 0)) (h.readTmp 0x17).fst, (h.readTmp 0x17).snd⟩
  case clearPending =>
    exact h.runRequest
      (body := fun u => Machine.unitResult (Machine.tick { u with intr := { u.intr with pending := false } }))
      fun h => h.clearPending.unitResult

/-! ### Steps -/

theorem decodeCommand_ne_readPending (c : Byte) (data : List Byte) : decodeCommand c data ≠ .instr .readPending := by
  unfold decodeCommand decodeFixedCommand
  repeat' refine iteInduction (motive := (· ≠ Decoded.instr .readPending)) (fun _ => ?_) (fun _ => ?_)
  all_goals simp

theorem decodeRequest_ne_readPending {sel : Byte} {args : Args} (hs : sel ≠ 0x33) :
    decodeRequest sel args ≠ .instr .readPending := by
  unfold decodeRequest decodeAccess
  rw [if_neg hs]
  repeat' refine iteInduction (motive := (· ≠ Decoded.instr .readPending)) (fun _ => ?_) (fun _ => ?_)
  all_goals simp

/-- Only selector 0x33 asks for `readPending` (R102). -/
theorem decode_ne_readPending {f : Frame} (hf : ∀ args, f ≠ .request 0x33 args) : decode f ≠ .instr .readPending := by
  cases f with
  | transaction bs =>
    cases bs with
    | nil => simp [decode]
    | cons c data => exact decodeCommand_ne_readPending c data
  | request sel args => exact decodeRequest_ne_readPending fun hs => hf args (hs ▸ rfl)

theorem Alike.runFrame {f : Frame} (hf : ∀ args, f ≠ .request 0x33 args) (h : Alike s t) :
    forgetOutcome (runFrame f s) = forgetOutcome (runFrame f t) := by
  have hd := decode_ne_readPending hf
  unfold Machine.runFrame
  split
  next i hi => exact h.exec fun e => hd (e ▸ hi)
  next c data _ =>
    exact h.onceInitialised (forgetOutcome_next ((h.own fun u => { u with pc := 0 }).wireBody c data).finishWith)
  next => rfl
  next => rfl

/-- An environment that still has a choice moves, whatever is latched. -/
theorem stay_of_env (f : Fault) (he : s.env ≠ []) : stay f s = .next (envSlot s) := by
  cases hs : s.env with
  | nil => exact absurd hs he
  | cons g rest => simp [stay, envMoves, hs]

theorem Alike.resume (i : Instr) (he : i = .readMessage → s.env ≠ []) (h : Alike s t) :
    forgetOutcome (resume i s) = forgetOutcome (resume i t) := by
  unfold Machine.resume
  split
  next => exact forgetOutcome_next h.pollPass
  next =>
    have he := he rfl
    rw [← h.regs, stay_of_env _ he, stay_of_env _ (mt h.env_nil_iff.mpr he)]
    split
    · rfl
    · exact forgetOutcome_next h.envSlot
  next => rfl

theorem step_of_op {i : Instr} (ho : s.op = some i) : step s = resume i s := by
  simp [Machine.step, Machine.sequence, ho]

theorem step_without_request (ho : s.op = none) (hr : s.requests = []) : step s = .next (envSlot s) := by
  rw [step_of_idle s ho, hr]

theorem Alike.step (hr : s.op = none → ∀ args rest, s.requests ≠ .request 0x33 args :: rest)
    (he : s.op = some .readMessage → s.env ≠ []) (h : Alike s t) :
    forgetOutcome (step s) = forgetOutcome (step t) := by
  cases ho : s.op with
  | some i =>
    rw [step_of_op ho, step_of_op (h.op ▸ ho)]
    exact h.resume i fun e => he (e ▸ ho)
  | none =>
    have hot : t.op = none := h.op ▸ ho
    cases hq : s.requests with
    | nil =>
      rw [step_without_request ho hq, step_without_request hot (h.requests ▸ hq)]
      exact forgetOutcome_next h.envSlot
    | cons f rest =>
      rw [step_of_frame ho hq, step_of_frame hot (h.requests ▸ hq)]
      exact (h.own fun u => { u with requests := rest }).envSlot.runFrame fun args e => hr ho args rest (e ▸ hq)

end

/-- Settles O49: every instruction but `readPending`, and every step but its request, on alike states. -/
theorem interruptInvisible : Obligations.InterruptInvisible :=
  ⟨fun _ _ _ hi h => Alike.exec hi h, fun _ _ hr he h => Alike.step hr he h⟩

end Sys2Proof.Proofs
end

section
/-!
`readMessage` under either framing, whatever the device answers (R205–R208, R286): the width read, then the stop with the
fault, or the drain and the end of the operation.
-/

namespace Sys2Proof.Proofs

open Sys2Proof.Machine Sys2Proof.Laws

/-- The state of a `readMessage` once it has its width: steps 1 and 2 (R205). -/
abbrev widthRead (s : State) : State := readWidth (readAck (begin .readMessage s))

section
variable {s d : State} {w : Byte}

theorem toNat_eq_zero_iff (w : Byte) : w.toNat = 0 ↔ w = 0 := BitVec.toNat_inj (y := 0#8)

theorem toList_getD (buf : Vector Byte 33) (k : Nat) (hk : k < 33) : buf.toList.getD k 0 = buf[k] := by
  simp [List.getD, hk]

/-- The message under the default framing starts at index 1 (R206). -/
theorem decodeMessage_inBurst (w : Byte) (buf : Vector Byte 33) : decodeMessage .commandInBurst w.toNat buf.toList =
    if w = 0 ∨ buf[1] = 0 then .failure else .message ((buf.toList.drop 1).take w.toNat) := by
  simp only [decodeMessage, payloadStart, toNat_eq_zero_iff, toList_getD buf 1 (by decide)]

/-- The message under the other framing starts at index 0 (R208). -/
theorem decodeMessage_thenBurst (w : Byte) (buf : Vector Byte 33) : decodeMessage .commandThenBurst w.toNat buf.toList =
    if w = 0 ∨ buf[0] = 0 then .failure else .message (buf.toList.take w.toNat) := by
  simp only [decodeMessage, payloadStart, toNat_eq_zero_iff, toList_getD buf 0 (by decide), List.drop_zero]

/-- Where a `readMessage` stands with its width read: `f` is the fill byte, `pre` the bytes captured before `w` (R205). -/
structure WidthRead (f : Byte) (pre : List Byte) (w : Byte) (s t : State) : Prop where
  act : Act (widthEvents s.cfg f) 1 (pre ++ [w]) (begin .readMessage s) t
  pre : pre.length = if s.cfg.autoAck then 3 else 1
  len : t.regs.len = w
  rxbuf : t.regs.rxbuf = s.regs.rxbuf
  keeps : ReadKeeps s t

theorem widthRead_spec (s : State) : ∃ f pre w, WidthRead f pre w s (widthRead s) := by
  obtain ⟨f, pre, h, hl, hb, hk⟩ := readPre_spec (begin .readMessage s)
  exact ⟨f, pre, _, h, hl, rfl, hb, hk.tmp, hk.pollCount, hk.initialised, hk.lastTarget⟩

/-- A width over 32 stops the sequencer after the width read (R207, R286, log 15). -/
theorem readMessage_stops {f : Byte} {pre : List Byte} (hi : s.initialised = true) (hr : WidthRead f pre w s (widthRead s))
    (hw : 32 < w.toNat) : ∃ t, exec .readMessage s = .next t ∧
      Quiet { s with regs := { s.regs with len := w, rxbuf := t.regs.rxbuf } } t ∧
      Drives (widthEvents s.cfg f) 1 { s with pc := 0 } t ∧ t.op = some .readMessage ∧
      t.result = some (.fault (.rxWidthOverflow w.toNat)) ∧ misoOf t.trace = misoOf s.trace ++ pre ++ [w] ∧
      t.regs.rxbuf = s.regs.rxbuf := by
  have he : readRest (widthRead s) = stopped (.rxWidthOverflow w.toNat) (widthRead s) := by
    rw [readRest, hr.len, if_neg (by simpa [Config.rxBufCap] using hw)]
  obtain ⟨htmp, hpoll, hinit, htarget⟩ := hr.keeps
  refine ⟨_, (readMessage_eq s hi).trans (congrArg _ he), ⟨htmp, hr.len, rfl, hpoll, hinit, htarget⟩, ?_, hr.act.op, rfl,
    ?_, hr.rxbuf⟩
  · exact drives_congr hr.act.drives rfl rfl rfl rfl rfl rfl rfl rfl rfl rfl rfl rfl rfl rfl rfl rfl rfl rfl rfl rfl
  · rw [List.append_assoc]
    exact hr.act.miso

/-- A width of at most 32: the drain, then RX_DR cleared and the message decoded (R205, R206). -/
theorem readMessage_completes {f : Byte} {pre : List Byte} {evs : List Drive} {n : Nat} {m : List Byte}
    (hi : s.initialised = true) (hr : WidthRead f pre w s (widthRead s)) (hw : w.toNat ≤ 32)
    (hd : drain w.toNat (widthRead s) = d) (ha : Act evs n m (widthRead s) d) (hl : d.regs.len = (widthRead s).regs.len)
    (hk : ReadKeeps (widthRead s) d) : ∃ t a b, exec .readMessage s = .next t ∧ t.regs.rxbuf = d.regs.rxbuf ∧
      Quiet { s with regs := { s.regs with len := w, rxbuf := t.regs.rxbuf } } t ∧
      Runs (widthEvents s.cfg f ++ evs ++ window [0x27, 0x40]) (1 + n)
        (decodeMessage s.params.rxReadFraming w.toNat t.regs.rxbuf.toList) s t ∧
      misoOf t.trace = misoOf s.trace ++ pre ++ [w] ++ m ++ [a, b] := by
  obtain ⟨a, b, hf, hq, hres⟩ := readFinish_spec w.toNat d
  have he : readRest (widthRead s) = finish (readFinish w.toNat d).1 (readFinish w.toNat d).2 := by
    rw [readRest, hr.len, if_pos (by simpa [Config.rxBufCap] using hw), hd, finishWith]
  have hp : d.params = s.params := ha.drives.params.trans hr.act.drives.params
  have hall := (hr.act.trans ha).trans hf
  rw [hp, ← hq.rxbuf] at hres
  refine ⟨_, a, b, (readMessage_eq s hi).trans (congrArg _ he), hq.rxbuf, ?_, ?_, ?_⟩
  · obtain ⟨htmp, hpoll, hinit, htarget⟩ := (hr.keeps.trans hk).trans (Quiet.readKeeps hq)
    exact ⟨htmp, hq.len.trans (hl.trans hr.len), rfl, hpoll, hinit, htarget⟩
  · rw [hres]
    exact finish_runs _ hall.drives
  · simp only [List.append_assoc] at hall ⊢
    exact hall.miso

/-- Step 3 under the default framing, a width of 0 included (R205). -/
theorem drain_inBurst (hp : s.params.rxReadFraming = .commandInBurst) (hw : w.toNat ≤ 32) :
    Act (if w = 0 then [] else window (0x61 :: (s.regs.rxbuf.toList.take (w.toNat + 1)).drop 1)) (if w = 0 then 0 else 1)
        (if w = 0 then [] else (drain w.toNat s).regs.rxbuf.toList.take (w.toNat + 1)) s (drain w.toNat s) ∧
      (∀ k, w = 0 ∨ w.toNat < k → (drain w.toNat s).regs.rxbuf.toList[k]? = s.regs.rxbuf.toList[k]?) ∧
      (drain w.toNat s).regs.len = s.regs.len ∧ ReadKeeps s (drain w.toNat s) := by
  by_cases h0 : w = 0
  · subst h0
    exact ⟨Act.refl s, fun _ _ => rfl, rfl, rfl, rfl, rfl, rfl⟩
  · have he : drain w.toNat s = drainInBurst w.toNat s := by
      rw [drain, if_neg (mt (toNat_eq_zero_iff w).mp h0), hp]
    simp only [he, h0, false_or]
    exact drainInBurst_spec w.toNat s hw

/-- Step 3 under `CommandThenBurst`, a width of 0 included (R208). -/
theorem drain_thenBurst (hp : s.params.rxReadFraming = .commandThenBurst) (hw : w.toNat ≤ 32) :
    ∃ (fill : List Byte) (st : Byte), fill.length = w.toNat + 1 ∧
      Act (if w = 0 then [] else window (0x61 :: fill)) 0
        (if w = 0 then [] else st :: (drain w.toNat s).regs.rxbuf.toList.take (w.toNat + 1)) s (drain w.toNat s) ∧
      (∀ k, w = 0 ∨ w.toNat < k → (drain w.toNat s).regs.rxbuf.toList[k]? = s.regs.rxbuf.toList[k]?) ∧
      (drain w.toNat s).regs.len = s.regs.len ∧ ReadKeeps s (drain w.toNat s) := by
  by_cases h0 : w = 0
  · subst h0
    exact ⟨[0], 0, rfl, Act.refl s, fun _ _ => rfl, rfl, rfl, rfl, rfl, rfl⟩
  · have he : drain w.toNat s = drainThenBurst w.toNat s := by
      rw [drain, if_neg (mt (toNat_eq_zero_iff w).mp h0), hp]
    simp only [he, h0, false_or]
    exact drainThenBurst_spec w.toNat s hw

end

/-- Settles O30: the width read, then the stop, or the drain in place and the end of the operation. -/
theorem readMessageInBurst : Obligations.ReadMessageInBurst := by
  intro s hi hp
  obtain ⟨f, pre, w, hr⟩ := widthRead_spec s
  obtain hw | hw := Nat.lt_or_ge 32 w.toNat
  · obtain ⟨t, he, hq, ht⟩ := readMessage_stops hi hr hw
    exact ⟨t, f, w, pre, he, hr.pre, hq, .inr ⟨hw, ht⟩⟩
  · have hp' : (widthRead s).params.rxReadFraming = .commandInBurst := by rw [hr.act.drives.params]; exact hp
    obtain ⟨ha, hb, hl, hk⟩ := drain_inBurst hp' hw
    obtain ⟨t, a, b, he, hbuf, hq, hrun, hm⟩ := readMessage_completes hi hr hw rfl ha hl hk
    rw [hp, decodeMessage_inBurst] at hrun
    rw [← hbuf] at hb hm
    rw [hr.rxbuf] at hrun hb
    exact ⟨t, f, w, pre, he, hr.pre, hq, .inl ⟨hw, a, b, hrun, hm, hb⟩⟩

/-- Settles O31: the same with the drain of the other framing. -/
theorem readMessageThenBurst : Obligations.ReadMessageThenBurst := by
  intro s hi hp
  obtain ⟨f, pre, w, hr⟩ := widthRead_spec s
  obtain hw | hw := Nat.lt_or_ge 32 w.toNat
  · obtain ⟨t, he, hq, ht⟩ := readMessage_stops hi hr hw
    exact ⟨t, f, w, pre, he, hr.pre, hq, .inr ⟨hw, ht⟩⟩
  · have hp' : (widthRead s).params.rxReadFraming = .commandThenBurst := by rw [hr.act.drives.params]; exact hp
    obtain ⟨fill, st, hfill, ha, hb, hl, hk⟩ := drain_thenBurst hp' hw
    obtain ⟨t, a, b, he, hbuf, hq, hrun, hm⟩ := readMessage_completes hi hr hw rfl ha hl hk
    rw [hp, decodeMessage_thenBurst] at hrun
    rw [← hbuf] at hb hm
    rw [hr.rxbuf] at hb
    exact ⟨t, f, w, pre, he, hr.pre, hq, .inl ⟨hw, fill, st, a, b, hfill, hrun, hm, hb⟩⟩

end Sys2Proof.Proofs
end

section
/-!
The reads of the Reference device in a silent environment (R233, R238, R242, R245): what each of them answers, and that only
a payload read changes the device.
-/

namespace Sys2Proof.Proofs

open Sys2Proof.Machine Sys2Proof.Laws

section
variable {s : State}

theorem runRequest_of_initialised {i : Instr} (body : State → Result × State) (hi : s.initialised = true) :
    runRequest i body s = .next (finishWith (body (begin i s))) := if_pos hi

theorem readReg_of_lt {d : RefDev} {a : RegAddr} {j : Nat} (ha : isReserved a = false) (hj : j < d.regs.width a) :
    d.readReg a j = some (byteOf (d.regValue a) j) := by
  simp [RefDev.readReg, ha, hj]

/-- The mode rules do not read the RX FIFO (R250). -/
theorem settle_popped (d : RefDev) (ce : Bool) (h : d.modeRule ce = none) (rx : List RxEntry) :
    RefDev.settle { d with rxFifo := rx } ce = { d with rxFifo := rx } :=
  settle_of_rest _ _ (rest_of h rfl rfl rfl rfl id)

/-- R_RX_PAYLOAD pops the head once a data byte was clocked (R238). -/
theorem commit_rxPayload (d : RefDev) (n : Nat) :
    d.commit 0x61 [] (n + 1) = if n = 0 then d else { d with rxFifo := d.rxFifo.tail } := by
  cases n <;> rfl

/-- Bit 0 of FIFO_STATUS is RX_EMPTY (R245). -/
theorem fifoStatus_rxEmpty (d : RefDev) : bitAt d.fifoStatusByte 0 = d.rxFifo.isEmpty := by
  have h : ∀ a b c e f : Bool,
      bitAt (flagBit a 6 ||| flagBit b 5 ||| flagBit c 4 ||| flagBit e 1 ||| flagBit f 0) 0 = f := by decide
  exact h _ _ _ _ _

theorem readReg_fifoStatus (d : RefDev) : d.readReg 0x17 0 = some d.fifoStatusByte := congrArg some (byteOf_zeroExtend _)

/-- A register read gives the bytes below the register's width, and has no side effect (R79, R233). -/
theorem readRegister_reference (hq : QuietReference s) (hi : s.initialised = true) (addr n : Nat) :
    ∃ t d, exec (.readRegister addr n) s = .next t ∧ t.result = some (.statusBytes s.ref.statusByte d) ∧ t.ref = s.ref ∧
      ∀ j, j < n → isReserved (BitVec.ofNat 5 addr) = false → j < s.ref.regs.width (BitVec.ofNat 5 addr) →
        d[j]? = some (byteOf (s.ref.regValue (BitVec.ofNat 5 addr)) j) := by
  obtain ⟨hw, hv⟩ := (quiet_begin (.readRegister addr n) hq).at_readReg addr n
  exact ⟨_, _, runRequest_of_initialised (fun u => readResult (readReg addr n u)) hi,
    congrArg (fun st => some (Result.statusBytes st _)) hw.status, hw.ref.ref,
    fun j hj ha hl => hv j _ hj (readReg_of_lt ha hl)⟩

/-- A payload read gives the head payload's bytes, and pops it if a byte was read (R238). -/
theorem readRxPayload_reference (hq : QuietReference s) (hi : s.initialised = true) (n : Nat) :
    ∃ t d, exec (.readRxPayload n) s = .next t ∧ t.result = some (.statusBytes s.ref.statusByte d) ∧
      t.ref = (if n = 0 then s.ref else { s.ref with rxFifo := s.ref.rxFifo.tail }) ∧
      ∀ j v, j < n → s.ref.rxHead[j]? = some v → d[j]? = some v := by
  obtain ⟨hw, hv⟩ := (quiet_begin (.readRxPayload n) hq).at_read 0x61 n (by decide) (by decide) (by decide) (by decide)
  have hs : (s.ref.commit 0x61 [] (n + 1)).settle s.pins.ce.isHigh =
      if n = 0 then s.ref else { s.ref with rxFifo := s.ref.rxFifo.tail } := by
    rw [commit_rxPayload]
    split
    · exact settle_of_rest _ _ hq.rest
    · exact settle_popped _ _ hq.rest _
  exact ⟨_, _, runRequest_of_initialised (fun u => readResult (readTx 0x61 n u)) hi,
    congrArg (fun st => some (Result.statusBytes st _)) hw.status, hw.ref.ref.trans hs, hv⟩

/-- A width read gives the head payload's length (R242). -/
theorem readRxPayloadWidth_reference (hq : QuietReference s) (hi : s.initialised = true) :
    ∃ t, exec .readRxPayloadWidth s = .next t ∧ t.ref = s.ref ∧
      t.result = some (.statusByte s.ref.statusByte (BitVec.ofNat 8 s.ref.rxHead.length)) := by
  obtain ⟨hw, hv⟩ := (quiet_begin .readRxPayloadWidth hq).at_read 0x60 1 (by decide) (by decide) (by decide) (by decide)
  have hs : (s.ref.commit 0x60 [] 2).settle s.pins.ce.isHigh = s.ref := settle_of_rest _ _ hq.rest
  have hb : (readTx 0x60 1 (begin .readRxPayloadWidth s)).1.headD 0 = BitVec.ofNat 8 s.ref.rxHead.length := by
    rw [List.headD_eq_head?_getD, List.head?_eq_getElem?, hv 0 _ Nat.one_pos rfl]
    rfl
  refine ⟨_, runRequest_of_initialised (fun u => widthResult (readTx 0x60 1 u)) hi, hw.ref.ref.trans hs, ?_⟩
  show some (Result.statusByte (readTx 0x60 1 (begin .readRxPayloadWidth s)).2.regs.status
    ((readTx 0x60 1 (begin .readRxPayloadWidth s)).1.headD 0)) = _
  rw [hw.status, hb]

/-- `available` is RX_EMPTY turned round (R209, R245). -/
theorem available_reference (hq : QuietReference s) (hi : s.initialised = true) :
    ∃ t, exec .available s = .next t ∧ t.result = some (.flag (!s.ref.rxFifo.isEmpty)) ∧ t.ref = s.ref := by
  obtain ⟨hr, hv⟩ := (quiet_begin .available hq).at_readTmp 0x17
  refine ⟨_, runRequest_of_initialised availableBody hi, ?_, hr.ref⟩
  show some (Result.flag (!bitAt (readTmp 0x17 (begin .available s)).1 0)) = _
  rw [hv _ (readReg_fifoStatus s.ref), fifoStatus_rxEmpty]

end

/-- Settles O37: one law for each of the four reads. -/
theorem referenceReads : Obligations.ReferenceReads :=
  ⟨fun _ addr n hq hi => ⟨readRegister_reference hq hi addr n, readRxPayload_reference hq hi n,
    readRxPayloadWidth_reference hq hi⟩, fun _ hq hi => available_reference hq hi⟩

end Sys2Proof.Proofs
end

section
/-!
The encoding (R97–R102): the fields of a command byte read back, every instruction decoded from its own frame, and what a
window decodes to, by the branches of the command byte map.
-/

namespace Sys2Proof.Proofs

open Sys2Proof.Machine Sys2Proof.Laws

/-! ### The fields of a command byte -/

theorem cmdReg_op (op : BitVec 3) (a : RegAddr) : (cmdReg op a).extractLsb' 5 3 = op :=
  BitVec.extractLsb'_append_eq_left

theorem cmdReg_addr (op : BitVec 3) (a : RegAddr) : (cmdReg op a).extractLsb' 0 5 = a :=
  BitVec.extractLsb'_append_eq_right

theorem cmdPipe_pattern (p : BitVec 3) : (cmdPipe p).extractLsb' 3 5 = 0b10101 := BitVec.extractLsb'_append_eq_left

theorem cmdPipe_pipe (p : BitVec 3) : (cmdPipe p).extractLsb' 0 3 = p := BitVec.extractLsb'_append_eq_right

/-- A byte with a register opcode is that opcode's command for the address in its low five bits (R97). -/
theorem cmdReg_of_op {c : Byte} {op : BitVec 3} (h : c.extractLsb' 5 3 = op) : cmdReg op (c.extractLsb' 0 5) = c := by
  rw [cmdReg, ← h, BitVec.extractLsb'_append_extractLsb'_eq_extractLsb' (Nat.zero_add 5).symm]
  exact BitVec.extractLsb'_eq_self

/-- A byte with the ACK payload pattern is that command for the pipe in its low three bits (R97). -/
theorem cmdPipe_of_pattern {c : Byte} (h : c.extractLsb' 3 5 = 0b10101) : cmdPipe (c.extractLsb' 0 3) = c := by
  rw [cmdPipe, ← h, BitVec.extractLsb'_append_extractLsb'_eq_extractLsb' (Nat.zero_add 3).symm]
  exact BitVec.extractLsb'_eq_self

/-! ### Decoding an encoding -/

theorem decodeCommand_read (a : RegAddr) (data : List Byte) :
    decodeCommand (cmdReg opRead a) data = .instr (.rRegisterCmd a data) := by
  rw [decodeCommand, if_pos (cmdReg_op opRead a), cmdReg_addr]

theorem decodeCommand_write (a : RegAddr) (data : List Byte) :
    decodeCommand (cmdReg opWrite a) data = .instr (.wRegisterCmd a data) := by
  rw [decodeCommand, cmdReg_op, if_neg (by decide), if_pos rfl, cmdReg_addr]

/-- No ACK payload command has a register opcode: its top three bits are 101 (R98). -/
theorem cmdPipe_op (p : BitVec 3) : (cmdPipe p).extractLsb' 5 3 = 0b101 := by revert p; decide

theorem decodeCommand_cmdPipe (p : BitVec 3) (data : List Byte) : decodeCommand (cmdPipe p) data =
    if p.toNat ≤ 5 then .instr (.wAckPayloadCmd p data) else .reservedCommand (cmdPipe p) data := by
  rw [decodeCommand, cmdPipe_op, if_neg (by decide), if_neg (by decide), if_pos (cmdPipe_pattern p), cmdPipe_pipe]

/-- Settles O1: a register or pipe command by its fields, every other row by its one code byte. -/
theorem decodeOfEncode : Obligations.DecodeOfEncode := by
  intro i hi
  cases i with
  | rRegisterCmd a data => exact decodeCommand_read a data
  | wRegisterCmd a data => exact decodeCommand_write a data
  | wAckPayloadCmd p data => exact (decodeCommand_cmdPipe p data).trans (if_pos (of_decide_eq_true hi))
  | _ => rfl

/-- Settles O4: each frame is the encoding of its instruction. -/
theorem fewWordsDecode : Obligations.FewWordsDecode :=
  ⟨decodeOfEncode (.rRegisterCmd 0x07 [0x55]) rfl, decodeOfEncode (.wRegisterCmd 0x1C [0x3F]) rfl,
    decodeOfEncode (.wAckPayloadCmd 5 [0x41]) rfl, decodeOfEncode (.reuseTxPlCmd []) rfl,
    decodeOfEncode (.writeRegister 0x10 [9] 1) rfl, decodeOfEncode .applyStandbyI rfl,
    decodeOfEncode (.sendMessage [0x48]) rfl⟩

/-! ### Decoding a window -/

/-- What the command byte map makes of a window (R98, R100): the instruction it is the encoding of, in range, or the report
of a reserved byte. -/
inductive WindowReads (c : Byte) (data : List Byte) : Decoded → Prop
  | instr (i : Instr) : encode i = .transaction (c :: data) → i.wellFormed = true → reservedByte c = false →
      WindowReads c data (.instr i)
  | reserved : reservedByte c = true → WindowReads c data (.reservedCommand c data)

theorem not_reservedByte_read (a : RegAddr) : reservedByte (cmdReg opRead a) = false := by revert a; decide

theorem not_reservedByte_write (a : RegAddr) : reservedByte (cmdReg opWrite a) = false := by revert a; decide

/-- Of the ACK payload commands, those for pipes 6 and 7 are reserved (R98, R100). -/
theorem reservedByte_pipe (p : BitVec 3) : reservedByte (cmdPipe p) = !decide (p.toNat ≤ 5) := by revert p; decide

/-- A byte of neither register opcode, without the ACK payload pattern and none of the nine fixed bytes is reserved (R100). -/
theorem reservedByte_of_unlisted (c : Byte) : c.extractLsb' 5 3 ≠ opRead → c.extractLsb' 5 3 ≠ opWrite →
    c.extractLsb' 3 5 ≠ 0b10101 → c ∉ [0x50, 0x60, 0x61, 0xA0, 0xB0, 0xE1, 0xE2, 0xE3, 0xFF] → reservedByte c = true := by
  revert c
  decide

theorem decodeFixedCommand_reads {c : Byte} (data : List Byte) (hr : c.extractLsb' 5 3 ≠ opRead)
    (hw : c.extractLsb' 5 3 ≠ opWrite) (hp : c.extractLsb' 3 5 ≠ 0b10101) :
    WindowReads c data (decodeFixedCommand c data) := by
  unfold decodeFixedCommand
  repeat' apply iteInduction <;> intro _
  case hneg => exact .reserved (reservedByte_of_unlisted c hr hw hp (by
    simp only [List.mem_cons, List.not_mem_nil, or_self, not_false_eq_true, *]))
  all_goals subst c; exact .instr _ rfl rfl rfl

theorem decodeCommand_reads (c : Byte) (data : List Byte) : WindowReads c data (decodeCommand c data) := by
  by_cases hr : c.extractLsb' 5 3 = opRead
  · obtain ⟨a, rfl⟩ : ∃ a, cmdReg opRead a = c := ⟨_, cmdReg_of_op hr⟩
    rw [decodeCommand_read]
    exact .instr _ rfl rfl (not_reservedByte_read a)
  by_cases hw : c.extractLsb' 5 3 = opWrite
  · obtain ⟨a, rfl⟩ : ∃ a, cmdReg opWrite a = c := ⟨_, cmdReg_of_op hw⟩
    rw [decodeCommand_write]
    exact .instr _ rfl rfl (not_reservedByte_write a)
  by_cases hp : c.extractLsb' 3 5 = 0b10101
  · obtain ⟨p, rfl⟩ : ∃ p, cmdPipe p = c := ⟨_, cmdPipe_of_pattern hp⟩
    have hres := reservedByte_pipe p
    rw [decodeCommand_cmdPipe]
    split
    next hle => exact .instr _ rfl (decide_eq_true hle) (by rw [hres, decide_eq_true hle, Bool.not_true])
    next hle => exact .reserved (by rw [hres, decide_eq_false hle, Bool.not_false])
  · rw [decodeCommand, if_neg hr, if_neg hw, if_neg hp]
    exact decodeFixedCommand_reads data hr hw hp

/-- Settles O2: the branches of the command byte map, each with the instruction it gives. -/
theorem encodeOfDecodedWindow : Obligations.EncodeOfDecodedWindow := by
  intro bs i h
  cases bs with
  | nil => cases h
  | cons c data =>
    have hd := decodeCommand_reads c data
    rw [show decodeCommand c data = .instr i from h] at hd
    cases hd with
    | instr _ he hw _ => exact ⟨he, hw⟩

/-- Settles O3: the same branches, each with what R100 says of its byte. -/
theorem reservedCommandBytes : Obligations.ReservedCommandBytes := by
  intro c data
  show (_ → decodeCommand c data = _) ∧ (_ → ∃ i, decodeCommand c data = _)
  have hd := decodeCommand_reads c data
  generalize decodeCommand c data = d at *
  cases hd with
  | instr i _ _ hc => exact ⟨fun h => absurd (h.symm.trans hc) (by decide), fun _ => ⟨i, rfl⟩⟩
  | reserved hc => exact ⟨fun _ => rfl, fun h => absurd (h.symm.trans hc) (by decide)⟩

end Sys2Proof.Proofs
end

section
/-!
One window as an operation (R95, R101, R103, R137): what the sequencer, the trace and the result are after it, for the wire
commands, `writeRegister` and the reserved command bytes; and what is refused or drives nothing.
-/

namespace Sys2Proof.Proofs

open Sys2Proof.Machine Sys2Proof.Laws

/-- An operation of one window over `bytes` that returned `r`: `st` and `d` are its MISO bytes, `st` the STATUS byte kept. -/
structure WindowRun (bytes : List Byte) (r : Result) (st : Byte) (d : List Byte) (s t : State) : Prop where
  runs : Runs (window bytes) 0 r s t
  miso : misoOf t.trace = misoOf s.trace ++ st :: d
  status : t.regs.status = st
  quiet : Quiet s t

/-- A window from the start of an operation, and the operation's end. -/
theorem windowRun_of_window {c : Byte} {data ins : List Byte} {o : Option Instr} {s u : State} (r : Result)
    (h : Window c data ins { s with op := o, pc := 0 } u) :
    WindowRun (c :: data) r u.regs.status ins s (finish r u) where
  runs := ⟨drives_congr h.bus.drives rfl rfl rfl rfl rfl rfl rfl rfl rfl rfl rfl rfl rfl rfl rfl rfl rfl rfl rfl rfl,
    rfl, rfl⟩
  miso := h.miso
  status := rfl
  quiet := finish_quiet r h.bus.quiet rfl rfl rfl

theorem kept_finish {o : Option Instr} {s u : State} (r : Result) (h : DeviceKept { s with op := o, pc := 0 } u) :
    DeviceKept s (finish r u) := ⟨h.settings, h.store⟩

/-! ### The wire commands -/

/-- The operation of a wire window: its result is STATUS and the bytes captured, one for each data byte (R101, R150). -/
theorem wireBody_run (c : Byte) (data : List Byte) (o : Option Instr) (s : State) : ∃ st d, d.length = data.length ∧
    WindowRun (c :: data) (.statusBytes st d) st d s (finishWith (wireBody c data { s with op := o, pc := 0 })) ∧
      (isWriteCmd c = false → DeviceKept s (finishWith (wireBody c data { s with op := o, pc := 0 }))) := by
  have h := burstTx_window c data { s with op := o, pc := 0 }
  exact ⟨_, _, burstTx_length c data _, windowRun_of_window _ h, fun hc => kept_finish _ (h.kept hc)⟩

/-- An instruction whose frame is a window is a wire command, and runs that window (R95, R98). -/
theorem exec_wire {i : Instr} {c : Byte} {data : List Byte} {s : State} (h : encode i = .transaction (c :: data))
    (hi : s.initialised = true) : exec i s = .next (finishWith (wireBody c data (begin i s))) := by
  cases i <;> cases h <;> exact if_pos hi

theorem isWrite_pipe (p : BitVec 3) : isWriteCmd (cmdPipe p) = false := by revert p; decide

/-- Of the wire commands W_REGISTER alone has the opcode 001 (R98). -/
theorem isWriteCmd_of_encode {i : Instr} {c : Byte} {data : List Byte} (h : encode i = .transaction (c :: data))
    (hw : ∀ a w, i ≠ .wRegisterCmd a w) : isWriteCmd c = false := by
  cases i <;> cases h
  case rRegisterCmd a => exact isWrite_read a
  case wRegisterCmd a => exact absurd rfl (hw a data)
  case wAckPayloadCmd p => exact isWrite_pipe p
  all_goals rfl

/-- Settles O11: every wire command runs the window of its frame. -/
theorem wireCommandsRun : Obligations.WireCommandsRun := by
  intro i c data s he hi
  obtain ⟨st, d, hl, h, hk⟩ := wireBody_run c data (some i) s
  exact ⟨_, st, d, exec_wire he hi, h.runs, hl, h.miso, h.status, h.quiet, fun hw => hk (isWriteCmd_of_encode he hw)⟩

/-! ### The buffered operations -/

theorem exec_writeRegister {addr n : Nat} {buf : List Byte} {s : State} (hi : s.initialised = true) (hn : n ≤ buf.length) :
    exec (.writeRegister addr buf n) s =
      .next (finishWith (statusResult (writeReg addr (buf.take n) (begin (.writeRegister addr buf n) s)))) :=
  (if_pos hi).trans (if_pos hn)

/-- A register write is one window (R137). -/
theorem writeReg_window (addr : Nat) (buf : List Byte) (s : State) :
    ∃ ins : List Byte, ins.length = buf.length ∧ Window (writeCmd addr) buf ins s (writeReg addr buf s) := by
  rw [← writeCmd_eq]
  exact writeTx_window _ buf s

/-- Settles O17: the window of `writeReg`, with the masked command byte. -/
theorem writeRegisterRuns : Obligations.WriteRegisterRuns := by
  intro addr n buf s hi hn
  obtain ⟨d, hl, h⟩ := writeReg_window addr (buf.take n) (begin (.writeRegister addr buf n) s)
  have hr := windowRun_of_window (.status (writeReg addr (buf.take n) (begin (.writeRegister addr buf n) s)).regs.status) h
  exact ⟨_, _, d, exec_writeRegister hi hn, hr.runs, hr.miso, hl.trans (List.length_take_of_le hn), hr.status, hr.quiet⟩

/-- Settles O8: each of the five asks for `initialised`, then for the buffer's length, before anything else. -/
theorem shortBufferRefused : Obligations.ShortBufferRefused := by
  intro s buf n addr hi hn
  refine ⟨?_, ?_, ?_, ?_, ?_⟩ <;> exact (if_pos hi).trans (if_neg (Nat.not_le.mpr hn))

/-! ### Steps without an instruction -/

theorem decodeRequest_of_unlisted {sel : Byte} (a : Args) (h : selectors.contains sel = false) :
    decodeRequest sel a = .unknownOperation sel := by
  have hne (x : Byte) (hx : x ∈ selectors) : sel ≠ x := by
    rintro rfl
    simp [hx] at h
  unfold decodeRequest decodeAccess
  repeat rw [if_neg (hne _ (by decide))]

/-- The environment's point before a window is no activity of the controller (R283). -/
theorem WindowRun.after_envSlot {bytes : List Byte} {r : Result} {st : Byte} {d : List Byte} {s t : State}
    (h : WindowRun bytes r st d (envSlot s) t) : WindowRun bytes r st d s t := by
  have hb := envSlot_bus s
  refine ⟨⟨?_, h.runs.op, h.runs.result⟩, h.miso.trans (by rw [(envSlot_silent s).miso]), h.status,
    hb.quiet.trans h.quiet⟩
  have h0 : Drives [] 0 { s with pc := 0 } { envSlot s with pc := 0 } := by
    obtain ⟨h1, h2, h3, -, h5, h6, h7, h8, h9, h10, h11, h12, h13⟩ := hb.drives
    exact ⟨h1, h2, h3, rfl, h5, h6, h7, h8, h9, h10, h11, h12, h13⟩
  simpa using h0.trans h.runs.drives

/-- No W_REGISTER byte is reserved (R98, R100). -/
theorem isWriteCmd_of_reserved {c : Byte} (h : reservedByte c = true) : isWriteCmd c = false := by
  by_contra hw
  have hop : c.extractLsb' 5 3 = opWrite := beq_iff_eq.mp (Bool.eq_true_of_not_eq_false hw)
  obtain ⟨a, rfl⟩ : ∃ a, cmdReg opWrite a = c := ⟨_, cmdReg_of_op hop⟩
  exact absurd (h.symm.trans (not_reservedByte_write a)) (by decide)

/-- Once initialised, a frame with a reserved command byte runs as a window (R100, log 13). -/
theorem runFrame_of_reserved {c : Byte} {data : List Byte} {s : State} (hc : reservedByte c = true)
    (hi : s.initialised = true) :
    runFrame (.transaction (c :: data)) s = .next (finishWith (wireBody c data { s with pc := 0 })) := by
  rw [runFrame, (reservedCommandBytes c data).1 hc]
  exact if_pos hi

/-- Settles O6: the fetch by what the frame decodes to, and the environment's point. -/
theorem stepWithoutInstruction : Obligations.StepWithoutInstruction := by
  refine ⟨⟨fun s sel a rest ho hr hs => ?_, fun s rest ho hr => ?_, fun s ho hr => ?_⟩,
    fun s c data rest ho hi hr hc => ?_⟩
  · rw [step_of_frame ho hr, runFrame, decode, decodeRequest_of_unlisted a hs]
  · rw [step_of_frame ho hr, runFrame, decode]
  · have hb := envSlot_bus s
    exact ⟨_, by rw [step_of_idle s ho, hr], hb.drives, hb.quiet, kept_of_silent (envSlot_silent s), hb.op.trans ho⟩
  · have he := envSlot_silent { s with requests := rest }
    have hq : Quiet s { s with requests := rest } := ⟨rfl, rfl, rfl, rfl, rfl, rfl⟩
    have hd : DeviceKept s (envSlot { s with requests := rest }) := ⟨he.settings, he.regFile⟩
    obtain ⟨st, d, hl, h, hk⟩ := wireBody_run c data _ (envSlot { s with requests := rest })
    have h := h.after_envSlot
    exact ⟨_, st, d, (step_of_frame ho hr).trans (runFrame_of_reserved hc (he.initialised.trans hi)), h.runs, hl, h.miso,
      h.status, hq.trans h.quiet, hd.trans (hk (isWriteCmd_of_reserved hc))⟩

end Sys2Proof.Proofs
end

section
/-!
The command bytes of what the operations drive (R99): those of each higher-level operation, by the events it is known to
drive, and the one of each raw operation.
-/

namespace Sys2Proof.Proofs

open Sys2Proof.Machine Sys2Proof.Laws

/-! ### The command bytes of events -/

@[simp] theorem commandsOf_mosi (l : List Byte) (rest : List Drive) :
    commandsOf (l.map Drive.mosi ++ rest) = commandsOf rest := by
  induction l with
  | nil => rfl
  | cons o l ih => exact ih

/-- A window has one command byte, its first. -/
@[simp] theorem commandsOf_window (c : Byte) (data : List Byte) (rest : List Drive) :
    commandsOf (window (c :: data) ++ rest) = c :: commandsOf rest := by
  have h : window (c :: data) ++ rest = .csn false :: .mosi c :: (data.map Drive.mosi ++ .csn true :: rest) := by
    simp [window]
  rw [h, commandsOf, commandsOf_mosi]
  rfl

@[simp] theorem commandsOf_ce (l : Bool) (rest : List Drive) : commandsOf (.ce l :: rest) = commandsOf rest := rfl

@[simp] theorem commandsOf_wait (us : Nat) (rest : List Drive) : commandsOf (.wait us :: rest) = commandsOf rest := rfl

@[simp] theorem commandsOf_csn_true (rest : List Drive) : commandsOf (.csn true :: rest) = commandsOf rest := rfl

/-- The command bytes of `init`, in the order of its steps (R165). -/
theorem commandsOf_initEvents (c : Cfg) (g : FeatureGating) (f e : Byte) (rest : List Drive) :
    commandsOf (initEvents c g f e ++ rest) = [0x20, 0x21, 0x24, 0x22, 0x25, 0x26, 0x27, 0x3C, 0x3D, 0xE1, 0xE2, 0x2A,
      0x30, 0x02, 0x22] ++ commandsOf rest := by
  simp [initEvents]

/-- The command bytes of steps 1–5 of a send (R201). -/
theorem commandsOf_sendEvents (c : Cfg) (p : List Byte) (f1 c1 f2 c2 : Byte) (rest : List Drive) :
    commandsOf (sendEvents c p f1 c1 f2 c2 ++ rest) =
      [0x00, 0x20, 0xE2, 0xE1, 0x27, 0x00, 0x20, if c.autoAck then 0xA0 else 0xB0] ++ commandsOf rest := by
  simp [sendEvents]

/-! ### Events whose command bytes are allowed -/

/-- The command bytes of these events meet `P`, and no window is left half begun: what follows adds its own. -/
def Emits (P : Byte → Prop) (evs : List Drive) : Prop :=
  ∀ rest, (∀ c ∈ commandsOf rest, P c) → ∀ c ∈ commandsOf (evs ++ rest), P c

section
variable {P : Byte → Prop} {a b : List Drive}

theorem Emits.commands (h : Emits P a) : ∀ c ∈ commandsOf a, P c := by
  simpa using h [] (by simp [commandsOf])

theorem Emits.append (h : Emits P a) (k : Emits P b) : Emits P (a ++ b) := fun rest hr => by
  rw [List.append_assoc]
  exact h _ (k rest hr)

theorem emits_of_commandsOf {cs : List Byte} (h : ∀ rest, commandsOf (a ++ rest) = cs ++ commandsOf rest)
    (hc : ∀ c ∈ cs, P c) : Emits P a := fun rest hr => by
  rw [h rest]
  exact List.forall_mem_append.mpr ⟨hc, hr⟩

theorem emits_nil : Emits P [] := fun _ h => h

theorem emits_mosi (l : List Byte) : Emits P (l.map Drive.mosi) :=
  emits_of_commandsOf (cs := []) (commandsOf_mosi l) (by simp)

theorem emits_window {c : Byte} (hc : P c) (data : List Byte) : Emits P (window (c :: data)) :=
  emits_of_commandsOf (cs := [c]) (commandsOf_window c data) (by simpa using hc)

theorem emits_ce (l : Bool) : Emits P [.ce l] := fun _ h => h

theorem emits_wait (us : Nat) : Emits P [.wait us] := fun _ h => h

end

/-- The events of the higher-level operations: every command byte is in the list of R99. -/
abbrev EmitsListed (evs : List Drive) : Prop := Emits (· ∈ emittedCommands) evs

theorem emits_initEvents (c : Cfg) (g : FeatureGating) (f e : Byte) : EmitsListed (initEvents c g f e) :=
  emits_of_commandsOf (commandsOf_initEvents c g f e) (by decide)

theorem emits_sendEvents (c : Cfg) (p : List Byte) (f1 c1 f2 c2 : Byte) : EmitsListed (sendEvents c p f1 c1 f2 c2) :=
  emits_of_commandsOf (commandsOf_sendEvents c p f1 c1 f2 c2) (by cases c.autoAck <;> decide)

theorem emits_armEvents (g : OperatingState) (c : Byte) : EmitsListed (armEvents g c) := by
  have config (v : Byte) : EmitsListed (window [0x20, v]) := emits_window (by decide) _
  cases g with
  | powerUp =>
    rw [armEvents]
    split
    · exact emits_nil
    · exact (config _).append (emits_wait _)
  | powerDown => exact config _
  | receiving => exact (config _).append (emits_window (by decide) _)
  | transmitting => exact config _
  | standbyI => exact emits_ce _
  | standbyII => exact (config _).append ((emits_ce true).append (emits_wait 150))

/-- `applyState` reads CONFIG, then runs its arm (R170). -/
theorem emits_applyEvents (g : OperatingState) (f c : Byte) : EmitsListed (window [0x00, f] ++ armEvents g c) :=
  (emits_window (by decide) _).append (emits_armEvents g c)

theorem emits_listenEvents (f c : Byte) : EmitsListed (listenEvents f c) :=
  (emits_applyEvents .receiving f c).append ((emits_ce true).append (emits_wait 150))

theorem emits_restoreEvents (f1 c1 f2 c2 : Byte) : EmitsListed (restoreEvents f1 c1 f2 c2) :=
  ((emits_window (by decide) _).append (emits_window (by decide) _)).append (emits_listenEvents f2 c2)

theorem emits_widthEvents (c : Cfg) (f : Byte) : EmitsListed (widthEvents c f) := by
  have ack : EmitsListed (if c.autoAck then window [0xA8, 0x41] else []) := by
    split
    · exact emits_window (by decide) _
    · exact emits_nil
  exact ack.append (emits_window (by decide) _)

/-- What a `readMessage` that completes drives, with the burst `data` under either framing (R205, R208). -/
theorem emits_readEvents (c : Cfg) (f w : Byte) (data : List Byte) :
    EmitsListed (widthEvents c f ++ (if w = 0 then [] else window (0x61 :: data)) ++ window [0x27, 0x40]) := by
  have burst : EmitsListed (if w = 0 then [] else window (0x61 :: data)) := by
    split
    · exact emits_nil
    · exact emits_window (by decide) _
  exact ((emits_widthEvents c f).append burst).append (emits_window (by decide) _)

/-! ### Operations -/

/-- Whatever was driven from `s` to `t`, its command bytes meet `P`. -/
def EmitsOnly (P : Byte → Prop) (s t : State) : Prop :=
  ∀ evs, driven t.trace = driven s.trace ++ evs → ∀ c ∈ commandsOf evs, P c

section
variable {P Q : Byte → Prop} {s t : State} {evs : List Drive}

theorem emitsOnly_of_driven (h : driven t.trace = driven s.trace ++ evs) (he : Emits P evs) : EmitsOnly P s t := by
  intro evs' h'
  obtain rfl := List.append_cancel_left (h'.symm.trans h)
  exact he.commands

theorem EmitsOnly.mono (h : EmitsOnly P s t) (hPQ : ∀ c, P c → Q c) : EmitsOnly Q s t :=
  fun evs hd c hc => hPQ c (h evs hd c hc)

theorem emitsOnly_of_same (h : t.trace = s.trace) : EmitsOnly P s t :=
  emitsOnly_of_driven (by rw [h, List.append_nil]) emits_nil

theorem emitsOnly_writeTx {c : Byte} (hc : P c) (out : List Byte) (s : State) : EmitsOnly P s (writeTx c out s) :=
  emitsOnly_of_driven (writeTx_bus c out s).drives.trace (emits_window hc out)

theorem emitsOnly_readTx {c : Byte} (hc : P c) (n : Nat) (s : State) : EmitsOnly P s (readTx c n s).2 := by
  obtain ⟨fill, -, h⟩ := readTx_bus c n s
  exact emitsOnly_of_driven h.drives.trace (emits_window hc fill)

theorem emitsOnly_exchange (os : List Byte) (s : State) : EmitsOnly P s (exchange os s).2 :=
  emitsOnly_of_driven (exchange_bus os s).drives.trace (emits_mosi os)

/-- A request drives what its body does. -/
theorem runRequest_emitsOnly {j : Instr} {body : State → Result × State} (h : runRequest j body s = .next t)
    (hb : ∀ u, EmitsOnly P u (body u).2) : EmitsOnly P s t := by
  unfold runRequest at h
  split at h
  · cases h
    exact hb (begin j s)
  · cases h

theorem runBuffered_emitsOnly {j : Instr} {buf : List Byte} {n : Nat} {body : State → Result × State}
    (h : runBuffered j buf n body s = .next t) (hb : ∀ u, EmitsOnly P u (body u).2) : EmitsOnly P s t := by
  unfold runBuffered at h
  repeat' split at h
  · cases h
    exact hb (begin j s)
  · cases h
  · cases h

end

/-! ### The higher-level operations -/

/-- The command bytes driven are in the list of R99. -/
abbrev EmitsListedOnly (s t : State) : Prop := EmitsOnly (· ∈ emittedCommands) s t

section
variable {s t : State} {p : List Byte} {before : List Drive} {n : Nat} {b : Byte} {m : List Byte} {k : Nat}

theorem pollsAgain_emitsOnly {g : Option OperatingState} (h : PollsAgain p before n b m k g s t) (hb : EmitsListed before) :
    EmitsListedOnly s t := by
  obtain ⟨f, hd⟩ := h.drives
  exact emitsOnly_of_driven hd.trace (hb.append (emits_window (by decide) _))

theorem pollsOut_emitsOnly {r : Result} (h : PollsOut before n b m k r s t) (hb : EmitsListed before) :
    EmitsListedOnly s t := by
  obtain ⟨f, f1, c1, f2, c2, hd, -⟩ := h.drives
  exact emitsOnly_of_driven hd.trace ((hb.append (emits_window (by decide) _)).append (emits_restoreEvents f1 c1 f2 c2))

theorem exec_init_emitsOnly (h : exec .init s = .next t) : EmitsListedOnly s t := by
  obtain ⟨t', f, e, pre, post, he, hr, -⟩ := initRuns s (exec_init_cases h).1
  obtain rfl := Host.Outcome.next.inj (h.symm.trans he)
  exact emitsOnly_of_driven hr.drives.trace (emits_initEvents _ _ f e)

theorem applyState_emitsOnly (g : OperatingState) (s : State) : EmitsListedOnly s (applyState g s) := by
  obtain ⟨f, st, c, m, h, -⟩ := applyState_spec g s
  exact emitsOnly_of_driven h.drives.trace (emits_applyEvents g f c)

theorem applyInstr_emitsOnly (g : OperatingState) (h : exec (applyInstr g) s = .next t) : EmitsListedOnly s t := by
  rw [exec_applyInstr] at h
  exact runRequest_emitsOnly h (applyState_emitsOnly g)

theorem startListening_emitsOnly (s : State) : EmitsListedOnly s (startListeningBody s) := by
  obtain ⟨f, st, c, m, h, -⟩ := listen_spec s
  exact emitsOnly_of_driven h.drives.trace (emits_listenEvents f c)

theorem exec_sendMessage_emitsOnly (h : exec (.sendMessage p) s = .next t) : EmitsListedOnly s t := by
  have hi := initialised_of_exec (by simp) h
  by_cases hl : p.length ≤ 32
  · obtain ⟨t', f1, c1, f2, c2, b, m, he, -, -, ho⟩ := sendMessagePolls.1 s p hi hl
    obtain rfl := Host.Outcome.next.inj (h.symm.trans he)
    have hs := emits_sendEvents s.cfg p f1 c1 f2 c2
    show EmitsListedOnly { s with pc := 0 } t
    obtain ⟨-, ho⟩ | ⟨r, -, ho⟩ := ho
    · exact pollsAgain_emitsOnly ho hs
    · exact pollsOut_emitsOnly ho hs
  · have he : exec (.sendMessage p) s = .next { s with result := some (.err (.payloadTooLarge p.length)) } :=
      (if_pos hi).trans (if_neg hl)
    obtain rfl := Host.Outcome.next.inj (h.symm.trans he)
    exact emitsOnly_of_same rfl

theorem pollPass_emitsOnly (hop : s.op = some (.sendMessage p)) : EmitsListedOnly s (pollPass s) := by
  obtain ⟨b, m, ⟨-, h⟩ | ⟨r, -, h⟩⟩ := pollPass_outcome hop
  · exact pollsAgain_emitsOnly h emits_nil
  · exact pollsOut_emitsOnly h emits_nil

theorem exec_readMessage_emitsOnly (h : exec .readMessage s = .next t) : EmitsListedOnly s t := by
  have hi := initialised_of_exec (by simp) h
  cases hp : s.params.rxReadFraming with
  | commandInBurst =>
    obtain ⟨t', f, w, pre, he, -, -, ho⟩ := readMessageInBurst s hi hp
    obtain rfl := Host.Outcome.next.inj (h.symm.trans he)
    obtain ⟨-, a, b, hr, -⟩ | ⟨-, hd, -⟩ := ho
    · exact emitsOnly_of_driven hr.drives.trace (emits_readEvents _ f w _)
    · exact emitsOnly_of_driven hd.trace (emits_widthEvents _ f)
  | commandThenBurst =>
    obtain ⟨t', f, w, pre, he, -, -, ho⟩ := readMessageThenBurst s hi hp
    obtain rfl := Host.Outcome.next.inj (h.symm.trans he)
    obtain ⟨-, fill, st, a, b, -, hr, -⟩ | ⟨-, hd, -⟩ := ho
    · exact emitsOnly_of_driven hr.drives.trace (emits_readEvents _ f w fill)
    · exact emitsOnly_of_driven hd.trace (emits_widthEvents _ f)

theorem availableBody_emitsOnly (s : State) : EmitsListedOnly s (availableBody s).2 := by
  obtain ⟨f, st, h, -⟩ := readTmp_act 0x17 s
  exact emitsOnly_of_driven h.drives.trace (emits_window (by decide) _)

/-- A higher-level operation drives the command bytes of R99 and no others. -/
theorem exec_emitsListedOnly {i : Instr} (hi : isHigherLevel i = true) (h : exec i s = .next t) : EmitsListedOnly s t := by
  cases i
  case init => exact exec_init_emitsOnly h
  case applyPowerUp => exact applyInstr_emitsOnly .powerUp h
  case applyPowerDown => exact applyInstr_emitsOnly .powerDown h
  case applyReceiving => exact applyInstr_emitsOnly .receiving h
  case applyTransmitting => exact applyInstr_emitsOnly .transmitting h
  case applyStandbyI => exact applyInstr_emitsOnly .standbyI h
  case applyStandbyII => exact applyInstr_emitsOnly .standbyII h
  case startListening =>
    exact runRequest_emitsOnly (body := fun u => unitResult (startListeningBody u)) h startListening_emitsOnly
  case sendMessage => exact exec_sendMessage_emitsOnly h
  case readMessage => exact exec_readMessage_emitsOnly h
  case available => exact runRequest_emitsOnly h availableBody_emitsOnly
  all_goals cases hi

/-! ### The raw operations -/

/-- What R99 lets a raw operation emit: a byte of the list, a register read or write byte, ACTIVATE or NOP. -/
abbrev RawCommand (c : Byte) : Prop := c ∈ emittedCommands ∨ c.toNat < 0x40 ∨ c = 0x50 ∨ c = 0xFF

theorem rawCommand_read (a : RegAddr) : RawCommand (cmdReg opRead a) := by revert a; decide

theorem rawCommand_write (a : RegAddr) : RawCommand (cmdReg opWrite a) := by revert a; decide

/-- Every operation of the request interface: a higher-level one, or a raw one with a window of its own, bare exchanges or
nothing on the bus. -/
theorem exec_emitsRawOnly {i : Instr} (hi : isOperation i = true) (h : exec i s = .next t) : EmitsOnly RawCommand s t := by
  by_cases hh : isHigherLevel i = true
  · exact (exec_emitsListedOnly hh h).mono (fun _ => .inl)
  cases i
  case exchangeByte out =>
    exact runRequest_emitsOnly (body := exchangeByteBody out) h (fun u => emitsOnly_exchange [out] u)
  case exchangeBurst buf n =>
    exact runBuffered_emitsOnly (body := exchangeBurstBody buf n) h (fun u => emitsOnly_exchange (buf.take n) u)
  case readRegister addr n =>
    exact runRequest_emitsOnly (body := fun u => readResult (readReg addr n u)) h (emitsOnly_readTx (rawCommand_read _) n)
  case readRxPayload n =>
    exact runRequest_emitsOnly (body := fun u => readResult (readTx 0x61 n u)) h (emitsOnly_readTx (by decide) n)
  case readRxPayloadWidth =>
    exact runRequest_emitsOnly (body := fun u => widthResult (readTx 0x60 1 u)) h (emitsOnly_readTx (by decide) 1)
  case writeRegister addr buf n =>
    exact runBuffered_emitsOnly (body := fun u => statusResult (writeReg addr (buf.take n) u)) h
      (emitsOnly_writeTx (rawCommand_write _) _)
  case writeTxPayload buf n =>
    exact runBuffered_emitsOnly (body := fun u => statusResult (writeTx 0xA0 (buf.take n) u)) h
      (emitsOnly_writeTx (by decide) _)
  case writeTxPayloadNoAck buf n =>
    exact runBuffered_emitsOnly (body := fun u => statusResult (writeTx 0xB0 (buf.take n) u)) h
      (emitsOnly_writeTx (by decide) _)
  case writeAckPayload buf n =>
    exact runBuffered_emitsOnly (body := fun u => statusResult (writeTx (cmdPipe 0) (buf.take n) u)) h
      (emitsOnly_writeTx (by decide) _)
  case flushTx =>
    exact runRequest_emitsOnly (body := fun u => statusResult (flushTxOp u)) h (emitsOnly_writeTx (by decide) [])
  case flushRx =>
    exact runRequest_emitsOnly (body := fun u => statusResult (flushRxOp u)) h (emitsOnly_writeTx (by decide) [])
  case activate =>
    exact runRequest_emitsOnly (body := fun u => statusResult (writeTx 0x50 [0x73] u)) h (emitsOnly_writeTx (by decide) _)
  case nop =>
    exact runRequest_emitsOnly (body := fun u => statusResult (writeTx 0xFF [] u)) h (emitsOnly_writeTx (by decide) _)
  case readPending =>
    exact runRequest_emitsOnly (body := fun u => (.flag u.intr.pending, tick u)) h (fun u => emitsOnly_of_same rfl)
  case clearPending =>
    exact runRequest_emitsOnly (body := fun u => unitResult (tick { u with intr := { u.intr with pending := false } })) h
      (fun u => emitsOnly_of_same rfl)
  case rRegisterCmd | wRegisterCmd | activateCmd | rRxPlWidCmd | rRxPayloadCmd | wTxPayloadCmd | wAckPayloadCmd |
      wTxPayloadNoAckCmd | flushTxCmd | flushRxCmd | reuseTxPlCmd | nopCmd => cases hi
  all_goals exact absurd rfl hh

end

/-- Settles O54: the events each higher-level operation and each pass of a send drives, and the window of each raw one. -/
theorem emittedCommandBytes : Obligations.EmittedCommandBytes := by
  refine ⟨fun i s t evs hi h => exec_emitsListedOnly hi h evs, fun p s t evs hop h => ?_,
    fun i s t evs hi h => exec_emitsRawOnly hi h evs⟩
  rw [step_of_send s p hop] at h
  obtain rfl := Host.Outcome.next.inj h
  exact pollPass_emitsOnly hop evs

end Sys2Proof.Proofs
end

section
/-!
The bus primitives (R120–R126): exchanges on their own, outside any window the operation itself would open or close.
-/

namespace Sys2Proof.Proofs

open Sys2Proof.Machine Sys2Proof.Laws

/-! ### The last event of an exchange -/

@[simp] theorem onRef_trace (f : RefDev → RefDev) (s : State) : (onRef f s).trace = s.trace := by
  unfold onRef
  split <;> rfl

@[simp] theorem refresh_trace (s : State) : (refresh s).trace = s.trace := by simp [refresh]

/-- `Xfer` ends with its event: the environment's points all stand before it (R121, R283). -/
theorem xfer_getLast? (o : Byte) (s : State) : (xfer o s).2.trace.getLast? = some (.x o (xfer o s).1) := by
  simp [xfer, linkTake_eq]

/-! ### Exchanges as an operation -/

/-- An operation that exchanged the bytes `out`, captured `ins` and returned `r`, and did nothing else (R126). -/
structure ExchangeRun (out ins : List Byte) (r : Result) (s t : State) : Prop where
  runs : Runs (out.map Drive.mosi) 0 r s t
  miso : misoOf t.trace = misoOf s.trace ++ ins
  csn : t.pins.csn = s.pins.csn
  ce : t.pins.ce = s.pins.ce
  regs : t.regs = s.regs
  quiet : Quiet s t
  kept : DeviceKept s t

/-- Exchanges from the start of an operation, and the operation's end. No exchange moves CSN or CE (R126). -/
theorem exchangeRun_finish (out : List Byte) (r : Result) (i : Instr) (s : State) :
    ExchangeRun out (exchange out (begin i s)).1 r s (finish r (exchange out (begin i s)).2) where
  runs := finish_runs r (exchange_bus out (begin i s)).drives
  miso := exchange_miso out (begin i s)
  csn := (exchange_bus out (begin i s)).drives.csn.trans (foldl_mosi_csn out s.pins.csn)
  ce := (exchange_bus out (begin i s)).drives.ce.trans (foldl_mosi_ce out s.pins.ce)
  regs := exchange_regs out (begin i s)
  quiet := finish_quiet r (exchange_bus out (begin i s)).quiet rfl rfl rfl
  kept := kept_finish r (exchange_kept out (begin i s))

theorem exec_exchangeByte (out : Byte) {s : State} (hi : s.initialised = true) : exec (.exchangeByte out) s =
    .next (finishWith (exchangeByteBody out (begin (.exchangeByte out) s))) :=
  runRequest_of_initialised (exchangeByteBody out) hi

theorem exec_exchangeBurst {buf : List Byte} {count : Nat} {s : State} (hi : s.initialised = true)
    (hn : count ≤ buf.length) : exec (.exchangeBurst buf count) s =
      .next (finishWith (exchangeBurstBody buf count (begin (.exchangeBurst buf count) s))) :=
  (if_pos hi).trans (if_pos hn)

/-- Settles O13: a burst of one byte, with the pins and the shifter as `Xfer` leaves them. -/
theorem exchangeByteRuns : Obligations.ExchangeByteRuns := by
  intro out s hi
  have h := exchangeRun_finish [out] (.byte (xfer out (begin (.exchangeByte out) s)).1) (.exchangeByte out) s
  obtain ⟨hsck, hmosi, hshifter⟩ := xfer_pins out (begin (.exchangeByte out) s)
  exact ⟨_, _, exec_exchangeByte out hi, h.runs, xfer_getLast? out _, h.miso, h.csn, h.ce, hsck, hmosi, hshifter, h.regs,
    h.quiet, h.kept⟩

/-- Settles O14: a burst of the first `count` bytes captures as many, which replace them. -/
theorem exchangeBurstRuns : Obligations.ExchangeBurstRuns := by
  intro buf count s hi hn
  have h := exchangeRun_finish (buf.take count)
    (.bytes ((exchange (buf.take count) (begin (.exchangeBurst buf count) s)).1 ++ buf.drop count))
    (.exchangeBurst buf count) s
  have hl := (exchange_length (buf.take count) (begin (.exchangeBurst buf count) s)).trans (List.length_take_of_le hn)
  exact ⟨_, _, exec_exchangeBurst hi hn, h.runs, hl, h.miso, h.csn, h.ce, h.regs, h.quiet, h.kept⟩

end Sys2Proof.Proofs
end

section
/-!
The transactions of the register access layer (R135, R139–R148): the requests that read and the special commands that only
send, each one window that returns what MISO gave and writes no device register.
-/

namespace Sys2Proof.Proofs

open Sys2Proof.Machine Sys2Proof.Laws

/-! ### The transactions that read -/

/-- A reading window as an operation that returned `r`. Its MOSI bytes are open (R136, log 2). -/
theorem readTx_run {c : Byte} (hc : isWriteCmd c = false) (n : Nat) (r : Result) (i : Instr) (s : State) :
    ∃ fill : List Byte, fill.length = n ∧
      WindowRun (c :: fill) r (readTx c n (begin i s)).2.regs.status (readTx c n (begin i s)).1 s
        (finish r (readTx c n (begin i s)).2) ∧
      DeviceKept s (finish r (readTx c n (begin i s)).2) := by
  obtain ⟨fill, hl, h⟩ := readTx_window c n (begin i s)
  exact ⟨fill, hl, windowRun_of_window r h, kept_finish r (h.kept hc)⟩

section
variable {s : State}

/-- A request that is one reading window returns STATUS and the bytes it captured (R135, R142). -/
theorem exec_read {i : Instr} {c : Byte} {n : Nat} (hc : isWriteCmd c = false)
    (he : exec i s = .next (finishWith (readResult (readTx c n (begin i s))))) :
    ∃ t fill st d, exec i s = .next t ∧ Runs (window (c :: fill)) 0 (.statusBytes st d) s t ∧ fill.length = n ∧
      d.length = n ∧ misoOf t.trace = misoOf s.trace ++ st :: d ∧ t.regs.status = st ∧ Quiet s t ∧ DeviceKept s t := by
  obtain ⟨fill, hl, h, hk⟩ := readTx_run hc n (readResult (readTx c n (begin i s))).1 i s
  exact ⟨_, fill, _, _, he, h.runs, hl, readTx_length c n _, h.miso, h.status, h.quiet, hk⟩

/-- A width read is one window of two bytes, and returns both bytes it captured (R146). -/
theorem exec_readRxPayloadWidth (hi : s.initialised = true) :
    ∃ t f st w, exec .readRxPayloadWidth s = .next t ∧ Runs (window [0x60, f]) 0 (.statusByte st w) s t ∧
      misoOf t.trace = misoOf s.trace ++ [st, w] ∧ t.regs.status = st ∧ Quiet s t ∧ DeviceKept s t := by
  obtain ⟨fill, hl, h, hk⟩ := readTx_run (c := 0x60) rfl 1
    (widthResult (readTx 0x60 1 (begin .readRxPayloadWidth s))).1 .readRxPayloadWidth s
  obtain ⟨f, rfl⟩ := List.length_eq_one_iff.mp hl
  obtain ⟨w, hw⟩ := List.length_eq_one_iff.mp (readTx_length 0x60 1 (begin .readRxPayloadWidth s))
  have hr : (widthResult (readTx 0x60 1 (begin .readRxPayloadWidth s))).1 =
      .statusByte (readTx 0x60 1 (begin .readRxPayloadWidth s)).2.regs.status w := by rw [widthResult, hw]; rfl
  exact ⟨_, f, _, w, runRequest_of_initialised (fun t => widthResult (readTx 0x60 1 t)) hi, hr ▸ h.runs, hw ▸ h.miso,
    h.status, h.quiet, hk⟩

end

/-- Settles O15: two requests that return STATUS and the bytes, and the width read. -/
theorem readTransactionsRun : Obligations.ReadTransactionsRun := by
  intro addr n s hi
  refine ⟨?_, ?_, exec_readRxPayloadWidth hi⟩
  · rw [← readCmd_eq addr]
    exact exec_read (isWrite_read _) (runRequest_of_initialised (fun t => readResult (readReg addr n t)) hi)
  · exact exec_read rfl (runRequest_of_initialised (fun t => readResult (readTx 0x61 n t)) hi)

/-! ### The transactions that only send -/

section
variable {s : State}

/-- A request whose meaning is one window over `out` that is no W_REGISTER, and STATUS as its result (R139). -/
def SendsOnly (i : Instr) (out : List Byte) (s : State) : Prop :=
  ∃ c data, out = c :: data ∧ isWriteCmd c = false ∧
    exec i s = .next (finishWith (statusResult (writeTx c data (begin i s))))

theorem SendsOnly.run {i : Instr} {out : List Byte} (h : SendsOnly i out s) :
    ∃ t st d, exec i s = .next t ∧ Runs (window out) 0 (.status st) s t ∧ misoOf t.trace = misoOf s.trace ++ st :: d ∧
      d.length + 1 = out.length ∧ t.regs.status = st ∧ Quiet s t ∧ DeviceKept s t := by
  obtain ⟨c, data, rfl, hc, he⟩ := h
  obtain ⟨ins, hl, hw⟩ := writeTx_window c data (begin i s)
  have hr := windowRun_of_window (statusResult (writeTx c data (begin i s))).1 hw
  exact ⟨_, _, ins, he, hr.runs, hr.miso, congrArg (· + 1) hl, hr.status, hr.quiet, kept_finish _ (hw.kept hc)⟩

theorem sendsOnly_request {i : Instr} {c : Byte} {data : List Byte} (hc : isWriteCmd c = false)
    (he : exec i s = runRequest i (fun t => statusResult (writeTx c data t)) s) (hi : s.initialised = true) :
    SendsOnly i (c :: data) s :=
  ⟨c, data, rfl, hc, he.trans (runRequest_of_initialised _ hi)⟩

/-- The same for a request with a buffer that holds its bytes (R103). -/
theorem sendsOnly_buffered {i : Instr} {c : Byte} {buf : List Byte} {n : Nat} (hc : isWriteCmd c = false)
    (he : exec i s = runBuffered i buf n (fun t => statusResult (writeTx c (buf.take n) t)) s)
    (hi : s.initialised = true) (hn : n ≤ buf.length) : SendsOnly i (c :: buf.take n) s :=
  ⟨c, buf.take n, rfl, hc, he.trans ((if_pos hi).trans (if_pos hn))⟩

end

/-- Settles O16: each of the seven is a request that only sends, three of them with a buffer. -/
theorem specialCommandsRun : Obligations.SpecialCommandsRun := by
  intro buf n s hi hn i out h
  refine SendsOnly.run ?_
  simp only [List.mem_cons, Prod.mk.injEq, List.not_mem_nil, or_false] at h
  obtain ⟨rfl, rfl⟩ | ⟨rfl, rfl⟩ | ⟨rfl, rfl⟩ | ⟨rfl, rfl⟩ | ⟨rfl, rfl⟩ | ⟨rfl, rfl⟩ | ⟨rfl, rfl⟩ := h
  · exact sendsOnly_request rfl rfl hi
  · exact sendsOnly_request rfl rfl hi
  · exact sendsOnly_buffered rfl rfl hi hn
  · exact sendsOnly_buffered rfl rfl hi hn
  · exact sendsOnly_buffered (isWrite_pipe 0) rfl hi hn
  · exact sendsOnly_request rfl rfl hi
  · exact sendsOnly_request rfl rfl hi

end Sys2Proof.Proofs
end

section
/-!
A register write followed by a read (R263): under RegFile the read finds the bytes stored, under Reference the register's
value, which the write made the data's.
-/

namespace Sys2Proof.Proofs

open Sys2Proof.Machine Sys2Proof.Laws

/-! ### The read of the RegFile device -/

theorem regFileAnswer_read {s : State} {a : RegAddr} {k : Nat} {ds : List Byte} (hk : k < 5)
    (hl : s.link = { inTxn := true, idx := k + 1, cmd := cmdReg opRead a, data := ds }) :
    regFileAnswer s = some (Memory.read s.regFile (regFileCell a k)) := by
  have hr : isReadCmd (cmdReg opRead a) = true := beq_iff_eq.mpr (cmdReg_op opRead a)
  have ha : cmdAddr (cmdReg opRead a) = a := cmdReg_addr opRead a
  simp [regFileAnswer, hl, hr, ha, regFileRead, hk]

/-- The bytes read in an open window are the store's, as far as byte 4, whatever the environment does (R249). -/
theorem readBytes_regFile (n : Nat) {s : State} {a : RegAddr} {k : Nat} {ds : List Byte}
    (hm : s.params.deviceModel = .regFile)
    (hl : s.link = { inTxn := true, idx := k + 1, cmd := cmdReg opRead a, data := ds }) :
    ∀ j, j < n → k + j < 5 → (readBytes n s).1[j]? = some (Memory.read s.regFile (regFileCell a (k + j))) := by
  induction n generalizing s k ds with
  | zero => exact fun j hj => absurd hj (Nat.not_lt_zero j)
  | succ n ih =>
    intro j hj hk
    cases j with
    | zero =>
      refine congrArg some (xfer_answer_regFile (draw s).1 (draw s).2 hm (congrArg Link.inTxn hl) _ fun u h1 h2 => ?_)
      rw [regFileAnswer_read hk (h1.trans hl), h2]
      rfl
    | succ j =>
      have hx := xfer_bus (draw s).1 (draw s).2
      have hs : (xfer (draw s).1 (draw s).2).2.regFile = s.regFile := (xfer_kept (draw s).1 (draw s).2).store
      have hk' := ih (s := (xfer (draw s).1 (draw s).2).2) (k := k + 1) (ds := ds ++ [(draw s).1])
        (by rw [hx.drives.params]; exact hm) (by rw [xfer_link, draw_link, hl]; rfl) j (by omega) (by omega)
      rw [hs, Nat.add_right_comm, Nat.add_assoc] at hk'
      exact hk'

theorem readReg_regFile {s : State} (hm : s.params.deviceModel = .regFile) (addr n : Nat) {j : Nat} (hj : j < n)
    (h5 : j < 5) : (readReg addr n s).1[j]? = some (Memory.read s.regFile (regFileCell (maskAddr addr) j)) := by
  have ho := readBytes_regFile n (by rw [(openWindow_bus _ s).drives.params]; exact hm)
    (openWindow_link (cmdReg opRead (maskAddr addr)) s) j hj (by omega)
  rw [(openWindow_kept _ s).store, Nat.zero_add] at ho
  exact ho

/-! ### The write, and the read after it -/

/-- A register write stores in the register its masked address names (R97, R234, R249). -/
theorem writeReg_written (addr : Nat) (buf : List Byte) {s : State} (hw : Memory.wf s.regFile = true) :
    RegisterWritten (maskAddr addr) buf s (writeReg addr buf s) := by
  obtain ⟨ins, -, h⟩ := writeTx_window (cmdReg opWrite (maskAddr addr)) buf s
  obtain ⟨hc, ha⟩ := isWrite_write (maskAddr addr)
  have hr := h.written hc hw
  rwa [ha] at hr

/-- The state in which the write of the whole of `v` ends. -/
abbrev writeEnd (addr : Nat) (v : List Byte) (s : State) : State :=
  finishWith (statusResult (writeReg addr v (begin (.writeRegister addr v v.length) s)))

/-- The state in which the read that follows it starts its window. -/
abbrev readStart (addr : Nat) (v : List Byte) (s : State) : State :=
  begin (.readRegister addr v.length) (writeEnd addr v s)

/-- Write and read run one after the other, and the read returns `v` if its window gave each byte of `v` (R135, R137). -/
theorem roundTrip_of_bytes {s : State} {addr : Nat} {v : List Byte} (hi : s.initialised = true)
    (h : ∀ j (hj : j < v.length), (readReg addr v.length (readStart addr v s)).1[j]? = some v[j]) :
    ∃ t u st, exec (.writeRegister addr v v.length) s = .next t ∧ exec (.readRegister addr v.length) t = .next u ∧
      u.result = some (.statusBytes st v) := by
  have hw := exec_writeRegister (addr := addr) hi (le_refl v.length)
  rw [List.take_length] at hw
  have hq := (writeReg_bus addr v (begin (.writeRegister addr v v.length) s)).quiet
  have hb : (readReg addr v.length (readStart addr v s)).1 = v :=
    List.ext_getElem (readTx_length ..) fun j hj hv => List.getElem_eq_iff hj |>.mpr (h j hv)
  exact ⟨writeEnd addr v s, _, _, hw,
    runRequest_of_initialised (fun t => readResult (readReg addr v.length t)) (hq.initialised.trans hi),
    congrArg (fun d => some (Result.statusBytes _ d)) hb⟩

theorem regFile_roundTrip {s : State} {addr : Nat} {v : List Byte} (hi : s.initialised = true)
    (hm : s.params.deviceModel = .regFile) (hw : Memory.wf s.regFile = true) (hl : v.length ≤ 5) :
    ∃ t u st, exec (.writeRegister addr v v.length) s = .next t ∧ exec (.readRegister addr v.length) t = .next u ∧
      u.result = some (.statusBytes st v) := by
  refine roundTrip_of_bytes hi fun j hj => ?_
  have hp := (writeReg_bus addr v (begin (.writeRegister addr v v.length) s)).drives.params
  have hs := writeReg_written addr v (s := begin (.writeRegister addr v v.length) s) hw
  have hr := readReg_regFile (s := readStart addr v s) ((congrArg Params.deviceModel hp).trans hm) addr v.length hj (by omega)
  exact hr.trans (congrArg some (hs.stored hm j v[j] (by omega) (List.getElem?_eq_getElem hj)))

/-! ### The registers of the Reference device that can be written -/

/-- RW bits stand at no reserved address, and not in STATUS, whose flags are written with 1 to clear (R39, R51). -/
theorem writable_address {a : RegAddr} (h : rwMask a ≠ 0) : isReserved a = false ∧ a ≠ 0x07 := by
  revert a
  decide

theorem width_of_settings {r r' : DevRegs} (h : settings r = settings r') (a : RegAddr) : r.width a = r'.width a := by
  obtain ⟨_, _, _, _, rfl⟩ := eq_of_settings h
  rfl

/-- A register with RW bits is a matter of the settings alone. -/
theorem regValue_of_settings {d d' : RefDev} (h : settings d.regs = settings d'.regs) {a : RegAddr} (ha : rwMask a ≠ 0) :
    d.regValue a = d'.regValue a := by
  obtain ⟨_, _, _, _, hr⟩ := eq_of_settings h
  unfold rwMask at ha
  unfold RefDev.regValue
  rw [hr]
  generalize a.toNat = m at *
  split <;> first | rfl | exact absurd rfl ha

theorem width_store_same (r : DevRegs) (a : RegAddr) (v : Word40) : (r.store a v).width a = r.width a := by
  unfold DevRegs.width
  split
  case isFalse => rfl
  case isTrue h =>
    simp only [isAddrReg, Bool.or_eq_true, beq_iff_eq] at h
    obtain (rfl | rfl) | rfl := h <;> rfl

/-- A byte whose bits outside the mask are clear, as a register value. -/
theorem zeroExtend_in_mask {x r : Byte} {m : Word40} (h : x &&& r = 0) (hm : ~~~m &&& 0xFF = r.zeroExtend 40) :
    x.zeroExtend 40 &&& ~~~m = 0 := by
  apply BitVec.eq_of_getLsbD_eq
  intro i hi
  have h := congrArg (BitVec.getLsbD · i) h
  have hm := congrArg (BitVec.getLsbD · i) hm
  by_cases h8 : i < 8
  · have hf : (0xFF : Word40).getLsbD i = true := by interval_cases i <;> rfl
    simp only [BitVec.getLsbD_and, hf, Bool.and_true, BitVec.truncate_eq_setWidth, BitVec.getLsbD_setWidth, hi,
      decide_true, Bool.true_and] at h hm ⊢
    rw [hm]
    exact h.trans (by simp)
  · simp [BitVec.getLsbD_of_ge x i (by omega)]

/-- With the reserved bits clear no bit of a register stands outside its RW bits (R31–R50). -/
theorem regValue_in_mask {d : RefDev} (h : ReservedClear d.regs) {a : RegAddr} (ha : rwMask a ≠ 0) :
    d.regValue a &&& ~~~(rwMask a) = 0 := by
  obtain ⟨h1, h2, h3, h4, h5, h6, h7, h8, h9, h10, h11, h12, h13, h14, h15⟩ := h
  have hlt := a.isLt
  unfold rwMask at *
  unfold RefDev.regValue
  generalize a.toNat = n at *
  interval_cases n
  all_goals first
    | exact absurd rfl ha
    | exact BitVec.and_zero
    | exact zeroExtend_in_mask BitVec.and_zero rfl
    | (apply zeroExtend_in_mask; assumption; rfl)

/-- Data that fits a register: one byte for each of its bytes, and no bit that the register cannot take. -/
structure Fits (r : DevRegs) (a : RegAddr) (v : List Byte) : Prop where
  writable : rwMask a ≠ 0
  length : v.length = r.width a
  short : v.length ≤ 5
  bits : packBytes v &&& ~~~(rwMask a) = 0

theorem rwMask_address {a : RegAddr} (h : isAddrReg a = true) : rwMask a = 0xFFFFFFFFFF := by
  revert a
  decide

theorem fits_address {r : DevRegs} {a : RegAddr} {v : List Byte} (ha : isAddrReg a = true) (hl : v.length = 5)
    (hw : r.aw = 3) : Fits r a v := by
  have h5 : r.width a = 5 := by simp [DevRegs.width, DevRegs.addrWidth, ha, hw]
  have hm : rwMask a = 0xFFFFFFFFFF := rwMask_address ha
  exact ⟨by rw [hm]; decide, hl.trans h5.symm, hl.le, by rw [hm]; exact BitVec.and_zero⟩

theorem fits_byte {r : DevRegs} {a : RegAddr} {b : Byte} (ha : isAddrReg a = false) (hm : rwMask a ≠ 0)
    (hb : b.zeroExtend 40 &&& ~~~(rwMask a) = 0) : Fits r a [b] := by
  have h1 : r.width a = 1 := by simp [DevRegs.width, ha]
  have hp : packBytes [b] = b.zeroExtend 40 := by simp [packBytes]
  exact ⟨hm, h1.symm, Nat.le_add_left 1 4, by rw [hp]; exact hb⟩

theorem getLsbD_of_in_mask {x m : Word40} (h : x &&& ~~~m = 0) {i : Nat} (hi : i < 40) (hm : m.getLsbD i = false) :
    x.getLsbD i = false := by
  have h := congrArg (BitVec.getLsbD · i) h
  simp only [BitVec.getLsbD_and, BitVec.getLsbD_not, hi, hm, decide_true, Bool.not_false, Bool.and_true] at h
  exact h.trans BitVec.getLsbD_zero

/-- The register written reads as the data, byte by byte: the RW bits took it, and outside them both are clear (R233, R234). -/
theorem regValue_written {d : RefDev} {a : RegAddr} {v : List Byte} (hc : ReservedClear d.regs) (hf : Fits d.regs a v)
    {j : Nat} (hj : j < v.length) : byteOf ((d.writeReg a v).regValue a) j = v[j] := by
  obtain ⟨ha, hl, hs, hb⟩ := hf
  obtain ⟨hr, h7⟩ := writable_address ha
  have hd : v ≠ [] := List.ne_nil_of_length_pos (by omega)
  rw [writeReg_of_stored d hr h7 hd hl.ge, regValue_store_same d a _ _ h7]
  apply BitVec.eq_of_getLsbD_eq
  intro b hb8
  have hv : v.getD j 0 = v[j] := by simp [hj]
  have hw : j < d.regs.width a := by omega
  rw [byteOf, BitVec.getLsbD_extractLsb', merged_getLsbD _ _ _ _ (by omega) hb8, hv]
  simp only [hb8, decide_true, Bool.true_and, hw, true_and]
  cases hm : (rwMask a).getLsbD (8 * j + b) with
  | true => rfl
  | false =>
    have ho := getLsbD_of_in_mask (regValue_in_mask hc ha) (by omega) hm
    have hn := getLsbD_of_in_mask hb (by omega) hm
    rw [packBytes_getLsbD v (by omega) hb8, hv] at hn
    exact ho.trans hn.symm

theorem width_written {d : RefDev} {a : RegAddr} {v : List Byte} (hf : Fits d.regs a v) (hd : v ≠ []) :
    (d.writeReg a v).regs.width a = d.regs.width a := by
  obtain ⟨hr, h7⟩ := writable_address hf.writable
  rw [writeReg_of_stored d hr h7 hd hf.length.ge]
  exact width_store_same _ _ _

/-- What the device answers to the read after the write, its modes settled in between (R233, R250). -/
theorem readReg_written {d : RefDev} {a : RegAddr} {v : List Byte} (hc : ReservedClear d.regs) (hf : Fits d.regs a v)
    (ce : Bool) {j : Nat} (hj : j < v.length) : ((d.writeReg a v).settle ce).readReg a j = some v[j] := by
  have hs := settle_settings (d.writeReg a v) ce
  have hd : v ≠ [] := List.ne_nil_of_length_pos (by omega)
  have hw : j < ((d.writeReg a v).settle ce).regs.width a := by
    rw [width_of_settings hs, width_written hf hd, ← hf.length]
    exact hj
  rw [readReg_of_lt (writable_address hf.writable).1 hw, regValue_of_settings hs hf.writable, regValue_written hc hf hj]

theorem reference_roundTrip {s : State} {addr : Nat} {v : List Byte} (hq : QuietReference s) (hi : s.initialised = true)
    (hc : ReservedClear s.ref.regs) (hf : Fits s.ref.regs (BitVec.ofNat 5 addr) v) :
    ∃ t u st, exec (.writeRegister addr v v.length) s = .next t ∧ exec (.readRegister addr v.length) t = .next u ∧
      u.result = some (.statusBytes st v) := by
  refine roundTrip_of_bytes hi fun j hj => ?_
  have hw := ((quiet_begin (.writeRegister addr v v.length) hq).at_writeReg addr v).ref
  have hs : AtRest (readStart addr v s) _ _ := hw.congr rfl rfl rfl rfl
  exact (hs.at_readReg addr v.length).2 j _ hj (readReg_written hc hf _ hj)

/-- Settles O57: the store's bytes under RegFile, the written register's under Reference. -/
theorem registerRoundTrip : Obligations.RegisterRoundTrip := by
  refine ⟨fun s addr v hi hm hw hl => regFile_roundTrip hi hm hw hl, fun s addr v hq hi hc h => ?_⟩
  refine reference_roundTrip hq hi hc ?_
  obtain ⟨ha, hl, hw⟩ | ⟨ha, hm, b, rfl, hb⟩ := h
  · exact fits_address ha hl hw
  · exact fits_byte ha hm hb

end Sys2Proof.Proofs
end

section
/-!
The radio state machine at its pins (R170–R179): what `applyState` and `startListening` run, under every device and
environment, and the bytes that `init` computes from its configuration (R166, R167).
-/

namespace Sys2Proof.Proofs

open Sys2Proof.Machine Sys2Proof.Laws

/-! ### applyState and startListening -/

/-- The state in which the operation of a target ends. -/
abbrev applyEnd (g : OperatingState) (s : State) : State := finish .unit (applyState g (begin (applyInstr g) s))

/-- The state in which `startListening` ends. -/
abbrev listenEnd (s : State) : State := finish .unit (startListeningBody (begin .startListening s))

/-- An operation of the radio state machine that drove `evs` and noted the target `g`: its first two MISO bytes are those of
its CONFIG read, and `tmp` keeps the second (R22, R170, R178). -/
structure TargetRun (g : OperatingState) (evs : List Drive) (st c : Byte) (more : List Byte) (s t : State) : Prop where
  runs : Runs evs 2 .unit s t
  miso : misoOf t.trace = misoOf s.trace ++ st :: c :: more
  quiet : Quiet { s with regs := { s.regs with tmp := c }, lastTarget := some g } t

theorem targetRun_finish {g : OperatingState} {i : Instr} {evs : List Drive} {st c : Byte} {more : List Byte} {s u : State}
    (ha : Act evs 2 (st :: c :: more) (begin i s) u)
    (hq : Quiet { begin i s with regs := { (begin i s).regs with tmp := c }, lastTarget := some g } u) :
    TargetRun g evs st c more s (finish .unit u) :=
  ⟨finish_runs .unit ha.drives, ha.miso, finish_quiet .unit hq rfl rfl rfl⟩

/-- The arm runs on the byte that the CONFIG read gave. -/
theorem applyEnd_run (g : OperatingState) (s : State) : ∃ f st c more,
    TargetRun g (window [0x00, f] ++ armEvents g c) st c more s (applyEnd g s) ∧
      c = (readTmp 0x00 (begin (applyInstr g) s)).1 := by
  obtain ⟨f, st, c, more, ha, hq, hc⟩ := applyState_spec g (begin (applyInstr g) s)
  exact ⟨f, st, c, more, targetRun_finish ha hq, hc⟩

/-- Settles O20: the run of `applyState`, for each target. -/
theorem applyStateRuns : Obligations.ApplyStateRuns := by
  intro g s hi
  obtain ⟨f, st, c, more, hr, -⟩ := applyEnd_run g s
  exact ⟨_, f, st, c, more, exec_apply g s hi, hr.runs, hr.miso, hr.quiet⟩

theorem exec_startListening {s : State} (hi : s.initialised = true) : exec .startListening s = .next (listenEnd s) :=
  runRequest_of_initialised (fun t => unitResult (startListeningBody t)) hi

/-- Settles O21: `applyState(Receiving)` and the end of `startListening`, in one run. -/
theorem startListeningRuns : Obligations.StartListeningRuns := by
  intro s hi
  obtain ⟨f, st, c, more, ha, hq, hce⟩ := listen_spec (begin .startListening s)
  have hr := targetRun_finish ha hq
  exact ⟨_, f, st, c, more, exec_startListening hi, hr.runs, hr.miso, hce, hr.quiet⟩

/-! ### The bytes of init -/

theorem configInit_bits (c : Cfg) : (configInit c).getLsbD 7 = false ∧ (configInit c).getLsbD 6 = !c.irqRxEn ∧
    (configInit c).getLsbD 5 = !c.irqTxEn ∧ (configInit c).getLsbD 4 = !c.irqRtEn ∧ (configInit c).getLsbD 3 = c.crcEn ∧
    (configInit c).getLsbD 2 = true ∧ (configInit c).getLsbD 1 = true ∧ (configInit c).getLsbD 0 = true := by
  unfold configInit
  cases c.irqRxEn <;> cases c.irqTxEn <;> cases c.irqRtEn <;> cases c.crcEn <;> decide

theorem rfSetupByte_bits (c : Cfg) : (rfSetupByte c).extractLsb' 6 2 = 0 ∧
    (rfSetupByte c).getLsbD 5 = decide (c.dataRate = .r250K) ∧ (rfSetupByte c).getLsbD 4 = false ∧
    (rfSetupByte c).getLsbD 3 = decide (c.dataRate = .r2M) ∧
    (rfSetupByte c).getLsbD 2 = decide (c.power = .pHigh ∨ c.power = .pMax) ∧
    (rfSetupByte c).getLsbD 1 = decide (c.power = .pLow ∨ c.power = .pMax) ∧ (rfSetupByte c).getLsbD 0 = false := by
  unfold rfSetupByte
  cases c.dataRate <;> cases c.power <;> decide

theorem featureByte_perFlag_bits (c : Cfg) : (featureByte c .perFlag).extractLsb' 3 5 = 0 ∧
    (featureByte c .perFlag).getLsbD 2 = c.dynPayload ∧ (featureByte c .perFlag).getLsbD 1 = c.autoAck ∧
    (featureByte c .perFlag).getLsbD 0 = c.dynPayload := by
  unfold featureByte
  cases c.dynPayload <;> cases c.autoAck <;> decide

/-- Settles O19: the three bytes bit by bit, and their values at the defaults. -/
theorem initBytes : Obligations.InitBytes :=
  ⟨fun c => ⟨configInit_bits c, rfSetupByte_bits c, by decide⟩, featureByte_perFlag_bits, fun _ => rfl, by decide⟩

end Sys2Proof.Proofs
end

section
/-!
`applyState` and `startListening` against the Reference device in an environment that makes no choice (R172–R179, R253, R254):
where each of them takes the device, and what of the device that leaves as it was.
-/

namespace Sys2Proof.Proofs

open Sys2Proof.Machine Sys2Proof.Laws

/-! ### The device -/

/-- Where `applyState` takes a device at rest under CE `ce` (R172–R177). -/
def applied (g : OperatingState) (ce : Bool) (d : RefDev) : RefDev :=
  match g with
  | .powerUp =>
    if bitAt d.regs.config 1 then d else ((configured (setBits · pwrUpMask) ce d).advance Config.tPwrup).settle ce
  | .powerDown => configured (clearBits · pwrUpMask) ce d
  | .receiving => received ce d
  | .transmitting => configured (clearBits · primRxMask) ce d
  | .standbyI => d.settle false
  | .standbyII => started (configured (clearBits · primRxMask) ce d)

theorem applied_powerUp_again {d : RefDev} (h : bitAt d.regs.config 1 = true) (ce : Bool) : applied .powerUp ce d = d :=
  if_pos h

theorem applied_powerUp_first {d : RefDev} (h : ¬ bitAt d.regs.config 1 = true) (ce : Bool) : applied .powerUp ce d =
    ((configured (setBits · pwrUpMask) ce d).advance Config.tPwrup).settle ce :=
  if_neg h

/-- `d'` is `d` but for CONFIG, which is `c`, for the flags of STATUS, which are kept if `k` and clear if not, and for what
the mode rules change. -/
structure Reconfigured (c : Byte) (k : Bool) (d d' : RefDev) : Prop where
  settings : settings d'.regs = { settings d.regs with config := c }
  rxDr : d'.regs.rxDr = (d.regs.rxDr && k)
  txDs : d'.regs.txDs = (d.regs.txDs && k)
  maxRt : d'.regs.maxRt = (d.regs.maxRt && k)
  txFifo : d'.txFifo = d.txFifo
  rxFifo : d'.rxFifo = d.rxFifo

section
variable {c : Byte} {k : Bool} {d d' : RefDev}

theorem Reconfigured.refl (d : RefDev) : Reconfigured d.regs.config true d d :=
  ⟨rfl, (Bool.and_true _).symm, (Bool.and_true _).symm, (Bool.and_true _).symm, rfl, rfl⟩

theorem Reconfigured.settle (h : Reconfigured c k d d') (ce : Bool) : Reconfigured c k d (d'.settle ce) := by
  obtain ⟨htx, hrx, -, -, hr, ht, hm, -⟩ := settle_keeps d' ce
  exact ⟨(settle_settings d' ce).trans h.settings, hr.trans h.rxDr, ht.trans h.txDs, hm.trans h.maxRt, htx.trans h.txFifo,
    hrx.trans h.rxFifo⟩

theorem Reconfigured.advance (h : Reconfigured c k d d') (us : Nat) : Reconfigured c k d (d'.advance us) :=
  ⟨h.settings, h.rxDr, h.txDs, h.maxRt, h.txFifo, h.rxFifo⟩

theorem Reconfigured.started (h : Reconfigured c k d d') : Reconfigured c k d (started d') :=
  ((h.settle true).advance Config.tSettle).settle true

/-- The write of STATUS that clears the three flags (R174). -/
theorem Reconfigured.clearFlags (h : Reconfigured c k d d') : Reconfigured c false d (d'.writeReg 0x07 [0x70]) := by
  obtain ⟨hr, ht, hm⟩ := flagsClear_write d'
  refine ⟨(writeReg_status_settings d' _).trans h.settings, hr.trans (Bool.and_false _).symm,
    ht.trans (Bool.and_false _).symm, hm.trans (Bool.and_false _).symm, ?_, ?_⟩
  · rw [writeReg_eq]
    exact h.txFifo
  · rw [writeReg_eq]
    exact h.rxFifo

end

/-- A byte written to CONFIG stands there whole when its reserved bit is the register's (R32). -/
theorem mergedConfig_of_reserved {c v : Byte} (h : v &&& 0x80 = c &&& 0x80) : mergedConfig c v = v := by
  rw [mergedConfig, ← h, ← BitVec.and_or_distrib_left]
  exact BitVec.and_allOnes

/-- CONFIG updated by a change that leaves its reserved bit alone. -/
theorem configured_reconfigured {f : Byte → Byte} {d : RefDev} (h : f d.regs.config &&& 0x80 = d.regs.config &&& 0x80)
    (ce : Bool) : Reconfigured (f d.regs.config) true d (configured f ce d) := by
  rw [configured, writeReg_config, mergedConfig_of_reserved h]
  have h := Reconfigured.refl d
  refine Reconfigured.settle ?_ ce
  exact ⟨rfl, h.rxDr, h.txDs, h.maxRt, rfl, rfl⟩

theorem configured_setBits {m : Byte} (h : m &&& 0x80 = 0) (ce : Bool) (d : RefDev) :
    Reconfigured (setBits d.regs.config m) true d (configured (setBits · m) ce d) :=
  configured_reconfigured (f := (setBits · m)) (setBits_and h) ce

theorem configured_clearBits {m : Byte} (h : m &&& 0x80 = 0) (ce : Bool) (d : RefDev) :
    Reconfigured (clearBits d.regs.config m) true d (configured (clearBits · m) ce d) :=
  configured_reconfigured (f := (clearBits · m)) (clearBits_and h) ce

theorem setBits_pwrUp_of_set {c : Byte} (h : bitAt c 1 = true) : setBits c pwrUpMask = c := by
  apply BitVec.eq_of_getLsbD_eq
  intro i hi
  simp only [bitAt, setBits, pwrUpMask, BitVec.getLsbD_or] at h ⊢
  interval_cases i <;> simp [h]

/-- What `applyState` changes of the device, for each target (R172–R177). -/
theorem applied_reconfigured (g : OperatingState) (ce : Bool) (d : RefDev) :
    Reconfigured (configAfter g d.regs.config) (decide (g ≠ .receiving)) d (applied g ce d) := by
  cases g
  case powerUp =>
    by_cases h : bitAt d.regs.config 1 = true
    · rw [applied_powerUp_again h, show configAfter .powerUp d.regs.config = d.regs.config from setBits_pwrUp_of_set h]
      exact Reconfigured.refl d
    · rw [applied_powerUp_first h]
      exact ((configured_setBits (m := pwrUpMask) (by decide) ce d).advance Config.tPwrup).settle ce
  case powerDown => exact configured_clearBits (m := pwrUpMask) (by decide) ce d
  case receiving => exact (configured_setBits (m := primRxMask) (by decide) ce d).clearFlags.settle ce
  case transmitting => exact configured_clearBits (m := primRxMask) (by decide) ce d
  case standbyI => exact (Reconfigured.refl d).settle false
  case standbyII => exact (configured_clearBits (m := primRxMask) (by decide) ce d).started

/-! ### applyState -/

section
variable {s : State}

theorem atRest_finish {d : RefDev} {ce : Bool} (h : AtRest s d ce) (r : Result) : AtRest (finish r s) d ce :=
  h.congr rfl rfl rfl rfl

/-- The arm of a target after its read, which gave the device's CONFIG byte (R233). -/
theorem atRest_arm (g : OperatingState) {d : RefDev} {ce : Bool} (h : AtRest s d ce) :
    ∃ ce', AtRest (applyArm g (readTmp 0x00 s).1 (readTmp 0x00 s).2) (applied g ce d) ce' := by
  obtain ⟨hr, hc⟩ := h.at_readTmp 0x00
  have hc := hc _ (readReg_config d)
  cases g
  case powerUp =>
    by_cases hb : bitAt d.regs.config 1 = true
    · rw [applied_powerUp_again hb, applyArm, armPowerUp, if_pos (by rw [hc]; exact hb)]
      exact ⟨ce, hr⟩
    · rw [applied_powerUp_first hb, applyArm, armPowerUp, if_neg (by rw [hc]; exact hb)]
      exact ⟨ce, (atRest_updateConfig h (setBits · pwrUpMask)).at_wait Config.tPwrup⟩
  case powerDown => exact ⟨ce, atRest_updateConfig h (clearBits · pwrUpMask)⟩
  case receiving => exact ⟨ce, ((atRest_updateConfig h (setBits · primRxMask)).at_writeReg 0x07 [0x70]).ref⟩
  case transmitting => exact ⟨ce, atRest_updateConfig h (clearBits · primRxMask)⟩
  case standbyI => exact ⟨false, hr.at_setCe false⟩
  case standbyII =>
    exact ⟨true, ((atRest_updateConfig h (clearBits · primRxMask)).at_setCe true).at_wait Config.tSettle⟩

theorem atRest_applyState (g : OperatingState) {d : RefDev} {ce : Bool} (h : AtRest s d ce) :
    ∃ ce', AtRest (applyState g s) (applied g ce d) ce' := by
  obtain ⟨ce', ha⟩ := atRest_arm g h
  exact ⟨ce', ha.congr rfl rfl rfl rfl⟩

/-- After the operation the device is where the target takes it, at rest again. -/
theorem applyEnd_reference (hq : QuietReference s) (g : OperatingState) :
    (applyEnd g s).ref = applied g s.pins.ce.isHigh s.ref ∧ QuietReference (applyEnd g s) := by
  obtain ⟨ce', ha⟩ := atRest_applyState g (quiet_begin (applyInstr g) hq)
  have ht := atRest_finish ha .unit
  exact ⟨ht.ref, ht.model, ht.env, (congrArg RefDev.held ht.ref).trans ht.held, by rw [ht.ref, ht.hce]; exact ht.rest⟩

end

/-- An arm drives CE as its target says (R172–R177). -/
theorem ce_applyEvents (g : OperatingState) (f c : Byte) (p : Pin) :
    (window [0x00, f] ++ armEvents g c).foldl ceStep p = ceAfter g p := by
  rw [List.foldl_append, ce_window]
  cases g
  case powerUp =>
    rw [armEvents]
    split <;> rfl
  all_goals rfl

/-- Settles O38: the run of `applyState` for the controller, and where it takes the device. -/
theorem applyStateReference : Obligations.ApplyStateReference := by
  intro g s hq hi
  obtain ⟨f, st, c, more, hr, -⟩ := applyEnd_run g s
  have ha := applied_reconfigured g s.pins.ce.isHigh s.ref
  rw [← (applyEnd_reference hq g).1] at ha
  exact ⟨applyEnd g s, exec_apply g s hi, hr.quiet.lastTarget, hr.runs.drives.ce.trans (ce_applyEvents g f c s.pins.ce),
    ha.settings, ha.rxDr, ha.txDs, ha.maxRt, ha.txFifo, ha.rxFifo, hr.runs.drives.pending⟩

theorem armEvents_powerUp_again {c : Byte} (h : bitAt c 1 = true) : armEvents .powerUp c = [] := if_pos h

/-- With PWR_UP set the PowerUp arm drives nothing, and leaves the device (R172). -/
theorem powerUp_again {s : State} (hq : QuietReference s) (hp : bitAt s.ref.regs.config 1 = true) :
    (∃ f, driven (applyEnd .powerUp s).trace = driven s.trace ++ window [0x00, f]) ∧
      (applyEnd .powerUp s).ref = s.ref := by
  obtain ⟨f, st, c, more, hr, hc⟩ := applyEnd_run .powerUp s
  have hc : c = s.ref.regs.config := hc.trans (readTmp_config (s := begin .applyPowerUp s) hq.model)
  have hd := hr.runs.drives.trace
  rw [hc, armEvents_powerUp_again hp, List.append_nil] at hd
  exact ⟨⟨f, hd⟩, (applyEnd_reference hq .powerUp).1.trans (applied_powerUp_again hp _)⟩

theorem applyEnd_powerUp_config {s : State} (hq : QuietReference s) :
    bitAt (applyEnd .powerUp s).ref.regs.config 1 = true := by
  have ha := (applied_reconfigured .powerUp s.pins.ce.isHigh s.ref).settings
  have hc : (applied .powerUp s.pins.ce.isHigh s.ref).regs.config = s.ref.regs.config ||| 0x02 :=
    (congrArg DevRegs.config ha :)
  rw [(applyEnd_reference hq .powerUp).1, hc, bitAt, BitVec.getLsbD_or]
  simp

/-- Settles O39: the first run leaves PWR_UP set, and the second finds it so. -/
theorem powerUpWaitsOnce : Obligations.PowerUpWaitsOnce := by
  intro s hq hi
  obtain ⟨_, _, _, _, hr, -⟩ := applyEnd_run .powerUp s
  obtain ⟨⟨f, hd⟩, href⟩ := powerUp_again (applyEnd_reference hq .powerUp).2 (applyEnd_powerUp_config hq)
  exact ⟨_, _, f, exec_apply .powerUp s hi, exec_apply .powerUp _ (hr.quiet.initialised.trans hi), hd, href⟩

/-! ### startListening -/

/-- Powered up in Standby-I (R53). -/
structure StandingBy (d : RefDev) : Prop where
  mode : d.mode = .standbyI
  pwrUp : d.regs.pwrUp = true

/-- At rest in Standby-I the device is powered up and CE is low (R251, R253). -/
theorem standingBy_of_rest {d : RefDev} {ce : Bool} (h : d.modeRule ce = none) (hm : d.mode = .standbyI) :
    StandingBy d ∧ ce = false := by
  cases hp : d.regs.pwrUp
  case false => simp [RefDev.modeRule, hp, hm] at h
  case true =>
    refine ⟨⟨hm, hp⟩, ?_⟩
    cases ce
    case false => rfl
    case true => cases hr : d.regs.primRx <;> cases hs : d.canSend <;> simp [RefDev.modeRule, hp, hm, hr, hs] at h

section
variable {d : RefDev}

theorem StandingBy.settle_eq (h : StandingBy d) : d.settle false = d :=
  settle_of_rest d false (by simp [RefDev.modeRule, h.mode, h.pwrUp])

theorem StandingBy.withConfig (h : StandingBy d) {c : Byte} (hc : bitAt c 1 = true) :
    StandingBy { d with regs := { d.regs with config := c } } := ⟨h.mode, hc⟩

theorem StandingBy.withFlagsCleared (h : StandingBy d) (v : Byte) : StandingBy { d with regs := d.regs.clearFlags v } :=
  ⟨h.mode, h.pwrUp⟩

theorem setBits_primRx_bits (c : Byte) :
    bitAt (setBits c primRxMask) 1 = bitAt c 1 ∧ bitAt (setBits c primRxMask) 0 = true := by
  simp [bitAt, setBits, primRxMask]

/-- With CE low the Receiving arm leaves the device in Standby-I, as a receiver (R174). -/
theorem StandingBy.at_receiving (h : StandingBy d) :
    StandingBy (received false d) ∧ (received false d).regs.primRx = true := by
  obtain ⟨hb1, hb0⟩ := setBits_primRx_bits d.regs.config
  have h1 := h.withConfig (hb1.trans h.pwrUp)
  have hc : configured (setBits · primRxMask) false d =
      { d with regs := { d.regs with config := setBits d.regs.config primRxMask } } := by
    rw [configured, writeReg_config, mergedConfig_of_reserved (setBits_and (by decide))]
    exact h1.settle_eq
  have h2 := h1.withFlagsCleared 0x70
  rw [received, hc, writeReg_status, h2.settle_eq]
  exact ⟨h2, hb0⟩

/-- CE raised in Standby-I: the receiver is in RxMode, and the 150 µs outlast its settling time (R253, R254, R321). -/
theorem StandingBy.at_started (h : StandingBy d) (hr : d.regs.primRx = true) :
    (started d).mode = .rxMode ∧ (started d).listening = true := by
  have hs : d.settle true = { d with mode := .rxMode, tMark := d.now } := by
    simp [RefDev.settle, RefDev.settleFuel, RefDev.modeRule, h.mode, h.pwrUp, hr]
  have hw : started d = { d with mode := .rxMode, tMark := d.now, now := d.now + 150 } := by
    rw [started, hs]
    exact settle_of_rest _ _ (by simp [RefDev.advance, RefDev.modeRule, h.pwrUp, hr])
  rw [hw]
  exact ⟨rfl, by simp [RefDev.listening, Config.tRadioSettle]⟩

end

/-- The end of `startListening` takes the device that the Receiving arm left to its reception (R179). -/
theorem atRest_listenEnd {s : State} (hq : QuietReference s) :
    AtRest (listenEnd s) (started (received s.pins.ce.isHigh s.ref)) true := by
  obtain ⟨ce, ha⟩ := atRest_applyState .receiving (quiet_begin .startListening hq)
  exact atRest_finish ((ha.at_setCe true).at_wait Config.tSettle) .unit

/-- Settles O40: from Standby-I the Receiving arm leaves Standby-I, and CE high starts reception. -/
theorem startListeningReference : Obligations.StartListeningReference := by
  intro s hq hi hm
  obtain ⟨hst, hce⟩ := standingBy_of_rest hq.rest hm
  have ha := atRest_listenEnd hq
  rw [hce] at ha
  obtain ⟨hrec, hpr⟩ := hst.at_receiving
  obtain ⟨hmode, hlis⟩ := hrec.at_started hpr
  obtain ⟨hrx, htx, hrt⟩ := flagsClear_started (flagsClear_settle (flagsClear_write
    (configured (setBits · primRxMask) false s.ref)) false)
  have hop : (started (received false s.ref)).opstate true = .receiving := by
    have hup : Up (received false s.ref) := ⟨hrec.pwrUp, by simp [hrec.mode], by simp [hrec.mode]⟩
    refine opstate_of_up (started_up hup) ?_
    rw [DevRegs.primRx, started_config]
    exact hpr
  refine ⟨listenEnd s, exec_startListening hi, (startReceiver_act (applyState .receiving (begin .startListening s))).2, ?_⟩
  rw [ha.ref]
  exact ⟨hmode, hlis, hop, hrx, htx, hrt⟩

end Sys2Proof.Proofs
end

section
/-!
`init` from power-on against the Reference device in an environment that makes no choice (R165–R168, R313): the registers as
its writes store them, one after the other, with the device in its start-up throughout.
-/

namespace Sys2Proof.Proofs

open Sys2Proof.Machine Sys2Proof.Laws

/-! ### What a write that fits stores -/

/-- An address of a one-byte register that a write stores in, other than CONFIG, with the mask of its RW bits. -/
abbrev ByteReg (a : RegAddr) (m : Byte) : Prop :=
  isReserved a = false ∧ a ≠ 0x00 ∧ a ≠ 0x07 ∧ isAddrReg a = false ∧ rwMask a = m.zeroExtend 40

/-- A byte that agrees with the old one outside the RW bits replaces it. -/
theorem mergeBits_of_reserved {x v m : Byte} (h : v &&& ~~~m = x &&& ~~~m) :
    mergeBits (x.zeroExtend 40) (v.zeroExtend 40) (m.zeroExtend 40 &&& bytesMask 1) = v.zeroExtend 40 := by
  apply BitVec.eq_of_getLsbD_eq
  intro i hi
  rw [mergeBits_getLsbD _ _ _ i hi]
  simp only [BitVec.truncate_eq_setWidth, BitVec.getLsbD_and, BitVec.getLsbD_setWidth, hi, decide_true, Bool.true_and]
  by_cases h8 : i < 8
  · have h := congrArg (BitVec.getLsbD · i) h
    have hb := bytesMask_getLsbD 1 (j := 0) (by decide) h8
    rw [Nat.mul_zero, Nat.zero_add] at hb
    simp only [BitVec.getLsbD_and, BitVec.getLsbD_not, h8, decide_true, Bool.true_and] at h
    rw [hb]
    cases hm : m.getLsbD i <;> simp_all
  · simp [BitVec.getLsbD_of_ge _ i (Nat.not_lt.mp h8)]

theorem writeReg_byte (d : RefDev) {a : RegAddr} {x v m : Byte} (ha : ByteReg a m) (hx : d.regValue a = x.zeroExtend 40)
    (hv : v &&& ~~~m = x &&& ~~~m) : d.writeReg a [v] = { d with regs := d.regs.store a (v.zeroExtend 40) } := by
  obtain ⟨hr, -, h7, hA, hm⟩ := ha
  have hw : d.regs.width a = 1 := by simp [DevRegs.width, hA]
  have hp : packBytes ([v].take 1) = v.zeroExtend 40 := by simp [packBytes]
  rw [writeReg_of_stored d hr h7 (List.cons_ne_nil v []) hw.le, hw, hp, hx, hm, mergeBits_of_reserved hv]

/-- An address register whose five bytes are written takes them whole. -/
theorem mergeBits_all (x y : Word40) : mergeBits x y (0xFFFFFFFFFF &&& bytesMask 5) = y := by
  rw [show (0xFFFFFFFFFF : Word40) &&& bytesMask 5 = BitVec.allOnes 40 by decide, mergeBits, BitVec.not_allOnes,
    BitVec.and_zero, BitVec.and_allOnes, BitVec.zero_or]

theorem writeReg_address (d : RefDev) {a : RegAddr} (ha : isAddrReg a = true) (hw : d.regs.aw = 3) (v : Addr5) :
    d.writeReg a (addrBytes v) = { d with regs := d.regs.store a (packBytes (addrBytes v)) } := by
  have hm : rwMask a = 0xFFFFFFFFFF := rwMask_address ha
  obtain ⟨hr, h7⟩ := writable_address (a := a) (by rw [hm]; decide)
  have h5 : d.regs.width a = 5 := by simp [DevRegs.width, DevRegs.addrWidth, ha, hw]
  rw [writeReg_of_stored d (data := addrBytes v) hr h7 (List.cons_ne_nil _ _) h5.le, h5, hm, mergeBits_all]
  rfl

theorem packBytes_addrBytes (v : Addr5) : packBytes (addrBytes v) = v.b4 ++ v.b3 ++ v.b2 ++ v.b1 ++ v.b0 := by
  rw [← BitVec.setWidth_eq (v.b4 ++ v.b3 ++ v.b2 ++ v.b1 ++ v.b0)]
  simp only [BitVec.setWidth_append_eq_shiftLeft_setWidth_or]
  simp [packBytes, addrBytes]

/-- A store in another register leaves CONFIG and the flags of STATUS (R32, R39). -/
theorem store_keeps (r : DevRegs) {a : RegAddr} (ha : a ≠ 0x00) (v : Word40) : (r.store a v).config = r.config ∧
    (r.store a v).rxDr = r.rxDr ∧ (r.store a v).txDs = r.txDs ∧ (r.store a v).maxRt = r.maxRt := by
  have hn : a.toNat ≠ 0 := fun e => ha (BitVec.eq_of_toNat_eq e)
  unfold DevRegs.store
  generalize a.toNat = n at *
  split <;> first | exact ⟨rfl, rfl, rfl, rfl⟩ | exact absurd rfl hn

/-! ### The device in its start-up -/

/-- The device that `init` powered up, with registers `r`: the waits of its steps 1–4 are all the time that passed. -/
def booted (r : DevRegs) : RefDev :=
  { RefDev.reset with regs := r, mode := .startUp, now := Config.tPor, tMark := Config.tPor }

/-- A state of `init` from step 5 on: the device is powered up with registers `r`, no flag is set and no edge was latched. -/
structure Booted (r : DevRegs) (s : State) : Prop where
  calm : Calm false s (booted r) false
  clear : FlagsClear (booted r)
  pwrUp : r.pwrUp = true

section
variable {r : DevRegs} {s : State}

theorem booted_settle (hp : r.pwrUp = true) : (booted r).settle false = booted r :=
  settle_of_rest _ _ (by simp [RefDev.modeRule, RefDev.startUpOver, booted, hp])

/-- A window that commits nothing. -/
theorem Calm.at_writeTx {p : Bool} {d : RefDev} {ce : Bool} (h : Calm p s d ce) {c : Byte} {out : List Byte}
    (hc : d.commit c out (out.length + 1) = d) : Calm p (writeTx c out s) d ce := by
  have hl := exchange_link out (openWindow c s) 0 c [] (openWindow_link c s)
  rw [show 0 + 1 + out.length = out.length + 1 by omega, List.nil_append] at hl
  have hr := ((h.at_openWindow c).at_exchange out).at_setCsn_true hl (.inl fun ho => by rw [hc]; exact ho)
  rw [hc, settle_of_rest d ce h.rest] at hr
  exact hr

theorem Booted.flushed (h : Booted r s) : Booted r (flushRxOp (flushTxOp s)) :=
  ⟨(h.calm.at_writeTx (c := 0xE1) (out := []) rfl).at_writeTx (c := 0xE2) (out := []) rfl, h.clear, h.pwrUp⟩

theorem Booted.written (h : Booted r s) (addr : Nat) {data : List Byte} {v : Word40} (ha : BitVec.ofNat 5 addr ≠ 0x00)
    (hw : (booted r).writeReg (BitVec.ofNat 5 addr) data = booted (r.store (BitVec.ofNat 5 addr) v)) :
    Booted (r.store (BitVec.ofNat 5 addr) v) (writeReg addr data s) := by
  obtain ⟨hc, hr, ht, hm⟩ := store_keeps r ha v
  have hp : (r.store (BitVec.ofNat 5 addr) v).pwrUp = true := by rw [DevRegs.pwrUp, hc]; exact h.pwrUp
  have hf : FlagsClear (booted (r.store (BitVec.ofNat 5 addr) v)) :=
    ⟨hr.trans h.clear.1, ht.trans h.clear.2.1, hm.trans h.clear.2.2⟩
  refine ⟨?_, hf, hp⟩
  have hs := h.calm.at_writeReg addr data (.inl fun _ => by rw [hw]; exact irqOut_of_flagsClear hf)
  rwa [hw, booted_settle hp] at hs

theorem Booted.byte (h : Booted r s) (addr : Nat) {x v m : Byte} (ha : ByteReg (BitVec.ofNat 5 addr) m)
    (hx : (booted r).regValue (BitVec.ofNat 5 addr) = x.zeroExtend 40) (hv : v &&& ~~~m = x &&& ~~~m) :
    Booted (r.store (BitVec.ofNat 5 addr) (v.zeroExtend 40)) (writeReg addr [v] s) :=
  h.written addr ha.2.1 (writeReg_byte (booted r) ha hx hv)

theorem Booted.address (h : Booted r s) (addr : Nat) (v : Addr5) (ha : isAddrReg (BitVec.ofNat 5 addr) = true)
    (h0 : BitVec.ofNat 5 addr ≠ 0x00) (hw : r.aw = 3) :
    Booted (r.store (BitVec.ofNat 5 addr) (packBytes (addrBytes v))) (writeReg addr (addrBytes v) s) :=
  h.written addr h0 (writeReg_address (booted r) ha hw v)

/-- With no flag set, step 11 clears none (R165). -/
theorem Booted.flagsWritten (h : Booted r s) : Booted r (writeReg 0x07 [0x70] s) := by
  have hw : (booted r).writeReg 0x07 [0x70] = booted r := by
    obtain ⟨h1, h2, h3⟩ := h.clear
    have h1 : r.rxDr = false := h1
    have h2 : r.txDs = false := h2
    have h3 : r.maxRt = false := h3
    rw [writeReg_status]
    cases r
    simp_all [booted, DevRegs.clearFlags]
  have hs := h.calm.at_writeReg 0x07 [0x70] (.inl fun ho => by
    show ((booted r).writeReg 0x07 [0x70]).irqOut = true
    rw [hw]; exact ho)
  rw [show BitVec.ofNat 5 0x07 = 0x07 from rfl, hw, booted_settle h.pwrUp] at hs
  exact ⟨hs, h.clear, h.pwrUp⟩

end

/-! ### The steps of init -/

theorem csnRise_closed {s : State} (hl : s.link.inTxn = false) : csnRise s = s := if_neg (by simp [hl])

/-- With no window open, CSN rising commits nothing (R232). -/
theorem Calm.at_setCsn_closed {p : Bool} {s : State} {d : RefDev} {ce : Bool} (h : Calm p s d ce)
    (hl : s.link.inTxn = false) : Calm p (setCsn true s) d ce := by
  have h1 := h.at_envSlot
  have hl1 := (congrArg Link.inTxn (envSlot_silent s).link).trans hl
  simp only [setCsn, if_true]
  generalize envSlot s = e at *
  rw [csnRise_closed (s := emit (.csn true) { e with pins := { e.pins with csn := .driven true } }) hl1]
  exact Calm.at_refresh (h1.same rfl rfl rfl rfl rfl rfl rfl)

/-- The state in which `init` runs right after power-on. -/
abbrev powered (c : Cfg) (p : Params) : State := begin .init { State.reset with cfg := c, params := p }

theorem calm_initPins (c : Cfg) {p : Params} (hp : p.deviceModel = .reference) :
    Calm false (initPins (powered c p)) (RefDev.reset.advance Config.tPor) false := by
  have h0 : Calm false (powered c p) RefDev.reset false := ⟨⟨hp, rfl, rfl, rfl, rfl, rfl⟩, rfl, rfl, rfl⟩
  have h1 : Calm false (enableInterrupts (powered c p)) RefDev.reset false := h0.same rfl rfl rfl rfl rfl rfl rfl
  have h2 : Calm false (setCe false (enableInterrupts (powered c p))) RefDev.reset false := h1.at_setCe false
  have h3 := h2.at_setCsn_closed (by rw [setCe_link]; rfl)
  have h4 : Calm false (busInit (setCsn true (setCe false (enableInterrupts (powered c p))))) RefDev.reset false :=
    h3.same rfl rfl rfl rfl rfl rfl rfl
  exact h4.at_waitFor Config.tPor

/-- The registers after step 5. -/
abbrev configRegs (c : Cfg) : DevRegs := { DevRegs.reset with config := configInit c }

/-- The registers after step 10 (R165, R166). -/
abbrev radioRegs (c : Cfg) : DevRegs :=
  configRegs c |>.store 0x01 ((allPipes c.autoAck).zeroExtend 40) |>.store 0x04 (setupRetrInit.zeroExtend 40)
    |>.store 0x02 ((0x00 : Byte).zeroExtend 40) |>.store 0x05 (c.channel.zeroExtend 40)
    |>.store 0x06 ((rfSetupByte c).zeroExtend 40)

/-- The registers after step 14 (R165, R167). -/
abbrev featureRegs (c : Cfg) (g : FeatureGating) : DevRegs :=
  radioRegs c |>.store 0x1C ((allPipes c.dynPayload).zeroExtend 40) |>.store 0x1D ((featureByte c g).zeroExtend 40)

/-- The registers after step 16 (R165). -/
abbrev initialRegs (c : Cfg) (g : FeatureGating) : DevRegs :=
  featureRegs c g |>.store 0x0A (packBytes (addrBytes c.rxAddr)) |>.store 0x10 (packBytes (addrBytes c.txAddr))
    |>.store 0x02 ((0x01 : Byte).zeroExtend 40)

theorem configInit_reserved (c : Cfg) : configInit c &&& 0x80 = 0 := by
  unfold configInit
  cases c.irqRxEn <;> cases c.irqTxEn <;> cases c.irqRtEn <;> cases c.crcEn <;> decide

theorem allPipes_reserved (on : Bool) : allPipes on &&& 0xC0 = 0 := by
  cases on <;> decide

theorem channel_reserved {c : Cfg} (h : cfgWellFormed c = true) : c.channel &&& 0x80 = 0 := by
  have hc := ((cfgWellFormed_eq_true_iff c).mp h).1
  have hb : ∀ b : Byte, b.toNat ≤ 125 → b &&& 0x80 = 0 := by decide
  exact hb c.channel hc

theorem rfSetupByte_reserved (c : Cfg) : rfSetupByte c &&& 0x40 = 0 := by
  unfold rfSetupByte
  cases c.dataRate <;> cases c.power <;> decide

theorem featureByte_reserved (c : Cfg) (g : FeatureGating) : featureByte c g &&& 0xF8 = 0 := by
  unfold featureByte
  cases g <;> cases c.dynPayload <;> cases c.autoAck <;> decide

/-- Step 5 powers the device up, and its start-up begins (R165, R251). -/
theorem booted_config {c : Cfg} {s : State} (h : Calm false s (RefDev.reset.advance Config.tPor) false) :
    Booted (configRegs c) (writeReg 0x00 [configInit c] s) := by
  obtain ⟨-, -, -, -, -, -, hb, -⟩ := configInit_bits c
  have hp : (configRegs c).pwrUp = true := hb
  have hf : FlagsClear (booted (configRegs c)) := ⟨rfl, rfl, rfl⟩
  have hw : (RefDev.reset.advance Config.tPor).writeReg 0x00 [configInit c] =
      { RefDev.reset.advance Config.tPor with regs := configRegs c } := by
    rw [writeReg_config, mergedConfig_of_reserved (configInit_reserved c)]
    rfl
  have hs : RefDev.settle { RefDev.reset.advance Config.tPor with regs := configRegs c } false = booted (configRegs c) := by
    simp [RefDev.settle, RefDev.settleFuel, RefDev.modeRule, RefDev.startUpOver, RefDev.advance, RefDev.reset, booted, hp]
  have hr := h.at_writeReg 0x00 [configInit c] (.inl fun _ => by
    show RefDev.irqOut ((RefDev.reset.advance Config.tPor).writeReg 0x00 [configInit c]) = true
    rw [hw]
    exact irqOut_of_flagsClear ⟨rfl, rfl, rfl⟩)
  rw [show BitVec.ofNat 5 0x00 = 0x00 from rfl, hw, hs] at hr
  exact ⟨hr, hf, hp⟩

theorem booted_initRadio {c : Cfg} {s : State} (hc : cfgWellFormed c = true)
    (h : Calm false s (RefDev.reset.advance Config.tPor) false) : Booted (radioRegs c) (initRadio c s) := by
  have h5 := booted_config (c := c) h
  have h6 := h5.byte 0x01 (x := 0x3F) (m := 0x3F) (by decide) rfl (allPipes_reserved c.autoAck)
  have h7 := h6.byte 0x04 (x := 0x03) (v := setupRetrInit) (m := 0xFF) (by decide) rfl rfl
  have h8 := h7.byte 0x02 (x := 0x03) (v := 0x00) (m := 0x3F) (by decide) rfl rfl
  have h9 := h8.byte 0x05 (x := 0x02) (m := 0x7F) (by decide) rfl (channel_reserved hc)
  exact h9.byte 0x06 (x := 0x0E) (m := 0xBF) (by decide) rfl (rfSetupByte_reserved c)

theorem booted_initFeatures {c : Cfg} (g : FeatureGating) {s : State} (h : Booted (radioRegs c) s) :
    Booted (featureRegs c g) (initFeatures c g s) := by
  have h12 := h.flagsWritten.byte 0x1C (x := 0x00) (m := 0x3F) (by decide) rfl (allPipes_reserved c.dynPayload)
  have h13 := h12.byte 0x1D (x := 0x00) (m := 0x07) (by decide) rfl (featureByte_reserved c g)
  exact h13.flushed

/-- Step 16 reads the EN_RXADDR that step 8 cleared, and enables the pipe of `init` (R165). -/
theorem booted_initAddresses {c : Cfg} {g : FeatureGating} {s : State} (h : Booted (featureRegs c g) s) :
    Booted (initialRegs c g) (initAddresses c s) ∧ (initAddresses c s).regs.tmp = 0x00 := by
  have h15 := (h.address 0x0A c.rxAddr rfl (by decide) rfl).address 0x10 c.txAddr rfl (by decide) rfl
  unfold initAddresses
  dsimp only
  generalize writeReg 0x10 (addrBytes c.txAddr) (writeReg 0x0A (addrBytes c.rxAddr) s) = s15 at *
  have hv : (readTmp 0x02 s15).1 = 0x00 := (h15.calm.toAtRest.at_readTmp 0x02).2 0x00 rfl
  have ht : (readTmp 0x02 s15).2.regs.tmp = 0x00 := hv
  rw [hv, show setBits 0x00 (bit Config.rxPipe) = 0x01 from rfl]
  have hr := Booted.mk (h15.calm.at_readTmp 0x02) h15.clear h15.pwrUp
  exact ⟨hr.byte 0x02 (x := 0x00) (m := 0x3F) (by decide) rfl rfl, (writeReg_bus 0x02 [0x01] _).quiet.tmp.trans ht⟩

/-- `init` sets `initialised` last (R165). -/
theorem Booted.initialised {r : DevRegs} {s : State} {v : Byte} (h : Booted r s) (ht : s.regs.tmp = v) :
    Booted r (tick { s with initialised := true }) ∧ (tick { s with initialised := true }).regs.tmp = v :=
  ⟨⟨h.calm.same rfl rfl rfl rfl rfl rfl rfl, h.clear, h.pwrUp⟩, ht⟩

/-- The body of `init` from power-on, its steps one after the other. -/
theorem booted_initBody {c : Cfg} {p : Params} (hc : cfgWellFormed c = true) (hp : p.deviceModel = .reference) :
    Booted (initialRegs c p.featureGating) (initBody (powered c p)) ∧ (initBody (powered c p)).regs.tmp = 0x00 := by
  have h10 := booted_initRadio hc (calm_initPins c hp)
  obtain ⟨h16, ht⟩ := booted_initAddresses (booted_initFeatures p.featureGating h10)
  have he : initBody (powered c p) = tick { initAddresses c (initFeatures c p.featureGating (initRadio c
    (initPins (powered c p)))) with initialised := true } := rfl
  rw [he]
  exact h16.initialised ht

/-- With both FIFOs empty and no flag set, STATUS reads 0x0E (R244). -/
theorem Booted.statusByte {r : DevRegs} {s : State} (h : Booted r s) : (booted r).statusByte = 0x0E := by
  obtain ⟨h1, h2, h3⟩ := h.clear
  have hn : (booted r).rxPNo = 7 := rfl
  have hx : (booted r).txFull = false := rfl
  rw [RefDev.statusByte, h1, h2, h3, hn, hx]
  decide

theorem initialRegs_eq (c : Cfg) (g : FeatureGating) : initialRegs c g = { DevRegs.reset with
    config := configInit c
    enAa := if c.autoAck then 0x3F else 0x00
    enRxaddr := 0x01
    setupRetr := 0xF1
    rfCh := c.channel
    rfSetup := rfSetupByte c
    dynpd := if c.dynPayload then 0x3F else 0x00
    feature := featureByte c g
    rxAddrP0 := c.rxAddr.b4 ++ c.rxAddr.b3 ++ c.rxAddr.b2 ++ c.rxAddr.b1 ++ c.rxAddr.b0
    txAddr := c.txAddr.b4 ++ c.txAddr.b3 ++ c.txAddr.b2 ++ c.txAddr.b1 ++ c.txAddr.b0 } := by
  simp [DevRegs.store, packBytes_addrBytes, DevRegs.reset, allPipes, setupRetrInit]

/-- Settles O41: the sixteen steps, from the device's power-on reset. -/
theorem initFromPowerOn : Obligations.InitFromPowerOn := by
  intro c p hc hp
  obtain ⟨hb, ht⟩ := booted_initBody hc hp
  obtain ⟨-, -, _, _, _, _, -, -, -, -, hq⟩ := initBody_spec (powered c p)
  refine ⟨finish .unit (initBody (powered c p)), exec_init_of_wellFormed hc, ?_⟩
  rw [finish_ref, hb.calm.ref, ← initialRegs_eq]
  generalize initBody (powered c p) = u at *
  exact ⟨rfl, rfl, rfl, rfl, hb.statusByte, hb.calm.pending, ht, hq.lastTarget⟩

end Sys2Proof.Proofs
end

section
/-!
The link protocol at the pins (R200–R203, R209, R213, R214, R230): what a polled byte decides, the operations on the pending
flag, `available`, a send against the Oracle's inputs, and how long a send with a bound goes on.
-/

namespace Sys2Proof.Proofs

open Sys2Proof.Machine Sys2Proof.Laws

/-! ### What a polled byte decides -/

section
variable {c : Params} {b : Byte} {n : Nat}

theorem pollDecision_of_txDs (h : bitAt b 5 = true) : pollDecision c b n = .leave .sent := if_pos h

theorem pollDecision_of_maxRt (h5 : bitAt b 5 = false) (h4 : (c.checkMaxRt && bitAt b 4) = true) :
    pollDecision c b n = .leave (.err .maxRetransmitExceeded) := by
  simp [pollDecision, h5, h4]

theorem pollDecision_of_neither (h5 : bitAt b 5 = false) (h4 : (c.checkMaxRt && bitAt b 4) = false) :
    (c.pollBound = none → pollDecision c b n = .again) ∧
      (∀ bound, c.pollBound = some bound → pollDecision c b n =
        if bound ≤ n then .leave (.err (.radioNotResponding bound)) else .again) := by
  constructor <;> intros <;> simp [pollDecision, *]

/-- Without a bound only a flag ends the loop (R202, R203). -/
theorem flag_of_leave {r : Result} (hb : c.pollBound = none) (h : pollDecision c b n = .leave r) :
    bitAt b 5 = true ∨ (c.checkMaxRt && bitAt b 4) = true := by
  by_contra hn
  rw [not_or, Bool.not_eq_true, Bool.not_eq_true] at hn
  have ha := (pollDecision_of_neither (n := n) hn.1 hn.2).1 hb
  exact PollNext.noConfusion (h.symm.trans ha)

theorem pollDecision_of_bound {bound : Nat} (hb : c.pollBound = some bound) : pollDecision c b n =
    if bitAt b 5 then .leave .sent else if c.checkMaxRt && bitAt b 4 then .leave (.err .maxRetransmitExceeded)
    else if bound ≤ n then .leave (.err (.radioNotResponding bound)) else .again := by
  rw [pollDecision, hb]

/-- With a bound the loop goes on below it only (R203). -/
theorem lt_bound_of_again {bound : Nat} (hb : c.pollBound = some bound) (h : pollDecision c b n = .again) : n < bound := by
  rw [pollDecision_of_bound hb] at h
  repeat' split at h
  case isFalse.isFalse.isFalse hn => exact Nat.lt_of_not_le hn
  all_goals cases h

/-- The results a loop with a bound can end in (R201–R203). -/
theorem result_of_leave {r : Result} {bound : Nat} (hb : c.pollBound = some bound) (h : pollDecision c b n = .leave r) :
    r ∈ [Result.sent, .err .maxRetransmitExceeded, .err (.radioNotResponding bound)] := by
  rw [pollDecision_of_bound hb] at h
  repeat' split at h
  all_goals cases h
  all_goals simp

end

/-- Settles O24: one branch of the decision after the other. -/
theorem pollDecisionOrder : Obligations.PollDecisionOrder := fun _ _ _ =>
  ⟨pollDecision_of_txDs, pollDecision_of_maxRt, fun h5 h4 => (pollDecision_of_neither h5 h4).1,
    fun bound h5 h4 => (pollDecision_of_neither h5 h4).2 bound⟩

/-! ### Operations that make no bus activity -/

/-- Settles O10: the payload's length is checked before the operation begins. -/
theorem payloadTooLargeReturned : Obligations.PayloadTooLargeReturned := fun _ _ hi hl =>
  (if_pos hi).trans (if_neg (Nat.not_le.mpr hl))

/-- Settles O23: the bodies of the two requests, each of one step. -/
theorem pendingOperations : Obligations.PendingOperations := fun _ hi =>
  ⟨runRequest_of_initialised (fun t => (.flag t.intr.pending, tick t)) hi,
    runRequest_of_initialised (fun t => unitResult (tick { t with intr := { t.intr with pending := false } })) hi⟩

/-! ### available -/

/-- Settles O22: the 1-byte read of FIFO_STATUS, as an operation. -/
theorem availableRuns : Obligations.AvailableRuns := by
  intro s hi
  obtain ⟨f, st, ha, hq⟩ := readTmp_act 0x17 (begin .available s)
  exact ⟨_, f, st, _, runRequest_of_initialised availableBody hi, finish_runs _ ha.drives, ha.miso,
    kept_finish _ (kept_readTmp 0x17 (begin .available s)), finish_quiet _ hq rfl rfl rfl⟩

/-! ### A send against the Oracle -/

section
variable {s : State}

/-- Step 1 of a send (R175, R201). -/
theorem applyTransmitting_eq (s : State) : applyState .transmitting s =
    tick { updateConfig (clearBits · primRxMask) s with lastTarget := some .transmitting } := rfl

/-- Steps 1–3 of a send (R201). -/
theorem sendPrepare_eq (s : State) : sendPrepare s = muteRx (updateConfig (setBits · maskRxDrMask)
    (writeReg 0x07 [0x20] (flushTxOp (flushRxOp (applyState .transmitting s))))) := rfl

theorem writeReg_oracle (addr : Nat) (buf : List Byte) (s : State) : Takes (buf.length + 1) s (writeReg addr buf s) :=
  writeTx_oracle _ buf s

/-- The update of CONFIG takes four inputs: two of its read, two of its write. -/
theorem updateConfig_oracle (f : Byte → Byte) (s : State) : Takes 4 s (updateConfig f s) :=
  (readTmp_oracle 0x00 s).1.trans (writeReg_oracle 0x00 [f (readTmp 0x00 s).1] _)

/-- Steps 1–3 of a send take twelve inputs (R201, R230). -/
theorem sendPrepare_oracle (s : State) : Takes 12 s (sendPrepare s) := by
  have h1 : Takes 4 s (applyState .transmitting s) := updateConfig_oracle (clearBits · primRxMask) s
  have h2 : Takes 2 (applyState .transmitting s) (flushTxOp (flushRxOp (applyState .transmitting s))) :=
    (writeTx_oracle 0xE2 [] _).trans (writeTx_oracle 0xE1 [] _)
  rw [sendPrepare_eq]
  exact (((h1.trans h2).trans (writeReg_oracle 0x07 [0x20] _)).trans (updateConfig_oracle (setBits · maskRxDrMask) _)).trans
    (Takes.of_silent (muteRx_silent _))

/-- Steps 1–5 of a send take fourteen inputs and one for each byte of the payload (R201, R230). -/
theorem sendStart_oracle (p : List Byte) (s : State) : Takes (14 + p.length) s (sendStart p s) := by
  have h := (((sendPrepare_oracle s).trans (writeTx_oracle (sendCommand (sendPrepare s).cfg) (p ++ [Config.padByte]) _)).trans
    (setCe_oracle true _)).trans ((waitFor_oracle Config.tCePulse _).trans (setCe_oracle false _))
  rw [List.length_append, List.length_singleton, show 12 + (p.length + 1 + 1) + 0 + (0 + 0) = 14 + p.length by omega] at h
  exact h

/-- The first pass of a send whose byte ends the loop, seen from the start of the send (R201). -/
theorem sendStart_leaves {p : List Byte} {b : Byte} {r : Result}
    (hb : (readTmp 0x07 (sendStart p (begin (.sendMessage p) s))).1 = b) (hr : pollDecision s.params b 1 = .leave r) :
    ∃ f1 c1 f2 c2 m, m[1]? = some c1 ∧ m[9]? = some c2 ∧ PollsOut (sendEvents s.cfg p f1 c1 f2 c2) 4 b m 0 r
      { s with pc := 0 } (pollPass (sendStart p (begin (.sendMessage p) s))) := by
  obtain ⟨f1, c1, f2, c2, m, ha, h1, h9, hq⟩ := sendStart_spec p (begin (.sendMessage p) s)
  generalize sendStart p (begin (.sendMessage p) s) = u at *
  have hd : Drives (sendEvents s.cfg p f1 c1 f2 c2) 4 { s with pc := 0 } u :=
    drives_congr ha.drives rfl rfl rfl rfl rfl rfl rfl rfl rfl rfl rfl rfl rfl rfl rfl rfl rfl rfl rfl rfl
  have hk : u.regs.pollCount = 0 := hq.pollCount
  obtain ⟨b', more, hb', ho⟩ := pollPass_spec p _ 4 m (some .transmitting) c2 { s with pc := 0 } u hd ha.miso
    (ha.op.trans rfl) ⟨hq.tmp, hq.len, hq.rxbuf, rfl, hq.initialised, hq.lastTarget⟩
  obtain rfl : b' = b := hb'.trans hb
  rw [hk, hr] at ho
  obtain ⟨h, -⟩ | ⟨r', h, ho⟩ := ho
  · cases h
  · cases h
    exact ⟨f1, c1, f2, c2, m ++ more, getElem?_append_of_some h1 more, getElem?_append_of_some h9 more, ho⟩

end

/-- Settles O26: the inputs that steps 1–5 take, and the read of the byte after them. -/
theorem sendMessageCompletes : Obligations.SendMessageCompletes := by
  intro s p b r hi hl hm hb hr
  obtain ⟨hm', ht⟩ := sendStart_oracle p (begin (.sendMessage p) s) hm
  have hv := (readTmp_oracle 0x07 (sendStart p (begin (.sendMessage p) s))).2 hm' b (by
    rw [ht, List.getElem?_drop, show 14 + p.length + 1 = 15 + p.length by omega]
    exact hb)
  obtain ⟨f1, c1, f2, c2, m, h1, h9, ho⟩ := sendStart_leaves hv hr
  exact ⟨_, f1, c1, f2, c2, m, exec_sendMessage_eq hi hl, h1, h9, ho⟩

/-! ### How long a send stays in its loop -/

section
variable {s t : State} {p : List Byte}

theorem run_succ (h : step s = .next t) (k : Nat) : core.run (k + 1) s = core.run k t := by
  have h' : core.step s = .next t := h
  simp only [Host.Core.run, h']

/-- A further pass of the loop is in progress as the one before, with the count of reads one up if there is a bound. -/
theorem pollsAgain_goes_on {b : Byte} {m : List Byte} {k : Nat} (h : PollsAgain p [] 0 b m k s.lastTarget s t) :
    t.op = some (.sendMessage p) ∧ t.params = s.params ∧ t.regs.pollCount = k := by
  obtain ⟨⟨f, hd⟩, -, ho, -, -, hq⟩ := h
  exact ⟨ho, hd.params, hq.pollCount⟩

/-- A send with a bound that at most `n + 1` more reads reach (R203). -/
theorem send_ends {bound : Nat} (n : Nat) (hop : s.op = some (.sendMessage p)) (hb : s.params.pollBound = some bound)
    (hn : bound ≤ s.regs.pollCount + n + 1) : ∃ k t r, 1 ≤ k ∧ k ≤ n + 1 ∧ core.run k s = .next t ∧ t.op = none ∧
      t.result = some r ∧ r ∈ [Result.sent, .err .maxRetransmitExceeded, .err (.radioNotResponding bound)] := by
  induction n generalizing s with
  | zero =>
    obtain ⟨b, m, ⟨h, -⟩ | ⟨r, h, ho⟩⟩ := pollPass_outcome hop
    · exact absurd (lt_bound_of_again hb h) (by omega)
    · exact ⟨1, _, r, le_refl 1, le_refl 1, run_succ (step_of_send s p hop) 0, ho.op, ho.result, result_of_leave hb h⟩
  | succ n ih =>
    obtain ⟨b, m, ⟨-, ho⟩ | ⟨r, h, ho⟩⟩ := pollPass_outcome hop
    · obtain ⟨hop', hp, hk⟩ := pollsAgain_goes_on ho
      rw [hb] at hk
      obtain ⟨k, t, r, h1, hk, ht⟩ := ih hop' (by rw [hp, hb]) (by rw [hk]; simp; omega)
      exact ⟨k + 1, t, r, by omega, by omega, by rw [run_succ (step_of_send s p hop)]; exact ht⟩
    · exact ⟨1, _, r, le_refl 1, by omega, run_succ (step_of_send s p hop) 0, ho.op, ho.result, result_of_leave hb h⟩

/-- Without a bound, a send is in progress after `k` steps unless an earlier pass read a flag (R202). -/
theorem send_goes_on (k : Nat) (hop : s.op = some (.sendMessage p)) (hb : s.params.pollBound = none) :
    (∃ t, core.run k s = .next t ∧ t.op = some (.sendMessage p)) ∨
      (∃ j u v b m r, j < k ∧ core.run j s = .next u ∧ u.op = some (.sendMessage p) ∧ step u = .next v ∧
        PollsOut [] 0 b m u.regs.pollCount r u v ∧ (b.getLsbD 5 = true ∨ (s.params.checkMaxRt && b.getLsbD 4) = true)) := by
  induction k generalizing s with
  | zero => exact .inl ⟨s, rfl, hop⟩
  | succ k ih =>
    have hs := step_of_send s p hop
    obtain ⟨b, m, ⟨-, ho⟩ | ⟨r, h, ho⟩⟩ := pollPass_outcome hop
    · obtain ⟨hop', hp, -⟩ := pollsAgain_goes_on ho
      rw [run_succ hs, ← hp]
      obtain ht | ⟨j, u, v, b, m, r, hj, hu⟩ := ih hop' (by rw [hp, hb])
      · exact .inl ht
      · exact .inr ⟨j + 1, u, v, b, m, r, by omega, by rw [run_succ hs]; exact hu⟩
    · exact .inr ⟨0, s, _, b, m, r, by omega, rfl, hop, hs, ho, flag_of_leave hb h⟩

end

/-- Settles O27: the reads that the bound leaves, one pass each. -/
theorem boundedPollEnds : Obligations.BoundedPollEnds := by
  intro s p bound hop hb
  obtain ⟨k, t, r, h1, hk, ht⟩ := send_ends (bound - s.regs.pollCount - 1) hop hb (by omega)
  exact ⟨k, t, r, h1, by omega, ht⟩

end Sys2Proof.Proofs
end

section
/-!
A send that hangs (R202, R204, R249, R259, R291): what every point of the environment keeps of the Reference device, and why
a device with nothing to send, or a store without the bits, never ends the loop.
-/

namespace Sys2Proof.Proofs

open Sys2Proof.Machine Sys2Proof.Laws

/-! ### What the world keeps of the Reference device -/

/-- Neither a mode rule, nor time, nor the air breaks `P` (R248, R250, R261). -/
structure WorldKeeps (P : RefDev → Prop) : Prop where
  settle : ∀ d ce, P d → P (d.settle ce)
  hold : ∀ d b, P d → P (d.hold b)
  advance : ∀ d us, P d → P (d.advance us)
  rx : ∀ d p payload wantsAck, P d → P (d.rx p payload wantsAck)
  txOk : ∀ d ce retries ackPayload, P d → P (d.txOk ce retries ackPayload)
  txFail : ∀ d ce, P d → P (d.txFail ce)

section
variable {P : RefDev → Prop} {s : State}

theorem onRef_keeps {f : RefDev → RefDev} (hf : ∀ d, P d → P (f d)) (h : P s.ref) : P (onRef f s).ref := by
  unfold onRef
  split
  · exact hf _ h
  · exact h
  · exact h

theorem noteAir_ref (a : WorldAct) (s : State) : (noteAir a s).ref = s.ref := by rw [noteAir_same]

theorem WorldKeeps.at_refresh (hP : WorldKeeps P) (h : P s.ref) : P (refresh s).ref :=
  onRef_keeps (fun d => hP.settle d _) h

/-- A change of the device that keeps `P`, and the modes settled after it. -/
theorem WorldKeeps.at_change (hP : WorldKeeps P) {f : RefDev → RefDev} (hf : ∀ d, P d → P (f d)) (h : P s.ref) :
    P (refresh (onRef f s)).ref := hP.at_refresh (onRef_keeps hf h)

theorem WorldKeeps.at_worldEffect (hP : WorldKeeps P) (h : P s.ref) (a : WorldAct) : P (worldEffect s a).ref := by
  cases a with
  | elapse us => exact hP.at_change (fun d => hP.advance d us) h
  | irqLevel level =>
    simp only [worldEffect]
    split <;> exact h
  | rx p payload wantsAck => exact hP.at_change (fun d => hP.rx d p payload wantsAck) h
  | txOk retries ackPayload => exact hP.at_change (fun d => hP.txOk d _ retries ackPayload) h
  | txFail => exact hP.at_change (fun d => hP.txFail d _) h
  | missed payload wantsAck => exact h
  | hold => exact onRef_keeps (fun d => hP.hold d true) h
  | release => exact hP.at_change (fun d => hP.hold d false) h

theorem WorldKeeps.at_applyWorld (hP : WorldKeeps P) (h : P s.ref) (a : WorldAct) : P (applyWorld s a).ref :=
  hP.at_worldEffect (by rw [noteAir_ref]; exact h) a

theorem foldl_ref_keeps {α : Type} {f : State → α → State} (hf : ∀ {u : State} a, P u.ref → P (f u a).ref) (as : List α)
    (h : P s.ref) : P (as.foldl f s).ref := by
  induction as generalizing s with
  | nil => exact h
  | cons a as ih => exact ih (hf a h)

theorem WorldKeeps.at_notify (hP : WorldKeeps P) (during : List WorldAct) (h : P s.ref) : P (notify during s).ref := by
  have hw {u : State} (hu : P u.ref) : P (during.foldl applyWorld u).ref :=
    foldl_ref_keeps (fun a ha => hP.at_applyWorld ha a) during hu
  unfold notify
  split
  · exact hw (u := notifierEnter s) h
  · exact hw h

theorem WorldKeeps.at_applyAct (hP : WorldKeeps P) (a : EnvAct) (h : P s.ref) : P (applyAct s a).ref := by
  cases a with
  | world a => exact hP.at_applyWorld h a
  | notify during => exact hP.at_notify during h

/-- The environment's point, whatever its choices are. -/
theorem WorldKeeps.at_envSlot (hP : WorldKeeps P) (h : P s.ref) : P (envSlot s).ref := by
  unfold envSlot
  split
  · exact hP.at_notify [] (hP.at_change (fun d => hP.hold d false) h)
  · exact foldl_ref_keeps (fun a ha => hP.at_applyAct a ha) _ h

theorem WorldKeeps.at_xfer (hP : WorldKeeps P) (o : Byte) (h : P s.ref) : P (xfer o s).2.ref := by
  have ha : P (answer (envSlot s)).2.ref := by rw [answer_ref]; exact hP.at_envSlot h
  refine hP.at_refresh ?_
  rw [linkTake_eq]
  exact foldl_ref_keeps (f := nextBit _) (fun k hu => hP.at_envSlot hu) [7, 6, 5, 4, 3, 2, 1, 0] ha

theorem WorldKeeps.at_openWindow (hP : WorldKeeps P) (c : Byte) (h : P s.ref) : P (openWindow c s).ref :=
  hP.at_xfer c (hP.at_refresh (hP.at_envSlot h))

/-- A register read commits nothing (R233). -/
theorem commit_readReg (d : RefDev) (addr : Nat) (data : List Byte) (n : Nat) :
    d.commit (cmdReg opRead (maskAddr addr)) data n = d := by
  obtain ⟨h1, h2, h3, h4, -, -, h7⟩ := readCmd_props addr
  rw [commit_read d _ data [] n h1 h2 h3 h4, h7]

theorem WorldKeeps.at_readTmp (hP : WorldKeeps P) (addr : Nat) (h : P s.ref) : P (readTmp addr s).2.ref := by
  have h1 := hP.at_openWindow (cmdReg opRead (maskAddr addr)) h
  obtain ⟨fill, -, -, hl⟩ := readBytes_link 1 (openWindow (cmdReg opRead (maskAddr addr)) s) 0 _ [] (openWindow_link _ s)
  have h2 : P (readBytes 1 (openWindow (cmdReg opRead (maskAddr addr)) s)).2.ref := hP.at_xfer _ h1
  show P (setCsn true (readBytes 1 (openWindow (cmdReg opRead (maskAddr addr)) s)).2).ref
  generalize (readBytes 1 (openWindow (cmdReg opRead (maskAddr addr)) s)).2 = w at *
  have h3 := hP.at_envSlot h2
  have hl3 := (envSlot_silent w).link.trans hl
  simp only [setCsn, if_true]
  generalize envSlot w = e at *
  rw [csnRise_eq (emit (.csn true) { e with pins := { e.pins with csn := .driven true } }) _ _ _ hl3]
  refine hP.at_refresh ?_
  simp only [commit_readReg, ite_self]
  exact h3

/-- A 1-byte register read answers the register of a device that still meets `P` (R231, R233). -/
theorem WorldKeeps.readTmp_answer (hP : WorldKeeps P) (hm : s.params.deviceModel = .reference) (addr : Nat) (h : P s.ref) :
    ∃ d : RefDev, P d ∧ ∀ v, d.readReg (maskAddr addr) 0 = some v → (readTmp addr s).1 = v := by
  have hb := openWindow_bus (cmdReg opRead (maskAddr addr)) s
  have hl := openWindow_link (cmdReg opRead (maskAddr addr)) s
  have hw := hP.at_openWindow (cmdReg opRead (maskAddr addr)) h
  have hd : (readTmp addr s).1 = (answer (envSlot (draw (openWindow (cmdReg opRead (maskAddr addr)) s)).2)).1 := rfl
  generalize openWindow (cmdReg opRead (maskAddr addr)) s = w at *
  have he := envSlot_silent (draw w).2
  have hu : P (envSlot (draw w).2).ref := hP.at_envSlot (s := (draw w).2) hw
  generalize envSlot (draw w).2 = u at *
  have hul : u.link = w.link := he.link
  have hum : u.params.deviceModel = .reference := by rw [he.params]; exact (congrArg _ hb.drives.params).trans hm
  have hr := (readCmd_props addr).2.2.2.2.1
  have ha : cmdAddr (cmdReg opRead (maskAddr addr)) = maskAddr addr := (readCmd_props addr).2.2.2.2.2.1
  refine ⟨u.ref, hu, fun v hv => ?_⟩
  rw [hd, answer, hul, hl, hum]
  simp [referenceAnswer, hul, hl, RefDev.miso, hr, ha, hv, orDraw]

end

/-! ### A device that stays off the air -/

/-- Not on air, no receiver, no TX_DS, nothing to send, and MAX_RT is `m` (R202, R240, R328). -/
structure OffAir (m : Bool) (d : RefDev) : Prop where
  onAir : d.onAir = none
  notSending : d.mode ≠ .txMode
  notReceiving : d.mode ≠ .rxMode
  transmitter : d.regs.primRx = false
  nothing : d.canSend = false
  txDs : d.regs.txDs = false
  maxRt : d.regs.maxRt = m
  pipes : ∀ e ∈ d.rxFifo, e.pipe ≤ 5

section
variable {m : Bool} {d d' : RefDev}

/-- A mode rule leads neither to TxMode, with nothing to send, nor to RxMode, with PRIM_RX clear (R253, R256). -/
theorem modeRule_offAir {ce : Bool} (h : d.modeRule ce = some d') (hd : OffAir m d) : OffAir m d' := by
  obtain ⟨ha, ht, hr, hp, hs, htx, hm, hq⟩ := hd
  unfold RefDev.modeRule at h
  simp only [hp, hs, Bool.false_eq_true, if_false] at h
  repeat' split at h
  all_goals cases h
  all_goals exact ⟨by simp [ha], by simp, by simp, hp, hs, htx, hm, hq⟩

theorem offAir_worldKeeps (m : Bool) : WorldKeeps (OffAir m) where
  settle d ce h := settleFuel_keeps (OffAir m) ce (fun _ _ => modeRule_offAir) 3 d h
  hold _ _ h := ⟨h.onAir, h.notSending, h.notReceiving, h.transmitter, h.nothing, h.txDs, h.maxRt, h.pipes⟩
  advance _ _ h := ⟨h.onAir, h.notSending, h.notReceiving, h.transmitter, h.nothing, h.txDs, h.maxRt, h.pipes⟩
  rx d p payload wantsAck h := by
    have hr : d.rx p payload wantsAck = d := if_pos (by simp [RefDev.listening, h.notReceiving])
    rwa [hr]
  txOk d ce retries ackPayload h := by rwa [RefDev.txOk, h.onAir]
  txFail d ce h := by rwa [RefDev.txFail, h.onAir]

/-- RX_P_NO has three bits (R244). -/
theorem rxPNo_getLsbD (h : ∀ e ∈ d.rxFifo, e.pipe ≤ 5) {k : Nat} (hk : 3 ≤ k) : d.rxPNo.getLsbD k = false := by
  have hlt : d.rxPNo.toNat < 2 ^ 3 := by
    unfold RefDev.rxPNo
    split
    · decide
    · next e _ he =>
      have hp : e.pipe ≤ 5 := h e (by simp [he])
      simp only [BitVec.toNat_ofNat]
      omega
  exact Nat.testBit_lt_two_pow (lt_of_lt_of_le hlt (Nat.pow_le_pow_right (by decide) hk))

theorem bitAt_flagBit (b : Bool) {i j : Nat} (hj : j < 8) : bitAt (flagBit b i) j = (b && decide (i = j)) := by
  cases b with
  | false => simp [bitAt, flagBit]
  | true => rw [bitAt, flagBit, if_pos rfl, bit, BitVec.getLsbD_ofNat, Nat.testBit_two_pow, decide_eq_true hj]

/-- The two bits of STATUS that the loop tests (R244). -/
theorem statusByte_flags (h : ∀ e ∈ d.rxFifo, e.pipe ≤ 5) :
    bitAt d.statusByte 5 = d.regs.txDs ∧ bitAt d.statusByte 4 = d.regs.maxRt := by
  have hp {k : Nat} (hk : 4 ≤ k) : bitAt (d.rxPNo <<< 1) k = false := by
    simp [bitAt, rxPNo_getLsbD h (k := k - 1) (by omega)]
  have hor (v w : Byte) (k : Nat) : bitAt (v ||| w) k = (bitAt v k || bitAt w k) := BitVec.getLsbD_or
  constructor <;> simp [RefDev.statusByte, hor, hp, bitAt_flagBit]

/-- A pass over such a device reads a STATUS that does not end the loop (R202). -/
theorem OffAir.keeps_polling {c : Params} (h : OffAir m d) (hm : (c.checkMaxRt && m) = false) :
    bitAt d.statusByte 5 = false ∧ (c.checkMaxRt && bitAt d.statusByte 4) = false := by
  obtain ⟨h5, h4⟩ := statusByte_flags h.pipes
  rw [h5, h4, h.txDs, h.maxRt]
  exact ⟨rfl, hm⟩

end

/-! ### What hangs -/

/-- A pass without a bound, whose byte shows no flag, changes nothing but what its STATUS read does (R201, R202). -/
theorem pollPass_goes_on {s : State} (hb : s.params.pollBound = none) (h5 : bitAt (readTmp 0x07 s).1 5 = false)
    (h4 : (s.params.checkMaxRt && bitAt (readTmp 0x07 s).1 4) = false) :
    pollPass s = { (readTmp 0x07 s).2 with pc := s.pc } := by
  simp [pollPass, (pollDecision_of_neither h5 h4).1 hb, countPoll, hb]

/-- What every STATUS read keeps, and under which the byte it reads shows no flag. -/
structure Hangs (P : State → Prop) : Prop where
  reads : ∀ s n, P s → P { (readTmp 0x07 s).2 with pc := n }
  unbounded : ∀ s, P s → s.params.pollBound = none
  txDs : ∀ s, P s → bitAt (readTmp 0x07 s).1 5 = false
  maxRt : ∀ s, P s → (s.params.checkMaxRt && bitAt (readTmp 0x07 s).1 4) = false

/-- Such a send is in its loop after every number of steps (R291). -/
theorem Hangs.forever {P : State → Prop} (hP : Hangs P) {s : State} {p : List Byte} (hs : P s)
    (hop : s.op = some (.sendMessage p)) (k : Nat) : ∃ t, core.run k s = .next t ∧ t.op = some (.sendMessage p) := by
  induction k generalizing s with
  | zero => exact ⟨s, rfl, hop⟩
  | succ k ih =>
    have hn := pollPass_goes_on (hP.unbounded s hs) (hP.txDs s hs) (hP.maxRt s hs)
    have ho : (readTmp 0x07 s).2.op = s.op := by
      obtain ⟨_, _, ha, -⟩ := readTmp_act 0x07 s
      exact ha.op
    rw [run_succ (step_of_send s p hop), hn]
    exact ih (hP.reads s s.pc hs) (ho.trans hop)

/-- A store that keeps both bits clear (R249). -/
structure ClearStore (s : State) : Prop where
  unbounded : s.params.pollBound = none
  model : s.params.deviceModel = .regFile
  txDs : bitAt (Memory.read s.regFile 35) 5 = false
  maxRt : (s.params.checkMaxRt && bitAt (Memory.read s.regFile 35) 4) = false

theorem clearStore_hangs : Hangs ClearStore where
  reads s n h := by
    have hp : (readTmp 0x07 s).2.params = s.params := (keeps_readTmp 0x07 s).params
    have hm : (readTmp 0x07 s).2.regFile = s.regFile := (kept_readTmp 0x07 s).store
    refine ⟨?_, ?_, ?_, ?_⟩ <;> simp only [hp, hm]
    exacts [h.unbounded, h.model, h.txDs, h.maxRt]
  unbounded _ h := h.unbounded
  txDs s h := by rw [readTmp_regFile7 s h.model]; exact h.txDs
  maxRt s h := by rw [readTmp_regFile7 s h.model]; exact h.maxRt

/-- A Reference device that stays off the air, its MAX_RT clear or not looked at (R202, R240, R259). -/
structure Stranded (m : Bool) (s : State) : Prop where
  unbounded : s.params.pollBound = none
  model : s.params.deviceModel = .reference
  unchecked : (s.params.checkMaxRt && m) = false
  device : OffAir m s.ref

/-- The STATUS that a stranded send reads. -/
theorem Stranded.status {m : Bool} {s : State} (h : Stranded m s) :
    bitAt (readTmp 0x07 s).1 5 = false ∧ (s.params.checkMaxRt && bitAt (readTmp 0x07 s).1 4) = false := by
  obtain ⟨d, hd, hv⟩ := (offAir_worldKeeps m).readTmp_answer h.model 0x07 h.device
  rw [hv _ (readReg_status d)]
  exact hd.keeps_polling h.unchecked

theorem stranded_hangs (m : Bool) : Hangs (Stranded m) where
  reads s n h := by
    have hp : (readTmp 0x07 s).2.params = s.params := (keeps_readTmp 0x07 s).params
    have hd := (offAir_worldKeeps m).at_readTmp 0x07 h.device
    refine ⟨?_, ?_, ?_, hd⟩ <;> simp only [hp]
    exacts [h.unbounded, h.model, h.unchecked]
  unbounded _ h := h.unbounded
  txDs _ h := h.status.1
  maxRt _ h := h.status.2

/-- Settles O28: a pass that reads no flag keeps the loop as it is, and neither the store nor such a device ever shows one. -/
theorem unboundedPollHangs : Obligations.UnboundedPollHangs := by
  refine ⟨fun s p k => send_goes_on k, fun s p hop hb hm h5 h4 => ?_, fun s p hop hb hm hf htx hp hnt hnr hs hc => ?_⟩
  · exact clearStore_hangs.forever ⟨hb, hm, h5, h4⟩ hop
  · obtain ⟨-, -, -, hrx, hair⟩ := hf
    have ha : s.ref.onAir = none := by
      rw [← Option.not_isSome_iff_eq_none, hair]
      exact hnt
    have hn : s.ref.canSend = false := by
      unfold RefDev.canSend
      obtain h | h := hs <;> simp [h]
    have hd : OffAir s.ref.regs.maxRt s.ref := ⟨ha, hnt, hnr, hp, hn, htx, rfl, fun e he => (hrx e he).2⟩
    exact (stranded_hangs _).forever ⟨hb, hm, hc, hd⟩ hop

end Sys2Proof.Proofs
end

section
/-!
`readMessage` under the Oracle (R205, R207, R230): the width read alone decides between completion and the fault.
-/

namespace Sys2Proof.Proofs

open Sys2Proof.Machine Sys2Proof.Laws

section
variable {s : State} {w : Byte}

/-! ### The drain and the message, under either framing -/

/-- Step 3, whatever the framing (R205, R208). -/
theorem drain_spec (hw : w.toNat ≤ 32) : ∃ evs n m, Act evs n m s (drain w.toNat s) ∧
    (drain w.toNat s).regs.len = s.regs.len ∧ ReadKeeps s (drain w.toNat s) := by
  cases hp : s.params.rxReadFraming with
  | commandInBurst =>
    obtain ⟨ha, -, hl, hk⟩ := drain_inBurst hp hw
    exact ⟨_, _, _, ha, hl, hk⟩
  | commandThenBurst =>
    obtain ⟨_, _, -, ha, -, hl, hk⟩ := drain_thenBurst hp hw
    exact ⟨_, _, _, ha, hl, hk⟩

theorem payloadStart_le (f : RxReadFraming) : payloadStart f ≤ 1 := by cases f <;> decide

/-- A decoded message has the width read, and a width of 0 decodes to no message (R206). -/
theorem decodeMessage_outcome (f : RxReadFraming) (buf : Vector Byte 33) (hw : w.toNat ≤ 32) :
    (w = 0 → decodeMessage f w.toNat buf.toList = .failure) ∧ (decodeMessage f w.toNat buf.toList = .failure ∨
      ∃ m, decodeMessage f w.toNat buf.toList = .message m ∧ m.length = w.toNat) := by
  have hs := payloadStart_le f
  refine ⟨fun h0 => if_pos (.inl ((toNat_eq_zero_iff w).mpr h0)), ?_⟩
  unfold decodeMessage
  split
  · exact .inl rfl
  · exact .inr ⟨_, rfl, by simp; omega⟩

/-! ### The width under the Oracle -/

theorem readAck_oracle (s : State) : Takes (if s.cfg.autoAck then 2 else 0) s (readAck s) := by
  unfold readAck
  split
  · exact writeTx_oracle (cmdPipe 0) [Config.ackByte] s
  · exact Takes.refl s

/-- The width is the second input that its read takes (R230). -/
theorem readWidth_oracle (hm : s.params.deviceModel = .oracle) (hw : s.oracleMiso[1]? = some w) :
    (readWidth s).regs.len = w := by
  have hl : (openWindow 0x60 s).link.inTxn = true := by rw [openWindow_link]
  obtain ⟨hm', ht⟩ := openWindow_oracle 0x60 s hm
  exact (readBytes_oracle 1 (openWindow 0x60 s) hl).2 hm' w (le_refl 1) (by rw [ht, List.getElem?_drop]; exact hw)

theorem widthRead_oracle (hm : s.params.deviceModel = .oracle)
    (hw : s.oracleMiso[(if s.cfg.autoAck then 2 else 0) + 1]? = some w) : (widthRead s).regs.len = w := by
  obtain ⟨hm', ht⟩ := readAck_oracle (begin .readMessage s) hm
  exact readWidth_oracle hm' (by rw [ht, List.getElem?_drop]; exact hw)

end

/-- Settles O32: the width is known from the inputs, and both outcomes from the width. -/
theorem readMessageByWidth : Obligations.ReadMessageByWidth := by
  intro s w hi hm hw
  obtain ⟨f, pre, w', hr⟩ := widthRead_spec s
  obtain rfl : w' = w := hr.len.symm.trans (widthRead_oracle hm hw)
  refine ⟨fun hle => ?_, fun hlt => ?_⟩
  · obtain ⟨evs, n, m, ha, hl, hk⟩ := drain_spec (s := widthRead s) hle
    obtain ⟨t, _, _, he, -, hq, hrun, -⟩ := readMessage_completes hi hr hle rfl ha hl hk
    exact ⟨t, _, he, hrun.op, hq.len, hrun.result, decodeMessage_outcome _ _ hle⟩
  · obtain ⟨t, he, hq, -, ho, hres, -⟩ := readMessage_stops hi hr hlt
    exact ⟨t, he, ho, hq.len, hres⟩

end Sys2Proof.Proofs
end

section
/-!
`readMessage` against the Reference device (R205–R208, R238, R242): the width read tells the head payload's length, the
drain brings its bytes and pops it, and the last write clears RX_DR.
-/

namespace Sys2Proof.Proofs

open Sys2Proof.Machine Sys2Proof.Laws

section
variable {s : State} {d : RefDev} {ce : Bool}

/-! ### The width -/

/-- An ACK payload that is queued leaves the RX FIFO alone (R241). -/
theorem queueAck_rxFifo (d : RefDev) (p : Nat) (data : List Byte) : (d.queueAck p data).rxFifo = d.rxFifo := by
  unfold RefDev.queueAck
  split <;> rfl

theorem commit_ackPayload (d : RefDev) (data : List Byte) (n : Nat) : d.commit (cmdPipe 0) data (n + 1) = d.queueAck 0 data :=
  rfl

/-- Step 1 of a `readMessage` leaves the RX FIFO alone (R205, R241). -/
theorem atRest_readAck (h : AtRest s d ce) : ∃ d', AtRest (readAck s) d' ce ∧ d'.rxFifo = d.rxFifo := by
  unfold readAck
  split
  · exact ⟨_, (h.at_write (cmdPipe 0) [Config.ackByte]).ref, by rw [settle_rxFifo, commit_ackPayload, queueAck_rxFifo]⟩
  · exact ⟨d, h, rfl⟩

/-- Step 2 reads the length of the head payload (R205, R242). -/
theorem atRest_readWidth (h : AtRest s d ce) :
    AtRest (readWidth s) d ce ∧ (readWidth s).regs.len = BitVec.ofNat 8 d.rxHead.length := by
  obtain ⟨hw, hv⟩ := h.at_read 0x60 1 (by decide) (by decide) (by decide) (by decide)
  have hd : (d.commit 0x60 [] (1 + 1)).settle ce = d := settle_of_rest _ _ h.rest
  rw [hd] at hw
  refine ⟨hw.ref.congr rfl rfl rfl rfl, ?_⟩
  show (readTx 0x60 1 s).1.headD 0 = _
  rw [List.headD_eq_head?_getD, List.head?_eq_getElem?, hv 0 _ Nat.one_pos rfl]
  rfl

theorem atRest_widthRead (h : AtRest s d ce) : ∃ d', AtRest (widthRead s) d' ce ∧ d'.rxFifo = d.rxFifo ∧
    (widthRead s).regs.len = BitVec.ofNat 8 d.rxHead.length := by
  obtain ⟨d', hd, hf⟩ := atRest_readAck (s := begin .readMessage s) (h.congr rfl rfl rfl rfl)
  obtain ⟨hr, hl⟩ := atRest_readWidth hd
  exact ⟨d', hr, hf, by rw [hl, RefDev.rxHead, RefDev.rxHead, hf]⟩

/-! ### The drain -/

/-- The payload bytes that a drained buffer holds (R206, R208). -/
def drainedPayload (w : Nat) (s : State) : List Byte := (s.regs.rxbuf.toList.drop (payloadStart s.params.rxReadFraming)).take w

/-- A device whose head payload was popped (R238). -/
abbrev popped (d : RefDev) : RefDev := { d with rxFifo := d.rxFifo.tail }

/-- What answers each byte of `l` begins with `l`. -/
theorem take_of_answers {l q : List Byte} (h : ∀ j v, j < l.length → l[j]? = some v → q[j]? = some v) :
    q.take l.length = l :=
  List.ext_getElem? fun j => by
    obtain hj | hj := Nat.lt_or_ge j l.length
    · rw [List.getElem?_take_of_lt hj, List.getElem?_eq_getElem hj, h j _ hj (List.getElem?_eq_getElem hj)]
    · rw [List.getElem?_take_eq_none hj, List.getElem?_eq_none hj]

/-- Step 3 under the default framing (R205, R238). -/
theorem drainInBurst_reference (h : AtRest s d ce) (hf : s.params.rxReadFraming = .commandInBurst)
    (h1 : 1 ≤ d.rxHead.length) (h32 : d.rxHead.length ≤ 32) : AtRest (drainInBurst d.rxHead.length s) (popped d) ce ∧
      drainedPayload d.rxHead.length (drainInBurst d.rxHead.length s) = d.rxHead := by
  have hs : AtRest (placeCommand s) d ce := h.congr rfl rfl rfl rfl
  have hlen : (burstOut d.rxHead.length s.regs.rxbuf).tail.length = d.rxHead.length := by simp [burstOut]; omega
  obtain ⟨hw, hv⟩ := hs.at_burst 0x61 (burstOut d.rxHead.length s.regs.rxbuf).tail
  have hp : (burstTx 0x61 (burstOut d.rxHead.length s.regs.rxbuf).tail (placeCommand s)).2.params = s.params :=
    (burstTx_bus _ _ _).drives.params
  have hq := burstTx_length 0x61 (burstOut d.rxHead.length s.regs.rxbuf).tail (placeCommand s)
  unfold drainInBurst drainedPayload
  dsimp only
  generalize (burstOut d.rxHead.length s.regs.rxbuf).tail = out at *
  generalize burstTx 0x61 out (placeCommand s) = q at *
  rw [commit_read d 0x61 out [] _ (by decide) (by decide) (by decide) (by decide), commit_rxPayload, if_neg (by omega),
    settle_popped d ce h.rest] at hw
  refine ⟨hw.ref.congr rfl rfl rfl rfl, ?_⟩
  have ht : q.1.take d.rxHead.length = d.rxHead := take_of_answers fun j v hj hjv => hv j v (by omega) hjv
  rw [hp, hf, overlay_toList _ _ (by simp; omega)]
  show ((q.1 ++ _).take d.rxHead.length) = _
  rw [List.take_append_of_le_length (by omega), ht]

/-- Step 3 under `CommandThenBurst` (R208, R238). -/
theorem drainThenBurst_reference (h : AtRest s d ce) (hf : s.params.rxReadFraming = .commandThenBurst)
    (h1 : 1 ≤ d.rxHead.length) (h32 : d.rxHead.length ≤ 32) : AtRest (drainThenBurst d.rxHead.length s) (popped d) ce ∧
      drainedPayload d.rxHead.length (drainThenBurst d.rxHead.length s) = d.rxHead := by
  obtain ⟨hw, hv⟩ := h.at_read 0x61 (d.rxHead.length + 1) (by decide) (by decide) (by decide) (by decide)
  have hp : (readTx 0x61 (d.rxHead.length + 1) s).2.params = s.params := (keeps_readTx _ _ _).params
  have hq := readTx_length 0x61 (d.rxHead.length + 1) s
  unfold drainThenBurst drainedPayload
  dsimp only
  generalize readTx 0x61 (d.rxHead.length + 1) s = q at *
  rw [commit_rxPayload, if_neg (by omega), settle_popped d ce h.rest] at hw
  refine ⟨hw.ref.congr rfl rfl rfl rfl, ?_⟩
  have ht : q.1.take d.rxHead.length = d.rxHead := take_of_answers fun j v hj hjv => hv j v (by omega) hjv
  rw [hp, hf, overlay_toList _ _ (by omega)]
  show (q.1 ++ _).take d.rxHead.length = _
  rw [List.take_append_of_le_length (by omega), ht]

/-- Step 3 brings the head payload and pops it, under either framing. -/
theorem drain_reference (h : AtRest s d ce) (h1 : 1 ≤ d.rxHead.length) (h32 : d.rxHead.length ≤ 32) :
    AtRest (drain d.rxHead.length s) (popped d) ce ∧
      drainedPayload d.rxHead.length (drain d.rxHead.length s) = d.rxHead := by
  unfold drain
  rw [if_neg (by omega)]
  split
  · next hf => exact drainInBurst_reference h hf h1 h32
  · next hf => exact drainThenBurst_reference h hf h1 h32

/-- What is decoded from a drained buffer of at least one byte (R206). -/
theorem decodeMessage_drained {w : Nat} (hw : 1 ≤ w) (s : State) :
    decodeMessage s.params.rxReadFraming w s.regs.rxbuf.toList =
      if (drainedPayload w s).headD 0 = 0 then .failure else .message (drainedPayload w s) := by
  have hh : s.regs.rxbuf.toList.getD (payloadStart s.params.rxReadFraming) 0 = (drainedPayload w s).headD 0 := by
    rw [drainedPayload, List.headD_eq_head?_getD, List.head?_take, if_neg (by omega), List.head?_drop, List.getD]
  by_cases h0 : (drainedPayload w s).headD 0 = 0
  · rw [if_pos h0]
    exact if_pos (.inr (hh.trans h0))
  · rw [if_neg h0]
    exact if_neg (not_or.mpr ⟨by omega, by rwa [hh]⟩)

/-! ### The end of the operation -/

/-- The state in which a `readMessage` of width `w` ends (R205, R206). -/
abbrev readEnd (w : Nat) (s : State) : State :=
  finish (readFinish w (drain w (widthRead s))).1 (readFinish w (drain w (widthRead s))).2

theorem exec_readMessage_of_width {w : Byte} (hi : s.initialised = true) (hw : (widthRead s).regs.len = w)
    (h : w.toNat ≤ 32) : exec .readMessage s = .next (readEnd w.toNat s) ∧ (readEnd w.toNat s).regs.len = w := by
  obtain ⟨_, _, _, -, hl, -⟩ := drain_spec (s := widthRead s) h
  obtain ⟨_, _, -, hq, -⟩ := readFinish_spec w.toNat (drain w.toNat (widthRead s))
  refine ⟨?_, hq.len.trans (hl.trans hw)⟩
  have he : readRest (widthRead s) = readEnd w.toNat s := by
    rw [readRest, hw, if_pos (by simpa [Config.rxBufCap] using h)]
    rfl
  exact (readMessage_eq s hi).trans (congrArg _ he)

/-- Step 4 clears RX_DR and leaves the RX FIFO alone (R205, R234). -/
theorem atRest_readFinish (h : AtRest s d ce) (w : Nat) :
    (readFinish w s).2.ref.rxFifo = d.rxFifo ∧ (readFinish w s).2.ref.regs.rxDr = false := by
  have hr := (h.at_writeReg 0x07 [0x40]).ref.ref
  show (writeReg 0x07 [0x40] s).ref.rxFifo = _ ∧ (writeReg 0x07 [0x40] s).ref.regs.rxDr = _
  rw [hr]
  refine ⟨(settle_rxFifo _ _).trans (writeReg_rxFifo _ _ _), ?_⟩
  have hc : (d.writeReg 0x07 [0x40]).regs.rxDr = false := by
    rw [writeReg_status]
    simp [DevRegs.clearFlags, bitAt]
  exact (settle_keeps (d.writeReg 0x07 [0x40]) ce).2.2.2.2.1.trans hc

end

/-- Settles O34: the steps one after the other, with the head payload or with none. -/
theorem readMessageReference : Obligations.ReadMessageReference := by
  intro s hq hi
  obtain ⟨d, hd, hf, hl⟩ := atRest_widthRead (quiet_atRest hq)
  have hh : d.rxHead = s.ref.rxHead := by rw [RefDev.rxHead, RefDev.rxHead, hf]
  refine ⟨fun e rest he hp => ?_, fun he => ?_⟩
  · obtain ⟨h1, h32⟩ := hp
    have hhead : s.ref.rxHead = e.payload := by rw [RefDev.rxHead, he]
    rw [hhead] at hh hl
    rw [← hh] at h1 h32 hl ⊢
    have hlen : (BitVec.ofNat 8 d.rxHead.length).toNat = d.rxHead.length := by simp; omega
    obtain ⟨hx, hw⟩ := exec_readMessage_of_width hi hl (by omega)
    obtain ⟨ha, hpay⟩ := drain_reference hd h1 h32
    rw [hlen] at hx hw
    obtain ⟨hfifo, hdr⟩ := atRest_readFinish ha d.rxHead.length
    obtain ⟨_, _, -, -, hres⟩ := readFinish_spec d.rxHead.length (drain d.rxHead.length (widthRead s))
    rw [decodeMessage_drained h1, hpay] at hres
    exact ⟨_, hx, rfl, congrArg some hres, hfifo.trans (congrArg List.tail (hf.trans he)), hdr, by rw [hw, hlen]⟩
  · have hz : (widthRead s).regs.len = 0 := by rw [hl, RefDev.rxHead, he]; rfl
    obtain ⟨hx, hw⟩ := exec_readMessage_of_width hi hz (by decide)
    obtain ⟨_, _, -, hb, hres⟩ := readFinish_spec 0 (drain 0 (widthRead s))
    obtain ⟨f, pre, w, hr⟩ := widthRead_spec s
    rw [drain_zero] at hb hres
    obtain ⟨hfifo, hdr⟩ := atRest_readFinish hd 0
    exact ⟨_, hx, rfl, congrArg some (hres.trans (if_pos (.inl rfl))), hb.rxbuf.trans hr.rxbuf,
      hfifo.trans (hf.trans he), hdr, hw⟩

end Sys2Proof.Proofs
end

section
/-!
The payload loopback, A's side at the device (R201, R253, R255, R258): where steps 1–5 of a send take a device that listens
and has nothing queued, and what the outcome of its packet makes of it.
-/

namespace Sys2Proof.Proofs

open Sys2Proof.Machine Sys2Proof.Laws

/-! ### The device up to the first poll -/

/-- PRIM_RX cleared in StandbyII: a listening device that has nothing to send, after step 1 (R175, R253, R256). -/
abbrev turned (d : RefDev) : RefDev :=
  { d with mode := .standbyII, regs := { d.regs with config := clearBits d.regs.config primRxMask } }

/-- The same with both FIFOs flushed and TX_DS clear, after step 2 (R201, R236, R237). -/
abbrev emptied (d : RefDev) : RefDev :=
  { (turned d).flushRx.flushTx with regs := { (turned d).regs with txDs := false } }

/-- The same with RX_DR masked, after step 3 (R201). -/
abbrev prepared (d : RefDev) : RefDev :=
  { emptied d with regs := { (emptied d).regs with config := setBits (emptied d).regs.config maskRxDrMask } }

/-- The TX FIFO entry of a payload (R239, R240). -/
abbrev sentEntry (data : List Byte) (noAck : Bool) : TxEntry :=
  { payload := data.take Config.payloadMax, noAck := noAck, ackPipe := none }

/-- The packet on air, after step 4 (R256). -/
abbrev launched (e : TxEntry) (d : RefDev) : RefDev := RefDev.enterTx { prepared d with txFifo := [e] } false

/-- A listening device that can turn to sending (R201, R254). -/
structure Turns (d : RefDev) : Prop where
  mode : d.mode = .rxMode
  pwrUp : d.regs.pwrUp = true
  txFifo : d.txFifo = []
  maxRt : d.regs.maxRt = false

section
variable {d : RefDev}

/-- With PRIM_RX clear and nothing to send no mode rule leads out of StandbyII while CE is 1 (R256). -/
theorem rest_of_standbyII (hm : d.mode = .standbyII) (hp : d.regs.pwrUp = true) (hr : d.regs.primRx = false)
    (hf : d.txFifo = []) : d.modeRule true = none := by
  simp [RefDev.modeRule, RefDev.canSend, hm, hp, hr, hf]

/-- A device with something to send leaves StandbyII for TxMode (R256). -/
theorem rule_of_standbyII (ce : Bool) (hm : d.mode = .standbyII) (hp : d.regs.pwrUp = true) (hc : d.canSend = true) :
    d.modeRule ce = some (d.enterTx false) := by
  simp [RefDev.modeRule, hm, hp, hc]

theorem clearBits_primRx (c : Byte) : bitAt (clearBits c primRxMask) 0 = false ∧
    ∀ i, 1 ≤ i → i < 8 → bitAt (clearBits c primRxMask) i = bitAt c i := by
  refine ⟨by simp [bitAt, clearBits, primRxMask], fun i h1 h8 => ?_⟩
  interval_cases i <;> simp [bitAt, clearBits, primRxMask]

theorem setBits_maskRxDr (c : Byte) : bitAt (setBits c maskRxDrMask) 6 = true ∧
    ∀ i, i ≠ 6 → i < 8 → bitAt (setBits c maskRxDrMask) i = bitAt c i := by
  refine ⟨by simp [bitAt, setBits, maskRxDrMask], fun i h6 h8 => ?_⟩
  interval_cases i <;> simp_all [bitAt, setBits, maskRxDrMask]

/-- Step 1 (R175, R253, R254). -/
theorem configured_turned (h : Turns d) : configured (clearBits · primRxMask) true d = turned d := by
  obtain ⟨hm, hp, hf, -⟩ := h
  obtain ⟨h0, hi⟩ := clearBits_primRx d.regs.config
  have hp1 : bitAt (clearBits d.regs.config primRxMask) 1 = true := (hi 1 (le_refl 1) (by decide)).trans hp
  rw [configured, writeReg_config, mergedConfig_of_reserved (clearBits_and (by decide))]
  simp [RefDev.settle, RefDev.settleFuel, RefDev.modeRule, RefDev.canSend, DevRegs.pwrUp, DevRegs.primRx, hm, hf, h0, hp1]

theorem clearFlags_txDs (r : DevRegs) : r.clearFlags 0x20 = { r with txDs := false } := by
  simp [DevRegs.clearFlags, bitAt]

/-- The bits of CONFIG that steps 1 and 3 leave alone (R175, R201). -/
theorem prepared_config (d : RefDev) : bitAt (prepared d).regs.config 0 = false ∧ bitAt (prepared d).regs.config 6 = true ∧
    ∀ i, 1 ≤ i → i < 6 → bitAt (prepared d).regs.config i = bitAt d.regs.config i := by
  obtain ⟨h0, hc⟩ := clearBits_primRx d.regs.config
  obtain ⟨h6, hs⟩ := setBits_maskRxDr (clearBits d.regs.config primRxMask)
  exact ⟨(hs 0 (by decide) (by decide)).trans h0, h6, fun i h1 hi =>
    (hs i (by omega) (by omega)).trans (hc i h1 (by omega))⟩

theorem rest_turned (h : Turns d) : (turned d).modeRule true = none := by
  obtain ⟨h0, hc⟩ := clearBits_primRx d.regs.config
  exact rest_of_standbyII rfl ((hc 1 (by decide) (by decide)).trans h.pwrUp) h0 h.txFifo

theorem rest_emptied (h : Turns d) : (emptied d).modeRule true = none := by
  obtain ⟨h0, hc⟩ := clearBits_primRx d.regs.config
  exact rest_of_standbyII rfl ((hc 1 (by decide) (by decide)).trans h.pwrUp) h0 rfl

theorem rest_prepared (h : Turns d) : (prepared d).modeRule true = none := by
  obtain ⟨h0, -, hc⟩ := prepared_config d
  exact rest_of_standbyII rfl ((hc 1 (by decide) (by decide)).trans h.pwrUp) h0 rfl

/-- Step 2's flushes and its write of STATUS (R236, R237, R234). -/
theorem settle_flushRx (h : Turns d) : (turned d).flushRx.settle true = (turned d).flushRx :=
  settle_popped _ _ (rest_turned h) []

theorem settle_flushTx (h : Turns d) : (turned d).flushRx.flushTx.settle true = (turned d).flushRx.flushTx :=
  settle_of_rest _ _ (rest_of (rest_emptied h) rfl rfl rfl rfl id)

theorem settle_statusWritten (h : Turns d) :
    RefDev.settle ((turned d).flushRx.flushTx.writeReg 0x07 [0x20]) true = emptied d := by
  rw [writeReg_status, clearFlags_txDs]
  exact settle_of_rest _ _ (rest_emptied h)

/-- Step 3 (R201). -/
theorem configured_prepared (h : Turns d) : configured (setBits · maskRxDrMask) true (emptied d) = prepared d := by
  rw [configured, writeReg_config, mergedConfig_of_reserved (setBits_and (by decide))]
  exact settle_of_rest _ _ (rest_prepared h)

/-- The payload command queues the payload (R239, R240). -/
theorem commit_payload {c : Cfg} (hd : c.autoAck = false → d.regs.enDynAck = true) {data : List Byte} (h0 : data ≠ []) :
    (prepared d).commit (sendCommand c) data (data.length + 1) =
      { prepared d with txFifo := [sentEntry data (!c.autoAck)] } := by
  have hq (b : Bool) : (prepared d).queueTx data b = { prepared d with txFifo := [sentEntry data b] } :=
    if_neg (by simp [h0, RefDev.txFull, RefDev.flushTx])
  cases ha : c.autoAck
  · have he : (prepared d).regs.enDynAck = true := hd ha
    calc (prepared d).commit (sendCommand c) data (data.length + 1)
        = if (prepared d).regs.enDynAck then (prepared d).queueTx data true else prepared d := by rw [sendCommand, ha]; rfl
      _ = _ := by rw [if_pos he, hq]; rfl
  · calc (prepared d).commit (sendCommand c) data (data.length + 1) = (prepared d).queueTx data false := by
          rw [sendCommand, ha]; rfl
      _ = _ := hq false

/-- With a payload queued the device goes on air at once (R256). -/
theorem settle_launched (h : Turns d) (e : TxEntry) : RefDev.settle { prepared d with txFifo := [e] } true = launched e d := by
  obtain ⟨h0, -, hc⟩ := prepared_config d
  have hp : (prepared d).regs.pwrUp = true := (hc 1 (by decide) (by decide)).trans h.pwrUp
  have hs : RefDev.canSend { prepared d with txFifo := [e] } = true := by simp [RefDev.canSend, h.maxRt]
  have hr := rule_of_standbyII (d := { prepared d with txFifo := [e] }) true rfl hp hs
  have hn : (launched e d).modeRule true = none := modeRule_rest_of_txMode rfl hp
  rw [RefDev.settle, RefDev.settleFuel, hr]
  simp [RefDev.settleFuel, hn]

/-- On air no mode rule matches (R255). -/
theorem launched_settle (h : Turns d) (e : TxEntry) (us : Nat) (ce : Bool) :
    ((launched e d).advance us).settle ce = (launched e d).advance us := by
  obtain ⟨-, -, hc⟩ := prepared_config d
  exact settle_of_rest _ _ (modeRule_rest_of_txMode rfl ((hc 1 (by decide) (by decide)).trans h.pwrUp))

/-! ### The outcome of the packet -/

theorem takeAckPayload_regs (d : RefDev) (acked : Bool) (q : Option (List Byte)) :
    (d.takeAckPayload acked q).regs = { d.regs with rxDr := (d.takeAckPayload acked q).regs.rxDr } := by
  unfold RefDev.takeAckPayload RefDev.pushRx
  repeat' split
  all_goals rfl

theorem takeAckPayload_held (d : RefDev) (acked : Bool) (q : Option (List Byte)) :
    (d.takeAckPayload acked q).held = d.held := by
  unfold RefDev.takeAckPayload RefDev.pushRx
  repeat' split
  all_goals rfl

theorem popSent_keeps (d : RefDev) : d.popSent.held = d.held ∧ d.popSent.rxFifo = d.rxFifo := by
  unfold RefDev.popSent
  split <;> exact ⟨rfl, rfl⟩

/-- An admitted ACK payload raises RX_DR when the RX FIFO has room (R257, R261). -/
theorem takeAckPayload_rxDr {q : List Byte} (hq : d.accepts 0 q.length = true) (hr : d.rxFull = false) :
    (d.takeAckPayload true (some q)).regs.rxDr = true := by
  simp [RefDev.takeAckPayload, RefDev.pushRx, hq, hr]

/-- What `tx_ok` makes of a device before its ACK payload and its next mode (R40, R258). -/
abbrev accounted (e : TxEntry) (n : Nat) (d : RefDev) : RefDev :=
  { d.popSent with
    regs := { d.regs with
      txDs := true
      observeTx := setArcCnt d.regs.observeTx (if d.wantsAck e then min n d.regs.arc else 0) } }

/-- With CE low the device goes to StandbyI after its packet (R255, R258). -/
theorem txOk_low {e : TxEntry} (ha : d.onAir = some e) (hs : d.sending = true) (n : Nat) (q : Option (List Byte)) :
    d.txOk false n q = { (accounted e n d).takeAckPayload (d.wantsAck e) q with
      mode := .standbyI, onAir := none, airQueued := false, noSettle := false } := by
  unfold RefDev.txOk
  rw [ha]
  simp only [hs, Bool.not_true, Bool.false_eq_true, if_false]
  rfl

/-- What the outcome of a packet leaves to the loop that polls (R258). -/
structure Acknowledged (d d' : RefDev) : Prop where
  mode : d'.mode = .standbyI
  settings : settings d'.regs = settings d.regs
  txDs : d'.regs.txDs = true
  maxRt : d'.regs.maxRt = d.regs.maxRt
  held : d'.held = d.held

theorem acknowledged_txOk {e : TxEntry} (ha : d.onAir = some e) (hs : d.sending = true) (n : Nat)
    (q : Option (List Byte)) : Acknowledged d (d.txOk false n q) := by
  have hr := takeAckPayload_regs (accounted e n d) (d.wantsAck e) q
  have hh := (takeAckPayload_held (accounted e n d) (d.wantsAck e) q).trans (popSent_keeps d).1
  refine ⟨?_, txOk_settings d false n q, ?_, ?_, ?_⟩ <;> rw [txOk_low ha hs]
  exacts [(congrArg DevRegs.txDs hr :), (congrArg DevRegs.maxRt hr :), hh]

/-- An ACK payload that pipe 0 admits, with room for it, raises RX_DR (R257, R261). -/
theorem txOk_rxDr {e : TxEntry} (ha : d.onAir = some e) (hs : d.sending = true) (n : Nat) {q : List Byte}
    (hw : d.wantsAck e = true) (hq : d.accepts 0 q.length = true) (hf : d.rxFifo = []) :
    (d.txOk false n (some q)).regs.rxDr = true := by
  have he : (accounted e n d).rxFifo = [] := (popSent_keeps d).2.trans hf
  have hr : (accounted e n d).rxFull = false := by rw [rxFull_false, he]; decide
  rw [txOk_low ha hs, hw]
  exact takeAckPayload_rxDr hq hr

/-- Such a device stays in StandbyI while CE is low (R253). -/
theorem Acknowledged.rest {d' : RefDev} (h : Acknowledged d d') (hp : d.regs.pwrUp = true) : d'.modeRule false = none := by
  have hp' : d'.regs.pwrUp = true := (congrArg (bitAt · 1) (config_of_settings h.settings)).trans hp
  simp [RefDev.modeRule, hp', h.mode]

end

end Sys2Proof.Proofs
end

section
/-!
The payload loopback, A's side at the controller (R201, R204): the steps of a send against a device at rest, with an edge
latched or not, up to the return after its packet's outcome.
-/

namespace Sys2Proof.Proofs

open Sys2Proof.Machine Sys2Proof.Laws

/-! ### What the steps of a send need of a relation -/

/-- A relation of a state to its device and its CE that every operation of a send carries along, unless IRQ falls: `AtRest`,
and `Calm`. -/
structure Follows (R : State → RefDev → Bool → Prop) : Prop where
  same : ∀ {s t : State} {d : RefDev} {ce : Bool}, R s d ce → t.params = s.params → t.env = s.env → t.ref = s.ref →
    t.pins.ce = s.pins.ce → t.intr.edgeLatch = s.intr.edgeLatch → t.intr.irqPrev = s.intr.irqPrev →
    t.intr.pending = s.intr.pending → R t d ce
  updateConfig : ∀ {s : State} {d : RefDev} {ce : Bool} (f : Byte → Byte), R s d ce →
    (d.irqOut = true → (d.writeReg 0x00 [f d.regs.config]).irqOut = true) → R (updateConfig f s) (configured f ce d) ce
  window : ∀ {s : State} {d : RefDev} {ce : Bool} (c : Byte) (out : List Byte), R s d ce →
    (d.irqOut = true → (d.commit c out (out.length + 1)).irqOut = true) →
    R (writeTx c out s) ((d.commit c out (out.length + 1)).settle ce) ce
  readTmp : ∀ {s : State} {d : RefDev} {ce : Bool} (addr : Nat), R s d ce → R (readTmp addr s).2 d ce
  setCe : ∀ {s : State} {d : RefDev} {ce : Bool} (l : Bool), R s d ce → R (setCe l s) (d.settle l) l
  waitFor : ∀ {s : State} {d : RefDev} {ce : Bool} (us : Nat), R s d ce →
    R (waitFor us s) ((d.advance us).settle ce) ce
  change : ∀ {s : State} {d : RefDev} {ce : Bool} (a : WorldAct) (f : RefDev → RefDev), R s d ce →
    worldEffect (noteAir a s) a = refresh (onRef f (noteAir a s)) → (f d).held = d.held →
    (d.irqOut = true → (f d).irqOut = true) → R (applyWorld s a) ((f d).settle ce) ce

/-- A window whose command may move the output up, or leave it. -/
theorem Calm.at_window {p : Bool} {s : State} {d : RefDev} {ce : Bool} (h : Calm p s d ce) (c : Byte) (out : List Byte)
    (hf : d.irqOut = true → (d.commit c out (out.length + 1)).irqOut = true) :
    Calm p (writeTx c out s) ((d.commit c out (out.length + 1)).settle ce) ce := by
  have hl := exchange_link out (openWindow c s) 0 c [] (openWindow_link c s)
  rw [show 0 + 1 + out.length = out.length + 1 by omega, List.nil_append] at hl
  exact ((h.at_openWindow c).at_exchange out).at_setCsn_true hl (.inl hf)

theorem noteAir_atRest {s : State} {d : RefDev} {ce : Bool} (h : AtRest s d ce) (a : WorldAct) : AtRest (noteAir a s) d ce := by
  rw [noteAir_same]
  exact h.congr rfl rfl rfl rfl

/-- A change that the world makes of a device at rest, and the modes settled after it (R250). -/
theorem atRest_change {s : State} {d : RefDev} {ce : Bool} (h : AtRest s d ce) {a : WorldAct} {f : RefDev → RefDev}
    (he : worldEffect (noteAir a s) a = refresh (onRef f (noteAir a s))) (hh : (f d).held = d.held) :
    AtRest (applyWorld s a) ((f d).settle ce) ce := by
  have hn := noteAir_atRest h a
  rw [applyWorld, he, onRef_reference hn.model]
  exact (refresh_atRest (s := { noteAir a s with ref := f (noteAir a s).ref }) hn.model hn.env (congrArg f hn.ref)
    hn.hce (hh.trans h.held)).1

theorem follows_atRest : Follows AtRest where
  same h a b c e _ _ _ := h.congr a b c e
  updateConfig f h _ := atRest_updateConfig h f
  window c out h _ := (h.at_write c out).ref
  readTmp addr h := (h.at_readTmp addr).1
  setCe l h := h.at_setCe l
  waitFor us h := h.at_wait us
  change _ _ h he hh _ := atRest_change h he hh

theorem follows_calm (p : Bool) : Follows (Calm p) where
  same h a b c e := h.same a b c e
  updateConfig f h hf := h.at_updateConfig f (.inl hf)
  window c out h hf := h.at_window c out hf
  readTmp addr h := h.at_readTmp addr
  setCe l h := h.at_setCe l
  waitFor us h := h.at_waitFor us
  change {s d ce} a f h he hh hf := by
    have hn : Calm p (noteAir a s) d ce := by
      rw [noteAir_same]
      exact h.same rfl rfl rfl rfl rfl rfl rfl
    rw [applyWorld, he, onRef_reference hn.model]
    exact calm_refresh (s := { noteAir a s with ref := f (noteAir a s).ref }) hn.model hn.env (congrArg f hn.ref)
      hn.hce (hh.trans h.held) hn.latch hn.pending (.inl fun hv => hf (hn.prev.symm.trans hv))

/-! ### Steps 1–5 -/

section
variable {d : RefDev}

/-- Clearing PRIM_RX leaves IRQ as it is. -/
theorem irqOut_turned (d : RefDev) : (d.writeReg 0x00 [clearBits d.regs.config primRxMask]).irqOut = d.irqOut := by
  obtain ⟨-, hc⟩ := clearBits_primRx d.regs.config
  exact irqOut_writeReg_config d _ (hc 5 (by decide) (by decide)) (hc 4 (by decide) (by decide))
    (.inr (hc 6 (by decide) (by decide)))

/-- Clearing flags, or masking RX_DR, does not pull IRQ low (R260). -/
theorem irqOut_flagsWritten (v : Byte) (h : d.irqOut = true) : (d.writeReg 0x07 [v]).irqOut = true := by
  rw [writeReg_status]
  simp only [RefDev.irqOut, DevRegs.clearFlags, DevRegs.maskRxDr, DevRegs.maskTxDs, DevRegs.maskMaxRt, Bool.not_eq_true',
    Bool.or_eq_false_iff, Bool.and_eq_false_iff] at h ⊢
  obtain ⟨⟨hr, ht⟩, hm⟩ := h
  exact ⟨⟨hr.imp_left .inl, ht.imp_left .inl⟩, hm.imp_left .inl⟩

theorem irqOut_masked (h : d.irqOut = true) : (d.writeReg 0x00 [setBits d.regs.config maskRxDrMask]).irqOut = true := by
  obtain ⟨h6, hs⟩ := setBits_maskRxDr d.regs.config
  have hb := onlyRxDr_writeReg_config d _ (hs 5 (by decide) (by decide)) (hs 4 (by decide) (by decide))
  have hm : (d.writeReg 0x00 [setBits d.regs.config maskRxDrMask]).regs.config.getLsbD 6 = true := by
    rw [writeReg_config]
    exact (mergedConfig_masks _ _).1.trans h6
  have ho := irqOut_of_masked hm false
  exact ho.symm.trans (hb.trans (onlyRxDr_of_irqOut h))

/-- The entry that a send puts on air (R201, R239, R240). -/
abbrev messageEntry (c : Cfg) (p : List Byte) : TxEntry := sentEntry (p ++ [Config.padByte]) (!c.autoAck)

/-- The device at the first poll: the packet is on air, and the CE pulse is over (R201, R256). -/
abbrev polled (c : Cfg) (p : List Byte) (d : RefDev) : RefDev := (launched (messageEntry c p) d).advance Config.tCePulse

section
variable {R : State → RefDev → Bool → Prop} {s : State} {p : List Byte}

theorem Follows.at_writeReg {ce : Bool} (hR : Follows R) (addr : Nat) (data : List Byte) (h : R s d ce)
    (hf : d.irqOut = true → (d.writeReg (BitVec.ofNat 5 addr) data).irqOut = true) :
    R (writeReg addr data s) ((d.writeReg (BitVec.ofNat 5 addr) data).settle ce) ce := by
  have hc := writeCmd_props addr d data data.length
  have h := hR.window (cmdReg opWrite (maskAddr addr)) data h (by rw [hc]; exact hf)
  rwa [hc] at h

theorem Follows.at_muteRx {ce : Bool} (hR : Follows R) (h : R s d ce) : R (muteRx s) d ce :=
  hR.same h rfl rfl rfl rfl rfl rfl rfl

/-- The count of reads is no part of it. -/
theorem Follows.at_clearCount {ce : Bool} (hR : Follows R) (h : R s d ce) :
    R (tick { s with regs := { s.regs with pollCount := 0 } }) d ce :=
  hR.same h rfl rfl rfl rfl rfl rfl rfl

theorem Follows.at_sendPrepare (hR : Follows R) (ht : Turns d) (h : R s d true) : R (sendPrepare s) (prepared d) true := by
  have h1 := hR.updateConfig (clearBits · primRxMask) h (fun ho => (irqOut_turned d).trans ho)
  rw [configured_turned ht] at h1
  have h2 : R (applyState .transmitting s) (turned d) true := by
    rw [applyTransmitting_eq]
    exact hR.same h1 rfl rfl rfl rfl rfl rfl rfl
  have h3 : R (flushRxOp (applyState .transmitting s)) (turned d).flushRx true := by
    have h := hR.window 0xE2 [] h2 id
    rwa [show (turned d).commit 0xE2 [] (([] : List Byte).length + 1) = (turned d).flushRx from rfl, settle_flushRx ht] at h
  have h4 : R (flushTxOp (flushRxOp (applyState .transmitting s))) (turned d).flushRx.flushTx true := by
    have h := hR.window 0xE1 [] h3 id
    rwa [show (turned d).flushRx.commit 0xE1 [] (([] : List Byte).length + 1) = (turned d).flushRx.flushTx from rfl, settle_flushTx ht] at h
  have h5 : R (writeReg 0x07 [0x20] (flushTxOp (flushRxOp (applyState .transmitting s)))) (emptied d) true := by
    have e : RefDev.settle ((turned d).flushRx.flushTx.writeReg (BitVec.ofNat 5 0x07) [0x20]) true = emptied d :=
      settle_statusWritten ht
    have h := hR.at_writeReg 0x07 [0x20] h4 (irqOut_flagsWritten 0x20)
    rwa [e] at h
  have h6 := hR.updateConfig (setBits · maskRxDrMask) h5 irqOut_masked
  rw [configured_prepared ht] at h6
  rw [sendPrepare_eq]
  exact hR.at_muteRx h6

/-- Steps 1–5 leave CE low and the packet on air (R201). -/
theorem Follows.at_sendStart (hR : Follows R) (ht : Turns d) (hd : s.cfg.autoAck = false → d.regs.enDynAck = true)
    (h : R s d true) : R (sendStart p s) (polled s.cfg p d) false := by
  have h0 : p ++ [Config.padByte] ≠ [] := by simp
  have h1 := hR.at_sendPrepare ht h
  have hc : (sendPrepare s).cfg = s.cfg := by
    obtain ⟨_, _, _, _, _, ha, -⟩ := sendPrepare_spec s
    exact ha.drives.cfg
  have h2 : R (sendPayload p (sendPrepare s)) (launched (messageEntry s.cfg p) d) true := by
    have hp := commit_payload (c := s.cfg) hd h0
    have h := hR.window (sendCommand s.cfg) (p ++ [Config.padByte]) h1 fun ho => by rw [hp]; exact ho
    rw [hp, settle_launched ht] at h
    rwa [sendPayload, hc]
  have h3 := hR.setCe true h2
  have e0 : (launched (messageEntry s.cfg p) d).settle true = launched (messageEntry s.cfg p) d := launched_settle ht _ 0 true
  rw [e0] at h3
  have h4 := hR.waitFor Config.tCePulse h3
  rw [launched_settle ht (messageEntry s.cfg p) Config.tCePulse true] at h4
  have h5 := hR.setCe false h4
  rw [launched_settle ht (messageEntry s.cfg p) Config.tCePulse false] at h5
  exact hR.at_clearCount h5

/-! ### The first poll, and the packet's flight -/

/-- A send of `p` after its first pass of the loop (R201). -/
abbrev sending (p : List Byte) (a : State) : State := pollPass (sendStart p (begin (.sendMessage p) a))

/-- The same with the settling time over (R255). -/
abbrev inFlight (p : List Byte) (a : State) : State := applyWorld (sending p a) (.elapse Config.tRadioSettle)

/-- The device then. -/
abbrev airborne (c : Cfg) (p : List Byte) (d : RefDev) : RefDev := (polled c p d).advance Config.tRadioSettle

/-- A node that listens, at rest, and whose send puts its packet on air (R201). -/
structure Sends (a : State) : Prop where
  rest : AtRest a a.ref true
  turns : Turns a.ref
  gated : a.cfg.autoAck = false → a.ref.regs.enDynAck = true
  unbounded : a.params.pollBound = none

theorem settle_airborne (ht : Turns d) (c : Cfg) : (airborne c p d).settle false = airborne c p d := by
  have h := launched_settle ht (messageEntry c p) (Config.tCePulse + Config.tRadioSettle) false
  rwa [show (launched (messageEntry c p) d).advance (Config.tCePulse + Config.tRadioSettle) = airborne c p d by
    simp [RefDev.advance, Nat.add_assoc]] at h

/-- No flag stands at the first poll (R201, R244). -/
theorem polled_flags (ht : Turns d) (c : Cfg) : bitAt (polled c p d).statusByte 5 = false ∧
    bitAt (polled c p d).statusByte 4 = false := by
  obtain ⟨h5, h4⟩ := statusByte_flags (d := polled c p d) (fun e he => absurd he List.not_mem_nil)
  exact ⟨h5, h4.trans ht.maxRt⟩

theorem Sends.at_sendStart {a : State} (hR : Follows R) (ha : Sends a) (h : R a a.ref true) :
    R (sendStart p (begin (.sendMessage p) a)) (polled a.cfg p a.ref) false :=
  hR.at_sendStart ha.turns ha.gated (hR.same h rfl rfl rfl rfl rfl rfl rfl)

/-- The first poll reads no flag, and the send goes on (R201). -/
theorem Sends.sending_eq {a : State} (ha : Sends a) : sending p a =
    { (readTmp 0x07 (sendStart p (begin (.sendMessage p) a))).2 with pc := (sendStart p (begin (.sendMessage p) a)).pc } := by
  have hs := ha.at_sendStart (p := p) follows_atRest ha.rest
  have hb := (hs.at_readTmp 0x07).2 _ (readReg_status _)
  obtain ⟨h5, h4⟩ := polled_flags (p := p) ha.turns a.cfg
  have hp : (sendStart p (begin (.sendMessage p) a)).params = a.params := by
    obtain ⟨_, _, _, _, _, h, -⟩ := sendStart_spec p (begin (.sendMessage p) a)
    exact h.drives.params
  exact pollPass_goes_on (by rw [hp]; exact ha.unbounded) (by rw [hb]; exact h5) (by rw [hb, h4, Bool.and_false])

theorem Sends.at_sending {a : State} (hR : Follows R) (ha : Sends a) (h : R a a.ref true) :
    R (sending p a) (polled a.cfg p a.ref) false := by
  rw [ha.sending_eq]
  exact hR.same (hR.readTmp 0x07 (ha.at_sendStart hR h)) rfl rfl rfl rfl rfl rfl rfl

theorem Sends.at_inFlight {a : State} (hR : Follows R) (ha : Sends a) (h : R a a.ref true) :
    R (inFlight p a) (airborne a.cfg p a.ref) false := by
  have hf := hR.change (.elapse Config.tRadioSettle) (RefDev.advance · Config.tRadioSettle)
    (ha.at_sending (p := p) hR h) rfl rfl id
  rwa [settle_airborne ha.turns] at hf

end

end

end Sys2Proof.Proofs
end

section
/-!
The payload loopback (R263): the packet's outcome at both ends, A's return from its send, and B's read of the message.
-/

namespace Sys2Proof.Proofs

open Sys2Proof.Machine Sys2Proof.Laws

/-! ### The outcome of a packet that is heard -/

/-- A packet that is heard, and acknowledged if it asks for that, is `tx_ok` for A and `rx` for B (R262). -/
theorem deliver_heard {n : Nat} {P : Pair} {e : TxEntry} (ho : P.a.ref.onAir = some e) (hs : P.a.ref.sending = true)
    (hh : hears P.a.ref P.b.ref e.payload.length = true)
    (hk : P.a.ref.wantsAck e = true → acknowledges P.b.ref true = true) : deliver n P =
      { a := applyWorld P.a (.txOk n (if P.a.ref.wantsAck e then P.b.ref.ackPayload 0 else none))
        b := applyWorld P.b (.rx 0 e.payload (P.a.ref.wantsAck e)) } := by
  cases hw : P.a.ref.wantsAck e
  · simp [deliver, ho, hs, hh, hw]
  · simp [deliver, ho, hs, hh, hw, hk hw]

/-! ### A's end -/

section
variable {d : RefDev} {c : Cfg} {p : List Byte}

theorem airborne_sending (c : Cfg) (p : List Byte) (d : RefDev) : (airborne c p d).sending = true := by
  simp [RefDev.sending, RefDev.enterTx, RefDev.advance]
  omega

/-- The packet of a send meets the same settings on air as before it (R262). -/
theorem airborne_txWaves (c : Cfg) (p : List Byte) (d : RefDev) : (airborne c p d).regs.txWaves = d.regs.txWaves := by
  obtain ⟨-, -, hc⟩ := prepared_config d
  have hcrc : (airborne c p d).regs.crcOn = d.regs.crcOn :=
    congrArg (· || decide (d.regs.enAa.extractLsb' 0 6 ≠ 0)) (hc 3 (by decide) (by decide))
  have hlen : (airborne c p d).regs.crcBytes = d.regs.crcBytes :=
    congrArg (fun b : Bool => if b then 2 else 1) (hc 2 (by decide) (by decide))
  rw [DevRegs.txWaves, hcrc, hlen]
  rfl

/-- The device once its packet was heard (R258). -/
abbrev acked (c : Cfg) (p : List Byte) (q : Option (List Byte)) (d : RefDev) : RefDev := (airborne c p d).txOk false 0 q

theorem acknowledged_acked (c : Cfg) (p : List Byte) (q : Option (List Byte)) (d : RefDev) :
    Acknowledged (airborne c p d) (acked c p q d) := acknowledged_txOk rfl (airborne_sending c p d) 0 q

theorem acked_settle (ht : Turns d) (q : Option (List Byte)) : (acked c p q d).settle false = acked c p q d := by
  obtain ⟨-, -, hc⟩ := prepared_config d
  exact settle_of_rest _ _ ((acknowledged_acked c p q d).rest ((hc 1 (by decide) (by decide)).trans ht.pwrUp))

/-- With TX_DS masked, and RX_DR masked by step 3, the outcome does not pull IRQ low (R201, R260). -/
theorem acked_irqOut (ht : Turns d) (hm : d.regs.maskTxDs = true) (q : Option (List Byte)) : (acked c p q d).irqOut = true := by
  obtain ⟨-, h6, hc⟩ := prepared_config d
  have ha := acknowledged_acked c p q d
  have hcfg : (acked c p q d).regs.config = (prepared d).regs.config := config_of_settings ha.settings
  have hmax : (acked c p q d).regs.maxRt = false := ha.maxRt.trans ht.maxRt
  have h5 : bitAt (prepared d).regs.config 5 = true := (hc 5 (by decide) (by decide)).trans hm
  simp only [RefDev.irqOut, DevRegs.maskRxDr, DevRegs.maskTxDs, hcfg, h6, h5, hmax, Bool.not_true, Bool.and_false, Bool.false_and,
    Bool.or_self, Bool.not_false]

end

section
variable {a : State} {p : List Byte} {q : Option (List Byte)}

/-- A's end once its packet was heard. -/
abbrev heard (p : List Byte) (q : Option (List Byte)) (a : State) : State := applyWorld (inFlight p a) (.txOk 0 q)

theorem worldEffect_txOk {u : State} {d : RefDev} (h : AtRest u d false) : worldEffect (noteAir (.txOk 0 q) u) (.txOk 0 q) =
    refresh (onRef (fun d => d.txOk false 0 q) (noteAir (.txOk 0 q) u)) := by
  have hc : (noteAir (.txOk 0 q) u).pins.ce.isHigh = false := (noteAir_atRest h _).hce
  rw [worldEffect, hc]

theorem Sends.at_heard (ha : Sends a) : AtRest (heard p q a) (acked a.cfg p q a.ref) false := by
  have h := ha.at_inFlight (p := p) follows_atRest ha.rest
  have hf := atRest_change h (worldEffect_txOk (q := q) h) (acknowledged_acked a.cfg p q a.ref).held
  rwa [acked_settle ha.turns] at hf

/-- No edge meanwhile, with TX_DS masked (R260, R280). -/
theorem Sends.calm_heard {b : Bool} (ha : Sends a) (hm : a.ref.regs.maskTxDs = true) (hb : Calm b a a.ref true) :
    Calm b (heard p q a) (acked a.cfg p q a.ref) false := by
  have h := ha.at_inFlight (p := p) (follows_calm b) hb
  have hf := (follows_calm b).change (.txOk 0 q) (fun d => d.txOk false 0 q) h (worldEffect_txOk h.toAtRest)
    (acknowledged_acked a.cfg p q a.ref).held (fun _ => acked_irqOut ha.turns hm q)
  rwa [acked_settle ha.turns] at hf

/-! ### A's return from its send -/

theorem keeps_begin (i : Instr) (s : State) : Keeps s (begin i s) := ⟨⟨rfl, rfl, rfl, id, id, id⟩, rfl, rfl, id⟩

theorem keeps_applyWorld (w : WorldAct) (s : State) : Keeps s (applyWorld s w) := keeps_bus (applyWorld_bus s w) rfl

theorem keeps_sending (p : List Byte) (a : State) : Keeps a (sending p a) :=
  ((keeps_begin (.sendMessage p) a).trans (sendStart_does (i := .sendMessage []) (by decide) (by decide) p _).keeps).trans
    (keeps_pollPass _)

theorem keeps_heard (p : List Byte) (q : Option (List Byte)) (a : State) : Keeps a (heard p q a) :=
  ((keeps_sending p a).trans (keeps_applyWorld _ _)).trans (keeps_applyWorld _ _)

theorem Sends.sending_op (ha : Sends a) : (sending p a).op = some (.sendMessage p) := by
  obtain ⟨_, _, _, _, _, hs, -⟩ := sendStart_spec p (begin (.sendMessage p) a)
  obtain ⟨_, _, hr, -⟩ := readTmp_act 0x07 (sendStart p (begin (.sendMessage p) a))
  rw [ha.sending_eq]
  exact hr.op.trans hs.op

theorem Sends.heard_op (ha : Sends a) : (heard p q a).op = some (.sendMessage p) :=
  (applyWorld_bus _ _).op.trans ((applyWorld_bus _ _).op.trans ha.sending_op)

theorem muteRx_muted (s : State) : (muteRx s).intr.muted = !(muteRx s).ref.regs.rxDr := rfl

/-- A send that finds RX_DR clear takes what comes next for its own (R204 (e), log 35). -/
theorem Sends.heard_muted (ha : Sends a) (hr : a.ref.regs.rxDr = false) : (heard p q a).intr.muted = true := by
  have hp := follows_atRest.at_sendPrepare (s := begin (.sendMessage p) a) ha.turns (ha.rest.congr rfl rfl rfl rfl)
  have hm : (sendPrepare (begin (.sendMessage p) a)).intr.muted =
      !(sendPrepare (begin (.sendMessage p) a)).ref.regs.rxDr := by
    rw [sendPrepare_eq]
    exact muteRx_muted _
  have hs : (sendStart p (begin (.sendMessage p) a)).intr.muted = true := by
    rw [hp.ref, show (prepared a.ref).regs.rxDr = false from hr] at hm
    simpa [sendStart, sendPulse, sendPayload] using hm
  rw [applyWorld_muted, applyWorld_muted, ha.sending_eq]
  exact (readTmp_muted 0x07 _).trans hs

/-- A's next poll sees TX_DS, and the send returns `true` (R201). -/
abbrev returned (p : List Byte) (q : Option (List Byte)) (a : State) : State :=
  finish .sent (sendRestore (readTmp 0x07 (heard p q a)).2)

theorem Sends.step_heard (ha : Sends a) : step (heard p q a) = .next (returned p q a) := by
  rw [step_of_send _ p ha.heard_op, pollPass_sent ha.at_heard (acknowledged_acked a.cfg p q a.ref).txDs]

/-- The wider reading of R204 (e) spares the edge of step 7 (log 35). -/
theorem Sends.returned_spared (ha : Sends a) (hi : InterruptOk a) (hr : a.ref.regs.rxDr = false)
    (hm : a.ref.regs.maskTxDs = true) (hs : a.params.sendUnmask = .spared)
    (hl : a.intr.edgeLatch = false) : (returned p q a).intr.pending = a.intr.pending := by
  obtain ⟨-, -, hprev, hlev⟩ := hi
  rw [irqLevel, ha.rest.model] at hlev
  have hb : Calm a.intr.pending a a.ref true := ⟨ha.rest, hl, hprev.trans hlev.symm, rfl⟩
  have hc := (ha.calm_heard (p := p) (q := q) hm hb).at_readTmp 0x07
  refine (hc.at_sendRestore (.inl ⟨?_, ?_⟩)).pending
  · rw [(keeps_readTmp 0x07 _).params, (keeps_heard p q a).params]
    exact hs
  · rw [readTmp_muted]
    exact ha.heard_muted hr

/-- The ACK payload raised RX_DR, and unmasking it in step 7 is an edge that the notifier serves (R260, R280). -/
theorem Sends.returned_taken {b : List Byte} (ha : Sends a) (hi : InterruptOk a) (hm : a.ref.regs.maskTxDs = true)
    (hs : a.params.sendUnmask = .taken) (he : a.intr.intEn = true) (hk : a.cfg.autoAck = true)
    (hw : a.ref.regs.enaa 0 = true) (hq : a.ref.accepts 0 b.length = true) : (returned p (some b) a).intr.pending = true := by
  have hwant : (airborne a.cfg p a.ref).wantsAck (messageEntry a.cfg p) = true := by
    rw [RefDev.wantsAck, messageEntry, hk]
    exact hw
  have hdr : (acked a.cfg p (some b) a.ref).regs.rxDr = true :=
    txOk_rxDr rfl (airborne_sending a.cfg p a.ref) 0 hwant hq rfl
  have hkeep := (keeps_heard p (some b) a).trans (keeps_readTmp 0x07 _)
  rw [returned, finish_intr]
  exact pending_sendRestore (ha.at_heard.at_readTmp 0x07).1 (hkeep.intEn.trans he) (hkeep.gie.trans (hi.1.trans he))
    (.inl (by rw [hkeep.params]; exact hs)) (acked_irqOut ha.turns hm _) hdr

end

/-! ### B's end -/

theorem sendAck_keeps (d : RefDev) (p : Nat) :
    (d.sendAck p).rxFifo = d.rxFifo ∧ (d.sendAck p).regs.rxDr = d.regs.rxDr ∧ (d.sendAck p).held = d.held := by
  unfold RefDev.sendAck
  split <;> exact ⟨rfl, rfl, rfl⟩

section
variable {d : RefDev} {payload : List Byte}

/-- A packet that is admitted is the only entry of an RX FIFO that was empty (R257, R261). -/
theorem rx_admitted (hl : d.listening = true) (ha : d.accepts 0 payload.length = true) (hf : d.rxFifo = []) (w : Bool) :
    (d.rx 0 payload w).rxFifo = [⟨payload, 0⟩] ∧ (d.rx 0 payload w).regs.rxDr = true ∧
      (d.rx 0 payload w).held = d.held := by
  have hfull : d.rxFull = false := by rw [rxFull_false, hf]; decide
  have hp : d.pushRx 0 payload =
      { d with rxFifo := d.rxFifo ++ [⟨payload, 0⟩], regs := { d.regs with rxDr := true } } := if_neg (by simp [hfull])
  obtain ⟨h1, h2, h3⟩ := sendAck_keeps (d.pushRx 0 payload) 0
  rw [RefDev.rx, if_neg (by simp [hl, ha, hfull])]
  split
  · rw [h1, h2, h3, hp, hf]
    exact ⟨rfl, rfl, rfl⟩
  · rw [hp, hf]
    exact ⟨rfl, rfl, rfl⟩

/-- It pulls IRQ low when RX_DR is not masked (R257, R260). -/
theorem rx_irqOut (hl : d.listening = true) (ha : d.accepts 0 payload.length = true) (hf : d.rxFifo = [])
    (hm : d.regs.maskRxDr = false) (w : Bool) : (d.rx 0 payload w).irqOut = false := by
  have hc := config_of_settings (rx_settings d 0 payload w)
  exact (irqOut_eq_false_iff _).mpr (.inl ⟨(rx_admitted hl ha hf w).2.1, by rw [hc]; exact hm⟩)

end

/-- A node that listens with interrupts enabled, no flag pulling IRQ low, and nothing received yet (R263). -/
structure Listens (b : State) : Prop where
  quiet : QuietReference b
  listening : b.ref.listening = true
  rxFifo : b.ref.rxFifo = []
  unmasked : b.ref.regs.maskRxDr = false
  irq : b.pins.irq = true
  interrupt : InterruptOk b
  intEn : b.intr.intEn = true
  initialised : b.initialised = true
  unmuted : b.intr.muted = false

section
variable {b : State} {payload : List Byte}

/-- B once the packet came. -/
abbrev arrived (payload : List Byte) (w : Bool) (b : State) : State := applyWorld b (.rx 0 payload w)

theorem Listens.at_arrived (hb : Listens b) (ha : b.ref.accepts 0 payload.length = true) (w : Bool) :
    AtRest (arrived payload w b) ((b.ref.rx 0 payload w).settle b.pins.ce.isHigh) b.pins.ce.isHigh :=
  atRest_change (f := fun d => d.rx 0 payload w) (quiet_atRest hb.quiet) rfl (rx_admitted hb.listening ha hb.rxFifo w).2.2

/-- The packet latches an edge (R260, R280). -/
theorem Listens.latched (hb : Listens b) (ha : b.ref.accepts 0 payload.length = true) (w : Bool) :
    (arrived payload w b).intr.edgeLatch = true := by
  obtain ⟨-, -, hprev, -⟩ := hb.interrupt
  have hn := noteAir_atRest (quiet_atRest hb.quiet) (.rx 0 payload w)
  have hi : (noteAir (.rx 0 payload w) b).intr = b.intr := by rw [noteAir_same]
  show (refresh (onRef (fun d => d.rx 0 payload w) (noteAir (.rx 0 payload w) b))).intr.edgeLatch = true
  generalize noteAir (.rx 0 payload w) b = u at *
  rw [onRef_reference hn.model]
  exact refresh_edge (s := { u with ref := u.ref.rx 0 payload w }) hn.model
    (congrArg (RefDev.rx · 0 payload w) hn.ref) ((congrArg _ hi).trans (hprev.trans hb.irq)) ((congrArg _ hi).trans hb.intEn)
    (rx_irqOut hb.listening ha hb.rxFifo hb.unmasked w) (.inr ((congrArg _ hi).trans hb.unmuted))

/-- B once its notifier ran (R281). -/
abbrev notified (payload : List Byte) (w : Bool) (b : State) : State := takeInterrupt [] (arrived payload w b)

theorem Listens.notify_arrived (hb : Listens b) (ha : b.ref.accepts 0 payload.length = true) (w : Bool) :
    notify [] (arrived payload w b) = notified payload w b := by
  obtain ⟨hgie, -⟩ := hb.interrupt
  exact notify_taken (hb.latched ha w) ((keeps_applyWorld _ b).gie.trans (hgie.trans hb.intEn)) []

/-- B with the flag cleared again (R214). -/
abbrev cleared (payload : List Byte) (w : Bool) (b : State) : State :=
  finish .unit (tick { begin .clearPending (notified payload w b) with
    intr := { (notified payload w b).intr with pending := false } })

theorem Listens.exec_clearPending (hb : Listens b) (w : Bool) :
    exec .clearPending (notified payload w b) = .next (cleared payload w b) := by
  have hi : (notified payload w b).initialised = true := (keeps_applyWorld (.rx 0 payload w) b).init.trans hb.initialised
  exact runRequest_of_initialised (fun t => unitResult (tick { t with intr := { t.intr with pending := false } })) hi

/-- B's read returns the payload that came (R205, R206). -/
theorem Listens.reads (hb : Listens b) (ha : b.ref.accepts 0 payload.length = true) (h0 : payload.headD 0 ≠ 0) (w : Bool) :
    ∃ b2, exec .readMessage (cleared payload w b) = .next b2 ∧ b2.result = some (.message payload) := by
  have hr := hb.at_arrived ha w
  have hq : QuietReference (cleared payload w b) := ⟨hr.model, hr.env, (congrArg RefDev.held hr.ref).trans hr.held, by
    show (arrived payload w b).ref.modeRule (arrived payload w b).pins.ce.isHigh = none
    rw [hr.ref, hr.hce]
    exact hr.rest⟩
  have hi : (cleared payload w b).initialised = true := (keeps_applyWorld (.rx 0 payload w) b).init.trans hb.initialised
  have hf : (cleared payload w b).ref.rxFifo = [⟨payload, 0⟩] :=
    (congrArg RefDev.rxFifo hr.ref).trans ((settle_rxFifo _ _).trans (rx_admitted hb.listening ha hb.rxFifo w).1)
  obtain ⟨-, hok⟩ := accepts_bounds ha
  obtain ⟨b2, he, -, hres, -⟩ := (readMessageReference _ hq hi).1 _ _ hf hok
  rw [if_neg h0] at hres
  exact ⟨b2, he, hres⟩

end

/-! ### From end to end -/

/-- The message's packet has at most 32 bytes, and it begins as the message does (R201). -/
theorem messageEntry_payload (c : Cfg) {p : List Byte} (h : 1 ≤ p.length) :
    (messageEntry c p).payload.length = min 32 (p.length + 1) ∧ (messageEntry c p).payload.headD 0 = p.headD 0 := by
  cases p with
  | nil => simp at h
  | cons x xs => exact ⟨by simp; omega, rfl⟩

/-- The two ends of the loopback: `a` sends `p` and `b` hears it (R262, R263). -/
structure Loopback (a b : State) (p : List Byte) : Prop where
  sends : Sends a
  listens : Listens b
  admitted : b.ref.accepts 0 (messageEntry a.cfg p).payload.length = true
  air : sameAir a.ref b.ref = true
  acks : a.ref.regs.enaa 0 = true → b.ref.regs.enaa 0 = true

/-- The packet asks for an ACK (R258). -/
abbrev asks (a : State) : Bool := a.cfg.autoAck && a.ref.regs.enaa 0

/-- The ACK payload that comes back, if any (R261). -/
abbrev answerBack (a b : State) : Option (List Byte) := if asks a then b.ref.ackPayload 0 else none

/-- The air takes the packet to B, and its ACK payload to A (R262). -/
theorem Loopback.delivered {a b : State} {p : List Byte} (h : Loopback a b p) :
    deliver 0 { a := inFlight p a, b := b } =
      { a := heard p (answerBack a b) a, b := arrived (messageEntry a.cfg p).payload (asks a) b } := by
  have hf := h.sends.at_inFlight (p := p) follows_atRest h.sends.rest
  have hw : (airborne a.cfg p a.ref).wantsAck (messageEntry a.cfg p) = asks a := by
    rw [RefDev.wantsAck, messageEntry, Bool.not_not]
    rfl
  have hfull : b.ref.rxFull = false := by rw [rxFull_false, h.listens.rxFifo]; decide
  have hh : hears (airborne a.cfg p a.ref) b.ref (messageEntry a.cfg p).payload.length = true := by
    rw [hears, sameAir, airborne_txWaves, h.listens.listening, h.admitted]
    exact h.air
  have hd := deliver_heard (n := 0) (P := { a := inFlight p a, b := b }) (e := messageEntry a.cfg p)
  simp only [hf.ref, hw] at hd
  refine hd rfl (airborne_sending _ _ _) hh fun hk => ?_
  have he : b.ref.regs.enaa 0 = true := h.acks (Bool.and_eq_true _ _ ▸ hk).2
  simp [acknowledges, he, hfull]

/-- Settles O60: A's packet goes on air, the air delivers it, A returns, and B reads what came. -/
theorem payloadLoopback : Obligations.PayloadLoopback := by
  intro a b p hqa hqb hia hib hgate hack hbound hce hmode hpw hmax htx hlist hrx hacc hdr hmask hirq hint hen hop hmut
    hair h1 h32 hhead
  obtain ⟨hlen, hfirst⟩ := messageEntry_payload a.cfg h1
  have hrest : AtRest a a.ref true := by
    have h := quiet_atRest hqa
    rwa [hce] at h
  have ha : Sends a := ⟨hrest, ⟨hmode, hpw, htx, hmax⟩, hgate, hbound⟩
  have hb : Listens b := ⟨hqb, hlist, hrx, hmask, hirq, hint, hen, hib, Bool.eq_false_iff.mpr (not_muted_of_idle hmut hop)⟩
  have hl : Loopback a b p := ⟨ha, hb, by rw [hlen]; exact hacc, hair, hack⟩
  obtain ⟨b2, hread, hres⟩ := hb.reads hl.admitted (by rw [hfirst]; exact hhead) (asks a)
  refine ⟨sending p a, returned p (answerBack a b) a, cleared (messageEntry a.cfg p).payload (asks a) b, b2,
    exec_sendMessage_eq hia h32, ha.sending_op, ?_, rfl, rfl, fun hi hr ht hm => ⟨fun hs hlatch => ?_, ?_⟩, ?_, ?_, hread, hres⟩
  · rw [hl.delivered]
    exact ha.step_heard
  · exact ha.returned_spared hi hr hm hs hlatch
  · intro hs he hk hw q hq hacca
    have hq' : answerBack a b = some q := by rw [answerBack, if_pos (by simp [hk, hw]), hq]
    rw [hq']
    exact ha.returned_taken hi hm hs he hk hw hacca
  · rw [hl.delivered, hb.notify_arrived hl.admitted]
    rfl
  · rw [hl.delivered, hb.notify_arrived hl.admitted]
    exact hb.exec_clearPending _

end Sys2Proof.Proofs
end

section
/-!
One window against the devices (R231, R232, R234, R236–R243, R249, R260): what W_REGISTER writes under every device model,
and what a wire command or a special command gets from the Reference device and does to it.
-/

namespace Sys2Proof.Proofs

open Sys2Proof.Machine Sys2Proof.Laws

section
variable {s t : State}

/-! ### W_REGISTER -/

/-- Neither the start nor the end of an operation writes to the device. -/
theorem registerWritten_finish {a : RegAddr} {data : List Byte} {i : Instr} (r : Result)
    (h : RegisterWritten a data (begin i s) t) : RegisterWritten a data s (finish r t) := ⟨h.reference, h.stored, h.others⟩

theorem wireBody_written (a : RegAddr) (data : List Byte) (hw : Memory.wf s.regFile = true) :
    RegisterWritten a data s (wireBody (cmdReg opWrite a) data s).2 := by
  obtain ⟨hc, ha⟩ := isWrite_write a
  have h := (burstTx_window (cmdReg opWrite a) data s).written hc hw
  rwa [ha] at h

/-! ### Wire commands and special commands against the Reference device -/

/-- What an operation that returns STATUS does to the Reference device: STATUS is that from before, the device becomes `d`,
settled, and IRQ is its output (R150, R231, R250, R260). -/
def AnswersStatus (i : Instr) (d : RefDev) (s : State) : Prop :=
  ∃ t, exec i s = .next t ∧ t.result = some (.status s.ref.statusByte) ∧ t.ref = d.settle s.pins.ce.isHigh ∧
    t.pins.irq = t.ref.irqOut

/-- An operation that sends one window commits the window's command once (R232). -/
theorem answersStatus_of_window {i : Instr} {c : Byte} {data : List Byte} (hq : QuietReference s)
    (he : exec i s = .next (finishWith (statusResult (writeTx c data (begin i s))))) :
    AnswersStatus i (s.ref.commit c data (data.length + 1)) s := by
  have h := (quiet_begin i hq).at_write c data
  exact ⟨_, he, congrArg (some ∘ Result.status) h.status, h.ref.ref, h.irq.trans (congrArg RefDev.irqOut h.ref.ref.symm)⟩

theorem answersStatus_request {i : Instr} (c : Byte) (data : List Byte)
    (he : exec i s = runRequest i (fun t => statusResult (writeTx c data t)) s) (hq : QuietReference s)
    (hi : s.initialised = true) : AnswersStatus i (s.ref.commit c data (data.length + 1)) s :=
  answersStatus_of_window hq (he.trans (runRequest_of_initialised _ hi))

/-- The same for a request with a buffer that holds its bytes (R103). -/
theorem answersStatus_buffered {i : Instr} (c : Byte) {buf : List Byte} {n : Nat}
    (he : exec i s = runBuffered i buf n (fun t => statusResult (writeTx c (buf.take n) t)) s) (hq : QuietReference s)
    (hi : s.initialised = true) (hn : n ≤ buf.length) :
    AnswersStatus i (s.ref.commit c (buf.take n) ((buf.take n).length + 1)) s :=
  answersStatus_of_window hq (he.trans ((if_pos hi).trans (if_pos hn)))

end

/-- Settles O12: the window of a W_REGISTER, as a wire command and as an operation. -/
theorem registerWriteEffect : Obligations.RegisterWriteEffect :=
  ⟨fun a data _ hw hi => ⟨_, exec_wire rfl hi, registerWritten_finish _ (wireBody_written a data hw)⟩,
    fun addr n buf _ hw hi hn =>
      ⟨_, exec_writeRegister hi hn, registerWritten_finish _ (writeReg_written addr (buf.take n) hw)⟩⟩

/-- Settles O35: the window of the command's frame, from a device at rest. -/
theorem referenceWindow : Obligations.ReferenceWindow := by
  intro i c data s hq hi he
  obtain ⟨h, hd⟩ := (quiet_begin i hq).at_burst c data
  exact ⟨_, _, exec_wire he hi, congrArg (fun st => some (Result.statusBytes st _)) h.status, burstTx_length c data _, hd,
    h.ref.ref, h.irq.trans (congrArg RefDev.irqOut h.ref.ref.symm)⟩

/-- Settles O36: each of the seven sends one window, and what it commits is the update named for it. -/
theorem referenceSpecialCommands : Obligations.ReferenceSpecialCommands := by
  intro s buf n hq hi hn i d h
  simp only [List.mem_cons, Prod.mk.injEq, List.not_mem_nil, or_false] at h
  obtain ⟨rfl, rfl⟩ | ⟨rfl, rfl⟩ | ⟨rfl, rfl⟩ | ⟨rfl, rfl⟩ | ⟨rfl, rfl⟩ | ⟨rfl, rfl⟩ | ⟨rfl, rfl⟩ := h
  · exact answersStatus_request 0xE1 [] rfl hq hi
  · exact answersStatus_request 0xE2 [] rfl hq hi
  · exact answersStatus_buffered 0xA0 rfl hq hi hn
  · exact answersStatus_buffered 0xB0 rfl hq hi hn
  · exact answersStatus_buffered (cmdPipe 0) rfl hq hi hn
  · exact answersStatus_request 0x50 [0x73] rfl hq hi
  · exact answersStatus_request 0xFF [] rfl hq hi

end Sys2Proof.Proofs
end

section
/-!
The Reference device's derived bytes and its commands (R231, R233, R236–R245): the bits of STATUS and FIFO_STATUS, and what
each command but the register writes does when its window ends.
-/

namespace Sys2Proof.Proofs

open Sys2Proof.Machine Sys2Proof.Laws

/-! ### STATUS and FIFO_STATUS -/

section
variable {d : RefDev}

/-- The bits of STATUS below bit 8: the flags in their places, and RX_P_NO from bit 1 on (R244). -/
theorem statusByte_getLsbD (d : RefDev) {i : Nat} (hi : i < 8) : d.statusByte.getLsbD i =
    (d.regs.rxDr && decide (6 = i) || d.regs.txDs && decide (5 = i) || d.regs.maxRt && decide (4 = i) ||
      !decide (i < 1) && d.rxPNo.getLsbD (i - 1) || d.txFull && decide (0 = i)) := by
  have hflag (b : Bool) (k : Nat) : (flagBit b k).getLsbD i = (b && decide (k = i)) := bitAt_flagBit b hi
  simp only [RefDev.statusByte, BitVec.getLsbD_or, BitVec.getLsbD_shiftLeft, hflag, hi, decide_true, Bool.true_and]

/-- The bits of FIFO_STATUS below bit 8 (R245). -/
theorem fifoStatusByte_getLsbD (d : RefDev) {i : Nat} (hi : i < 8) : d.fifoStatusByte.getLsbD i =
    (d.reuse && decide (6 = i) || d.txFull && decide (5 = i) || d.txFifo.isEmpty && decide (4 = i) ||
      d.rxFull && decide (1 = i) || d.rxFifo.isEmpty && decide (0 = i)) := by
  have hflag (b : Bool) (k : Nat) : (flagBit b k).getLsbD i = (b && decide (k = i)) := bitAt_flagBit b hi
  simp only [RefDev.fifoStatusByte, BitVec.getLsbD_or, hflag]

/-- A FIFO with at most three entries is full at three (R52). -/
theorem txFull_of_bound (h : d.txFifo.length ≤ 3) : d.txFull = decide (d.txFifo.length = 3) :=
  decide_eq_decide.mpr (by simp only [Config.fifoDepth]; omega)

theorem rxFull_of_bound (h : d.rxFifo.length ≤ 3) : d.rxFull = decide (d.rxFifo.length = 3) :=
  decide_eq_decide.mpr (by simp only [Config.fifoDepth]; omega)

/-- Bits 3:1 of STATUS are RX_P_NO, whatever the flags (R244). -/
theorem statusByte_rxPNo (d : RefDev) : d.statusByte.extractLsb' 1 3 = d.rxPNo.setWidth 3 := by
  refine BitVec.eq_of_getLsbD_eq fun i hi => ?_
  rw [BitVec.getLsbD_extractLsb', BitVec.getLsbD_setWidth, statusByte_getLsbD d (by omega)]
  simp [show ∀ k, 4 ≤ k → k ≠ 1 + i by omega, show (0 : Nat) ≠ 1 + i by omega]

/-- The other bits of STATUS are the flags in their places (R244). -/
theorem statusByte_flag (h : ∀ e ∈ d.rxFifo, e.pipe ≤ 5) {i : Nat} (hi : i < 8) (hf : i = 0 ∨ 4 ≤ i) :
    d.statusByte.getLsbD i = (d.regs.rxDr && decide (6 = i) || d.regs.txDs && decide (5 = i) ||
      d.regs.maxRt && decide (4 = i) || d.txFull && decide (0 = i)) := by
  have hp : (!decide (i < 1) && d.rxPNo.getLsbD (i - 1)) = false := by
    obtain rfl | h4 := hf
    · rfl
    · rw [rxPNo_getLsbD h (by omega), Bool.and_false]
  rw [statusByte_getLsbD d hi, hp, Bool.or_false]

/-- RX_P_NO is the head's pipe, 7 when there is none (R244). -/
theorem rxPNo_toNat (h : ∀ e ∈ d.rxFifo, e.pipe ≤ 5) :
    (d.rxPNo.setWidth 3).toNat = (d.rxFifo.head?.map RxEntry.pipe).getD 7 := by
  unfold RefDev.rxPNo
  cases hf : d.rxFifo with
  | nil => rfl
  | cons e es =>
    have he : e.pipe ≤ 5 := h e (by simp [hf])
    show e.pipe % 2 ^ 8 % 2 ^ 3 = e.pipe
    omega

end

/-- Settles O43: every bit of the two bytes, with the FIFOs' bounds where they matter. -/
theorem derivedStatusBytes : Obligations.DerivedStatusBytes := by
  refine ⟨fun d hd => ?_, fun d hd => ?_⟩ <;> obtain ⟨htx, -, hrx, hpipes, -⟩ := hd
  · have hpipe (e : RxEntry) (he : e ∈ d.rxFifo) : e.pipe ≤ 5 := (hpipes e he).2
    refine ⟨?_, ?_, ?_, ?_, ?_, ?_, by decide⟩
    case refine_5 =>
      rw [statusByte_rxPNo, rxPNo_toNat hpipe]
      cases d.rxFifo <;> rfl
    all_goals
      rw [statusByte_flag hpipe (by decide) (by decide)]
      simp [txFull_of_bound htx]
  · refine ⟨?_, ?_, ?_, ?_, ?_, ?_, ?_, by decide⟩
    case refine_5 =>
      refine BitVec.eq_of_getLsbD_eq fun i hi => ?_
      rw [BitVec.getLsbD_extractLsb', fifoStatusByte_getLsbD d (by omega)]
      interval_cases i <;> simp
    all_goals
      rw [fifoStatusByte_getLsbD d (by decide)]
      simp [txFull_of_bound htx, rxFull_of_bound hrx]

/-! ### The commands -/

section
variable {c : Byte}

/-- A command byte that is none of those with an effect commits nothing (R243). -/
theorem commit_of_inert (hw : isWriteCmd c = false) (ha : isAckCmd c = false)
    (hc : c ∉ [0x61, 0xA0, 0xB0, 0xE1, 0xE2, 0xE3]) (d : RefDev) (data : List Byte) (n : Nat) : d.commit c data n = d := by
  simp only [List.mem_cons, List.not_mem_nil, or_false, not_or] at hc
  obtain ⟨h1, h2, h3, h4, h5, h6⟩ := hc
  simp only [RefDev.commit, hw, ha, h1, h2, h3, h4, h5, h6, Bool.false_eq_true, if_false, ite_self]

/-- A reserved byte has no effect and no answer, and as an ACK payload command it names no pipe (R100, R243). -/
theorem reserved_props : reservedByte c = true → isReadCmd c = false ∧ (isAckCmd c = true → 5 < cmdPipeField c) ∧
    c ∉ [0x60, 0x61, 0xA0, 0xB0, 0xE1, 0xE2, 0xE3] := by
  revert c
  decide

/-- An ACK payload command for a pipe past 5 queues nothing (R241). -/
theorem queueAck_of_no_pipe {p : Nat} (hp : 5 < p) (d : RefDev) (data : List Byte) : d.queueAck p data = d :=
  if_pos (by simp [hp])

theorem commit_reserved (h : reservedByte c = true) (d : RefDev) (data : List Byte) (n : Nat) : d.commit c data n = d := by
  have hw := isWriteCmd_of_reserved h
  obtain ⟨-, hack, hc⟩ := reserved_props h
  cases ha : isAckCmd c with
  | false => exact commit_of_inert hw ha (fun hm => hc (List.mem_cons_of_mem _ hm)) d data n
  | true => simp [RefDev.commit, hw, ha, queueAck_of_no_pipe (hack ha)]

theorem miso_reserved (h : reservedByte c = true) (d : RefDev) (j : Nat) : d.miso c j = none := by
  obtain ⟨hr, -, hc⟩ := reserved_props h
  simp only [List.mem_cons, List.not_mem_nil, or_false, not_or] at hc
  obtain ⟨h60, h61, -⟩ := hc
  simp only [RefDev.miso, hr, h60, h61, Bool.false_eq_true, if_false]

end

/-- The command byte of R_REGISTER is its address, and it commits nothing (R97, R233). -/
theorem commit_zeroExtend (d : RefDev) (a : RegAddr) (data : List Byte) (n : Nat) :
    d.commit (a.zeroExtend 8) data n = d := by
  have hc : a.zeroExtend 8 = cmdReg opRead (maskAddr a.toNat) := by
    rw [maskAddr, BitVec.ofNat_toNat, BitVec.setWidth_eq]
    revert a
    decide
  rw [hc, commit_readReg]

/-- A payload is queued if there is one and the TX FIFO has room (R239, R240). -/
theorem queueTx_eq (d : RefDev) (data : List Byte) (noAck : Bool) : d.queueTx data noAck =
    if data = [] ∨ 3 ≤ d.txFifo.length then d else
      { d with txFifo := d.txFifo ++ [⟨data.take 32, noAck, none⟩], reuse := false } :=
  ite_congr (by simp [RefDev.txFull]) (fun _ => rfl) fun _ => rfl

/-- An ACK payload is queued if the feature is on, the pipe exists, there is a payload and the TX FIFO has room (R241). -/
theorem queueAck_eq (d : RefDev) (p : Nat) (data : List Byte) : d.queueAck p data =
    if d.regs.feature.getLsbD 1 = false ∨ 5 < p ∨ data = [] ∨ 3 ≤ d.txFifo.length then d else
      { d with txFifo := d.txFifo ++ [⟨data.take 32, false, some p⟩] } :=
  ite_congr (by simp [RefDev.txFull, DevRegs.enAckPay, bitAt, or_assoc, or_comm (a := data = [])]) (fun _ => rfl)
    fun _ => rfl

theorem commit_noAckPayload (d : RefDev) (data : List Byte) (n : Nat) : d.commit 0xB0 data (n + 1) =
    if d.regs.feature.getLsbD 0 = false ∨ data = [] ∨ 3 ≤ d.txFifo.length then d else
      { d with txFifo := d.txFifo ++ [⟨data.take 32, true, none⟩], reuse := false } := by
  show (if d.regs.feature.getLsbD 0 = true then d.queueTx data true else d) = _
  rw [queueTx_eq]
  cases d.regs.feature.getLsbD 0 <;> simp

/-- The command byte of W_ACK_PAYLOAD for a pipe, as R98 writes it. -/
theorem cmdPipe_eq (p : BitVec 3) : 0xA8 ||| p.zeroExtend 8 = cmdPipe p := by revert p; decide

theorem commit_pipe (d : RefDev) (p : BitVec 3) (data : List Byte) (n : Nat) :
    d.commit (0xA8 ||| p.zeroExtend 8) data (n + 1) = d.queueAck p.toNat data := by
  have hp : isAckCmd (cmdPipe p) = true ∧ cmdPipeField (cmdPipe p) = p.toNat := by revert p; decide
  rw [cmdPipe_eq]
  simp [RefDev.commit, isWrite_pipe p, hp]

/-- The payload read pops the head if a data byte was clocked, whatever the MOSI bytes (R238). -/
theorem commit_payloadRead (d : RefDev) (data : List Byte) (n : Nat) :
    d.commit 0x61 data (n + 1) = if n = 0 then d else { d with rxFifo := d.rxFifo.tail } :=
  (commit_read d 0x61 data [] _ (by decide) (by decide) (by decide) (by decide)).trans (commit_rxPayload d n)

/-- The command byte of a window is answered STATUS (R231, R232). -/
theorem answer_command {s : State} (hm : s.params.deviceModel = .reference) (ht : s.link.inTxn = true)
    (hx : s.link.idx = 0) : (answer s).1 = s.ref.statusByte := by
  simp [answer, ht, hm, referenceAnswer, hx, orDraw]

/-- Settles O44: one lemma for each kind of command. -/
theorem commandCommits : Obligations.CommandCommits :=
  ⟨⟨fun d data n => ⟨commit_of_inert (by decide) (by decide) (by decide) d data n,
        commit_of_inert (by decide) (by decide) (by decide) d data n,
        commit_of_inert (by decide) (by decide) (by decide) d data n, fun a => commit_zeroExtend d a data n, rfl,
        fun _ hc => ⟨commit_reserved hc d data n, miso_reserved hc d⟩⟩,
      fun _ => answer_command⟩,
    fun d data n => ⟨rfl, rfl, commit_payloadRead d data n, queueTx_eq d data false, commit_noAckPayload d data n,
      fun p => (commit_pipe d p data n).trans (queueAck_eq d p.toNat data)⟩⟩

end Sys2Proof.Proofs
end

section
/-!
The mode rules of the Reference device (R248, R250–R256), mode by mode: which rule matches, and where settling leads.
-/

namespace Sys2Proof.Proofs

open Sys2Proof.Machine Sys2Proof.Laws

section
variable {d d' : RefDev} {ce : Bool}

/-! ### Settling by one rule -/

/-- One rule, after which none matches, is all of settling (R250). -/
theorem settle_of_rule (h : d.modeRule ce = some d') (hr : d'.modeRule ce = none) : d.settle ce = d' := by
  simp only [RefDev.settle, RefDev.settleFuel, h, hr]

/-- From StandbyI one rule leads to a mode at rest (R253–R256). -/
theorem rest_after_standbyI (hm : d.mode = .standbyI) (h : d.modeRule ce = some d') : d'.modeRule ce = none := by
  cases hp : d.regs.pwrUp
  · obtain rfl : { d with mode := .powerDown, onAir := none, airQueued := false, noSettle := false } = d' := by
      simpa [RefDev.modeRule, hp, hm] using h
    simp [RefDev.modeRule, hp]
  · simp only [RefDev.modeRule, hp, hm, Bool.not_true, Bool.false_eq_true, if_false] at h
    split at h
    · cases h
    · next hce =>
      simp only [Bool.not_eq_true, Bool.not_eq_false'] at hce
      split at h
      · next hr =>
        obtain rfl := Option.some.inj h
        simp [RefDev.modeRule, hp, hce, hr]
      · next hr =>
        split at h
        · obtain rfl := Option.some.inj h
          exact modeRule_rest_of_txMode rfl hp
        · next hc =>
          obtain rfl := Option.some.inj h
          have hc' : RefDev.canSend { d with mode := .standbyII } = false := Bool.eq_false_iff.mpr hc
          simp [RefDev.modeRule, hp, hce, hr, hc']

/-- A rule that leads to StandbyI: settling goes on from there (R250). -/
theorem settle_through_standbyI (h : d.modeRule ce = some d') (hm : d'.mode = .standbyI) : d.settle ce = d'.settle ce := by
  cases h' : d'.modeRule ce with
  | none => rw [settle_of_rule h h', settle_of_rest d' ce h']
  | some d'' => simp only [RefDev.settle, RefDev.settleFuel, h, h', rest_after_standbyI hm h']

/-! ### Without PWR_UP -/

/-- Without PWR_UP the device is in PowerDown at once, and the packet on air is dropped (R251). -/
theorem settle_of_powerDown (hp : d.regs.pwrUp = false) : d.settle ce =
    if d.mode = .powerDown then d
    else { d with mode := .powerDown, onAir := none, airQueued := false, noSettle := false } := by
  split
  · next hm => exact settle_of_rest d ce (by simp [RefDev.modeRule, hp, hm])
  · next hm => exact settle_of_rule (by simp [RefDev.modeRule, hp, hm]) (by simp [RefDev.modeRule, hp])

/-! ### The start-up -/

theorem startUpOver_of_le (h : 1500 ≤ d.now - d.tMark) : d.startUpOver = true := decide_eq_true h

theorem startUpOver_of_lt (h : d.now - d.tMark < 1500) : d.startUpOver = false := decide_eq_false (Nat.not_le.mpr h)

theorem settle_powerDown_starts (hp : d.regs.pwrUp = true) (hm : d.mode = .powerDown) :
    d.settle ce = { d with mode := .startUp, tMark := d.now } :=
  settle_of_rule (by simp [RefDev.modeRule, hp, hm]) (by simp [RefDev.modeRule, hp, RefDev.startUpOver, Config.tStartUp])

/-- A start-up that is not over, or that is put off, goes on (R248, R252). -/
theorem settle_startUp_stays (hp : d.regs.pwrUp = true) (hm : d.mode = .startUp)
    (h : d.startUpOver = false ∨ d.held = true) : d.settle ce = d :=
  settle_of_rest d ce (by obtain h | h := h <;> simp [RefDev.modeRule, hp, hm, h])

theorem settle_startUp_ends (hp : d.regs.pwrUp = true) (hm : d.mode = .startUp) (ho : d.startUpOver = true)
    (hh : d.held = false) : d.settle ce = RefDev.settle { d with mode := .standbyI } ce :=
  settle_through_standbyI (by simp [RefDev.modeRule, hp, hm, ho, hh]) rfl

theorem fireDue_of_due (hm : d.mode = .startUp) (ho : d.startUpOver = true) : d.fireDue = { d with held := false } :=
  if_pos (by simp [hm, ho])

theorem fireDue_of_not_due (h : d.mode ≠ .startUp ∨ d.startUpOver = false) : d.fireDue = d :=
  if_neg (by obtain h | h := h <;> simp [h])

/-! ### Standby, receiving and sending -/

/-- A payload, and no MAX_RT, let the device send (R253, R256). -/
theorem canSend_of_payload (hf : d.txFifo ≠ []) (hx : d.regs.maxRt = false) : d.canSend = true := by
  simp [RefDev.canSend, hf, hx]

theorem canSend_eq_false (h : d.txFifo = [] ∨ d.regs.maxRt = true) : d.canSend = false := by
  obtain h | h := h <;> simp [RefDev.canSend, h]

section
variable (hp : d.regs.pwrUp = true)
include hp

theorem settle_standbyI_low (hm : d.mode = .standbyI) : d.settle false = d :=
  settle_of_rest d _ (by simp [RefDev.modeRule, hp, hm])

theorem settle_standbyI_receives (hm : d.mode = .standbyI) (hr : d.regs.primRx = true) :
    d.settle true = { d with mode := .rxMode, tMark := d.now } :=
  settle_of_rule (by simp [RefDev.modeRule, hp, hm, hr]) (by simp [RefDev.modeRule, hp, hr])

theorem settle_standbyI_sends (hm : d.mode = .standbyI) (hr : d.regs.primRx = false) (hc : d.canSend = true) :
    d.settle true = d.enterTx false :=
  settle_of_rule (by simp [RefDev.modeRule, hp, hm, hr, hc]) (modeRule_rest_of_txMode rfl hp)

theorem settle_standbyI_waits (hm : d.mode = .standbyI) (hr : d.regs.primRx = false) (hc : d.canSend = false) :
    d.settle true = { d with mode := .standbyII } := by
  have h : d.modeRule true = some { d with mode := .standbyII } := by simp [RefDev.modeRule, hp, hm, hr, hc]
  exact settle_of_rule h (rest_after_standbyI hm h)

theorem settle_rxMode_low (hm : d.mode = .rxMode) : d.settle false = { d with mode := .standbyI } :=
  settle_of_rule (by simp [RefDev.modeRule, hp, hm]) (by simp [RefDev.modeRule, hp])

theorem settle_rxMode_stays (hm : d.mode = .rxMode) (hr : d.regs.primRx = true) : d.settle true = d :=
  settle_of_rest d _ (by simp [RefDev.modeRule, hp, hm, hr])

theorem settle_rxMode_leaves (hm : d.mode = .rxMode) (hr : d.regs.primRx = false) :
    d.settle true = RefDev.settle { d with mode := .standbyI } true :=
  settle_through_standbyI (by simp [RefDev.modeRule, hp, hm, hr]) rfl

theorem settle_txMode (hm : d.mode = .txMode) : d.settle ce = d := settle_of_rest d ce (modeRule_rest_of_txMode hm hp)

theorem settle_standbyII_sends (hm : d.mode = .standbyII) (hc : d.canSend = true) : d.settle ce = d.enterTx false :=
  settle_of_rule (rule_of_standbyII ce hm hp hc) (modeRule_rest_of_txMode rfl hp)

theorem settle_standbyII_low (hm : d.mode = .standbyII) (hc : d.canSend = false) :
    d.settle false = { d with mode := .standbyI } :=
  settle_of_rule (by simp [RefDev.modeRule, hp, hm, hc]) (by simp [RefDev.modeRule, hp])

theorem settle_standbyII_receives (hm : d.mode = .standbyII) (hc : d.canSend = false) (hr : d.regs.primRx = true) :
    d.settle true = { d with mode := .rxMode, tMark := d.now } :=
  settle_of_rule (by simp [RefDev.modeRule, hp, hm, hc, hr]) (by simp [RefDev.modeRule, hp, hr])

theorem settle_standbyII_waits (hm : d.mode = .standbyII) (hc : d.canSend = false) (hr : d.regs.primRx = false) :
    d.settle true = d :=
  settle_of_rest d _ (by simp [RefDev.modeRule, hp, hm, hc, hr])

end

end

/-- Without PWR_UP the device keeps its registers and FIFOs, and drops what was on air (R251). -/
theorem powerDown_keeps {d : RefDev} (ce : Bool) (hp : d.regs.pwrUp = false) : (d.settle ce).mode = .powerDown ∧
    (d.settle ce).regs = d.regs ∧ (d.settle ce).txFifo = d.txFifo ∧ (d.settle ce).rxFifo = d.rxFifo ∧
      (d.mode ≠ .powerDown → (d.settle ce).onAir = none) := by
  rw [settle_of_powerDown hp]
  split
  · next hm => exact ⟨hm, rfl, rfl, rfl, fun h => absurd hm h⟩
  · exact ⟨rfl, rfl, rfl, rfl, fun _ => rfl⟩

/-- Settles O45: one lemma for each mode and what leads out of it. -/
theorem deviceModes : Obligations.DeviceModes :=
  ⟨fun _ ce => ⟨powerDown_keeps ce, settle_powerDown_starts,
      fun hp hm ht => settle_startUp_stays hp hm (.inl (startUpOver_of_lt ht)),
      fun hp hm ht => settle_startUp_ends hp hm (startUpOver_of_le ht),
      fun hp hm hh => settle_startUp_stays hp hm (.inr hh),
      fun hm ht => fireDue_of_due hm (startUpOver_of_le ht), fun h => fireDue_of_not_due (h.imp_right startUpOver_of_lt)⟩,
    fun _ hp => ⟨settle_standbyI_low hp, settle_standbyI_receives hp,
      fun hm hr hf hx => settle_standbyI_sends hp hm hr (canSend_of_payload hf hx),
      fun hm hr hf => settle_standbyI_waits hp hm hr (canSend_eq_false hf),
      settle_rxMode_low hp, settle_rxMode_stays hp, settle_rxMode_leaves hp, fun _ => settle_txMode hp,
      fun _ hm hf hx => settle_standbyII_sends hp hm (canSend_of_payload hf hx),
      fun hm hf => settle_standbyII_low hp hm (canSend_eq_false hf),
      fun hm hf => settle_standbyII_receives hp hm (canSend_eq_false hf),
      fun hm hf => settle_standbyII_waits hp hm (canSend_eq_false hf)⟩⟩

end Sys2Proof.Proofs
end

section
/-!
The air events of the Reference device (R247, R255, R257–R261): what a received packet, `tx_ok` and `tx_fail` change, and
when they change nothing.
-/

namespace Sys2Proof.Proofs

open Sys2Proof.Machine Sys2Proof.Laws

section
variable {d : RefDev} {p : Nat} {payload : List Byte}

/-! ### What is admitted -/

theorem listening_iff (d : RefDev) : d.listening = true ↔ d.mode = .rxMode ∧ 130 ≤ d.now - d.tMark := by
  simp [RefDev.listening, Config.tRadioSettle]

theorem sending_iff (d : RefDev) :
    d.sending = true ↔ d.mode = .txMode ∧ (d.noSettle = true ∨ 130 ≤ d.now - d.tMark) := by
  simp [RefDev.sending, Config.tRadioSettle]

/-- The pipe is enabled, and the length is within 1..32 and what the pipe takes (R247, R261). -/
theorem accepts_iff (d : RefDev) (p n : Nat) : d.accepts p n = true ↔ p ≤ 5 ∧ d.regs.enRxaddr.getLsbD p = true ∧
    1 ≤ n ∧ n ≤ 32 ∧ ((d.regs.feature.getLsbD 2 = true ∧ d.regs.dynpd.getLsbD p = true) ∨ n = d.regs.rxPw p) := by
  simp only [RefDev.accepts, DevRegs.pipeEnabled, DevRegs.dplOn, DevRegs.enDpl, bitAt, Config.payloadMax,
    Bool.and_eq_true, Bool.or_eq_true, decide_eq_true_eq]
  constructor
  · rintro ⟨⟨⟨⟨hp, he⟩, h1⟩, h32⟩, ⟨⟨hf, -⟩, hd⟩ | ⟨hw, -⟩⟩
    exacts [⟨hp, he, h1, h32, .inl ⟨hf, hd⟩⟩, ⟨hp, he, h1, h32, .inr hw⟩]
  · rintro ⟨hp, he, h1, h32, ⟨hf, hd⟩ | hw⟩
    exacts [⟨⟨⟨⟨hp, he⟩, h1⟩, h32⟩, .inl ⟨⟨hf, hp⟩, hd⟩⟩, ⟨⟨⟨⟨hp, he⟩, h1⟩, h32⟩, .inr ⟨hw, by omega⟩⟩]

/-- The packet carries no no-ack mark and pipe 0 has auto-acknowledge on (R258). -/
theorem wantsAck_iff (d : RefDev) (e : TxEntry) :
    d.wantsAck e = true ↔ e.noAck = false ∧ d.regs.enAa.getLsbD 0 = true := by
  simp [RefDev.wantsAck, DevRegs.enaa, bitAt]

/-! ### A received packet -/

/-- A device with a payload at the end of its RX FIFO and RX_DR set (R257). -/
abbrev queued (p : Nat) (payload : List Byte) (d : RefDev) : RefDev :=
  { d with rxFifo := d.rxFifo ++ [⟨payload, p⟩], regs := { d.regs with rxDr := true } }

theorem pushRx_of_full (h : d.rxFull = true) (p : Nat) (payload : List Byte) : d.pushRx p payload = d := if_pos h

theorem pushRx_of_room (h : d.rxFull = false) (p : Nat) (payload : List Byte) : d.pushRx p payload = queued p payload d :=
  if_neg (by simp [h])

/-- With an ACK payload queued for the pipe, the ACK takes the first one and TX_DS is set (R258, R261). -/
theorem sendAck_of_queued (h : ∃ e ∈ d.txFifo, e.ackPipe = some p) : d.sendAck p =
    { d with txFifo := d.txFifo.eraseP (TxEntry.isAckFor p), regs := { d.regs with txDs := true } } := by
  obtain ⟨e, he, hp⟩ := h
  have hs : (d.txFifo.find? (TxEntry.isAckFor p)).isSome = true :=
    List.find?_isSome.mpr ⟨e, he, decide_eq_true hp⟩
  obtain ⟨f, hf⟩ := Option.isSome_iff_exists.mp hs
  simp only [RefDev.sendAck, RefDev.ackPayload, hf, Option.map_some]

theorem sendAck_of_none (h : ∀ e ∈ d.txFifo, e.ackPipe ≠ some p) : d.sendAck p = d := by
  have hf : d.txFifo.find? (TxEntry.isAckFor p) = none :=
    List.find?_eq_none.mpr fun e he => by simp [TxEntry.isAckFor, h e he]
  simp only [RefDev.sendAck, RefDev.ackPayload, hf, Option.map_none]

theorem rx_of_refused (h : d.listening = false ∨ d.accepts p payload.length = false ∨ d.rxFull = true) (w : Bool) :
    d.rx p payload w = d := if_pos (by obtain h | h | h := h <;> simp [h])

/-- An admitted packet with room is queued, and an ACK goes out if it asks for one that the pipe gives (R257, R261). -/
theorem rx_of_admitted (hl : d.listening = true) (ha : d.accepts p payload.length = true) (hf : d.rxFull = false)
    (w : Bool) : d.rx p payload w = if w && d.regs.enaa p then (queued p payload d).sendAck p else queued p payload d := by
  rw [RefDev.rx, if_neg (by simp [hl, ha, hf]), pushRx_of_room hf]

theorem rx_queues (hl : d.listening = true) (ha : d.accepts p payload.length = true) (hf : d.rxFull = false) (w : Bool) :
    (d.rx p payload w).rxFifo = d.rxFifo ++ [⟨payload, p⟩] ∧ (d.rx p payload w).regs.rxDr = true := by
  rw [rx_of_admitted hl ha hf]
  split
  · obtain ⟨h1, h2, -⟩ := sendAck_keeps (queued p payload d) p
    exact ⟨h1, h2⟩
  · exact ⟨rfl, rfl⟩

end

/-- Settles O46: the packet refused, and the packet queued with its ACK payload and without one. -/
theorem packetReceived : Obligations.PacketReceived := by
  intro d p b w admitted
  have hadm : admitted ↔ d.listening = true ∧ d.accepts p b.length = true := by
    rw [listening_iff, accepts_iff, and_assoc]
  refine ⟨fun h => rx_of_refused ?_ w, fun h hroom => ?_⟩
  · rw [hadm, not_and_or, Bool.not_eq_true, Bool.not_eq_true, or_assoc] at h
    exact h.imp_right (Or.imp_right fun hf => decide_eq_true hf)
  · obtain ⟨hl, ha⟩ := hadm.mp h
    have hf := rxFull_false.mpr hroom
    have haa : d.regs.enaa p = d.regs.enAa.getLsbD p := by
      rw [DevRegs.enaa, decide_eq_true (accepts_bounds ha).1, Bool.true_and, bitAt]
    have hq := rx_queues hl ha hf w
    refine ⟨hq.1, hq.2, fun hw he => ?_, fun hn => ?_⟩ <;> rw [rx_of_admitted hl ha hf, haa]
    · rw [if_pos hw, sendAck_of_queued (d := queued p b d) he]
      exact ⟨rfl, rfl⟩
    · obtain hw | he := hn
      · rw [if_neg (by simp [hw])]
      · rw [sendAck_of_none (d := queued p b d) he, ite_self]

section
variable {d : RefDev} {e : TxEntry} {ce : Bool}

/-! ### After a packet -/

/-- Going on after a packet touches neither FIFO nor the flags of STATUS (R255). -/
theorem afterTx_keeps (d : RefDev) (ce : Bool) : (d.afterTx ce).txFifo = d.txFifo ∧ (d.afterTx ce).rxFifo = d.rxFifo ∧
    (d.afterTx ce).regs.rxDr = d.regs.rxDr ∧ (d.afterTx ce).regs.txDs = d.regs.txDs ∧
      (d.afterTx ce).regs.maxRt = d.regs.maxRt := by
  unfold RefDev.afterTx
  split <;> exact ⟨rfl, rfl, rfl, rfl, rfl⟩

theorem afterTx_again (h : ce = true ∧ d.txFifo ≠ [] ∧ d.regs.maxRt = false ∧ d.regs.primRx = false) :
    d.afterTx ce = d.enterTx true := by
  obtain ⟨hce, hf, hx, hr⟩ := h
  exact if_pos (by simp [hce, hr, canSend_of_payload hf hx])

theorem afterTx_standby (h : ¬ (ce = true ∧ d.txFifo ≠ [] ∧ d.regs.maxRt = false ∧ d.regs.primRx = false)) :
    d.afterTx ce = { d with mode := .standbyI, onAir := none, airQueued := false, noSettle := false } :=
  if_neg fun hc => h (by simpa [RefDev.canSend, and_assoc] using hc)

/-! ### tx_ok -/

/-- What `tx_ok` makes of a device before its next mode, its ACK payload taken (R258, R261). -/
abbrev credited (e : TxEntry) (n : Nat) (q : Option (List Byte)) (d : RefDev) : RefDev :=
  (accounted e n d).takeAckPayload (d.wantsAck e) q

theorem txOk_eq (ha : d.onAir = some e) (hs : d.sending = true) (ce : Bool) (n : Nat) (q : Option (List Byte)) :
    d.txOk ce n q = (credited e n q d).afterTx ce := by
  unfold RefDev.txOk
  rw [ha]
  exact if_neg (by simp [hs])

/-- An ACK payload changes the RX FIFO and RX_DR alone (R261). -/
theorem takeAckPayload_eq (d : RefDev) (k : Bool) (q : Option (List Byte)) : d.takeAckPayload k q =
    { d with
      rxFifo := (d.takeAckPayload k q).rxFifo
      regs := { d.regs with rxDr := (d.takeAckPayload k q).regs.rxDr } } := by
  unfold RefDev.takeAckPayload RefDev.pushRx
  repeat' split
  all_goals rfl

/-- What `tx_ok` leaves alone, and TX_DS, which it sets (R258). -/
theorem txOk_keeps (ha : d.onAir = some e) (hs : d.sending = true) (ce : Bool) (n : Nat) (q : Option (List Byte)) :
    (d.txOk ce n q).regs.txDs = true ∧ (d.txOk ce n q).regs.maxRt = d.regs.maxRt ∧
      (d.txOk ce n q).txFifo = d.popSent.txFifo ∧ (d.txOk ce n q).rxFifo = (credited e n q d).rxFifo ∧
      (d.txOk ce n q).regs.rxDr = (credited e n q d).regs.rxDr := by
  obtain ⟨htx, hrx, hdr, hds, hrt⟩ := afterTx_keeps (credited e n q d) ce
  rw [txOk_eq ha hs, htx, hrx, hdr, hds, hrt, credited, takeAckPayload_eq]
  exact ⟨rfl, rfl, rfl, rfl, rfl⟩

/-- The ACK's payload is taken: the packet asked for the ACK, pipe 0 admits the payload and there is room (R261, log 23). -/
def TakesAckPayload (e : TxEntry) (d : RefDev) (b : List Byte) : Prop :=
  d.wantsAck e = true ∧ d.accepts 0 b.length = true ∧ d.rxFull = false

theorem accounted_rxFull (e : TxEntry) (n : Nat) (d : RefDev) : (accounted e n d).rxFull = d.rxFull := by
  show decide (_ ≤ d.popSent.rxFifo.length) = _
  rw [(popSent_keeps d).2, RefDev.rxFull]

theorem txOk_queues (ha : d.onAir = some e) (hs : d.sending = true) (ce : Bool) (n : Nat) {b : List Byte}
    (h : TakesAckPayload e d b) : (d.txOk ce n (some b)).rxFifo = d.rxFifo ++ [⟨b, 0⟩] ∧
      (d.txOk ce n (some b)).regs.rxDr = true := by
  obtain ⟨hk, hacc, hroom⟩ := h
  obtain ⟨-, -, -, hrx, hdr⟩ := txOk_keeps ha hs ce n (some b)
  have hc : credited e n (some b) d = queued 0 b (accounted e n d) :=
    (if_pos (Bool.and_eq_true_iff.mpr ⟨hk, hacc⟩)).trans (pushRx_of_room ((accounted_rxFull e n d).trans hroom) 0 b)
  rw [hrx, hdr, hc]
  exact ⟨congrArg (· ++ _) (popSent_keeps d).2, rfl⟩

theorem credited_of_not_taken (n : Nat) {q : Option (List Byte)} (h : ∀ b, q = some b → ¬ TakesAckPayload e d b) :
    credited e n q d = accounted e n d := by
  cases q with
  | none => rfl
  | some b =>
    show (if d.wantsAck e && d.accepts 0 b.length then (accounted e n d).pushRx 0 b else accounted e n d) = _
    split
    · next hc =>
      obtain ⟨hk, hacc⟩ := Bool.and_eq_true_iff.mp hc
      refine pushRx_of_full ?_ 0 b
      rw [accounted_rxFull, ← Bool.not_eq_false]
      exact fun hroom => h b rfl ⟨hk, hacc, hroom⟩
    · rfl

theorem txOk_keeps_rxFifo (ha : d.onAir = some e) (hs : d.sending = true) (ce : Bool) (n : Nat) {q : Option (List Byte)}
    (h : ∀ b, q = some b → ¬ TakesAckPayload e d b) :
    (d.txOk ce n q).rxFifo = d.rxFifo ∧ (d.txOk ce n q).regs.rxDr = d.regs.rxDr := by
  obtain ⟨-, -, -, hrx, hdr⟩ := txOk_keeps ha hs ce n q
  rw [hrx, hdr, credited_of_not_taken n h]
  exact ⟨(popSent_keeps d).2, rfl⟩

theorem popSent_txFifo (d : RefDev) :
    d.popSent.txFifo = if d.airQueued = true ∧ d.reuse = false then d.txFifo.tail else d.txFifo := by
  rw [RefDev.popSent, apply_ite RefDev.txFifo]
  exact ite_congr (by simp) (fun _ => rfl) fun _ => rfl

/-- After `tx_ok` the device is in TxMode again, on the next packet and without a second settling, or in StandbyI (R255). -/
theorem txOk_mode (ha : d.onAir = some e) (hs : d.sending = true) (ce : Bool) (n : Nat) (q : Option (List Byte)) :
    if ce = true ∧ (d.txOk ce n q).txFifo ≠ [] ∧ d.regs.maxRt = false ∧ d.regs.primRx = false then
      (d.txOk ce n q).mode = .txMode ∧ (d.txOk ce n q).tMark = d.now ∧ (d.txOk ce n q).now = d.now ∧
        (d.txOk ce n q).onAir = (d.txOk ce n q).txFifo.head? ∧ (d.txOk ce n q).sending = true
    else (d.txOk ce n q).mode = .standbyI ∧ (d.txOk ce n q).onAir = none := by
  have hnow : (credited e n q d).now = d.now := by
    rw [credited, takeAckPayload_eq]
    show d.popSent.now = d.now
    unfold RefDev.popSent
    split <;> rfl
  have hregs : (credited e n q d).regs.maxRt = d.regs.maxRt ∧ (credited e n q d).regs.primRx = d.regs.primRx := by
    rw [credited, takeAckPayload_eq]
    exact ⟨rfl, rfl⟩
  rw [txOk_eq ha hs, (afterTx_keeps _ ce).1, ← hregs.1, ← hregs.2]
  split
  · next h =>
    rw [afterTx_again h]
    exact ⟨rfl, hnow, hnow, rfl, rfl⟩
  · next h =>
    rw [afterTx_standby h]
    exact ⟨rfl, rfl⟩

/-- Outside a settled TxMode neither outcome is admitted (R255, R261). -/
theorem outcome_of_not_sending (h : d.sending = false) (ce : Bool) (n : Nat) (q : Option (List Byte)) :
    d.txOk ce n q = d ∧ d.txFail ce = d := by
  unfold RefDev.txOk RefDev.txFail
  cases d.onAir <;> simp [h]

/-! ### tx_fail -/

theorem txFail_of_unasked (ha : d.onAir = some e) (hw : d.wantsAck e = false) (ce : Bool) : d.txFail ce = d := by
  simp [RefDev.txFail, ha, hw]

/-- A packet that was never acknowledged: MAX_RT is set, TX_DS and the FIFOs stay, and the device is in StandbyI (R259). -/
theorem txFail_outcome (ha : d.onAir = some e) (hs : d.sending = true) (hw : d.wantsAck e = true) (ce : Bool) :
    (d.txFail ce).regs.maxRt = true ∧ (d.txFail ce).regs.txDs = d.regs.txDs ∧ (d.txFail ce).txFifo = d.txFifo ∧
      (d.txFail ce).rxFifo = d.rxFifo ∧ (d.txFail ce).regs.rxDr = d.regs.rxDr ∧ (d.txFail ce).mode = .standbyI := by
  unfold RefDev.txFail
  rw [ha]
  simp only [hs, hw, Bool.not_true, Bool.or_self, Bool.false_eq_true, if_false]
  rw [afterTx_standby fun ⟨_, _, hx, _⟩ => Bool.noConfusion hx]
  exact ⟨rfl, rfl, rfl, rfl, rfl, rfl⟩

/-- While MAX_RT stands no mode rule leads to TxMode (R256, R259). -/
theorem modeRule_of_maxRt {d' : RefDev} (h : d.modeRule ce = some d') (hd : d.regs.maxRt = true ∧ d.mode ≠ .txMode) :
    d'.regs.maxRt = true ∧ d'.mode ≠ .txMode := by
  obtain ⟨hx, hm⟩ := hd
  obtain ⟨-, hc, -⟩ | ⟨m, rfl, -⟩ | ⟨m, t, rfl, hm', -⟩ := modeRule_cases h
  · exact absurd hc (by simp [canSend_eq_false (.inr hx)])
  · exact ⟨hx, by simp⟩
  · exact ⟨hx, hm'⟩

end

/-- Settles O47: `tx_ok` field by field, then where neither event is admitted, `tx_fail`, and MAX_RT. -/
theorem packetOutcomes : Obligations.PacketOutcomes := by
  refine ⟨fun d ce n e q ha hm hset => ?_, fun d ce n q h => ?_, fun d ce e ha hm hset => ⟨fun h => ?_, fun hn he => ?_⟩,
    fun d ce hx hm => ?_⟩
  · have hs := (sending_iff d).mpr ⟨hm, hset⟩
    obtain ⟨hds, hrt, htx, -, -⟩ := txOk_keeps ha hs ce n q
    intro t taken
    have htaken (b : List Byte) : taken b ↔ TakesAckPayload e d b := by
      rw [TakesAckPayload, wantsAck_iff, accepts_iff, rxFull_false]
      simp [taken, and_assoc]
    refine ⟨hds, hrt, txOk_settings d ce n q, htx.trans (popSent_txFifo d), ?_, fun h => ?_, txOk_mode ha hs ce n q⟩
    · rintro b rfl hb
      exact txOk_queues ha hs ce n ((htaken b).mp hb)
    · exact txOk_keeps_rxFifo ha hs ce n fun b hb ht => h b hb ((htaken b).mpr ht)
  · refine outcome_of_not_sending ?_ ce n q
    rw [← Bool.not_eq_true, sending_iff]
    rintro ⟨hm, hs⟩
    obtain h | ⟨h0, h130⟩ := h
    · exact h hm
    · exact hs.elim (by simp [h0]) (by omega)
  · refine txFail_of_unasked ha ?_ ce
    rw [← Bool.not_eq_true, wantsAck_iff]
    rintro ⟨hn, he⟩
    obtain h | h := h
    · exact Bool.false_ne_true (hn.symm.trans h)
    · exact Bool.false_ne_true (h.symm.trans he)
  · obtain ⟨h1, h2, h3, h4, -, h5⟩ :=
      txFail_outcome ha ((sending_iff d).mpr ⟨hm, hset⟩) ((wantsAck_iff d e).mpr ⟨hn, he⟩) ce
    exact ⟨h1, h2, h3, h4, h5⟩
  · exact (settleFuel_keeps (fun d => d.regs.maxRt = true ∧ d.mode ≠ .txMode) ce (fun _ _ => modeRule_of_maxRt) 3 d
      ⟨hx, hm⟩).2

end Sys2Proof.Proofs
end

section
/-!
The loopback environment between steps (R258, R259, R261, R262): what each outcome of A's packet is to the two devices, and
that it is one event of both records of packets.
-/

namespace Sys2Proof.Proofs

open Sys2Proof.Machine Sys2Proof.Laws

/-! ### A choice of the world, on the Reference device -/

section
variable {s : State} (hm : s.params.deviceModel = .reference)
include hm

theorem noteAir_reference (a : WorldAct) : noteAir a s = { s with air := s.air ++ (s.ref.airEvent a).toList } := by
  rw [noteAir, hm]

/-- A change of the device, the modes settled after it (R250). -/
theorem changed_ref (f : RefDev → RefDev) : (refresh (onRef f s)).ref = (f s.ref).settle s.pins.ce.isHigh := by
  rw [onRef_reference hm, refresh, onRef_reference (s := { s with ref := f s.ref }) hm]
  rfl

/-- The device after a choice of the world that changes it by `f`. -/
theorem applyWorld_ref {a : WorldAct} {f : RefDev → RefDev}
    (he : ∀ u : State, u.pins = s.pins → worldEffect u a = refresh (onRef f u)) :
    (applyWorld s a).ref = (f s.ref).settle s.pins.ce.isHigh := by
  rw [applyWorld, noteAir_same, he { s with air := (noteAir a s).air } rfl,
    changed_ref (s := { s with air := (noteAir a s).air }) hm]

theorem applyWorld_rx_ref (p : Nat) (payload : List Byte) (w : Bool) :
    (applyWorld s (.rx p payload w)).ref = (s.ref.rx p payload w).settle s.pins.ce.isHigh :=
  applyWorld_ref hm (f := fun d => d.rx p payload w) fun _ _ => rfl

theorem applyWorld_txOk_ref (n : Nat) (q : Option (List Byte)) :
    (applyWorld s (.txOk n q)).ref = (s.ref.txOk s.pins.ce.isHigh n q).settle s.pins.ce.isHigh :=
  applyWorld_ref hm (f := fun d => d.txOk s.pins.ce.isHigh n q) fun u hu => by rw [worldEffect, hu]

theorem applyWorld_txFail_ref :
    (applyWorld s .txFail).ref = (s.ref.txFail s.pins.ce.isHigh).settle s.pins.ce.isHigh :=
  applyWorld_ref hm (f := fun d => d.txFail s.pins.ce.isHigh) fun u hu => by rw [worldEffect, hu]

end

@[simp] theorem onRef_air (f : RefDev → RefDev) (s : State) : (onRef f s).air = s.air := by
  unfold onRef
  split <;> rfl

@[simp] theorem refresh_air (s : State) : (refresh s).air = s.air := onRef_air _ s

theorem worldEffect_air (s : State) (a : WorldAct) : (worldEffect s a).air = s.air := by
  cases a with
  | irqLevel level =>
    simp only [worldEffect]
    split <;> rfl
  | missed payload wantsAck => rfl
  | _ => simp [worldEffect]

/-- The record of packets grows by what the choice is to the device as it stands (R262, log 39). -/
theorem applyWorld_air {s : State} (hm : s.params.deviceModel = .reference) (a : WorldAct) :
    (applyWorld s a).air = s.air ++ (s.ref.airEvent a).toList := by
  rw [applyWorld, worldEffect_air, noteAir_reference hm]

/-! ### The outcomes, as the two nodes have them -/

section
variable {s : State} {e : TxEntry} (hm : s.params.deviceModel = .reference)

section
variable (ho : s.ref.onAir = some e) (hs : s.ref.sending = true)
include hm ho hs

theorem txOk_sets_txDs (n : Nat) (q : Option (List Byte)) : (applyWorld s (.txOk n q)).ref.regs.txDs = true := by
  obtain ⟨-, -, -, -, -, hds, -⟩ := settle_keeps (s.ref.txOk s.pins.ce.isHigh n q) s.pins.ce.isHigh
  rw [applyWorld_txOk_ref hm, hds]
  exact (txOk_keeps ho hs _ n q).1

theorem txOk_brings {b : List Byte} (h : TakesAckPayload e s.ref b) (n : Nat) :
    (applyWorld s (.txOk n (some b))).ref.rxFifo = s.ref.rxFifo ++ [⟨b, 0⟩] ∧
      (applyWorld s (.txOk n (some b))).ref.regs.rxDr = true := by
  obtain ⟨-, hrx, -, -, hdr, -⟩ := settle_keeps (s.ref.txOk s.pins.ce.isHigh n (some b)) s.pins.ce.isHigh
  rw [applyWorld_txOk_ref hm, hrx, hdr]
  exact txOk_queues ho hs _ n h

theorem txOk_brings_nothing (n : Nat) : (applyWorld s (.txOk n none)).ref.rxFifo = s.ref.rxFifo ∧
    (applyWorld s (.txOk n none)).ref.regs.rxDr = s.ref.regs.rxDr := by
  obtain ⟨-, hrx, -, -, hdr, -⟩ := settle_keeps (s.ref.txOk s.pins.ce.isHigh n none) s.pins.ce.isHigh
  rw [applyWorld_txOk_ref hm, hrx, hdr]
  exact txOk_keeps_rxFifo ho hs _ n (by simp)

theorem txFail_sets_maxRt (hw : s.ref.wantsAck e = true) : (applyWorld s .txFail).ref.regs.maxRt = true ∧
    (applyWorld s .txFail).ref.regs.txDs = s.ref.regs.txDs ∧ (applyWorld s .txFail).ref.rxFifo = s.ref.rxFifo ∧
      (applyWorld s .txFail).ref.regs.rxDr = s.ref.regs.rxDr := by
  obtain ⟨-, hrx, -, -, hdr, hds, hrt, -⟩ := settle_keeps (s.ref.txFail s.pins.ce.isHigh) s.pins.ce.isHigh
  obtain ⟨h1, h2, -, h3, h4, -⟩ := txFail_outcome ho hs hw s.pins.ce.isHigh
  rw [applyWorld_txFail_ref hm, hrx, hdr, hds, hrt]
  exact ⟨h1, h2, h3, h4⟩

end

include hm

theorem rx_arrives {payload : List Byte} (hl : s.ref.listening = true) (ha : s.ref.accepts 0 payload.length = true)
    (hf : s.ref.rxFull = false) (w : Bool) :
    (applyWorld s (.rx 0 payload w)).ref.rxFifo = s.ref.rxFifo ++ [⟨payload, 0⟩] ∧
      (applyWorld s (.rx 0 payload w)).ref.regs.rxDr = true := by
  obtain ⟨-, hrx, -, -, hdr, -⟩ := settle_keeps (s.ref.rx 0 payload w) s.pins.ce.isHigh
  rw [applyWorld_rx_ref hm, hrx, hdr]
  exact rx_queues hl ha hf w

theorem rx_dropped (payload : List Byte) (hf : s.ref.rxFull = true) (w : Bool) :
    (applyWorld s (.rx 0 payload w)).ref.rxFifo = s.ref.rxFifo ∧
      (applyWorld s (.rx 0 payload w)).ref.regs.rxDr = s.ref.regs.rxDr := by
  obtain ⟨-, hrx, -, -, hdr, -⟩ := settle_keeps (s.ref.rx 0 payload w) s.pins.ce.isHigh
  rw [applyWorld_rx_ref hm, hrx, hdr, rx_of_refused (.inr (.inr hf))]
  exact ⟨rfl, rfl⟩

end

/-! ### deliver -/

section
variable {n : Nat} {P : Pair} {e : TxEntry}

theorem hears_iff (a b : RefDev) (k : Nat) :
    hears a b k = true ↔ b.listening = true ∧ b.accepts 0 k = true ∧ a.regs.txWaves = b.regs.rxWaves := by
  simp [hears, sameAir, and_assoc]

/-- With nothing on air, or before TxMode has settled, there is no packet to deliver (R255, R262). -/
theorem deliver_nothing (h : P.a.ref.onAir = none ∨ P.a.ref.sending = false) : deliver n P = P := by
  unfold deliver
  obtain h | h := h
  · rw [h]
  · cases P.a.ref.onAir <;> simp [h]

section
variable (ho : P.a.ref.onAir = some e) (hs : P.a.ref.sending = true)
include ho hs

/-- A packet that is heard and does not get the ACK it asks for (log 28). -/
theorem deliver_unacknowledged (hh : hears P.a.ref P.b.ref e.payload.length = true) (hw : P.a.ref.wantsAck e = true)
    (hk : acknowledges P.b.ref true = false) :
    deliver n P = { a := applyWorld P.a .txFail, b := applyWorld P.b (.rx 0 e.payload true) } := by
  simp [deliver, ho, hs, hh, hw, hk]

/-- A packet that is not heard and asks for an ACK. -/
theorem deliver_lost (hh : hears P.a.ref P.b.ref e.payload.length = false) (hw : P.a.ref.wantsAck e = true) :
    deliver n P = { a := applyWorld P.a .txFail, b := applyWorld P.b (.missed e.payload true) } := by
  simp [deliver, ho, hs, hh, hw]

/-- A packet that is not heard and asks for none (log 28). -/
theorem deliver_unheard (hh : hears P.a.ref P.b.ref e.payload.length = false) (hw : P.a.ref.wantsAck e = false) :
    deliver n P = { a := applyWorld P.a (.txOk 0 none), b := applyWorld P.b (.missed e.payload false) } := by
  simp [deliver, ho, hs, hh, hw]

end

theorem acknowledges_of_room {d : RefDev} (he : d.regs.enaa 0 = true) (hf : d.rxFull = false) :
    acknowledges d true = true := by
  simp [acknowledges, he, hf]

theorem not_acknowledges {d : RefDev} (h : d.regs.enaa 0 = false ∨ d.rxFull = true) : acknowledges d true = false := by
  obtain h | h := h <;> simp [acknowledges, h]

end

/-- Settles O58: the outcome that `deliver` gives in each case, as each node has it. -/
theorem loopbackDelivery : Obligations.LoopbackDelivery := by
  intro p n e ma mb ho hs
  refine ⟨fun hh hroom hk => ?_, fun hh hroom hw hb => ?_, fun hh hfull => ?_, fun hh hw => ?_, fun hh hw => ?_⟩
  · obtain ⟨hl, hacc, -⟩ := (hears_iff _ _ _).mp hh
    have hf := rxFull_false.mpr hroom
    obtain ⟨hb, hdr⟩ := rx_arrives mb hl hacc hf (p.a.ref.wantsAck e)
    rw [deliver_heard ho hs hh fun hw => acknowledges_of_room (hk hw) hf]
    refine ⟨txOk_sets_txDs ma ho hs n _, hb, hdr, fun q hw hq ha hroomA => ?_, fun hnone => ?_⟩
    · rw [if_pos hw, hq]
      exact txOk_brings ma ho hs ⟨hw, ha, rxFull_false.mpr hroomA⟩ n
    · have hq : (if p.a.ref.wantsAck e = true then p.b.ref.ackPayload 0 else none) = none := by
        obtain h | h := hnone <;> simp [h]
      rw [hq]
      exact txOk_brings_nothing ma ho hs n
  · obtain ⟨hl, hacc, -⟩ := (hears_iff _ _ _).mp hh
    obtain ⟨hrt, hds, -⟩ := txFail_sets_maxRt ma ho hs hw
    rw [deliver_unacknowledged ho hs hh hw (not_acknowledges (.inl hb))]
    exact ⟨hrt, hds, (rx_arrives mb hl hacc (rxFull_false.mpr hroom) true).1⟩
  · have hf : p.b.ref.rxFull = true := decide_eq_true hfull
    cases hw : p.a.ref.wantsAck e with
    | true =>
      obtain ⟨hrt, hds, hrx, hdr⟩ := txFail_sets_maxRt ma ho hs hw
      obtain ⟨hb, hbdr⟩ := rx_dropped mb e.payload hf true
      rw [deliver_unacknowledged ho hs hh hw (not_acknowledges (.inr hf))]
      exact ⟨hb, hbdr, hrx, hdr, fun _ => ⟨hrt, hds⟩, fun h => Bool.noConfusion h⟩
    | false =>
      obtain ⟨hrx, hdr⟩ := txOk_brings_nothing ma ho hs n
      obtain ⟨hb, hbdr⟩ := rx_dropped mb e.payload hf false
      rw [deliver_heard ho hs hh fun h => absurd h (by simp [hw]), hw]
      exact ⟨hb, hbdr, hrx, hdr, fun h => Bool.noConfusion h, fun _ => txOk_sets_txDs ma ho hs n none⟩
  · obtain ⟨hrt, hds, -⟩ := txFail_sets_maxRt ma ho hs hw
    rw [deliver_lost ho hs hh hw]
    exact ⟨hrt, hds, noteAir_same _ _⟩
  · rw [deliver_unheard ho hs hh hw]
    exact ⟨txOk_sets_txDs ma ho hs 0 none, noteAir_same _ _⟩

/-! ### The records of packets -/

section
variable {d : RefDev} {e : TxEntry}

theorem airEvent_txOk (ho : d.onAir = some e) (hs : d.sending = true) (n : Nat) (q : Option (List Byte)) :
    d.airEvent (.txOk n q) =
      some (.sent d.regs.txWaves e.payload (d.wantsAck e) true (if d.wantsAck e then q else none)) := by
  simp [RefDev.airEvent, ho, hs]

theorem airEvent_txFail (ho : d.onAir = some e) (hs : d.sending = true) (hw : d.wantsAck e = true) :
    d.airEvent .txFail = some (.sent d.regs.txWaves e.payload true false none) := by
  simp [RefDev.airEvent, ho, hs, hw]

theorem airEvent_rx {payload : List Byte} (hl : d.listening = true) (ha : d.accepts 0 payload.length = true) (w : Bool) :
    d.airEvent (.rx 0 payload w) = some (.came d.regs.rxWaves 0 payload w (acknowledges d w)
      (if acknowledges d w then d.ackPayload 0 else none)) := by
  simp [RefDev.airEvent, hl, ha, acknowledges]

end

/-- The records agree entry by entry, and none is longer (R262, log 39). -/
theorem coupled_iff (p : Pair) : p.coupled = true ↔ List.Forall₂ (fun e f => mirrors e f = true) p.a.air p.b.air := by
  simp [Pair.coupled, Pair.level, List.forall₂_iff_zip]

theorem mirrors_comm (e f : AirEvent) : mirrors e f = mirrors f e := Bool.or_comm _ _

theorem coupled_swap {a b : State} (h : Pair.coupled { a := a, b := b } = true) :
    Pair.coupled { a := b, b := a } = true := by
  rw [coupled_iff] at *
  exact (h.imp fun e f hef => (mirrors_comm f e).trans hef).flip

/-- A packet that is one event of both nodes keeps the records coupled. -/
theorem coupled_applyWorld {p : Pair} {v w : WorldAct} {e f : AirEvent} (ma : p.a.params.deviceModel = .reference)
    (mb : p.b.params.deviceModel = .reference) (hc : p.coupled = true) (he : p.a.ref.airEvent v = some e)
    (hf : p.b.ref.airEvent w = some f) (hm : answers e f = true) :
    Pair.coupled { a := applyWorld p.a v, b := applyWorld p.b w } = true := by
  rw [coupled_iff] at *
  rw [applyWorld_air ma, applyWorld_air mb, he, hf]
  exact List.rel_append hc (.cons (Bool.or_eq_true_iff.mpr (.inl hm)) .nil)

/-- A packet that is heard is received under the settings it was sent with, with the ACK it asks for and its payload. -/
theorem answers_heard {w w' : Waves} {payload : List Byte} {asked acked : Bool} {back : Option (List Byte)} (hw : w = w')
    (hk : asked = true → acked = true) :
    answers (.sent w payload asked true (if asked then if asked then back else none else none))
      (.came w' 0 payload asked acked (if acked then back else none)) = true := by
  cases asked <;> simp_all [answers]

/-- A packet that is not heard could not be, and is `tx_fail` exactly if it asked for an ACK. -/
theorem answers_missed {a b : RefDev} {payload : List Byte} (h : hears a b payload.length = false) (asked : Bool)
    (back : Option (List Byte)) : answers (.sent a.regs.txWaves payload asked (!asked) back)
      (.missed b.regs.rxWaves payload asked (b.listening && b.accepts 0 payload.length)) = true := by
  have hn : (b.listening && b.accepts 0 payload.length && decide (a.regs.txWaves = b.regs.rxWaves)) = false := h
  simp [answers, hn]

/-- What `deliver` gives is one event of both nodes (R262). -/
theorem deliver_coupled (n : Nat) {p : Pair} (ma : p.a.params.deviceModel = .reference)
    (mb : p.b.params.deviceModel = .reference) (hc : p.coupled = true) : (deliver n p).coupled = true := by
  cases ho : p.a.ref.onAir with
  | none => rwa [deliver_nothing (.inl ho)]
  | some e =>
    cases hs : p.a.ref.sending with
    | false => rwa [deliver_nothing (.inr hs)]
    | true =>
      cases hh : hears p.a.ref p.b.ref e.payload.length with
      | true =>
        obtain ⟨hl, hacc, hwaves⟩ := (hears_iff _ _ _).mp hh
        by_cases hk : p.a.ref.wantsAck e = true → acknowledges p.b.ref true = true
        · rw [deliver_heard ho hs hh hk]
          exact coupled_applyWorld ma mb hc (airEvent_txOk ho hs n _) (airEvent_rx hl hacc _)
            (answers_heard hwaves fun hw => (congrArg _ hw).trans (hk hw))
        · obtain ⟨hw, hk⟩ := Classical.not_imp.mp hk
          rw [deliver_unacknowledged ho hs hh hw (Bool.eq_false_iff.mpr hk)]
          exact coupled_applyWorld ma mb hc (airEvent_txFail ho hs hw) (airEvent_rx hl hacc true)
            (by simp [answers, hwaves, hk])
      | false =>
        cases hw : p.a.ref.wantsAck e with
        | true =>
          rw [deliver_lost ho hs hh hw]
          exact coupled_applyWorld ma mb hc (airEvent_txFail ho hs hw) rfl (answers_missed hh true none)
        | false =>
          rw [deliver_unheard ho hs hh hw]
          exact coupled_applyWorld ma mb hc (airEvent_txOk ho hs 0 none) rfl (by rw [hw]; exact answers_missed hh false _)

/-- The pair goes on only coupled (R262, log 39). -/
theorem pairStep_cases {m n : Nat} {p q : Pair} (h : Pair.step m n p = some q) :
    core.run m p.a = .next q.a ∧ core.run n p.b = .next q.b ∧ q.coupled = true := by
  unfold Pair.step at h
  split at h
  · next a b ha hb =>
    split at h
    · next hc =>
      cases h
      exact ⟨ha, hb, hc⟩
    · cases h
  · cases h

/-- An acknowledged `tx_ok` is a packet that the other node received on pipe 0, with the same payload and ACK payload. -/
theorem came_of_mirrors {w : Waves} {b : List Byte} {ack : Option (List Byte)} {f : AirEvent}
    (h : mirrors (.sent w b true true ack) f = true) : f = .came w 0 b true true ack := by
  cases f <;> simp_all [mirrors, answers]

/-- Settles O59: what `deliver` gives is one event of both, and so is every entry of coupled records. -/
theorem loopbackCoupled : Obligations.LoopbackCoupled := by
  refine ⟨fun p n ma mb hc => ⟨deliver_coupled n ma mb hc, coupled_swap (deliver_coupled n mb ma (coupled_swap hc))⟩,
    fun m n p q h => ?_⟩
  obtain ⟨ha, hb, hc⟩ := pairStep_cases h
  obtain ⟨hl, hget⟩ := List.forall₂_iff_get.mp ((coupled_iff q).mp hc)
  have hmirror (k : Nat) (e : AirEvent) (he : q.a.air[k]? = some e) : ∃ f, q.b.air[k]? = some f ∧ mirrors e f = true := by
    obtain ⟨hk, rfl⟩ := List.getElem?_eq_some_iff.mp he
    exact ⟨_, List.getElem?_eq_getElem (hl ▸ hk), hget k hk (hl ▸ hk)⟩
  refine ⟨ha, hb, hl, hmirror, fun k w b ack hk => ?_⟩
  obtain ⟨f, hf, hm⟩ := hmirror k _ hk
  rw [hf, came_of_mirrors hm]

end Sys2Proof.Proofs
end

section
/-!
A `readMessage` that stopped inside its operation (R286, R292): the environment's groups of choices are used up one at each
step, a latched edge is taken after the last, and then the fault is the outcome (log 15).
-/

namespace Sys2Proof.Proofs

open Sys2Proof.Machine Sys2Proof.Laws

/-! ### The groups of choices still to come -/

@[simp] theorem onRef_env (f : RefDev → RefDev) (s : State) : (onRef f s).env = s.env := by
  unfold onRef; split <;> rfl

@[simp] theorem refresh_env (s : State) : (refresh s).env = s.env := onRef_env _ s

@[simp] theorem noteAir_env (a : WorldAct) (s : State) : (noteAir a s).env = s.env := by
  unfold noteAir; split <;> rfl

@[simp] theorem worldEffect_env (s : State) (a : WorldAct) : (worldEffect s a).env = s.env := by
  cases a with
  | irqLevel level => simp only [worldEffect]; split <;> rfl
  | _ => simp [worldEffect]

@[simp] theorem applyWorld_env (s : State) (a : WorldAct) : (applyWorld s a).env = s.env := by simp [applyWorld]

theorem foldl_env {α : Type} {f : State → α → State} (h : ∀ s a, (f s a).env = s.env) (g : List α) (s : State) :
    (g.foldl f s).env = s.env :=
  List.foldlRecOn g f (motive := fun u => u.env = s.env) rfl fun u hu a _ => (h u a).trans hu

@[simp] theorem notify_env (during : List WorldAct) (s : State) : (notify during s).env = s.env := by
  unfold notify; split
  · exact foldl_env applyWorld_env during (notifierEnter s)
  · exact foldl_env applyWorld_env during s

@[simp] theorem applyAct_env (s : State) (a : EnvAct) : (applyAct s a).env = s.env := by
  cases a with
  | world a => exact applyWorld_env s a
  | notify during => exact notify_env during s

/-- A point of the environment uses one group of choices up (R283, log 3). -/
theorem envSlot_env (s : State) : (envSlot s).env = s.env.tail := by
  cases he : s.env with
  | nil => simp [envSlot_of_nil he, letGo, he]
  | cons g rest => rw [envSlot_of_cons he]; exact foldl_env applyAct_env g _

theorem envMoves_iff (s : State) :
    envMoves s = true ↔ s.env ≠ [] ∨ (s.intr.edgeLatch = true ∧ s.intr.gie = true) := by simp [envMoves]

/-! ### The stopped sequencer -/

/-- `readMessage` has stopped at the width `w`, which is over 32 (R286). -/
structure Stopped (w : Nat) (s : State) : Prop where
  op : s.op = some .readMessage
  width : s.regs.len.toNat = w
  tooWide : 32 < w

section
variable {s : State} {w : Nat} (h : Stopped w s)
include h

theorem Stopped.step_moving (hm : s.env ≠ [] ∨ (s.intr.edgeLatch = true ∧ s.intr.gie = true)) :
    step s = .next (envSlot s) := by
  rw [step_of_stopped s h.op (h.width ▸ h.tooWide), if_pos ((envMoves_iff s).mpr hm)]

theorem Stopped.step_done (he : s.env = []) (hl : s.intr.edgeLatch = false ∨ s.intr.gie = false) :
    step s = .fault (.rxWidthOverflow w) := by
  have hm : ¬ envMoves s = true := fun hm => by
    obtain hne | ⟨hlatch, hgie⟩ := (envMoves_iff s).mp hm
    · exact hne he
    · simp [hlatch, hgie] at hl
  rw [step_of_stopped s h.op (h.width ▸ h.tooWide), if_neg hm, h.width]

/-- The sequencer stays stopped (R286). -/
theorem Stopped.at_envSlot : Stopped w (envSlot s) :=
  ⟨(envSlot_silent s).op.trans h.op, by rw [(envSlot_silent s).regs, h.width], h.tooWide⟩

end

theorem run_fault {s : State} {f : Fault} (hf : step s = .fault f) (k : Nat) : core.run (k + 1) s = .fault f := by
  have hf : core.step s = .fault f := hf
  simp only [Host.Core.run, hf]

/-- One step for each group of choices left, one for a latched edge, and one for the fault (log 15). -/
theorem Stopped.run {s : State} {w : Nat} (h : Stopped w s) :
    core.run (s.env.length + 2) s = .fault (.rxWidthOverflow w) := by
  induction he : s.env generalizing s with
  | nil =>
    by_cases hm : s.intr.edgeLatch = true ∧ s.intr.gie = true
    · have ht : (envSlot s).env = [] := by rw [envSlot_env, he]; rfl
      rw [run_succ (h.step_moving (.inr hm))]
      exact run_fault (h.at_envSlot.step_done ht (.inl (envSlot_takes he hm.2).1)) 0
    · exact run_fault (h.step_done he (by simpa [imp_iff_not_or] using hm)) 1
  | cons g rest ih =>
    rw [run_succ (h.step_moving (.inl (by simp [he])))]
    exact ih h.at_envSlot (by rw [envSlot_env, he]; rfl)

/-- Settles O33: a step of the stopped sequencer is the environment's point or the fault, and the run is by induction on the
groups of choices left. -/
theorem faultStops : Obligations.FaultStops := by
  intro s hop hw
  have h : Stopped s.regs.len.toNat s := ⟨hop, rfl, hw⟩
  have hb := envSlot_bus s
  have hs := envSlot_silent s
  exact ⟨⟨fun hm => ⟨envSlot s, h.step_moving hm, hb.drives, hb.quiet, kept_of_silent hs, hs.regs, hs.op, hs.result,
    envSlot_env s⟩, h.step_done⟩, h.run⟩

end Sys2Proof.Proofs
end

section
/-!
The reset values (R310, R311): the controller after its own reset, which keeps the device, and the block with its device
right after power-on, where the invariant begins.
-/

namespace Sys2Proof.Proofs

open Sys2Proof.Machine

/-! ### The controller after its reset -/

/-- A controller reset of the reset state changes nothing, so R310 is shown once, of `controllerReset`. -/
theorem controllerReset_reset : controllerReset State.reset = State.reset := rfl

/-! ### The device after its power-on reset -/

theorem reservedClear_reset : ReservedClear DevRegs.reset := by decide

/-- Both FIFOs are empty, and nothing is on air. -/
theorem fifosOk_reset : FifosOk RefDev.reset := by decide

/-- A powered-down device stays so until PWR_UP is written, whatever CE is (R250). -/
theorem modeRule_reset (ce : Bool) : RefDev.reset.modeRule ce = none := rfl

/-- No interrupt flag is set, so the device releases the pin (R260). -/
theorem irqOut_reset : RefDev.reset.irqOut = true := rfl

/-- Settles O50: R310 is read off `controllerReset`, and R311 off the device's reset value, register by register. -/
theorem resetValues : Obligations.ResetValues := by
  refine ⟨fun s t h => ?_, fun p hp => ?_, rfl, rfl, rfl, rfl, rfl, rfl, rfl, fun s => ⟨rfl, rfl⟩⟩
  · have ht : t = controllerReset s := by
      obtain ⟨rfl, rfl⟩ | h := h
      · exact controllerReset_reset.symm
      · exact h
    subst ht
    simp [controllerReset, State.reset]
  · fin_cases hp <;> rfl

/-! ### The invariant at reset -/

/-- The pin is released as every device model has it: the oracle's and the store's by their level, the Reference by its flags. -/
theorem irqLevel_powerOn (c : Cfg) (p : Params) : irqLevel { State.reset with cfg := c, params := p } = true := by
  rw [irqLevel]
  split
  · rfl
  · rfl
  · exact irqOut_reset

/-- Whatever the configuration and the device model: `init` has not run, and no operation is in progress. -/
theorem inv_powerOn (c : Cfg) (p : Params) : Inv { State.reset with cfg := c, params := p } where
  bus := ⟨rfl, rfl, by simp [State.reset], by simp [State.reset]⟩
  interrupt := ⟨rfl, nofun, rfl, irqLevel_powerOn c p⟩
  initialised := nofun
  op := opOk_of_none rfl
  store := ⟨rfl, nofun⟩
  reserved := reservedClear_reset
  fifos := fifosOk_reset
  clock := le_refl _
  settled _ := modeRule_reset _
  muted := nofun

/-- Settles O51: the invariant at power-on, with the default configuration and parameters of `State.reset`. -/
theorem invAtReset : Obligations.InvAtReset := inv_powerOn {} {}

end Sys2Proof.Proofs
end
